-- ==== Sys2Proof/Word.lean ====
section
/-! DEFINITION. The machine's words and its 64-element blocks (spec/00_scope.md R8, R9). -/

namespace Sys2Proof

/-- A 32-bit word: the command word, the host bus data, a coefficient (R8). -/
abbrev Word := BitVec 32

/-- One byte of the bitstream memory or one pixel channel. -/
abbrev Byte := BitVec 8

/-- The bit pattern of a binary64 value (R8, R10). -/
abbrev Double := BitVec 64

/-- The 64 elements of a working buffer or a constant table, in natural order 8r + c. -/
abbrev Block (α : Type) := Vector α 64

/-- The block whose element n is `f n`. -/
def blockOf {α : Type} (f : Nat → α) : Block α :=
  ⟨((List.range 64).map f).toArray, by simp⟩

/-- Element n of a block (n < 64; the default element of the type beyond it). -/
def nth {α : Type} [Inhabited α] (b : Block α) (n : Nat) : α :=
  b.toList.getD n default

/-- The block with element n replaced. -/
def put {α : Type} (b : Block α) (n : Nat) (v : α) : Block α :=
  b.setIfInBounds n v

end Sys2Proof
end

