-- ==== Sys2Proof/Syntax.lean ====
section
/-! DEFINITION. The commands: one constructor per row of spec/opcode_table.json (30_encoding.md R156). -/

namespace Sys2Proof

/-- A channel: CH = 0 is Y, 1 is Cb, 2 is Cr; CH = 3 names no channel (00_scope.md R13). -/
inductive Channel where
  | y | cb | cr
deriving DecidableEq, Repr, Inhabited

/-- A command with the fields it uses: `ch` is CH (R151), `b` is the block index BLK (R152). -/
inductive Instr where
  | nop
  | cscFwd
  | cscInv
  | subsample
  | fdct
  | idct
  | quant (ch : Channel)
  | dequant (ch : Channel)
  | zigzag
  | unzigzag
  | dcenc (ch : Channel)
  | dcdec (ch : Channel)
  | rleenc
  | rledec
  | category
  | hufenc
  | hufdec
  | hufputdc
  | hufputac
  | hufgetdc
  | hufgetac
  | putbits
  | getbits
  | flush
  | bswrst
  | bsrrst
  | smwrite
  | smread
  | loadblk (ch : Channel) (b : Nat)
  | storeblk (ch : Channel) (b : Nat)
  | loadvec (ch : Channel) (b : Nat)
  | storevec (ch : Channel) (b : Nat)
deriving DecidableEq, Repr, Inhabited

end Sys2Proof
end

