-- ==== Sys2Proof/Config.lean ====
section
/-! DEFINITION. What an implementation fixes (the parameters of spec/00_scope.md R7) and the values the spec leaves
open. The reference values of the parameters are in Machine/Tables.lean. -/

namespace Sys2Proof

/-- One entry of a Huffman table: the key, the code's length, and the code right-aligned (47_huffman_bitstream.md
R360, R361). The key of the DC table is the category; the key of the AC table is the key word (cat << 4) | skip, the
layout of word A of an RLEBUF slot (30_encoding.md R154). -/
structure HuffEntry where
  key  : Nat
  len  : Nat
  code : Nat
deriving DecidableEq, Repr, Inhabited

/-- The parameters of 00_scope.md R7, the read-only state of 10_state.md R58. -/
structure Config where
  /-- largest IMG_W and largest IMG_H -/
  maxDim    : Nat
  /-- largest IMG_W · IMG_H -/
  maxPixels : Nat
  /-- bytes of bitstream memory -/
  bsCap     : Nat
  /-- DC_MAXLEN -/
  dcMaxLen  : Nat
  /-- AC_MAXLEN -/
  acMaxLen  : Nat
  /-- ZIGZAG[k], the natural index of vector position k (R280) -/
  zigzag    : Block (Fin 64)
  /-- QTAB_Y (R260) -/
  qtabY     : Block Nat
  /-- QTAB_C (R260) -/
  qtabC     : Block Nat
  /-- DCT_C[u][x] at 8u + x, as binary64 bit patterns (R240) -/
  dctC      : Block Double
  /-- HUFF_DC (R360) -/
  hufDc     : List HuffEntry
  /-- HUFF_AC (R361) -/
  hufAc     : List HuffEntry
deriving DecidableEq, Repr, Inhabited

/-- MAX_BLOCKS, derived: MAX_PIXELS/64 (R7). -/
def Config.maxBlocks (c : Config) : Nat := c.maxPixels / 64

/-- FREE VALUE (93_implementation_defined.md U4; log 5): the sign of the NaN stored as element `i` by the command that
runs at counter `t`. -/
opaque Config.nanSign : (t i : Nat) → Bool

/-- FREE VALUE (U4; log 5): the fraction field of that NaN; 0, which would be an infinity, is read as 1. -/
opaque Config.nanFrac : (t i : Nat) → BitVec 52

/-- FREE VALUE (U2; log 6): the data of a host read made while BUSY = 1, at counter `t`. -/
opaque Config.busyData : (t : Nat) → Word

end Sys2Proof
end

