-- ==== Sys2Proof/Machine/Float.lean ====
section
/-! DEFINITION. IEEE 754 binary64 arithmetic, round to nearest, ties to even, each operation rounded separately
(spec/00_scope.md R10), on exact integers. What R10 takes from IEEE 754 by name is in log 15. -/

namespace Sys2Proof.Machine

/-- A binary64 value: every NaN is one value; `fin neg m e` is (−1)^neg · m · 2^e, with m < 2^53 and
−1074 ≤ e ≤ 971, and e = −1074 where m < 2^52. -/
inductive F64 where
  | nan
  | inf (neg : Bool)
  | fin (neg : Bool) (m : Nat) (e : Int)
deriving DecidableEq, Repr, Inhabited

/-- The forms a binary64 value can have: each real value but zero in exactly one. -/
def F64.Canon : F64 → Prop
  | .nan => True
  | .inf _ => True
  | .fin _ m e => m < 2 ^ 53 ∧ -1074 ≤ e ∧ e ≤ 971 ∧ (m < 2 ^ 52 → e = -1074)

/-- The value of a bit pattern. -/
def F64.ofBits (d : Double) : F64 :=
  let neg := d.toNat / 2 ^ 63 == 1
  let ex : Nat := d.toNat / 2 ^ 52 % 2048
  let fr : Nat := d.toNat % 2 ^ 52
  if ex = 2047 then (if fr = 0 then .inf neg else .nan)
  else if ex = 0 then .fin neg fr (-1074)
  else .fin neg (fr + 2 ^ 52) ((ex : Int) - 1075)

/-- The value is neither a NaN nor an infinity. -/
def F64.isFinite : F64 → Bool
  | .nan => false
  | .inf _ => false
  | .fin _ _ _ => true

/-- A finite value as a whole number of units of 2^-1074; 0 for the others. -/
def F64.units : F64 → Int
  | .nan => 0
  | .inf _ => 0
  | .fin s m e => (if s then -1 else 1) * ((m * 2 ^ (e + 1074).toNat : Nat) : Int)

/-- The sign bit of a pattern. -/
def signBits (neg : Bool) : Nat := if neg then 2 ^ 63 else 0

/-- The bit pattern of a value; a NaN takes the pattern `nanBits`, which the caller leaves free (U4). -/
def F64.toBits (nanBits : Double) : F64 → Double
  | .nan => nanBits
  | .inf neg => BitVec.ofNat 64 (signBits neg + 2047 * 2 ^ 52)
  | .fin neg m e =>
    if m < 2 ^ 52 then BitVec.ofNat 64 (signBits neg + m)
    else BitVec.ofNat 64 (signBits neg + (e + 1075).toNat * 2 ^ 52 + (m - 2 ^ 52))

/-- The NaN pattern stored as element i by the command that runs at counter t: any sign, any nonzero fraction
(93_implementation_defined.md U4; log 5). -/
def freeNan (t i : Nat) : Double :=
  let fr := (Config.nanFrac t i).toNat
  BitVec.ofNat 64 (signBits (Config.nanSign t i) + 2047 * 2 ^ 52 + (if fr = 0 then 1 else fr))

/-- A rounded significand m ≤ 2^53 at exponent e, with overflow to infinity. -/
def F64.norm (neg : Bool) (m : Nat) (e : Int) : F64 :=
  if m = 2 ^ 53 then (if e + 1 > 971 then .inf neg else .fin neg (2 ^ 52) (e + 1))
  else if e > 971 then .inf neg else .fin neg m e

/-- n / 2^d to the nearest integer, ties to even. -/
def roundEven (n d : Nat) : Nat :=
  let q := n / 2 ^ d
  let r := 2 * (n % 2 ^ d)
  if r > 2 ^ d then q + 1 else if r = 2 ^ d then q + q % 2 else q

/-- The binary64 nearest to (−1)^neg · n · 2^e, ties to even (R10). -/
def F64.round (neg : Bool) (n : Nat) (e : Int) : F64 :=
  if n = 0 then .fin neg 0 (-1074)
  else
    let q := max (e + Nat.log2 n - 52) (-1074)
    if q ≤ e then F64.norm neg (n * 2 ^ (e - q).toNat) q
    else F64.norm neg (roundEven n (q - e).toNat) q

/-- The signed integer (−1)^neg · m. -/
def signed (neg : Bool) (m : Nat) : Int := if neg then -(m : Int) else m

/-- `a +. b` (R10). -/
def F64.add : F64 → F64 → F64
  | .nan, _ => .nan
  | _, .nan => .nan
  | .inf s, .inf t => if s = t then .inf s else .nan
  | .inf s, .fin _ _ _ => .inf s
  | .fin _ _ _, .inf t => .inf t
  | .fin s m e, .fin t n f =>
    let g := min e f
    let z := signed s (m * 2 ^ (e - g).toNat) + signed t (n * 2 ^ (f - g).toNat)
    if z = 0 then .fin (s && t) 0 (-1074) else F64.round (z < 0) z.natAbs g

/-- The value with its sign reversed. -/
def F64.neg : F64 → F64
  | .nan => .nan
  | .inf s => .inf (!s)
  | .fin s m e => .fin (!s) m e

/-- `a -. b` (R10). -/
def F64.sub (a b : F64) : F64 := F64.add a (F64.neg b)

/-- `a *. b` (R10). -/
def F64.mul : F64 → F64 → F64
  | .nan, _ => .nan
  | _, .nan => .nan
  | .inf s, .inf t => .inf (xor s t)
  | .inf s, .fin t n _ => if n = 0 then .nan else .inf (xor s t)
  | .fin s m _, .inf t => if m = 0 then .nan else .inf (xor s t)
  | .fin s m e, .fin t n f => F64.round (xor s t) (m * n) (e + f)

/-- `a /. b` (R10). The quotient is taken to 110 more bits than the dividend, with a last bit that says whether a
remainder is left, so that rounding it is rounding the exact quotient. -/
def F64.div : F64 → F64 → F64
  | .nan, _ => .nan
  | _, .nan => .nan
  | .inf _, .inf _ => .nan
  | .inf s, .fin t _ _ => .inf (xor s t)
  | .fin s _ _, .inf t => .fin (xor s t) 0 (-1074)
  | .fin s m e, .fin t n f =>
    if n = 0 then (if m = 0 then .nan else .inf (xor s t))
    else
      let q := m * 2 ^ 110 / n
      let r := if m * 2 ^ 110 % n = 0 then 0 else 1
      F64.round (xor s t) (2 * q + r) (e - f - 111)

/-- `f64(z)`: exact for |z| < 2^53 (R10). -/
def F64.ofInt (z : Int) : F64 := F64.round (z < 0) z.natAbs 0

/-- `lit(num/den)`: the binary64 nearest a decimal literal written as a fraction of integers below 2^53 (R10). -/
def F64.lit (num den : Nat) : F64 := F64.div (F64.ofInt num) (F64.ofInt den)

/-- `a < b`; false when either is a NaN. -/
def F64.lt : F64 → F64 → Bool
  | .nan, _ => false
  | _, .nan => false
  | .inf s, .inf t => s && !t
  | .inf s, .fin _ _ _ => s
  | .fin _ _ _, .inf t => !t
  | .fin s m e, .fin t n f =>
    let g := min e f
    signed s (m * 2 ^ (e - g).toNat) < signed t (n * 2 ^ (f - g).toNat)

/-- `clamp(x, lo, hi)` (R10). -/
def F64.clamp (x lo hi : F64) : F64 :=
  if F64.lt x lo then lo else if F64.lt hi x then hi else x

/-- `isNaN(x)` (R10). -/
def F64.isNan : F64 → Bool
  | .nan => true
  | .inf _ => false
  | .fin _ _ _ => false

/-- `roundHA(x)`: the integer nearest a finite x, ties away from zero; none when x is not finite (R10). -/
def F64.roundHA : F64 → Option Int
  | .nan => none
  | .inf _ => none
  | .fin s m e =>
    if m = 0 then some 0
    else if 0 ≤ e then some (signed s (m * 2 ^ e.toNat))
    else some (signed s ((2 * m + 2 ^ (-e).toNat) / 2 ^ ((-e).toNat + 1)))

end Sys2Proof.Machine
end

