-- ==== Sys2Proof/Machine/Matrix8.lean ====
section
/-! DEFINITION. The 8×8 products of binary64 values and the two block transforms (spec/42_dct.md R242 to R244). -/

namespace Sys2Proof.Machine

/-- An 8×8 matrix of binary64 values, element (r, c) at 8r + c. -/
abbrev Matrix8 := Block F64

/-- Element (i, j). -/
def mat (a : Matrix8) (i j : Nat) : F64 := nth a (8 * i + j)

/-- `A·B` (R242): each sum is taken from +0.0 with k ascending, every product and every sum rounded. -/
def matMul (a b : Matrix8) : Matrix8 :=
  blockOf fun n =>
    (List.range 8).foldl (fun acc k => F64.add acc (F64.mul (mat a (n / 8) k) (mat b k (n % 8)))) (.fin false 0 (-1074))

/-- `Aᵀ` (R242): no element is rounded. -/
def transpose (a : Matrix8) : Matrix8 := blockOf fun n => mat a (n % 8) (n / 8)

/-- The values of a block of bit patterns. -/
def valuesOf (b : Block Double) : Matrix8 := blockOf fun n => F64.ofBits (nth b n)

/-- The bit patterns of a block of values; NaNs take free patterns (93_implementation_defined.md U4, log 5). -/
def patternsOf (t : Nat) (a : Matrix8) : Block Double := blockOf fun n => F64.toBits (freeNan t n) (nth a n)

/-- FBLK after FDCT (R243): level shift by −128, then (C·S)·Cᵀ. -/
def fdctOf (c x : Matrix8) : Matrix8 :=
  let shifted := blockOf fun n => F64.sub (nth x n) (F64.ofInt 128)
  matMul (matMul c shifted) (transpose c)

/-- FBLK after IDCT (R244): (Cᵀ·D)·C, then level shift by +128. -/
def idctOf (c x : Matrix8) : Matrix8 :=
  let b := matMul (matMul (transpose c) x) c
  blockOf fun n => F64.add (nth b n) (F64.ofInt 128)

end Sys2Proof.Machine
end

