-- ==== Sys2Proof/Machine/Basis.lean ====
section
/-! DEFINITION. Whether a basis matrix has the round trip of spec/42_dct.md R241: the check of every block, and a short
check that is enough. -/

namespace Sys2Proof

open Machine

/-! ### The check of every block -/

/-- A finite value from lo to hi. -/
def Machine.F64.between (lo hi : Int) (a : F64) : Bool :=
  a.isFinite && lo * 2 ^ 1074 ≤ a.units && a.units ≤ hi * 2 ^ 1074

/-- Two finite values at most 1e-9 apart. -/
def Machine.F64.near (a b : F64) : Bool :=
  a.isFinite && b.isFinite && 10 ^ 9 * ((a.units - b.units).natAbs : Int) ≤ 2 ^ 1074

/-- FDCT followed by IDCT gives every element of x back within 1e-9 (R241). -/
def Config.restores (c : Config) (x : Matrix8) : Bool :=
  let y := idctOf (valuesOf c.dctC) (fdctOf (valuesOf c.dctC) x)
  (List.range 64).all fun n => (nth y n).near (nth x n)

/-- The elements are in the range the pipeline produces, −300..500 (R241; log 9). -/
def inPipelineRange (x : Matrix8) : Bool := (List.range 64).all fun n => (nth x n).between (-300) 500

/-- p holds of every number below n. -/
def allBelow (p : Nat → Bool) : Nat → Bool
  | 0 => true
  | n + 1 => allBelow p n && p n

/-- p holds of every list of n bit patterns put before `l`. -/
def allPatterns (p : List Double → Bool) : (n : Nat) → (l : List Double) → Bool
  | 0, l => p l
  | n + 1, l => allBelow (fun k => allPatterns p n (BitVec.ofNat 64 k :: l)) (2 ^ 64)

/-- The values of the first 64 bit patterns of a list. -/
def blockValues (l : List Double) : Matrix8 := valuesOf (blockOf fun n => l.getD n 0)

/-- The constraint of R241: every block in the range the pipeline produces is restored. There are 2^4096 blocks, so this
is total and exact, but no run of it ends in practice. -/
@[irreducible] def Config.restoresEveryBlock (c : Config) : Bool :=
  allPatterns (fun l => !inPipelineRange (blockValues l) || c.restores (blockValues l)) 64 []

/-! ### A short check that is enough -/

/-- The sum of the first eight values of a function. -/
def sumTo8 (f : Nat → Int) : Int := ((List.range 8).map f).sum

/-- DCT_C[u][x] as a whole number of units of 2^-1074, the least positive binary64 value (42_dct.md R240). -/
def Config.dctUnits (c : Config) (u x : Nat) : Int := (F64.ofBits (nth c.dctC (8 * u + x))).units

/-- The elements of Cᵀ·C less those of the identity, in units of 2^-2148. -/
def Config.dctGap (c : Config) (i j : Nat) : Int :=
  sumTo8 (fun u => c.dctUnits u i * c.dctUnits u j) - if i = j then 2 ^ 2148 else 0

/-- DCT_C is finite and orthogonal to within 1e-12: the elements of Cᵀ·C − I in a row sum to at most 1e-12 in magnitude,
and those of C in a row or a column to at most 2.83 (of an orthogonal matrix, at most √8). `dctFits_restores`
(Laws/Basis.lean) says that this is enough for `Config.restoresEveryBlock`; it is not needed for it (log 9). -/
def Config.dctFits (c : Config) : Bool :=
  (List.range 64).all (fun n => (F64.ofBits (nth c.dctC n)).isFinite)
    && (List.range 8).all (fun u => 100 * sumTo8 (fun x => ((c.dctUnits u x).natAbs : Int)) ≤ 283 * 2 ^ 1074)
    && (List.range 8).all (fun x => 100 * sumTo8 (fun u => ((c.dctUnits u x).natAbs : Int)) ≤ 283 * 2 ^ 1074)
    && (List.range 8).all (fun i => 10 ^ 12 * sumTo8 (fun j => ((c.dctGap i j).natAbs : Int)) ≤ 2 ^ 2148)

/-- DCT_C has the round trip of R241: the short check is made first, and every block is tried where it fails.
`dctRestores_eq` (Laws/Basis.lean) says that this is `Config.restoresEveryBlock`. -/
def Config.dctRestores (c : Config) : Bool := c.dctFits || c.restoresEveryBlock

end Sys2Proof
end

