-- ==== Sys2Proof/WellFormed.lean ====
section
/-! DEFINITION. When a command is one the format can hold, and when a parameter set meets its constraints. -/

namespace Sys2Proof

/-- The BLK field has 16 bits (30_encoding.md R150, R152); a channel is one of three by its type (R151). -/
def Instr.wf : Instr → Bool
  | .loadblk _ b | .storeblk _ b | .loadvec _ b | .storevec _ b => b < 65536
  | .nop | .cscFwd | .cscInv | .subsample | .fdct | .idct | .quant _ | .dequant _ | .zigzag | .unzigzag
  | .dcenc _ | .dcdec _ | .rleenc | .rledec | .category | .hufenc | .hufdec | .hufputdc | .hufputac | .hufgetdc
  | .hufgetac | .putbits | .getbits | .flush | .bswrst | .bsrrst | .smwrite | .smread => true

/-- `a` is a prefix of `b`, as bit-strings: the first `a.len` bits of `b`'s code are `a`'s code. -/
def HuffEntry.isPrefixOf (a b : HuffEntry) : Bool :=
  a.len ≤ b.len && b.code >>> (b.len - a.len) == a.code

/-- No code of the table is a prefix of another entry's code (47_huffman_bitstream.md R362). -/
def prefixFree : List HuffEntry → Bool
  | [] => true
  | e :: rest => rest.all (fun f => !e.isPrefixOf f && !f.isPrefixOf e) && prefixFree rest

/-- Every code is 1 to 16 bits, fits its length, and is no longer than the table's maximum prefix length, itself at
most 16 (R362, 00_scope.md R7). -/
def codesFit (t : List HuffEntry) (maxLen : Nat) : Bool :=
  maxLen ≤ 16 && t.all (fun e => 1 ≤ e.len && e.len ≤ maxLen && e.code < 2 ^ e.len)

/-- The table has each of the given keys exactly once and no other (R362). -/
def keysAre (t : List HuffEntry) (keys : List Nat) : Bool :=
  t.length == keys.length && keys.all (fun k => t.any (fun e => e.key == k))

/-- The 11 DC keys: the categories 0..10 (00_scope.md R6). -/
def dcKeys : List Nat := List.range 11

/-- The 162 AC keys: EOB (0, 0), ZRL (15, 0), and every skip 0..15 with every category 1..10 (R6, R361). -/
def acKeys : List Nat :=
  0 :: 15 :: (List.range 160).map (fun n => 16 * (n / 16 + 1) + n % 16)

/-- MAX_DIM is a multiple of 8 from 8 to 2048; MAX_PIXELS ≤ 4,194,304; 1 ≤ BS_CAP ≤ 2^28 (R7). -/
def Config.sizesFit (c : Config) : Bool :=
  c.maxDim % 8 == 0 && 8 ≤ c.maxDim && c.maxDim ≤ 2048 && c.maxPixels ≤ 4194304 && 1 ≤ c.bsCap && c.bsCap ≤ 2 ^ 28

/-- ZIGZAG is a permutation of 0..63 with ZIGZAG[0] = 0 and ZIGZAG[63] = 63 (R7, 44_zigzag.md R281). -/
def Config.zigzagFits (c : Config) : Bool :=
  (List.range 64).all (fun n => (c.zigzag.toList.map Fin.val).contains n)
    && nth c.zigzag 0 == 0 && nth c.zigzag 63 == 63

/-- Every quantizer step is 1..255 (R7, 43_quantizer.md R260). -/
def Config.stepsFit (c : Config) : Bool :=
  c.qtabY.toList.all (fun q => 1 ≤ q && q ≤ 255) && c.qtabC.toList.all (fun q => 1 ≤ q && q ≤ 255)

/-- The Huffman tables meet R362. -/
def Config.tablesFit (c : Config) : Bool :=
  keysAre c.hufDc dcKeys && codesFit c.hufDc c.dcMaxLen && prefixFree c.hufDc
    && keysAre c.hufAc acKeys && codesFit c.hufAc c.acMaxLen && prefixFree c.hufAc

/-- The parameter set meets every constraint of 00_scope.md R7, 42_dct.md R241 and 47_huffman_bitstream.md R362. -/
def Config.wf (c : Config) : Bool :=
  (c.sizesFit && c.dctRestores) && c.zigzagFits && c.stepsFit && c.tablesFit

end Sys2Proof
end

