-- ==== Sys2Proof/Decode.lean ====
section
/-! DEFINITION. The decoder, total on every 32-bit word (30_encoding.md R158), and the encoder, both over the one
opcode map of R156. -/

namespace Sys2Proof

/-- Why a word is no command (30_encoding.md R157, 60_exceptions.md R461). -/
inductive Reject where
  /-- `w[15:10]` ≠ 0 (R153) -/
  | rsvNotZero
  /-- `w[7:0]` is no OPC of R156 -/
  | reservedOpcode
  /-- the command does not use CH and `w[9:8]` ≠ 0 (R151) -/
  | chNotZero
  /-- the command uses CH and `w[9:8]` = 3 (R151) -/
  | chNamesNone
  /-- the command does not use BLK and `w[31:16]` ≠ 0 (R152) -/
  | blkNotZero
deriving DecidableEq, Repr, Inhabited

/-- Which fields a command uses, with the command they make (the column "used" of R156). -/
inductive Shape where
  | plain (i : Instr)
  | withCh (f : Channel → Instr)
  | withChBlk (f : Channel → Nat → Instr)

/-- The opcode map of 30_encoding.md R156, in its order. -/
def opcodeMap : List (Nat × Shape) :=
  [(0x00, .plain .nop), (0x10, .plain .cscFwd), (0x11, .plain .cscInv), (0x18, .plain .subsample),
   (0x20, .plain .fdct), (0x21, .plain .idct), (0x28, .withCh .quant), (0x29, .withCh .dequant),
   (0x30, .plain .zigzag), (0x31, .plain .unzigzag), (0x38, .withCh .dcenc), (0x39, .withCh .dcdec),
   (0x40, .plain .rleenc), (0x41, .plain .rledec), (0x42, .plain .category)]
  ++
  [(0x48, .plain .hufenc), (0x49, .plain .hufdec), (0x4A, .plain .hufputdc), (0x4B, .plain .hufputac),
   (0x4C, .plain .hufgetdc), (0x4D, .plain .hufgetac), (0x4E, .plain .putbits), (0x4F, .plain .getbits),
   (0x50, .plain .flush), (0x51, .plain .bswrst), (0x52, .plain .bsrrst), (0x58, .plain .smwrite),
   (0x59, .plain .smread), (0x60, .withChBlk .loadblk), (0x61, .withChBlk .storeblk), (0x62, .withChBlk .loadvec),
   (0x63, .withChBlk .storevec)]

/-- The field OPC, `w[7:0]` (R150). -/
def opcOf (w : Word) : Nat := w.toNat % 256

/-- The field CH, `w[9:8]` (R150). -/
def chOf (w : Word) : Nat := w.toNat / 256 % 4

/-- The field RSV, `w[15:10]` (R150). -/
def rsvOf (w : Word) : Nat := w.toNat / 1024 % 64

/-- The field BLK, `w[31:16]` (R150). -/
def blkOf (w : Word) : Nat := w.toNat / 65536

/-- The channel a CH field names; 3 names none (00_scope.md R13). -/
def channelOf (n : Nat) : Except Reject Channel :=
  if n = 0 then .ok .y else if n = 1 then .ok .cb else if n = 2 then .ok .cr else .error .chNamesNone

/-- The command of a word whose opcode has the given shape; fields it does not use must be 0. -/
def ofShape (w : Word) : Shape → Except Reject Instr
  | .plain i =>
    if chOf w ≠ 0 then .error .chNotZero else if blkOf w ≠ 0 then .error .blkNotZero else .ok i
  | .withCh f =>
    if blkOf w ≠ 0 then .error .blkNotZero else (channelOf (chOf w)).map f
  | .withChBlk f => (channelOf (chOf w)).map (fun ch => f ch (blkOf w))

/-- The decoder: a function of the word alone (R158). -/
def decode (w : Word) : Except Reject Instr :=
  if rsvOf w ≠ 0 then .error .rsvNotZero
  else match opcodeMap.lookup (opcOf w) with
    | none => .error .reservedOpcode
    | some sh => ofShape w sh

/-- The operation code of a command (the column OPC of R156). -/
def opcodeOf : Instr → Nat
  | .nop => 0x00
  | .cscFwd => 0x10
  | .cscInv => 0x11
  | .subsample => 0x18
  | .fdct => 0x20
  | .idct => 0x21
  | .quant _ => 0x28
  | .dequant _ => 0x29
  | .zigzag => 0x30
  | .unzigzag => 0x31
  | .dcenc _ => 0x38
  | .dcdec _ => 0x39
  | .rleenc => 0x40
  | .rledec => 0x41
  | .category => 0x42
  | .hufenc => 0x48
  | .hufdec => 0x49
  | .hufputdc => 0x4A
  | .hufputac => 0x4B
  | .hufgetdc => 0x4C
  | .hufgetac => 0x4D
  | .putbits => 0x4E
  | .getbits => 0x4F
  | .flush => 0x50
  | .bswrst => 0x51
  | .bsrrst => 0x52
  | .smwrite => 0x58
  | .smread => 0x59
  | .loadblk _ _ => 0x60
  | .storeblk _ _ => 0x61
  | .loadvec _ _ => 0x62
  | .storevec _ _ => 0x63

/-- The number of a channel (00_scope.md R13). -/
def channelNo : Channel → Nat
  | .y => 0
  | .cb => 1
  | .cr => 2

/-- The CH and BLK values a command carries; a field it does not use is 0 (R151, R152). -/
def fieldsOf : Instr → Nat × Nat
  | .quant ch | .dequant ch | .dcenc ch | .dcdec ch => (channelNo ch, 0)
  | .loadblk ch b | .storeblk ch b | .loadvec ch b | .storevec ch b => (channelNo ch, b)
  | .nop | .cscFwd | .cscInv | .subsample | .fdct | .idct | .zigzag | .unzigzag | .rleenc | .rledec | .category
  | .hufenc | .hufdec | .hufputdc | .hufputac | .hufgetdc | .hufgetac | .putbits | .getbits | .flush | .bswrst
  | .bsrrst | .smwrite | .smread => (0, 0)

/-- The encoder: `OPC | (CH << 8) | (BLK << 16)` (R160). -/
def encode (i : Instr) : Word :=
  BitVec.ofNat 32 (opcodeOf i + 256 * (fieldsOf i).1 + 65536 * (fieldsOf i).2)

/-- The columns match and mask of R156. -/
def rowMatch (i : Instr) : Word := BitVec.ofNat 32 (opcodeOf i)

/-- The mask column of R156: every bit but those of the fields the command uses. -/
def rowMask : Instr → Word
  | .quant _ | .dequant _ | .dcenc _ | .dcdec _ => 0xFFFFFCFF
  | .loadblk _ _ | .storeblk _ _ | .loadvec _ _ | .storevec _ _ => 0x0000FCFF
  | .nop | .cscFwd | .cscInv | .subsample | .fdct | .idct | .zigzag | .unzigzag | .rleenc | .rledec | .category
  | .hufenc | .hufdec | .hufputdc | .hufputac | .hufgetdc | .hufgetac | .putbits | .getbits | .flush | .bswrst
  | .bsrrst | .smwrite | .smread => 0xFFFFFFFF

/-- The instruction the decoder reads from an opcode-table word: bit 0 is the word's least significant bit; a command
is one 32-bit word, so bits at or above `nbits` are 0. -/
def decodeTableWord (nbits w : Nat) : Option Instr :=
  (decode (BitVec.ofNat 32 (w % 2 ^ nbits))).toOption

end Sys2Proof
end

