-- ==== Sys2Proof/Machine/Tables.lean ====
section
/-! DEFINITION. The reference defaults of the parameters (spec/00_scope.md R7): the constant tables of 10_state.md R58
as the spec prints them, and the sizes. -/

namespace Sys2Proof.Machine

/-- ZIGZAG (44_zigzag.md R280): entry k is the natural index 8r + c of vector position k. -/
def Tables.zigzag : Block (Fin 64) :=
  #v[0, 1, 8, 16, 9, 2, 3, 10,
    17, 24, 32, 25, 18, 11, 4, 5,
    12, 19, 26, 33, 40, 48, 41, 34,
    27, 20, 13, 6, 7, 14, 21, 28,
    35, 42, 49, 56, 57, 50, 43, 36,
    29, 22, 15, 23, 30, 37, 44, 51,
    58, 59, 52, 45, 38, 31, 39, 46,
    53, 60, 61, 54, 47, 55, 62, 63]

/-- QTAB_Y (43_quantizer.md R260). -/
def Tables.qtabY : Block Nat :=
  #v[16, 11, 10, 16, 24, 40, 51, 61,
    12, 12, 14, 19, 26, 58, 60, 55,
    14, 13, 16, 24, 40, 57, 69, 56,
    14, 17, 22, 29, 51, 87, 80, 62,
    18, 22, 37, 56, 68, 109, 103, 77,
    24, 35, 55, 64, 81, 104, 113, 92,
    49, 64, 78, 87, 103, 121, 120, 101,
    72, 92, 95, 98, 112, 100, 103, 99]

/-- QTAB_C (43_quantizer.md R260). -/
def Tables.qtabC : Block Nat :=
  #v[17, 18, 24, 47, 99, 99, 99, 99,
    18, 21, 26, 66, 99, 99, 99, 99,
    24, 26, 56, 99, 99, 99, 99, 99,
    47, 66, 99, 99, 99, 99, 99, 99,
    99, 99, 99, 99, 99, 99, 99, 99,
    99, 99, 99, 99, 99, 99, 99, 99,
    99, 99, 99, 99, 99, 99, 99, 99,
    99, 99, 99, 99, 99, 99, 99, 99]

/-- DCT_C (42_dct.md R240): row u, column x, as binary64 bit patterns. -/
def Tables.dctC : Block Double :=
  #v[0x3FD6A09E667F3BCD, 0x3FD6A09E667F3BCD, 0x3FD6A09E667F3BCD, 0x3FD6A09E667F3BCD, 0x3FD6A09E667F3BCD, 0x3FD6A09E667F3BCD, 0x3FD6A09E667F3BCD, 0x3FD6A09E667F3BCD,
    0x3FDF6297CFF75CB0, 0x3FDA9B66290EA1A3, 0x3FD1C73B39AE68C8, 0x3FB8F8B83C69A60B, 0xBFB8F8B83C69A60B, 0xBFD1C73B39AE68C8, 0xBFDA9B66290EA1A3, 0xBFDF6297CFF75CB0,
    0x3FDD906BCF328D46, 0x3FC87DE2A6AEA963, 0xBFC87DE2A6AEA963, 0xBFDD906BCF328D46, 0xBFDD906BCF328D46, 0xBFC87DE2A6AEA963, 0x3FC87DE2A6AEA963, 0x3FDD906BCF328D46,
    0x3FDA9B66290EA1A3, 0xBFB8F8B83C69A60B, 0xBFDF6297CFF75CB0, 0xBFD1C73B39AE68C8, 0x3FD1C73B39AE68C8, 0x3FDF6297CFF75CB0, 0x3FB8F8B83C69A60B, 0xBFDA9B66290EA1A3,
    0x3FD6A09E667F3BCD, 0xBFD6A09E667F3BCD, 0xBFD6A09E667F3BCD, 0x3FD6A09E667F3BCD, 0x3FD6A09E667F3BCD, 0xBFD6A09E667F3BCD, 0xBFD6A09E667F3BCD, 0x3FD6A09E667F3BCD,
    0x3FD1C73B39AE68C8, 0xBFDF6297CFF75CB0, 0x3FB8F8B83C69A60B, 0x3FDA9B66290EA1A3, 0xBFDA9B66290EA1A3, 0xBFB8F8B83C69A60B, 0x3FDF6297CFF75CB0, 0xBFD1C73B39AE68C8,
    0x3FC87DE2A6AEA963, 0xBFDD906BCF328D46, 0x3FDD906BCF328D46, 0xBFC87DE2A6AEA963, 0xBFC87DE2A6AEA963, 0x3FDD906BCF328D46, 0xBFDD906BCF328D46, 0x3FC87DE2A6AEA963,
    0x3FB8F8B83C69A60B, 0xBFD1C73B39AE68C8, 0x3FDA9B66290EA1A3, 0xBFDF6297CFF75CB0, 0x3FDF6297CFF75CB0, 0xBFDA9B66290EA1A3, 0x3FD1C73B39AE68C8, 0xBFB8F8B83C69A60B]

/-- HUFF_DC (47_huffman_bitstream.md R360). -/
def Tables.hufDc : List HuffEntry :=
  [⟨0x000, 2, 0b00⟩, ⟨0x001, 3, 0b010⟩, ⟨0x002, 3, 0b011⟩, ⟨0x003, 3, 0b100⟩,
   ⟨0x004, 3, 0b101⟩, ⟨0x005, 3, 0b110⟩, ⟨0x006, 4, 0b1110⟩, ⟨0x007, 5, 0b11110⟩,
   ⟨0x008, 6, 0b111110⟩, ⟨0x009, 7, 0b1111110⟩, ⟨0x00a, 8, 0b11111110⟩]

/-- HUFF_AC, the row of skip 0 (47_huffman_bitstream.md R361); a key is (cat << 4) | skip. -/
def Tables.hufAc0 : List HuffEntry :=
  [⟨0x000, 4, 0b1010⟩, ⟨0x010, 2, 0b00⟩, ⟨0x020, 2, 0b01⟩,
   ⟨0x030, 3, 0b100⟩, ⟨0x040, 4, 0b1011⟩, ⟨0x050, 5, 0b11010⟩,
   ⟨0x060, 7, 0b1111000⟩, ⟨0x070, 8, 0b11111000⟩, ⟨0x080, 10, 0b1111110110⟩,
   ⟨0x090, 16, 0b1111111110000010⟩, ⟨0x0a0, 16, 0b1111111110000011⟩]

/-- HUFF_AC, the row of skip 1 (47_huffman_bitstream.md R361); a key is (cat << 4) | skip. -/
def Tables.hufAc1 : List HuffEntry :=
  [⟨0x011, 4, 0b1100⟩, ⟨0x021, 5, 0b11011⟩, ⟨0x031, 7, 0b1111001⟩,
   ⟨0x041, 9, 0b111110110⟩, ⟨0x051, 11, 0b11111110110⟩, ⟨0x061, 16, 0b1111111110000100⟩,
   ⟨0x071, 16, 0b1111111110000101⟩, ⟨0x081, 16, 0b1111111110000110⟩, ⟨0x091, 16, 0b1111111110000111⟩,
   ⟨0x0a1, 16, 0b1111111110001000⟩]

/-- HUFF_AC, the row of skip 2 (47_huffman_bitstream.md R361); a key is (cat << 4) | skip. -/
def Tables.hufAc2 : List HuffEntry :=
  [⟨0x012, 5, 0b11100⟩, ⟨0x022, 8, 0b11111001⟩, ⟨0x032, 10, 0b1111110111⟩,
   ⟨0x042, 12, 0b111111110100⟩, ⟨0x052, 16, 0b1111111110001001⟩, ⟨0x062, 16, 0b1111111110001010⟩,
   ⟨0x072, 16, 0b1111111110001011⟩, ⟨0x082, 16, 0b1111111110001100⟩, ⟨0x092, 16, 0b1111111110001101⟩,
   ⟨0x0a2, 16, 0b1111111110001110⟩]

/-- HUFF_AC, the row of skip 3 (47_huffman_bitstream.md R361); a key is (cat << 4) | skip. -/
def Tables.hufAc3 : List HuffEntry :=
  [⟨0x013, 6, 0b111010⟩, ⟨0x023, 9, 0b111110111⟩, ⟨0x033, 12, 0b111111110101⟩,
   ⟨0x043, 16, 0b1111111110001111⟩, ⟨0x053, 16, 0b1111111110010000⟩, ⟨0x063, 16, 0b1111111110010001⟩,
   ⟨0x073, 16, 0b1111111110010010⟩, ⟨0x083, 16, 0b1111111110010011⟩, ⟨0x093, 16, 0b1111111110010100⟩,
   ⟨0x0a3, 16, 0b1111111110010101⟩]

/-- HUFF_AC, the row of skip 4 (47_huffman_bitstream.md R361); a key is (cat << 4) | skip. -/
def Tables.hufAc4 : List HuffEntry :=
  [⟨0x014, 6, 0b111011⟩, ⟨0x024, 10, 0b1111111000⟩, ⟨0x034, 16, 0b1111111110010110⟩,
   ⟨0x044, 16, 0b1111111110010111⟩, ⟨0x054, 16, 0b1111111110011000⟩, ⟨0x064, 16, 0b1111111110011001⟩,
   ⟨0x074, 16, 0b1111111110011010⟩, ⟨0x084, 16, 0b1111111110011011⟩, ⟨0x094, 16, 0b1111111110011100⟩,
   ⟨0x0a4, 16, 0b1111111110011101⟩]

/-- HUFF_AC, the row of skip 5 (47_huffman_bitstream.md R361); a key is (cat << 4) | skip. -/
def Tables.hufAc5 : List HuffEntry :=
  [⟨0x015, 7, 0b1111010⟩, ⟨0x025, 11, 0b11111110111⟩, ⟨0x035, 16, 0b1111111110011110⟩,
   ⟨0x045, 16, 0b1111111110011111⟩, ⟨0x055, 16, 0b1111111110100000⟩, ⟨0x065, 16, 0b1111111110100001⟩,
   ⟨0x075, 16, 0b1111111110100010⟩, ⟨0x085, 16, 0b1111111110100011⟩, ⟨0x095, 16, 0b1111111110100100⟩,
   ⟨0x0a5, 16, 0b1111111110100101⟩]

/-- HUFF_AC, the row of skip 6 (47_huffman_bitstream.md R361); a key is (cat << 4) | skip. -/
def Tables.hufAc6 : List HuffEntry :=
  [⟨0x016, 7, 0b1111011⟩, ⟨0x026, 12, 0b111111110110⟩, ⟨0x036, 16, 0b1111111110100110⟩,
   ⟨0x046, 16, 0b1111111110100111⟩, ⟨0x056, 16, 0b1111111110101000⟩, ⟨0x066, 16, 0b1111111110101001⟩,
   ⟨0x076, 16, 0b1111111110101010⟩, ⟨0x086, 16, 0b1111111110101011⟩, ⟨0x096, 16, 0b1111111110101100⟩,
   ⟨0x0a6, 16, 0b1111111110101101⟩]

/-- HUFF_AC, the row of skip 7 (47_huffman_bitstream.md R361); a key is (cat << 4) | skip. -/
def Tables.hufAc7 : List HuffEntry :=
  [⟨0x017, 8, 0b11111010⟩, ⟨0x027, 12, 0b111111110111⟩, ⟨0x037, 16, 0b1111111110101110⟩,
   ⟨0x047, 16, 0b1111111110101111⟩, ⟨0x057, 16, 0b1111111110110000⟩, ⟨0x067, 16, 0b1111111110110001⟩,
   ⟨0x077, 16, 0b1111111110110010⟩, ⟨0x087, 16, 0b1111111110110011⟩, ⟨0x097, 16, 0b1111111110110100⟩,
   ⟨0x0a7, 16, 0b1111111110110101⟩]

/-- HUFF_AC, the row of skip 8 (47_huffman_bitstream.md R361); a key is (cat << 4) | skip. -/
def Tables.hufAc8 : List HuffEntry :=
  [⟨0x018, 9, 0b111111000⟩, ⟨0x028, 15, 0b111111111000000⟩, ⟨0x038, 16, 0b1111111110110110⟩,
   ⟨0x048, 16, 0b1111111110110111⟩, ⟨0x058, 16, 0b1111111110111000⟩, ⟨0x068, 16, 0b1111111110111001⟩,
   ⟨0x078, 16, 0b1111111110111010⟩, ⟨0x088, 16, 0b1111111110111011⟩, ⟨0x098, 16, 0b1111111110111100⟩,
   ⟨0x0a8, 16, 0b1111111110111101⟩]

/-- HUFF_AC, the row of skip 9 (47_huffman_bitstream.md R361); a key is (cat << 4) | skip. -/
def Tables.hufAc9 : List HuffEntry :=
  [⟨0x019, 9, 0b111111001⟩, ⟨0x029, 16, 0b1111111110111110⟩, ⟨0x039, 16, 0b1111111110111111⟩,
   ⟨0x049, 16, 0b1111111111000000⟩, ⟨0x059, 16, 0b1111111111000001⟩, ⟨0x069, 16, 0b1111111111000010⟩,
   ⟨0x079, 16, 0b1111111111000011⟩, ⟨0x089, 16, 0b1111111111000100⟩, ⟨0x099, 16, 0b1111111111000101⟩,
   ⟨0x0a9, 16, 0b1111111111000110⟩]

/-- HUFF_AC, the row of skip 10 (47_huffman_bitstream.md R361); a key is (cat << 4) | skip. -/
def Tables.hufAc10 : List HuffEntry :=
  [⟨0x01a, 9, 0b111111010⟩, ⟨0x02a, 16, 0b1111111111000111⟩, ⟨0x03a, 16, 0b1111111111001000⟩,
   ⟨0x04a, 16, 0b1111111111001001⟩, ⟨0x05a, 16, 0b1111111111001010⟩, ⟨0x06a, 16, 0b1111111111001011⟩,
   ⟨0x07a, 16, 0b1111111111001100⟩, ⟨0x08a, 16, 0b1111111111001101⟩, ⟨0x09a, 16, 0b1111111111001110⟩,
   ⟨0x0aa, 16, 0b1111111111001111⟩]

/-- HUFF_AC, the row of skip 11 (47_huffman_bitstream.md R361); a key is (cat << 4) | skip. -/
def Tables.hufAc11 : List HuffEntry :=
  [⟨0x01b, 10, 0b1111111001⟩, ⟨0x02b, 16, 0b1111111111010000⟩, ⟨0x03b, 16, 0b1111111111010001⟩,
   ⟨0x04b, 16, 0b1111111111010010⟩, ⟨0x05b, 16, 0b1111111111010011⟩, ⟨0x06b, 16, 0b1111111111010100⟩,
   ⟨0x07b, 16, 0b1111111111010101⟩, ⟨0x08b, 16, 0b1111111111010110⟩, ⟨0x09b, 16, 0b1111111111010111⟩,
   ⟨0x0ab, 16, 0b1111111111011000⟩]

/-- HUFF_AC, the row of skip 12 (47_huffman_bitstream.md R361); a key is (cat << 4) | skip. -/
def Tables.hufAc12 : List HuffEntry :=
  [⟨0x01c, 10, 0b1111111010⟩, ⟨0x02c, 16, 0b1111111111011001⟩, ⟨0x03c, 16, 0b1111111111011010⟩,
   ⟨0x04c, 16, 0b1111111111011011⟩, ⟨0x05c, 16, 0b1111111111011100⟩, ⟨0x06c, 16, 0b1111111111011101⟩,
   ⟨0x07c, 16, 0b1111111111011110⟩, ⟨0x08c, 16, 0b1111111111011111⟩, ⟨0x09c, 16, 0b1111111111100000⟩,
   ⟨0x0ac, 16, 0b1111111111100001⟩]

/-- HUFF_AC, the row of skip 13 (47_huffman_bitstream.md R361); a key is (cat << 4) | skip. -/
def Tables.hufAc13 : List HuffEntry :=
  [⟨0x01d, 11, 0b11111111000⟩, ⟨0x02d, 16, 0b1111111111100010⟩, ⟨0x03d, 16, 0b1111111111100011⟩,
   ⟨0x04d, 16, 0b1111111111100100⟩, ⟨0x05d, 16, 0b1111111111100101⟩, ⟨0x06d, 16, 0b1111111111100110⟩,
   ⟨0x07d, 16, 0b1111111111100111⟩, ⟨0x08d, 16, 0b1111111111101000⟩, ⟨0x09d, 16, 0b1111111111101001⟩,
   ⟨0x0ad, 16, 0b1111111111101010⟩]

/-- HUFF_AC, the row of skip 14 (47_huffman_bitstream.md R361); a key is (cat << 4) | skip. -/
def Tables.hufAc14 : List HuffEntry :=
  [⟨0x01e, 16, 0b1111111111101011⟩, ⟨0x02e, 16, 0b1111111111101100⟩, ⟨0x03e, 16, 0b1111111111101101⟩,
   ⟨0x04e, 16, 0b1111111111101110⟩, ⟨0x05e, 16, 0b1111111111101111⟩, ⟨0x06e, 16, 0b1111111111110000⟩,
   ⟨0x07e, 16, 0b1111111111110001⟩, ⟨0x08e, 16, 0b1111111111110010⟩, ⟨0x09e, 16, 0b1111111111110011⟩,
   ⟨0x0ae, 16, 0b1111111111110100⟩]

/-- HUFF_AC, the row of skip 15 (47_huffman_bitstream.md R361); a key is (cat << 4) | skip. -/
def Tables.hufAc15 : List HuffEntry :=
  [⟨0x00f, 11, 0b11111111001⟩, ⟨0x01f, 16, 0b1111111111110101⟩, ⟨0x02f, 16, 0b1111111111110110⟩,
   ⟨0x03f, 16, 0b1111111111110111⟩, ⟨0x04f, 16, 0b1111111111111000⟩, ⟨0x05f, 16, 0b1111111111111001⟩,
   ⟨0x06f, 16, 0b1111111111111010⟩, ⟨0x07f, 16, 0b1111111111111011⟩, ⟨0x08f, 16, 0b1111111111111100⟩,
   ⟨0x09f, 16, 0b1111111111111101⟩, ⟨0x0af, 16, 0b1111111111111110⟩]

/-- HUFF_AC (47_huffman_bitstream.md R361): the 162 entries, row by row. -/
def Tables.hufAc : List HuffEntry :=
  Tables.hufAc0 ++ Tables.hufAc1 ++ Tables.hufAc2 ++ Tables.hufAc3
    ++ Tables.hufAc4 ++ Tables.hufAc5 ++ Tables.hufAc6 ++ Tables.hufAc7
    ++ Tables.hufAc8 ++ Tables.hufAc9 ++ Tables.hufAc10 ++ Tables.hufAc11
    ++ Tables.hufAc12 ++ Tables.hufAc13 ++ Tables.hufAc14 ++ Tables.hufAc15

/-- The length of a table's longest code (00_scope.md R7); a code has at most 16 bits (47_huffman_bitstream.md R362). -/
def longestCode (t : List HuffEntry) : Nat :=
  (List.range 17).foldl (fun n len => if t.any (fun e => e.len == len) then len else n) 0

/-- The parameter set that R7 gives for a largest dimension, a bitstream capacity and tables where nothing else is given:
MAX_PIXELS = MAX_DIM², and the maximum prefix lengths are those of the longest codes. -/
def Tables.withDefaults (maxDim bsCap : Nat) (zigzag : Block (Fin 64)) (qtabY qtabC : Block Nat) (dctC : Block Double)
    (hufDc hufAc : List HuffEntry) : Config where
  maxDim := maxDim
  maxPixels := maxDim * maxDim
  bsCap := bsCap
  dcMaxLen := longestCode hufDc
  acMaxLen := longestCode hufAc
  zigzag := zigzag
  qtabY := qtabY
  qtabC := qtabC
  dctC := dctC
  hufDc := hufDc
  hufAc := hufAc

/-- The reference parameter set (00_scope.md R7, column "reference default"). -/
def Tables.reference : Config :=
  Tables.withDefaults 2048 16777216 Tables.zigzag Tables.qtabY Tables.qtabC Tables.dctC Tables.hufDc Tables.hufAc

end Sys2Proof.Machine
end

