-- ==== Sys2Proof/Machine/State.lean ====
section
/-! DEFINITION. The state of the core (spec/10_state.md, 20_memory.md R100) with the host's coming actions beside it,
the reasons a step can stop, and the state after reset (70_reset_and_hazards.md R500). -/

namespace Sys2Proof.Machine

/-- The reasons the machine stops with a fault. There is none: every error a command can end in is recorded in STATUS
and ERR_INFO and the core waits for the host (60_exceptions.md R465), so no constructor is needed; safe. -/
inductive Fault where
deriving DecidableEq, Repr

/-- The reasons the model gives no next state. -/
inductive Refusal where
  /-- An instruction without a meaning yet, by its mnemonic. Raised by no arm of `exec`; it would be safe. -/
  | notModelled (mnemonic : String)
  /-- Raised by `State.boot` on a parameter set that breaks its constraints (93_implementation_defined.md U13, treatment
  "refuse"); safe. No step raises it. -/
  | badConfig
deriving DecidableEq, Repr

/-- A pixel of the memory RGB (20_memory.md R101). -/
structure Pixel where
  r : Byte
  g : Byte
  b : Byte
deriving DecidableEq, Repr, Inhabited

/-- A pixel of the memory YCC: three binary64 bit patterns (20_memory.md R102). -/
structure YccPixel where
  y  : Double
  cb : Double
  cr : Double
deriving DecidableEq, Repr, Inhabited

/-- A symbol slot of RLEBUF (10_state.md R52). -/
structure Symbol where
  skip  : BitVec 4
  cat   : BitVec 6
  value : Word
deriving DecidableEq, Repr, Inhabited

/-- A local memory: (index, element) pairs, indices strictly rising, no element equal to the type's default, which is
what an unlisted index reads as (20_memory.md R100, 10_state.md R57; log 4). Canonical form: `Memory.wf` in Ops. -/
abbrev Memory (α : Type) := List (Nat × α)

/-- CTRL, the stored fields (10_state.md R33). -/
structure Ctrl where
  ieDone : Bool
  ieErr  : Bool
deriving DecidableEq, Repr, Inhabited

/-- STATUS, the stored fields (10_state.md R34); IRQ is computed (60_exceptions.md R470). -/
structure Status where
  busy    : Bool
  done    : Bool
  err     : Bool
  dropped : Bool
  errCode : BitVec 4
deriving DecidableEq, Repr, Inhabited

/-- The bitstream writer: BS_WPTR and BS_WSTATE (10_state.md R42, R43). -/
structure Writer where
  wptr : Word
  acc  : Byte
  nb   : BitVec 3
deriving DecidableEq, Repr, Inhabited

/-- The bitstream reader: BS_RPTR and BS_RBIT (10_state.md R44). -/
structure Reader where
  rptr : Word
  rbit : BitVec 3
deriving DecidableEq, Repr, Inhabited

/-- What the host does next: one bus transaction (20_memory.md R120), or nothing, which gives the core its turn. -/
inductive HostAction where
  | read (addr : Word)
  | write (addr data : Word)
  | pass
deriving DecidableEq, Repr, Inhabited

/-- The answer to a bus transaction: (rdata, err) for a read, err for a write (20_memory.md R120; log 8). -/
inductive Response where
  | read (data : Word) (err : Bool)
  | write (err : Bool)
deriving DecidableEq, Repr, Inhabited

/-- The whole state. -/
structure State where
  /-- the parameters and constant tables (00_scope.md R7, 10_state.md R58) -/
  cfg      : Config
  ctrl     : Ctrl
  status   : Status
  /-- CMD: the last accepted word (R35) -/
  cmd      : Word
  arg0     : Word
  arg1     : Word
  result   : Word
  imgW     : BitVec 16
  imgH     : BitVec 16
  errInfo  : Word
  writer   : Writer
  reader   : Reader
  bsLen    : Word
  rleLen   : BitVec 7
  /-- FBLK[r][c] at 8r + c (R49) -/
  fblk     : Block Double
  /-- IBLK[r][c] at 8r + c (R50) -/
  iblk     : Block Word
  vec      : Block Word
  rlebuf   : Block Symbol
  rgb      : Memory Pixel
  ycc      : Memory YccPixel
  /-- COEF[ch][b][k] at `coefIx ch b k` (Ops) -/
  coef     : Memory Word
  bs       : Memory Byte
  /-- the host's coming actions, oldest first (log 1) -/
  host     : List HostAction
  /-- the answer to the last bus transaction (log 8) -/
  response : Option Response
  /-- the counter of the free values, the model's own (log 10) -/
  free     : Nat
deriving DecidableEq, Repr, Inhabited

/-- The state after power-on reset of a core with parameters `c` (70_reset_and_hazards.md R500, R503). The working
buffers and memories are unspecified there: this model starts them at zero (logs 3 and 4). -/
def State.resetWith (c : Config) : State where
  cfg := c
  ctrl := ⟨false, false⟩
  status := ⟨false, false, false, false, 0⟩
  cmd := 0
  arg0 := 0
  arg1 := 0
  result := 0
  imgW := 0
  imgH := 0
  errInfo := 0
  writer := ⟨0, 0, 0⟩
  reader := ⟨0, 0⟩
  bsLen := 0
  rleLen := 0
  fblk := blockOf fun _ => 0
  iblk := blockOf fun _ => 0
  vec := blockOf fun _ => 0
  rlebuf := blockOf fun _ => ⟨0, 0, 0⟩
  rgb := []
  ycc := []
  coef := []
  bs := []
  host := []
  response := none
  free := 0

/-- The machine right after reset, with the reference parameters. -/
def State.reset : State := State.resetWith Tables.reference

/-- A core built with the parameters `c`: refused before it runs when they break a constraint (U13). -/
def State.boot (c : Config) : Host.Outcome State Fault Refusal :=
  if c.wf then .next (State.resetWith c) else .refused .badConfig

end Sys2Proof.Machine
end

