-- ==== Sys2Proof/Machine/Ops.lean ====
section
/-! DEFINITION. The shared operations: error entry and return (spec/60_exceptions.md R465, R468), completion, the local
memories (20_memory.md R100), the geometry (10_state.md R40), the bitstream writer and reader (R110, R113). -/

namespace Sys2Proof.Machine

/-! ### Errors, completion -/

/-- The errors a command can end in (60_exceptions.md R460). -/
inductive ErrKind where
  | illegalCmd | badGeometry | blkRange | tableMiss | huffNomatch | bsUnderrun | bsOverflow | numRange | badOperand
deriving DecidableEq, Repr, Inhabited

/-- The code of an error, the value of STATUS.ERRCODE (R460). -/
def errCodeOf : ErrKind → BitVec 4
  | .illegalCmd => 1
  | .badGeometry => 2
  | .blkRange => 3
  | .tableMiss => 4
  | .huffNomatch => 5
  | .bsUnderrun => 6
  | .bsOverflow => 7
  | .numRange => 8
  | .badOperand => 9

/-- An error raised by a command, with the value for ERR_INFO (R460). -/
structure Raised where
  kind : ErrKind
  info : Word
deriving DecidableEq, Repr, Inhabited

/-- `u32(n)` (00_scope.md R9). -/
def u32 (n : Nat) : Word := BitVec.ofNat 32 n

/-- `raise E(info)`, with the info taken modulo 2^32 (R465). -/
def raised {α : Type} (k : ErrKind) (info : Nat) : Except Raised α := .error ⟨k, u32 info⟩

/-- ERROR ENTRY (60_exceptions.md R465): ERR, ERRCODE and ERR_INFO record the error, BUSY falls, nothing else
changes. -/
def State.enterError (s : State) (e : Raised) : State :=
  { s with status := { s.status with err := true, errCode := errCodeOf e.kind, busy := false }, errInfo := e.info }

/-- RETURN FROM AN ERROR (R468, 10_state.md R34): ERR, ERRCODE and ERR_INFO are cleared together. -/
def State.clearError (s : State) : State :=
  { s with status := { s.status with err := false, errCode := 0 }, errInfo := 0 }

/-- Completion without error (10_state.md R54): DONE rises, BUSY falls. -/
def State.complete (s : State) : State :=
  { s with status := { s.status with done := true, busy := false } }

/-- A command ends either with all its writes committed and DONE set, or in error entry with none of them
(00_scope.md R12, 60_exceptions.md R465, R471). -/
def settle (s : State) : Except Raised State → Host.Outcome State Fault Refusal
  | .ok t => .next t.complete
  | .error e => .next (s.enterError e)

/-- The results of `f` on the numbers of a list in order, or the first error it raises (R467: the lowest index). -/
def collect {α : Type} (f : Nat → Except Raised α) : List Nat → Except Raised (List α)
  | [] => .ok []
  | n :: rest =>
    match f n with
    | .error e => .error e
    | .ok v =>
      match collect f rest with
      | .error e => .error e
      | .ok vs => .ok (v :: vs)

/-! ### Local memories -/

/-- Every index of the list is above n. -/
def above {α : Type} (n : Nat) : Memory α → Bool
  | [] => true
  | (i, _) :: rest => n < i && above n rest

/-- The canonical form: indices strictly rising, no element equal to what an unlisted index reads as (log 4). -/
def Memory.wf {α : Type} [DecidableEq α] [Inhabited α] : Memory α → Bool
  | [] => true
  | (i, v) :: rest => above i rest && v != default && Memory.wf rest

/-- Every listed index is below n, the number of elements of the memory (R100). -/
def within {α : Type} (n : Nat) (l : Memory α) : Prop := ∀ p ∈ l, p.1 < n

/-- MemRead (20_memory.md R100): an unlisted element reads as the type's default (log 4). -/
def Memory.read {α : Type} [Inhabited α] : Memory α → Nat → α
  | [], _ => default
  | (i, v) :: rest, n => if n = i then v else if n < i then default else Memory.read rest n

/-- MemWrite (20_memory.md R100), keeping the canonical form. -/
def Memory.write {α : Type} [DecidableEq α] [Inhabited α] : Memory α → Nat → α → Memory α
  | [], n, x => if x = default then [] else [(n, x)]
  | (i, v) :: rest, n, x =>
    if n = i then (if x = default then rest else (n, x) :: rest)
    else if n < i then (if x = default then (i, v) :: rest else (n, x) :: (i, v) :: rest)
    else (i, v) :: Memory.write rest n x

/-- Several MemWrites in order. -/
def Memory.writeAll {α : Type} [DecidableEq α] [Inhabited α] (m : Memory α) (l : List (Nat × α)) : Memory α :=
  l.foldl (fun m p => Memory.write m p.1 p.2) m

/-- A channel of a YCC pixel. -/
def YccPixel.chan (p : YccPixel) : Channel → Double
  | .y => p.y
  | .cb => p.cb
  | .cr => p.cr

/-- A YCC pixel with one channel replaced (20_memory.md R102). -/
def YccPixel.setChan (p : YccPixel) (ch : Channel) (v : Double) : YccPixel :=
  match ch with
  | .y => { p with y := v }
  | .cb => { p with cb := v }
  | .cr => { p with cr := v }

/-- The index of COEF[ch][b][k] in the memory: b < 65536 and k < 64, so the three channels do not overlap (R103). -/
def coefIx (ch : Channel) (b k : Nat) : Nat := 4194304 * channelNo ch + 64 * b + k

/-! ### Geometry -/

/-- The geometry is valid (10_state.md R40). -/
def State.geometryValid (s : State) : Bool :=
  let w := s.imgW.toNat
  let h := s.imgH.toNat
  8 ≤ w && 8 ≤ h && w % 8 == 0 && h % 8 == 0 && w ≤ s.cfg.maxDim && h ≤ s.cfg.maxDim && w * h ≤ s.cfg.maxPixels

/-- NUM_BLOCKS (R40). -/
def State.numBlocks (s : State) : Nat :=
  if s.geometryValid then (s.imgW.toNat / 8) * (s.imgH.toNat / 8) else 0

/-- The number of pixels of the image. -/
def State.numPixels (s : State) : Nat := s.imgW.toNat * s.imgH.toNat

/-- The pixel index of element n = 8r + c of block b (00_scope.md R14). -/
def State.pix (s : State) (b n : Nat) : Nat :=
  let w := s.imgW.toNat
  let bw := w / 8
  (8 * (b / bw) + n / 8) * w + 8 * (b % bw) + n % 8

/-- Raise BAD_GEOMETRY unless the geometry is valid (60_exceptions.md R463). -/
def State.checkGeometry (s : State) : Except Raised Unit :=
  if s.geometryValid then .ok () else raised .badGeometry (65536 * s.imgH.toNat + s.imgW.toNat)

/-- `check_block(b)` (49_transfer_system.md section 2): BAD_GEOMETRY, then BLK_RANGE. -/
def State.checkBlock (s : State) (b : Nat) : Except Raised Unit :=
  match s.checkGeometry with
  | .error e => .error e
  | .ok () => if s.numBlocks ≤ b then raised .blkRange b else .ok ()

/-! ### Bit-strings, the writer, the reader -/

/-- The `len`-bit binary form of n, most significant bit first (00_scope.md R9). -/
def bitString (n len : Nat) : List Bool := (List.range len).map fun i => n.testBit (len - 1 - i)

/-- The writer after one bit, with the bytes it completes put into BS (20_memory.md R110, R111). -/
def writeBit (st : Writer × Memory Byte) (bit : Bool) : Writer × Memory Byte :=
  let acc := BitVec.ofNat 8 (2 * st.1.acc.toNat + bit.toNat)
  if st.1.nb = 7 then
    (⟨st.1.wptr + 1, 0, 0⟩, Memory.write st.2 st.1.wptr.toNat acc)
  else (⟨st.1.wptr, acc, st.1.nb + 1⟩, st.2)

/-- `BitWrite(bits)` (20_memory.md R110): all or nothing. -/
def State.bitWrite (s : State) (bits : List Bool) : Except Raised State :=
  if s.cfg.bsCap < s.writer.wptr.toNat + (s.writer.nb.toNat + bits.length) / 8 then
    raised .bsOverflow s.writer.wptr.toNat
  else
    let r := bits.foldl writeBit (s.writer, s.bs)
    .ok { s with writer := r.1, bs := r.2 }

/-- The reader's position as a bit position, 8·BS_RPTR + BS_RBIT (10_state.md R44). -/
def State.readPos (s : State) : Nat := 8 * s.reader.rptr.toNat + s.reader.rbit.toNat

/-- The bit at a bit position, first bit of a byte in its bit 7; BS_UNDERRUN at or beyond BS_LEN (20_memory.md R113,
R111). -/
def State.bitAt (s : State) (pos : Nat) : Except Raised Bool :=
  if s.bsLen.toNat ≤ pos / 8 then raised .bsUnderrun pos
  else .ok ((Memory.read s.bs (pos / 8)).getLsbD (7 - pos % 8))

/-- `BitRead(n)` from a working position, with the bits read so far as the number `v`: the number and the new
position (20_memory.md R113). -/
def State.bitRead (s : State) : (n pos v : Nat) → Except Raised (Nat × Nat)
  | 0, pos, v => .ok (v, pos)
  | n + 1, pos, v =>
    match s.bitAt pos with
    | .error e => .error e
    | .ok bit => s.bitRead n (pos + 1) (2 * v + bit.toNat)

/-- The reader committed at a working position (R113). -/
def State.setReadPos (s : State) (pos : Nat) : State :=
  { s with reader := ⟨BitVec.ofNat 32 (pos / 8), BitVec.ofNat 3 (pos % 8)⟩ }

end Sys2Proof.Machine
end

