-- ==== Sys2Proof/Machine/Flags.lean ====
section
/-! DEFINITION. The flags of STATUS and CTRL as the host sees and writes them (spec/10_state.md R33 to R35, R55;
60_exceptions.md R466, R470). -/

namespace Sys2Proof.Machine

/-- The interrupt output, and STATUS.IRQ (60_exceptions.md R470). -/
def State.irq (s : State) : Bool :=
  (s.status.done && s.ctrl.ieDone) || (s.status.err && s.ctrl.ieErr)

/-- The word STATUS reads as (10_state.md R34). -/
def State.statusWord (s : State) : Word :=
  u32 (s.status.busy.toNat + 2 * s.status.done.toNat + 4 * s.status.err.toNat + 8 * s.status.dropped.toNat
    + 16 * s.irq.toNat + 256 * s.status.errCode.toNat)

/-- The word CTRL reads as; SRST reads 0 (R33). -/
def State.ctrlWord (s : State) : Word := u32 (s.ctrl.ieDone.toNat + 2 * s.ctrl.ieErr.toNat)

/-- DONE cleared, if `b`. -/
def State.clearDone (s : State) (b : Bool) : State :=
  { s with status := { s.status with done := s.status.done && !b } }

/-- DROPPED cleared, if `b`. -/
def State.clearDropped (s : State) (b : Bool) : State :=
  { s with status := { s.status with dropped := s.status.dropped && !b } }

/-- A host write of w to STATUS: W1C of DONE, ERR (with ERRCODE and ERR_INFO) and DROPPED (R34, R468). -/
def State.writeStatus (s : State) (w : Word) : State :=
  let t := (s.clearDone (w.getLsbD 1)).clearDropped (w.getLsbD 3)
  if w.getLsbD 2 then t.clearError else t

/-- A host write is dropped: only DROPPED changes (R54, 60_exceptions.md R466). -/
def State.dropWrite (s : State) : State :=
  { s with status := { s.status with dropped := true } }

/-- A host write of w to CMD is accepted (10_state.md R35). -/
def State.acceptCmd (s : State) (w : Word) : State :=
  { s with cmd := w, status := { s.status with done := false, busy := true } }

/-- A host write of w to CMD (R35, R466). -/
def State.writeCmd (s : State) (w : Word) : State :=
  if s.status.busy || s.status.err then s.dropWrite else s.acceptCmd w

/-- The soft reset (70_reset_and_hazards.md R502): every control register takes its reset value; the working buffers,
the memories and the constant tables keep theirs. -/
def State.softReset (s : State) : State :=
  { s with
    ctrl := ⟨false, false⟩
    status := ⟨false, false, false, false, 0⟩
    cmd := 0
    arg0 := 0
    arg1 := 0
    result := 0
    imgW := 0
    imgH := 0
    errInfo := 0
    writer := ⟨0, 0, 0⟩
    reader := ⟨0, 0⟩
    bsLen := 0
    rleLen := 0 }

/-- A host write of w to CTRL: a soft reset when bit 31 is 1, else the two enables (R33, R502). -/
def State.writeCtrl (s : State) (w : Word) : State :=
  if w.getLsbD 31 then s.softReset else { s with ctrl := ⟨w.getLsbD 0, w.getLsbD 1⟩ }

end Sys2Proof.Machine
end

