-- ==== Sys2Proof/Machine/Operands.lean ====
section
/-! DEFINITION. Operand assembly (spec/30_encoding.md R154) and the table a channel selects (43_quantizer.md R261). -/

namespace Sys2Proof.Machine

/-- `s32(ARG0)`: the value operand of CATEGORY and SMWRITE (R154). -/
def State.arg0Signed (s : State) : Int := s.arg0.toInt

/-- `ARG0` unsigned: the category operand of HUFPUTDC, the bits of PUTBITS (R154). -/
def State.arg0Nat (s : State) : Nat := s.arg0.toNat

/-- The key word of HUFPUTAC (R154): the key ARG0[9:0], none when ARG0[31:10] ≠ 0. -/
def State.arg0Key (s : State) : Option Nat :=
  if s.arg0.toNat / 1024 = 0 then some s.arg0.toNat else none

/-- The key word {cat, skip} of a symbol, word A of its slot (20_memory.md R122). -/
def keyWord (skip : BitVec 4) (cat : BitVec 6) : Nat := 16 * cat.toNat + skip.toNat

/-- The bit count n = ARG1, at most 16 (R154, 47_huffman_bitstream.md R373). -/
def State.bitCount (s : State) : Except Raised Nat :=
  if 16 < s.arg1.toNat then raised .badOperand s.arg1.toNat else .ok s.arg1.toNat

/-- The quantization table of a channel: Y has QTAB_Y, Cb and Cr share QTAB_C (R261). -/
def State.quantTable (s : State) : Channel → Block Nat
  | .y => s.cfg.qtabY
  | .cb => s.cfg.qtabC
  | .cr => s.cfg.qtabC

end Sys2Proof.Machine
end

