-- ==== Sys2Proof/Machine/Zigzag.lean ====
section
/-! DEFINITION. Zigzag reorder: ZIGZAG and UNZIGZAG (spec/44_zigzag.md). -/

namespace Sys2Proof.Machine

/-- `ZIGZAG[k]` (R280). -/
def State.zz (s : State) (k : Nat) : Nat := (nth s.cfg.zigzag k).val

/-- ZIGZAG (R282). -/
def execZigzag (s : State) : Host.Outcome State Fault Refusal :=
  settle s <| .ok { s with vec := blockOf fun k => nth s.iblk (s.zz k) }

/-- UNZIGZAG (R283): element ZIGZAG[k] of IBLK gets VEC[k], k ascending. -/
def execUnzigzag (s : State) : Host.Outcome State Fault Refusal :=
  settle s <| .ok { s with iblk := (List.range 64).foldl (fun b k => put b (s.zz k) (nth s.vec k)) s.iblk }

end Sys2Proof.Machine
end

