-- ==== Sys2Proof/Machine/Bus.lean ====
section
/-! DEFINITION. The host bus: the address map, reads and writes (spec/20_memory.md R120 to R129, 10_state.md section 2). -/

namespace Sys2Proof.Machine

/-- The registers of the CSR page (10_state.md section 2). -/
inductive Csr where
  | id | version | ctrl | status | cmd | arg0 | arg1 | result | imgW | imgH | numBlocks | errInfo | bsWptr | bsWstate
  | bsRptr | bsRbit | bsLen | rleLen | param0 | param1 | param2
deriving DecidableEq, Repr, Inhabited

/-- What a byte address names (20_memory.md R121 to R125); `hi` is the high word of a two-word element. -/
inductive Target where
  | misaligned
  | unmapped
  | reserved
  | csr (r : Csr)
  | vec (k : Nat)
  | iblk (n : Nat)
  | fblk (n : Nat) (hi : Bool)
  | rlebuf (i : Nat) (hi : Bool)
  | zigzag (k : Nat)
  | qtabY (n : Nat)
  | qtabC (n : Nat)
  | dctC (n : Nat) (hi : Bool)
  | hufDc (key : Nat)
  | hufAc (key : Nat)
  | rgb (i : Nat)
  | ycc (i : Nat) (ch : Channel) (hi : Bool)
  | coef (ch : Channel) (b k : Nat)
  | bs (j : Nat)
deriving DecidableEq, Repr, Inhabited

/-- The registers in address order, one a word from offset 0 (10_state.md section 2). -/
def csrList : List Csr :=
  [.id, .version, .ctrl, .status, .cmd, .arg0, .arg1, .result, .imgW, .imgH, .numBlocks, .errInfo, .bsWptr, .bsWstate,
   .bsRptr, .bsRbit, .bsLen, .rleLen, .param0, .param1, .param2]

/-- The CSR page (R48: offsets from 0x054 on are reserved). -/
def csrTarget (a : Nat) : Target :=
  match csrList[a / 4]? with
  | some r => .csr r
  | none => .reserved

/-- The channel of a number 0, 1 or 2 (00_scope.md R13). -/
def chanOfNo (n : Nat) : Channel := if n = 0 then .y else if n = 1 then .cb else .cr

/-- The buffers and tables page, 0x1000 to 0x3FFF (R121 to R123). -/
def pageTarget (a : Nat) : Target :=
  if a < 0x1100 then .vec ((a - 0x1000) / 4)
  else if a < 0x1200 then .iblk ((a - 0x1100) / 4)
  else if a < 0x1400 then .fblk ((a - 0x1200) / 8) (a % 8 == 4)
  else if a < 0x1600 then .rlebuf ((a - 0x1400) / 8) (a % 8 == 4)
  else if a < 0x2000 then .reserved
  else if a < 0x2100 then .zigzag ((a - 0x2000) / 4)
  else if a < 0x2200 then .qtabY ((a - 0x2100) / 4)
  else if a < 0x2300 then .qtabC ((a - 0x2200) / 4)
  else if a < 0x2400 then .reserved
  else if a < 0x2600 then .dctC ((a - 0x2400) / 8) (a % 8 == 4)
  else if a < 0x2640 then .hufDc ((a - 0x2600) / 4)
  else if a < 0x2800 then .reserved
  else if a < 0x2C00 then .hufAc (16 * ((a - 0x2800) / 4 % 16) + (a - 0x2800) / 4 / 16)
  else .reserved

/-- The memory windows, from 0x0100_0000 on (R124); every address outside them is unmapped. -/
def windowTarget (c : Config) (a : Nat) : Target :=
  if a < 0x10000000 then
    (if a - 0x01000000 < 4 * c.maxPixels then .rgb ((a - 0x01000000) / 4) else .unmapped)
  else if a < 0x20000000 then
    let o := a - 0x10000000
    if o < 32 * c.maxPixels then
      (if o % 32 < 24 then .ycc (o / 32) (chanOfNo (o % 32 / 8)) (o % 8 == 4) else .reserved)
    else .unmapped
  else if a < 0x30000000 then
    let o := a - 0x20000000
    if o / 0x01000000 < 3 ∧ o % 0x01000000 / 0x100 < c.maxBlocks then
      .coef (chanOfNo (o / 0x01000000)) (o % 0x01000000 / 0x100) (o % 0x100 / 4)
    else .unmapped
  else if a - 0x30000000 < c.bsCap then .bs ((a - 0x30000000) / 4)
  else .unmapped

/-- The address map (R121, R125). -/
def targetOf (c : Config) (a : Nat) : Target :=
  if a % 4 ≠ 0 then .misaligned
  else if a < 0x1000 then csrTarget a
  else if a < 0x4000 then pageTarget a
  else if a < 0x01000000 then .unmapped
  else windowTarget c a

/-- The low or the high word of a binary64 pattern (R122, R129). -/
def half (d : Double) (hi : Bool) : Word := if hi then u32 (d.toNat / 2 ^ 32) else u32 d.toNat

/-- The pattern with one half replaced (R122). -/
def setHalf (d : Double) (hi : Bool) (w : Word) : Double :=
  if hi then BitVec.ofNat 64 (w.toNat * 2 ^ 32 + d.toNat % 2 ^ 32)
  else BitVec.ofNat 64 (d.toNat / 2 ^ 32 * 2 ^ 32 + w.toNat)

/-- A table entry's word {CODE[15:0], 11'b0, LEN[4:0]}; LEN is 0 for a key without an entry (R123). -/
def huffWord (t : List HuffEntry) (key : Nat) : Word :=
  match t.find? (fun e => e.key == key) with
  | some e => u32 (65536 * e.code + e.len)
  | none => 0

/-- Byte lane t of a BS word; a lane at or beyond BS_CAP reads 0 (R124). -/
def State.bsLane (s : State) (j t : Nat) : Nat :=
  if 4 * j + t < s.cfg.bsCap then (Memory.read s.bs (4 * j + t)).toNat else 0

/-- BS with lane t of word j written; a lane at or beyond BS_CAP ignores the write (R124). -/
def writeLane (c : Config) (j : Nat) (w : Word) (m : Memory Byte) (t : Nat) : Memory Byte :=
  if 4 * j + t < c.bsCap then Memory.write m (4 * j + t) (BitVec.ofNat 8 (w.toNat / 256 ^ t)) else m

/-- The value a register reads as (10_state.md R31 to R47). -/
def State.csrValue (s : State) : Csr → Word
  | .id => 0x44435438
  | .version => 1
  | .ctrl => s.ctrlWord
  | .status => s.statusWord
  | .cmd => s.cmd
  | .arg0 => s.arg0
  | .arg1 => s.arg1
  | .result => s.result
  | .imgW => u32 s.imgW.toNat
  | .imgH => u32 s.imgH.toNat
  | .numBlocks => u32 s.numBlocks
  | .errInfo => s.errInfo
  | .bsWptr => s.writer.wptr
  | .bsWstate => u32 (s.writer.nb.toNat + 256 * s.writer.acc.toNat)
  | .bsRptr => s.reader.rptr
  | .bsRbit => u32 s.reader.rbit.toNat
  | .bsLen => s.bsLen
  | .rleLen => u32 s.rleLen.toNat
  | .param0 => u32 (s.cfg.maxDim + 65536 * s.cfg.dcMaxLen + 16777216 * s.cfg.acMaxLen)
  | .param1 => u32 s.cfg.bsCap
  | .param2 => u32 s.cfg.maxPixels

/-- The data of a host read while the core is not busy (R122 to R125, R128). -/
def State.valueAt (s : State) : Target → Word
  | .misaligned => 0
  | .unmapped => 0
  | .reserved => 0
  | .csr r => s.csrValue r
  | .vec k => nth s.vec k
  | .iblk n => nth s.iblk n
  | .fblk n hi => half (nth s.fblk n) hi
  | .rlebuf i hi =>
    if hi then (nth s.rlebuf i).value else u32 (keyWord (nth s.rlebuf i).skip (nth s.rlebuf i).cat)
  | .zigzag k => u32 (s.zz k)
  | .qtabY n => u32 (nth s.cfg.qtabY n)
  | .qtabC n => u32 (nth s.cfg.qtabC n)
  | .dctC n hi => half (nth s.cfg.dctC n) hi
  | .hufDc key => huffWord s.cfg.hufDc key
  | .hufAc key => huffWord s.cfg.hufAc key
  | .rgb i =>
    let p := Memory.read s.rgb i
    u32 (p.r.toNat + 256 * p.g.toNat + 65536 * p.b.toNat)
  | .ycc i ch hi => half ((Memory.read s.ycc i).chan ch) hi
  | .coef ch b k => Memory.read s.coef (coefIx ch b k)
  | .bs j => u32 (s.bsLane j 0 + 256 * s.bsLane j 1 + 65536 * s.bsLane j 2 + 16777216 * s.bsLane j 3)

/-- A host write of w to a register: the read-only ones ignore it (10_state.md R31 to R47, R128). -/
def State.writeCsr (s : State) (w : Word) : Csr → State
  | .ctrl => s.writeCtrl w
  | .status => s.writeStatus w
  | .cmd => s.writeCmd w
  | .arg0 => { s with arg0 := w }
  | .arg1 => { s with arg1 := w }
  | .imgW => { s with imgW := BitVec.ofNat 16 w.toNat }
  | .imgH => { s with imgH := BitVec.ofNat 16 w.toNat }
  | .bsLen => { s with bsLen := u32 (min w.toNat s.cfg.bsCap) }
  | .rleLen => { s with rleLen := BitVec.ofNat 7 (min (w.toNat % 128) 64) }
  | .id | .version | .result | .numBlocks | .errInfo | .bsWptr | .bsWstate | .bsRptr | .bsRbit | .param0 | .param1
  | .param2 => s

/-- A host write of w while the core is not busy (R122 to R125, R128). -/
def State.writeAt (s : State) (w : Word) : Target → State
  | .misaligned | .unmapped | .reserved | .zigzag _ | .qtabY _ | .qtabC _ | .dctC _ _ | .hufDc _ | .hufAc _ => s
  | .csr r => s.writeCsr w r
  | .vec k => { s with vec := put s.vec k w }
  | .iblk n => { s with iblk := put s.iblk n w }
  | .fblk n hi => { s with fblk := put s.fblk n (setHalf (nth s.fblk n) hi w) }
  | .rlebuf i hi =>
    let y := nth s.rlebuf i
    { s with
      rlebuf := put s.rlebuf i
        (if hi then { y with value := w }
         else { y with skip := BitVec.ofNat 4 w.toNat, cat := BitVec.ofNat 6 (w.toNat / 16) }) }
  | .rgb i =>
    { s with
      rgb := Memory.write s.rgb i
        ⟨BitVec.ofNat 8 w.toNat, BitVec.ofNat 8 (w.toNat / 256), BitVec.ofNat 8 (w.toNat / 65536)⟩ }
  | .ycc i ch hi =>
    let p := Memory.read s.ycc i
    { s with ycc := Memory.write s.ycc i (p.setChan ch (setHalf (p.chan ch) hi w)) }
  | .coef ch b k => { s with coef := Memory.write s.coef (coefIx ch b k) w }
  | .bs j => { s with bs := (List.range 4).foldl (writeLane s.cfg j w) s.bs }

/-- The `err` answer: only a misaligned or an unmapped address errs (R125, R128, 60_exceptions.md R469). -/
def busErr : Target → Bool
  | .misaligned => true
  | .unmapped => true
  | .reserved => false
  | .csr _ => false
  | .vec _ => false
  | .iblk _ => false
  | .fblk _ _ => false
  | .rlebuf _ _ => false
  | .zigzag _ => false
  | .qtabY _ => false
  | .qtabC _ => false
  | .dctC _ _ => false
  | .hufDc _ => false
  | .hufAc _ => false
  | .rgb _ => false
  | .ycc _ _ _ => false
  | .coef _ _ _ => false
  | .bs _ => false

/-- The targets whose reads return their values while BUSY = 1 (10_state.md R54). -/
def openToRead : Target → Bool
  | .csr .id | .csr .version | .csr .ctrl | .csr .status => true
  | t => busErr t

/-- The targets whose writes are not dropped while BUSY = 1 (R54); a misaligned or unmapped write has no effect and
changes no STATUS bit (R469; log 7). -/
def openToWrite : Target → Bool
  | .csr .ctrl | .csr .status => true
  | t => busErr t

/-- A host read (R120, R127): no side effect; while BUSY = 1 the data of most targets is a free value (R54, U2; log 6),
and only then the counter of free values moves on. -/
def State.busRead (s : State) (a : Word) : State :=
  let t := targetOf s.cfg a.toNat
  if s.status.busy && !openToRead t then
    { s with response := some (.read (Config.busyData s.free) (busErr t)), free := s.free + 1 }
  else { s with response := some (.read (s.valueAt t) (busErr t)) }

/-- A host write (R120): while BUSY = 1 most writes are dropped (R54), and while ERR = 1 a write to CMD
(60_exceptions.md R466). A dropped write of a mapped address answers err = 0 in both cases: DEDUCED, unsafe, no rule names
its err (log 6). -/
def State.busWrite (s : State) (a w : Word) : State :=
  let t := targetOf s.cfg a.toNat
  let s' := if s.status.busy && !openToWrite t then s.dropWrite else s.writeAt w t
  { s' with response := some (.write (busErr t)) }

end Sys2Proof.Machine
end

