-- ==== Sys2Proof/Machine/Color.lean ====
section
/-! DEFINITION. The colour transform: CSC_FWD and CSC_INV (spec/40_color_transform.md). -/

namespace Sys2Proof.Machine

/-- `f64(n)` of a byte. -/
def byteValue (b : Byte) : F64 := F64.ofInt b.toNat

/-- Y of a pixel (R200). -/
def lumaOf (p : Pixel) : F64 :=
  F64.add (F64.add (F64.mul (F64.lit 299 1000) (byteValue p.r)) (F64.mul (F64.lit 587 1000) (byteValue p.g)))
    (F64.mul (F64.lit 114 1000) (byteValue p.b))

/-- `rgb_to_ycbcr(R, G, B)` (R200). Its inputs are bytes, so no result is a NaN and the NaN pattern given here is
never stored. -/
def rgbToYcc (p : Pixel) : YccPixel :=
  let y := lumaOf p
  { y := F64.toBits 0 y
    cb := F64.toBits 0 (F64.mul (F64.lit 564 1000) (F64.sub (byteValue p.b) y))
    cr := F64.toBits 0 (F64.mul (F64.lit 713 1000) (F64.sub (byteValue p.r) y)) }

/-- R', G' and B' of a pixel (R205). -/
def rgbValues (p : YccPixel) : F64 × F64 × F64 :=
  let y := F64.ofBits p.y
  let cb := F64.ofBits p.cb
  let cr := F64.ofBits p.cr
  (F64.add y (F64.mul (F64.lit 1402 1000) cr),
   F64.sub (F64.sub y (F64.mul (F64.lit 344 1000) cb)) (F64.mul (F64.lit 714 1000) cr),
   F64.add y (F64.mul (F64.lit 1772 1000) cb))

/-- `roundHA(clamp(x, 0.0, 255.0))` as a byte, for an x that is not a NaN (R205). -/
def channelByte (x : F64) : Byte :=
  match F64.roundHA (F64.clamp x (F64.ofInt 0) (F64.ofInt 255)) with
  | some z => BitVec.ofInt 8 z
  | none => 0

/-- `ycbcr_to_rgb(Y, Cb, Cr, i)` (R205): NUM_RANGE(i) when R', G' or B' is a NaN. -/
def yccToRgb (p : YccPixel) (i : Nat) : Except Raised Pixel :=
  let v := rgbValues p
  if F64.isNan v.1 || F64.isNan v.2.1 || F64.isNan v.2.2 then raised .numRange i
  else .ok ⟨channelByte v.1, channelByte v.2.1, channelByte v.2.2⟩

/-- CSC_FWD (R201). -/
def execCscFwd (s : State) : Host.Outcome State Fault Refusal :=
  settle s <|
    match s.checkGeometry with
    | .error e => .error e
    | .ok () =>
      .ok { s with
        ycc := Memory.writeAll s.ycc
          ((List.range s.numPixels).map fun i => (i, rgbToYcc (Memory.read s.rgb i))) }

/-- CSC_INV (R206): all results first, then all writes. -/
def execCscInv (s : State) : Host.Outcome State Fault Refusal :=
  settle s <|
    match s.checkGeometry with
    | .error e => .error e
    | .ok () =>
      match collect (fun i => yccToRgb (Memory.read s.ycc i) i) (List.range s.numPixels) with
      | .error e => .error e
      | .ok out => .ok { s with rgb := Memory.writeAll s.rgb ((List.range s.numPixels).zip out) }

end Sys2Proof.Machine
end

