-- ==== Sys2Proof/Machine/DcPred.lean ====
section
/-! DEFINITION. DC prediction: DCENC and DCDEC (spec/45_dc_predictor.md). -/

namespace Sys2Proof.Machine

/-- The DC term of block b of channel ch. -/
def dcTerm (m : Memory Word) (ch : Channel) (b : Nat) : Word := Memory.read m (coefIx ch b 0)

/-- The loop of DCENC over i = k, k − 1, …, 1 (R300): `COEF[ch][i][0] <- s32(COEF[ch][i][0] - COEF[ch][i-1][0])`. -/
def dcEncode (ch : Channel) : Nat → Memory Word → Memory Word
  | 0, m => m
  | k + 1, m =>
    dcEncode ch k (Memory.write m (coefIx ch (k + 1) 0) (dcTerm m ch (k + 1) - dcTerm m ch k))

/-- The loop of DCDEC over i = 1, 2, …, k (R301): `COEF[ch][i][0] <- s32(COEF[ch][i][0] + COEF[ch][i-1][0])`. -/
def dcDecode (ch : Channel) : Nat → Memory Word → Memory Word
  | 0, m => m
  | k + 1, m =>
    let m' := dcDecode ch k m
    Memory.write m' (coefIx ch (k + 1) 0) (dcTerm m' ch (k + 1) + dcTerm m' ch k)

/-- DCENC ch (R300). -/
def execDcenc (ch : Channel) (s : State) : Host.Outcome State Fault Refusal :=
  settle s <|
    match s.checkGeometry with
    | .error e => .error e
    | .ok () => .ok { s with coef := dcEncode ch (s.numBlocks - 1) s.coef }

/-- DCDEC ch (R301). -/
def execDcdec (ch : Channel) (s : State) : Host.Outcome State Fault Refusal :=
  settle s <|
    match s.checkGeometry with
    | .error e => .error e
    | .ok () => .ok { s with coef := dcDecode ch (s.numBlocks - 1) s.coef }

end Sys2Proof.Machine
end

