-- ==== Sys2Proof/Machine/Dct.lean ====
section
/-! DEFINITION. The commands FDCT and IDCT (spec/42_dct.md). -/

namespace Sys2Proof.Machine

/-- FDCT (R243). -/
def execFdct (s : State) : Host.Outcome State Fault Refusal :=
  settle s <|
    .ok { s with
      fblk := patternsOf s.free (fdctOf (valuesOf s.cfg.dctC) (valuesOf s.fblk))
      free := s.free + 1 }

/-- IDCT (R244). -/
def execIdct (s : State) : Host.Outcome State Fault Refusal :=
  settle s <|
    .ok { s with
      fblk := patternsOf s.free (idctOf (valuesOf s.cfg.dctC) (valuesOf s.fblk))
      free := s.free + 1 }

end Sys2Proof.Machine
end

