-- ==== Sys2Proof/Machine/Rle.lean ====
section
/-! DEFINITION. Category and run-length coding: RLEENC, RLEDEC, CATEGORY (spec/46_rle.md). -/

namespace Sys2Proof.Machine

/-- `category(v)` (R320): the least m with |v| < 2^m. -/
def categoryOf (v : Int) : Nat := if v = 0 then 0 else Nat.log2 v.natAbs + 1

/-- The symbol {15, 0, 0} (R322). -/
def zrlSymbol : Symbol := ⟨15, 0, 0⟩

/-- The symbol {0, 0, 0} of a slot ≥ 1 (R322). -/
def eobSymbol : Symbol := ⟨0, 0, 0⟩

/-- The symbol {skip, category(v), v} (R322). -/
def valueSymbol (skip : Nat) (v : Word) : Symbol := ⟨BitVec.ofNat 4 skip, BitVec.ofNat 6 (categoryOf v.toInt), v⟩

/-- The scan of the AC positions with the zero-run counter `skip` (R323). -/
def rleScan : List Word → Nat → List Symbol
  | [], _ => []
  | v :: rest, skip =>
    if v = 0 then
      (if skip + 1 = 16 then zrlSymbol :: rleScan rest 0 else rleScan rest (skip + 1))
    else valueSymbol skip v :: rleScan rest 0

/-- All trailing ZRL symbols removed (R323). -/
def trimZrl (l : List Symbol) : List Symbol := (l.reverse.dropWhile (· == zrlSymbol)).reverse

/-- `rle_encode(V)` (R323, as resolved in 90_conflicts.md C1): an EOB exactly when V[63] = 0. The DC symbol is never
trimmed. -/
def rleEncode (v : Block Word) : List Symbol :=
  let ac := rleScan (v.toList.drop 1) 0
  valueSymbol 0 (nth v 0) :: (if nth v 63 = 0 then trimZrl ac ++ [eobSymbol] else ac)

/-- The symbol buffer with its first slots replaced; the other slots keep their contents (R324, 10_state.md R52). -/
def State.setSymbols (s : State) (out : List Symbol) : State :=
  { s with
    rlebuf := blockOf fun i => if i < out.length then out.getD i default else nth s.rlebuf i
    rleLen := BitVec.ofNat 7 out.length }

/-- RLEENC (R324). -/
def execRleenc (s : State) : Host.Outcome State Fault Refusal :=
  settle s <| .ok (s.setSymbols (rleEncode s.vec))

/-- The valid symbols, RLEBUF[0..RLE_LEN−1] (R46). -/
def State.symbols (s : State) : List Symbol := s.rlebuf.toList.take s.rleLen.toNat

/-- The loop of `rle_decode` from position p (R325): only skip and cat decide a symbol's kind, and a value beyond
position 63 is dropped. -/
def rleExpand : List Symbol → Nat → Block Word → Block Word
  | [], _, v => v
  | y :: rest, p, v =>
    if 64 ≤ p then v
    else if y.skip = 0 ∧ y.cat = 0 then v
    else if y.skip = 15 ∧ y.cat = 0 then rleExpand rest (p + 16) v
    else
      let q := p + y.skip.toNat
      rleExpand rest (q + 1) (if q ≤ 63 then put v q y.value else v)

/-- `rle_decode(buf, L)` of the valid symbols (R325). -/
def rleDecode (buf : List Symbol) : Block Word :=
  rleExpand (buf.drop 1) 1 (put (blockOf fun _ => 0) 0 (buf.headD default).value)

/-- RLEDEC (R326). -/
def execRledec (s : State) : Host.Outcome State Fault Refusal :=
  settle s <|
    if s.rleLen = 0 then raised .badOperand 0 else .ok { s with vec := rleDecode s.symbols }

/-- CATEGORY (R321). -/
def execCategory (s : State) : Host.Outcome State Fault Refusal :=
  settle s <| .ok { s with result := u32 (categoryOf s.arg0Signed) }

end Sys2Proof.Machine
end

