-- ==== Sys2Proof/Machine/SignedMag.lean ====
section
/-! DEFINITION. The signed-magnitude codec: SMWRITE and SMREAD (spec/48_signed_magnitude.md). -/

namespace Sys2Proof.Machine

/-- `sm_bits(v, n)` (R400): |v| masked to n bits, complemented for a negative v. -/
def smBits (v : Int) (n : Nat) : List Bool :=
  if 0 ≤ v then bitString (v.natAbs % 2 ^ n) n else bitString (2 ^ n - 1 - v.natAbs % 2 ^ n) n

/-- `sm_value(raw, n)` (R401). -/
def smValue (raw n : Nat) : Int :=
  if n = 0 then 0
  else if raw.testBit (n - 1) then raw
  else -((2 ^ n - 1 - raw : Nat) : Int)

/-- SMWRITE (R402). -/
def execSmwrite (s : State) : Host.Outcome State Fault Refusal :=
  settle s <|
    match s.bitCount with
    | .error e => .error e
    | .ok n => s.bitWrite (smBits s.arg0Signed n)

/-- SMREAD (R403). -/
def execSmread (s : State) : Host.Outcome State Fault Refusal :=
  settle s <|
    match s.bitCount with
    | .error e => .error e
    | .ok n =>
      match s.bitRead n s.readPos 0 with
      | .error e => .error e
      | .ok (raw, pos) => .ok { s.setReadPos pos with result := BitVec.ofInt 32 (smValue raw n) }

end Sys2Proof.Machine
end

