-- ==== Sys2Proof/Machine/Huffman.lean ====
section
/-! DEFINITION. Huffman coding and bitstream input and output (spec/47_huffman_bitstream.md). -/

namespace Sys2Proof.Machine

/-- `huf_code(T, key)` (R363): the code's bits, none when the key has no entry. -/
def huffCode (t : List HuffEntry) (key : Nat) : Option (List Bool) :=
  (t.find? fun e => e.key == key).map fun e => bitString e.code e.len

/-- The key whose code is the `len`-bit string of value v (R364). -/
def huffKey (t : List HuffEntry) (v len : Nat) : Option Nat :=
  (t.find? fun e => e.len == len && e.code == v).map HuffEntry.key

/-- The loop of `huf_match` (R364): `len` bits of value v were read, `more` bits may follow the next one; the key and
the position after its code. -/
def State.huffLoop (s : State) (t : List HuffEntry) (start : Nat) :
    (more pos v len : Nat) → Except Raised (Nat × Nat)
  | 0, pos, v, len =>
    match s.bitAt pos with
    | .error e => .error e
    | .ok bit =>
      match huffKey t (2 * v + bit.toNat) (len + 1) with
      | some k => .ok (k, pos + 1)
      | none => raised .huffNomatch start
  | more + 1, pos, v, len =>
    match s.bitAt pos with
    | .error e => .error e
    | .ok bit =>
      match huffKey t (2 * v + bit.toNat) (len + 1) with
      | some k => .ok (k, pos + 1)
      | none => s.huffLoop t start more (pos + 1) (2 * v + bit.toNat) (len + 1)

/-- `huf_match(T, maxlen)` from a working position (R364). -/
def State.huffMatch (s : State) (t : List HuffEntry) (maxLen pos : Nat) : Except Raised (Nat × Nat) :=
  s.huffLoop t pos (maxLen - 1) pos 0 0

/-- The AC part of `block_bits` (R365): `rest` are the slots from slot i on, p is the next coefficient position, len
is RLE_LEN. -/
def acBits (t : List HuffEntry) (len : Nat) : (rest : List Symbol) → (i p : Nat) → Except Raised (List Bool)
  | [], _, p => if p < 64 then raised .badOperand len else .ok []
  | y :: rest, i, p =>
    if 64 ≤ p then .ok []
    else
      match huffCode t (keyWord y.skip y.cat) with
      | none => raised .tableMiss (65536 * i + keyWord y.skip y.cat)
      | some code =>
        if y.skip = 0 ∧ y.cat = 0 then .ok code
        else if y.skip = 15 ∧ y.cat = 0 then (acBits t len rest (i + 1) (p + 16)).map (code ++ ·)
        else
          (acBits t len rest (i + 1) (p + y.skip.toNat + 1)).map
            ((code ++ smBits y.value.toInt y.cat.toNat) ++ ·)

/-- `block_bits(buf, L)` (R365). -/
def blockBits (c : Config) (buf : List Symbol) (len : Nat) : Except Raised (List Bool) :=
  match buf with
  | [] => raised .badOperand 0
  | dc :: rest =>
    match huffCode c.hufDc dc.cat.toNat with
    | none => raised .tableMiss (16 * dc.cat.toNat)
    | some code =>
      (acBits c.hufAc len rest 1 1).map ((code ++ smBits dc.value.toInt dc.cat.toNat) ++ ·)

/-- HUFENC (R367). -/
def execHufenc (s : State) : Host.Outcome State Fault Refusal :=
  settle s <|
    match blockBits s.cfg s.symbols s.rleLen.toNat with
    | .error e => .error e
    | .ok bits => s.bitWrite bits

/-- The AC loop of `block_parse` (R366) from bit position pos and coefficient position p. Each turn fills at least one
coefficient, so `fuel` = 64 turns are enough (log 14). -/
def State.acParse (s : State) : (fuel pos p : Nat) → Except Raised (List Symbol × Nat)
  | 0, pos, _ => .ok ([], pos)
  | fuel + 1, pos, p =>
    if 64 ≤ p then .ok ([], pos)
    else
      match s.huffMatch s.cfg.hufAc s.cfg.acMaxLen pos with
      | .error e => .error e
      | .ok (key, pos) =>
        let skip := key % 16
        let cat := key / 16
        if skip = 0 ∧ cat = 0 then .ok ([eobSymbol], pos)
        else if skip = 15 ∧ cat = 0 then
          (s.acParse fuel pos (p + 16)).map fun r => (zrlSymbol :: r.1, r.2)
        else
          match s.bitRead cat pos 0 with
          | .error e => .error e
          | .ok (raw, pos) =>
            (s.acParse fuel pos (p + skip + 1)).map fun r =>
              (⟨BitVec.ofNat 4 skip, BitVec.ofNat 6 cat, BitVec.ofInt 32 (smValue raw cat)⟩ :: r.1, r.2)

/-- `block_parse()` (R366): the symbols and the working position after the block. -/
def State.blockParse (s : State) : Except Raised (List Symbol × Nat) :=
  match s.huffMatch s.cfg.hufDc s.cfg.dcMaxLen s.readPos with
  | .error e => .error e
  | .ok (cat, pos) =>
    match s.bitRead cat pos 0 with
    | .error e => .error e
    | .ok (raw, pos) =>
      (s.acParse 64 pos 1).map fun r =>
        (⟨0, BitVec.ofNat 6 cat, BitVec.ofInt 32 (smValue raw cat)⟩ :: r.1, r.2)

/-- HUFDEC (R368). -/
def execHufdec (s : State) : Host.Outcome State Fault Refusal :=
  settle s <|
    match s.blockParse with
    | .error e => .error e
    | .ok (out, pos) => .ok ((s.setSymbols out).setReadPos pos)

/-- HUFPUTDC (R369). -/
def execHufputdc (s : State) : Host.Outcome State Fault Refusal :=
  settle s <|
    match huffCode s.cfg.hufDc s.arg0Nat with
    | none => raised .tableMiss s.arg0Nat
    | some code => s.bitWrite code

/-- HUFPUTAC (R370). -/
def execHufputac (s : State) : Host.Outcome State Fault Refusal :=
  settle s <|
    match s.arg0Key.bind (huffCode s.cfg.hufAc) with
    | none => raised .tableMiss s.arg0Nat
    | some code => s.bitWrite code

/-- HUFGETDC (R371). -/
def execHufgetdc (s : State) : Host.Outcome State Fault Refusal :=
  settle s <|
    match s.huffMatch s.cfg.hufDc s.cfg.dcMaxLen s.readPos with
    | .error e => .error e
    | .ok (key, pos) => .ok { s.setReadPos pos with result := u32 key }

/-- HUFGETAC (R372): RESULT is the key word (cat << 4) | skip. -/
def execHufgetac (s : State) : Host.Outcome State Fault Refusal :=
  settle s <|
    match s.huffMatch s.cfg.hufAc s.cfg.acMaxLen s.readPos with
    | .error e => .error e
    | .ok (key, pos) => .ok { s.setReadPos pos with result := u32 key }

/-- PUTBITS (R373). -/
def execPutbits (s : State) : Host.Outcome State Fault Refusal :=
  settle s <|
    match s.bitCount with
    | .error e => .error e
    | .ok n => s.bitWrite (bitString s.arg0Nat n)

/-- GETBITS (R374). -/
def execGetbits (s : State) : Host.Outcome State Fault Refusal :=
  settle s <|
    match s.bitCount with
    | .error e => .error e
    | .ok n =>
      match s.bitRead n s.readPos 0 with
      | .error e => .error e
      | .ok (v, pos) => .ok { s.setReadPos pos with result := u32 v }

/-- FLUSH (R375). -/
def execFlush (s : State) : Host.Outcome State Fault Refusal :=
  settle s <|
    if s.writer.nb = 0 then .ok s else s.bitWrite (List.replicate (8 - s.writer.nb.toNat) false)

/-- BSWRST (R376). -/
def execBswrst (s : State) : Host.Outcome State Fault Refusal :=
  settle s <| .ok { s with writer := ⟨0, 0, 0⟩ }

/-- BSRRST (R377). -/
def execBsrrst (s : State) : Host.Outcome State Fault Refusal :=
  settle s <| .ok { s with reader := ⟨0, 0⟩ }

end Sys2Proof.Machine
end

