-- ==== Sys2Proof/Machine/Quant.lean ====
section
/-! DEFINITION. The quantizer: QUANT and DEQUANT (spec/43_quantizer.md). -/

namespace Sys2Proof.Machine

/-- One element of QUANT (R262): NUM_RANGE(n) for a quotient that is not finite or rounds outside 32 bits. -/
def quantElement (x : Double) (q n : Nat) : Except Raised Word :=
  match F64.roundHA (F64.div (F64.ofBits x) (F64.ofInt q)) with
  | none => raised .numRange n
  | some z => if z < -(2 ^ 31) ∨ 2 ^ 31 - 1 < z then raised .numRange n else .ok (BitVec.ofInt 32 z)

/-- QUANT ch (R262). -/
def execQuant (ch : Channel) (s : State) : Host.Outcome State Fault Refusal :=
  settle s <|
    match collect (fun n => quantElement (nth s.fblk n) (nth (s.quantTable ch) n) n) (List.range 64) with
    | .error e => .error e
    | .ok out => .ok { s with iblk := blockOf fun n => out.getD n 0 }

/-- One element of DEQUANT (R263): the integer product, converted exactly. -/
def dequantElement (v : Word) (q : Nat) : Double := F64.toBits 0 (F64.ofInt (v.toInt * q))

/-- DEQUANT ch (R263). -/
def execDequant (ch : Channel) (s : State) : Host.Outcome State Fault Refusal :=
  settle s <|
    .ok { s with fblk := blockOf fun n => dequantElement (nth s.iblk n) (nth (s.quantTable ch) n) }

end Sys2Proof.Machine
end

