-- ==== Sys2Proof/Machine/Subsample.lean ====
section
/-! DEFINITION. Chroma subsampling: SUBSAMPLE (spec/41_chroma_subsample.md). -/

namespace Sys2Proof.Machine

/-- The index of the top left pixel p0 of the 2×2 group that pixel i belongs to, in an image of width w (R220). -/
def groupOrigin (w i : Nat) : Nat := 2 * (i / w / 2) * w + 2 * (i % w / 2)

/-- The number of that group, which tells free NaN patterns apart. -/
def groupNo (w i : Nat) : Nat := i / w / 2 * (w / 2) + i % w / 2

/-- `mean(ch)` of the group whose first pixel is p0 (R220): (((p0 + p1) + p2) + p3) / 4. -/
def groupMean (s : State) (ch : Channel) (p0 : Nat) : F64 :=
  let v := fun i => F64.ofBits ((Memory.read s.ycc i).chan ch)
  let w := s.imgW.toNat
  F64.div (F64.add (F64.add (F64.add (v p0) (v (p0 + 1))) (v (p0 + w))) (v (p0 + w + 1))) (F64.ofInt 4)

/-- Pixel i with Cb and Cr replaced by its group's means, Y untouched (R221). The four pixels of a group get the same
bits, a NaN mean included (93_implementation_defined.md U4, log 5). -/
def subsampled (s : State) (i : Nat) : YccPixel :=
  let w := s.imgW.toNat
  let p0 := groupOrigin w i
  let g := groupNo w i
  { y := (Memory.read s.ycc i).y
    cb := F64.toBits (freeNan s.free (2 * g)) (groupMean s .cb p0)
    cr := F64.toBits (freeNan s.free (2 * g + 1)) (groupMean s .cr p0) }

/-- SUBSAMPLE (R221). The groups do not overlap, so every mean is taken from the values before the command. -/
def execSubsample (s : State) : Host.Outcome State Fault Refusal :=
  settle s <|
    match s.checkGeometry with
    | .error e => .error e
    | .ok () =>
      .ok { s with
        ycc := Memory.writeAll s.ycc ((List.range s.numPixels).map fun i => (i, subsampled s i))
        free := s.free + 1 }

end Sys2Proof.Machine
end

