-- ==== Sys2Proof/Machine/Transfer.lean ====
section
/-! DEFINITION. NOP and the block transfers (spec/49_transfer_system.md). -/

namespace Sys2Proof.Machine

/-- NOP (R420): only the completion. -/
def execNop (s : State) : Host.Outcome State Fault Refusal := settle s (.ok s)

/-- LOADBLK ch, b (R421): copied bit for bit. -/
def execLoadblk (ch : Channel) (b : Nat) (s : State) : Host.Outcome State Fault Refusal :=
  settle s <|
    match s.checkBlock b with
    | .error e => .error e
    | .ok () => .ok { s with fblk := blockOf fun n => (Memory.read s.ycc (s.pix b n)).chan ch }

/-- STOREBLK ch, b (R422): only channel ch of the 64 pixels is written. -/
def execStoreblk (ch : Channel) (b : Nat) (s : State) : Host.Outcome State Fault Refusal :=
  settle s <|
    match s.checkBlock b with
    | .error e => .error e
    | .ok () =>
      .ok { s with
        ycc := Memory.writeAll s.ycc
          ((List.range 64).map fun n =>
            (s.pix b n, (Memory.read s.ycc (s.pix b n)).setChan ch (nth s.fblk n))) }

/-- LOADVEC ch, b (R423). -/
def execLoadvec (ch : Channel) (b : Nat) (s : State) : Host.Outcome State Fault Refusal :=
  settle s <|
    match s.checkBlock b with
    | .error e => .error e
    | .ok () => .ok { s with vec := blockOf fun k => Memory.read s.coef (coefIx ch b k) }

/-- STOREVEC ch, b (R424). -/
def execStorevec (ch : Channel) (b : Nat) (s : State) : Host.Outcome State Fault Refusal :=
  settle s <|
    match s.checkBlock b with
    | .error e => .error e
    | .ok () =>
      .ok { s with
        coef := Memory.writeAll s.coef ((List.range 64).map fun k => (coefIx ch b k, nth s.vec k)) }

end Sys2Proof.Machine
end

