-- ==== Sys2Proof/Machine/Dispatch.lean ====
section
/-! DEFINITION. The meaning of every command, one arm per constructor of Instr (spec/30_encoding.md R156). -/

namespace Sys2Proof.Machine

def exec (i : Instr) (s : State) : Host.Outcome State Fault Refusal :=
  match i with
  | .nop => Sys2Proof.Machine.execNop s
  | .cscFwd => Sys2Proof.Machine.execCscFwd s
  | .cscInv => Sys2Proof.Machine.execCscInv s
  | .subsample => Sys2Proof.Machine.execSubsample s
  | .fdct => Sys2Proof.Machine.execFdct s
  | .idct => Sys2Proof.Machine.execIdct s
  | .quant ch => Sys2Proof.Machine.execQuant ch s
  | .dequant ch => Sys2Proof.Machine.execDequant ch s
  | .zigzag => Sys2Proof.Machine.execZigzag s
  | .unzigzag => Sys2Proof.Machine.execUnzigzag s
  | .dcenc ch => Sys2Proof.Machine.execDcenc ch s
  | .dcdec ch => Sys2Proof.Machine.execDcdec ch s
  | .rleenc => Sys2Proof.Machine.execRleenc s
  | .rledec => Sys2Proof.Machine.execRledec s
  | .category => Sys2Proof.Machine.execCategory s
  | .hufenc => Sys2Proof.Machine.execHufenc s
  | .hufdec => Sys2Proof.Machine.execHufdec s
  | .hufputdc => Sys2Proof.Machine.execHufputdc s
  | .hufputac => Sys2Proof.Machine.execHufputac s
  | .hufgetdc => Sys2Proof.Machine.execHufgetdc s
  | .hufgetac => Sys2Proof.Machine.execHufgetac s
  | .putbits => Sys2Proof.Machine.execPutbits s
  | .getbits => Sys2Proof.Machine.execGetbits s
  | .flush => Sys2Proof.Machine.execFlush s
  | .bswrst => Sys2Proof.Machine.execBswrst s
  | .bsrrst => Sys2Proof.Machine.execBsrrst s
  | .smwrite => Sys2Proof.Machine.execSmwrite s
  | .smread => Sys2Proof.Machine.execSmread s
  | .loadblk ch b => Sys2Proof.Machine.execLoadblk ch b s
  | .storeblk ch b => Sys2Proof.Machine.execStoreblk ch b s
  | .loadvec ch b => Sys2Proof.Machine.execLoadvec ch b s
  | .storevec ch b => Sys2Proof.Machine.execStorevec ch b s

end Sys2Proof.Machine
end

