-- ==== Sys2Proof/Machine/Turn.lean ====
section
/-! DEFINITION. The core's turn: running the accepted command (spec/10_state.md R54, 60_exceptions.md R461). -/

namespace Sys2Proof.Machine

/-- The accepted word is decoded and its command runs; an illegal word ends in ILLEGAL_CMD with ERR_INFO = the word
(R461). -/
def runCommand (s : State) : Host.Outcome State Fault Refusal :=
  match decode s.cmd with
  | .ok i => exec i s
  | .error _ => .next (s.enterError ⟨.illegalCmd, s.cmd⟩)

/-- The core's turn: it runs the accepted command when BUSY = 1, and is idle otherwise (R54, R478). -/
def coreTurn (s : State) : Host.Outcome State Fault Refusal :=
  if s.status.busy then runCommand s else .next s

/-- The word w waiting to be run, as a host write to CMD accepted by R35 leaves it, with ERR = 0 as acceptance needs,
and the host passing (log 2). -/
def State.withCommand (s : State) (w : Word) : State :=
  { s.clearError.acceptCmd w with host := .pass :: s.host }

end Sys2Proof.Machine
end

