-- ==== Sys2Proof/Machine/Step.lean ====
section
/-! DEFINITION. One step of the machine: a host transaction, or the core's turn (spec/20_memory.md R120, R130). -/

namespace Sys2Proof.Machine

/-- One step: the host's next transaction, or, when the host passes or has nothing more to do, the core's turn
(log 1). -/
def step (s : State) : Host.Outcome State Fault Refusal :=
  match s.host with
  | [] => coreTurn s
  | .pass :: rest => coreTurn { s with host := rest }
  | .read a :: rest => .next ({ s with host := rest }.busRead a)
  | .write a w :: rest => .next ({ s with host := rest }.busWrite a w)

/-- `s` with the opcode-table word w accepted and waiting, so that the next step runs it (log 2). -/
def State.withFetchWord (s : State) (nbits w : Nat) : State :=
  s.withCommand (BitVec.ofNat 32 (w % 2 ^ nbits))

end Sys2Proof.Machine
end

