-- ==== Sys2Proof/Safety.lean ====
section
/-! DEFINITION. The terms the claims are written in: the invariant of the machine, how a command ends, the bits the
writer has appended and the reader has before it, and what the spec's prose calls an illegal word, a coded slot, the
nearest binary64 value. No step uses them. -/

namespace Sys2Proof.Machine

/-! ### How a command ends -/

/-- STATUS after a command completes without error (spec/10_state.md R54). -/
def finished (x : Status) : Status := { x with done := true, busy := false }

/-- STATUS after a command ends in the error of the given code (60_exceptions.md R465). -/
def failed (x : Status) (code : BitVec 4) : Status := { x with err := true, errCode := code, busy := false }

/-- Executing i on s ends in the error of the given code with the given ERR_INFO, and changes nothing else (R465). -/
def EndsInError (i : Instr) (s : State) (code : BitVec 4) (info : Nat) : Prop :=
  exec i s = .next { s with status := failed s.status code, errInfo := u32 info }

/-- The value of ERR_INFO of BAD_GEOMETRY, {IMG_H, IMG_W} (60_exceptions.md R460). -/
def State.geometryInfo (s : State) : Nat := 65536 * s.imgH.toNat + s.imgW.toNat

/-! ### The invariant -/

/-- What holds in every state a step leaves from a state in which it holds: the parameters meet their constraints, the
memories are in canonical form and within their sizes, the pointers are in range (10_state.md R42 to R46), the pending
bits are right-aligned (R43), and the flags agree (R34, 60_exceptions.md R471). -/
structure State.Inv (s : State) : Prop where
  params : s.cfg.wf = true
  rgbForm : Memory.wf s.rgb = true
  yccForm : Memory.wf s.ycc = true
  coefForm : Memory.wf s.coef = true
  bsForm : Memory.wf s.bs = true
  rgbSize : within s.cfg.maxPixels s.rgb
  yccSize : within s.cfg.maxPixels s.ycc
  coefSize : within (3 * 4194304) s.coef
  bsSize : within s.cfg.bsCap s.bs
  wptrRange : s.writer.wptr.toNat ≤ s.cfg.bsCap
  pendingBits : s.writer.acc.toNat < 2 ^ s.writer.nb.toNat
  readerRange : s.readPos ≤ 8 * s.cfg.bsCap
  bsLenRange : s.bsLen.toNat ≤ s.cfg.bsCap
  rleLenRange : s.rleLen.toNat ≤ 64
  errIffCode : s.status.err = true ↔ s.status.errCode ≠ 0
  codeRange : s.status.errCode.toNat ≤ 9
  infoOfErr : s.status.err = false → s.errInfo = 0
  busyAlone : s.status.busy = true → s.status.done = false ∧ s.status.err = false
  doneOrErr : ¬(s.status.done = true ∧ s.status.err = true)

/-! ### Command words -/

/-- The values of OPC that name a command (30_encoding.md R156). -/
def legalOpcodes : List Nat :=
  [0x00, 0x10, 0x11, 0x18, 0x20, 0x21, 0x28, 0x29, 0x30, 0x31, 0x38, 0x39, 0x40, 0x41, 0x42] ++
  [0x48, 0x49, 0x4A, 0x4B, 0x4C, 0x4D, 0x4E, 0x4F, 0x50, 0x51, 0x52, 0x58, 0x59, 0x60, 0x61, 0x62, 0x63]

/-- Those whose command uses CH (R151). -/
def chOpcodes : List Nat := [0x28, 0x29, 0x38, 0x39, 0x60, 0x61, 0x62, 0x63]

/-- Those whose command uses BLK (R152). -/
def blkOpcodes : List Nat := [0x60, 0x61, 0x62, 0x63]

/-- A word that is not a legal command, as 60_exceptions.md R461 lists the cases. -/
def IllegalWord (w : Word) : Prop :=
  let opc := (w.extractLsb' 0 8).toNat
  opc ∉ legalOpcodes ∨ w.extractLsb' 10 6 ≠ 0
    ∨ (opc ∉ chOpcodes ∧ w.extractLsb' 8 2 ≠ 0) ∨ (opc ∈ chOpcodes ∧ w.extractLsb' 8 2 = 3)
    ∨ (opc ∉ blkOpcodes ∧ w.extractLsb' 16 16 ≠ 0)

/-- A word selects the row of a command: w & mask = match and, where CH is used, w[9:8] ≠ 3 (R156). -/
def SelectsRow (w : Word) (i : Instr) : Prop :=
  w &&& rowMask i = rowMatch i ∧ (opcodeOf i ∈ chOpcodes → w.extractLsb' 8 2 ≠ 3)

/-! ### The bitstream -/

/-- The bit of BS at a bit position, most significant bit of a byte first (20_memory.md R111). -/
def State.streamBit (s : State) (pos : Nat) : Bool := (Memory.read s.bs (pos / 8)).getLsbD (7 - pos % 8)

/-- The bits appended since the writer was last reset: those of BS[0..BS_WPTR−1] and the pending ones (R110, R111,
10_state.md R42, R43). -/
def State.written (s : State) : List Bool :=
  (List.range (8 * s.writer.wptr.toNat)).map s.streamBit ++ bitString s.writer.acc.toNat s.writer.nb.toNat

/-- The input from bit position `pos` on begins with `bits`, every one of them before BS_LEN (R113). -/
def State.streamHas (s : State) (pos : Nat) (bits : List Bool) : Prop :=
  ∀ i (h : i < bits.length), pos + i < 8 * s.bsLen.toNat ∧ s.streamBit (pos + i) = bits[i]

/-- The reader's registers at a bit position (10_state.md R44). -/
def readerAt (pos : Nat) : Reader := ⟨BitVec.ofNat 32 (pos / 8), BitVec.ofNat 3 (pos % 8)⟩

/-- The first unreadable bit position at or after `pos`: BS_LEN bounds the readable bytes (R113). -/
def State.firstUnreadable (s : State) (pos : Nat) : Nat := max pos (8 * s.bsLen.toNat)

/-- The number whose binary form is the bit-string, first bit most significant (R113). -/
def numberOf (bits : List Bool) : Nat := bits.foldl (fun v b => 2 * v + b.toNat) 0

/-- The state after `bits` were appended to the bitstream of s, with memory m (R110): the writer's registers follow from
the number of bits. Whether m holds the bits is said by `written`. -/
def State.appended (s : State) (bits : List Bool) (m : Memory Byte) (acc : Byte) : State :=
  let n := s.writer.nb.toNat + bits.length
  { s with
    bs := m
    writer := ⟨BitVec.ofNat 32 (s.writer.wptr.toNat + n / 8), acc, BitVec.ofNat 3 (n % 8)⟩
    status := finished s.status }

/-- There is room for `bits` (R110). -/
def State.roomFor (s : State) (bits : List Bool) : Prop :=
  s.writer.wptr.toNat + (s.writer.nb.toNat + bits.length) / 8 ≤ s.cfg.bsCap

/-- Executing i on s appends `bits` and completes: the stream grows by exactly these bits, no byte outside the completed
ones changes, and nothing else changes but the writer's registers and the completion (R110 to R112). -/
def Appends (i : Instr) (s : State) (bits : List Bool) : Prop :=
  ∃ m acc, exec i s = .next (s.appended bits m acc)
    ∧ (s.appended bits m acc).written = s.written ++ bits
    ∧ ∀ j, (j < s.writer.wptr.toNat ∨ s.writer.wptr.toNat + (s.writer.nb.toNat + bits.length) / 8 ≤ j) →
        Memory.read m j = Memory.read s.bs j

/-- The n-bit signed-magnitude code of v, most significant bit first: the low n bits of |v|, inverted for a negative v
(48_signed_magnitude.md R400). -/
def signedMagnitude (v : Int) (n : Nat) : List Bool :=
  (List.range n).map fun i => (v.natAbs.testBit (n - 1 - i)) ^^ decide (v < 0)

/-! ### Symbols -/

/-- m is the category of v: the least m with |v| < 2^m (46_rle.md R320). -/
def IsCategory (v : Int) (m : Nat) : Prop := v.natAbs < 2 ^ m ∧ ∀ k, v.natAbs < 2 ^ k → m ≤ k

/-- A symbol of slot ≥ 1 is an EOB: skip 0 and category 0 (R325). -/
abbrev Symbol.isEob (y : Symbol) : Prop := y.skip = 0 ∧ y.cat = 0

/-- A symbol of slot ≥ 1 is a ZRL: skip 15 and category 0 (R325). -/
abbrev Symbol.isZrl (y : Symbol) : Prop := y.skip = 15 ∧ y.cat = 0

/-- The positions a symbol of slot ≥ 1 advances by: 16 for ZRL, else skip + 1 (R325). -/
def Symbol.advance (y : Symbol) : Nat := if y.isZrl then 16 else y.skip.toNat + 1

/-- The coefficient position before slot i ≥ 1 (R325, 47_huffman_bitstream.md R365): 1 before slot 1, then each slot's
advance. -/
def positionBefore (buf : List Symbol) (i : Nat) : Nat := 1 + (((buf.take i).drop 1).map Symbol.advance).sum

/-- Slot i ≥ 1 of the buffer is coded and expanded: no earlier slot from 1 on is an EOB, and the 64 positions are not
filled before it (R325, R365). -/
def SlotUsed (buf : List Symbol) (i : Nat) : Prop :=
  1 ≤ i ∧ i < buf.length ∧ (∀ j y, 1 ≤ j → j < i → buf[j]? = some y → ¬y.isEob) ∧ positionBefore buf i < 64

/-- Slot i writes its value at position k (R325). -/
def SlotWrites (buf : List Symbol) (i : Nat) (y : Symbol) (k : Nat) : Prop :=
  SlotUsed buf i ∧ buf[i]? = some y ∧ ¬y.isEob ∧ ¬y.isZrl ∧ positionBefore buf i + y.skip.toNat = k

/-- The used slots are the first n, and the block ends there: slot n − 1 is an EOB, or the 64 positions are filled
(R365). -/
def BlockEndsAt (buf : List Symbol) (n : Nat) : Prop :=
  1 ≤ n ∧ n ≤ buf.length ∧ (∀ i, 1 ≤ i → i < n → SlotUsed buf i)
    ∧ ((1 < n ∧ ∃ y, buf[n - 1]? = some y ∧ y.isEob) ∨ 64 ≤ positionBefore buf n)

/-- `out` is the run-length form of the vector v as 46_rle.md R322, R323 and 90_conflicts.md C1 describe it: the DC
symbol; then value symbols (the zeros before a nonzero coefficient, its category, itself), ZRLs (16 zeros) and an EOB
(the rest is zero), the EOB exactly when v[63] = 0 and with no ZRL just before it. -/
structure RunLengthForm (v : Block Word) (out : List Symbol) : Prop where
  count : 1 ≤ out.length ∧ out.length ≤ 64
  dc : ∃ y, out[0]? = some y ∧ y.skip = 0 ∧ IsCategory (nth v 0).toInt y.cat.toNat ∧ y.value = nth v 0
  slot : ∀ i y, 1 ≤ i → out[i]? = some y →
    (y.isEob ∧ y.value = 0 ∧ i + 1 = out.length ∧ ∀ k, positionBefore out i ≤ k → k < 64 → nth v k = 0)
    ∨ (y.isZrl ∧ y.value = 0 ∧ positionBefore out i + 16 ≤ 64
        ∧ ∀ k, positionBefore out i ≤ k → k < positionBefore out i + 16 → nth v k = 0)
    ∨ (y.value ≠ 0 ∧ IsCategory y.value.toInt y.cat.toNat ∧ positionBefore out i + y.skip.toNat < 64
        ∧ nth v (positionBefore out i + y.skip.toNat) = y.value
        ∧ ∀ k, positionBefore out i ≤ k → k < positionBefore out i + y.skip.toNat → nth v k = 0)
  eob : nth v 63 = 0 ↔ ∃ y, 1 < out.length ∧ out[out.length - 1]? = some y ∧ y.isEob
  noPadding : nth v 63 = 0 → ∀ y, 2 < out.length → out[out.length - 2]? = some y → ¬y.isZrl
  filled : nth v 63 ≠ 0 → positionBefore out out.length = 64

/-- A table gives a key the code `bits` (47_huffman_bitstream.md R363). -/
def HasCode (t : List HuffEntry) (key : Nat) (bits : List Bool) : Prop :=
  ∃ e ∈ t, e.key = key ∧ bits = bitString e.code e.len

/-- A table has no entry for a key. -/
def NoCode (t : List HuffEntry) (key : Nat) : Prop := ∀ e ∈ t, e.key ≠ key

/-- The magnitude bits of a symbol of slot ≥ 1: none for EOB and ZRL, else `cat` bits of its value (R365). -/
def Symbol.magnitude (y : Symbol) : List Bool := if y.isEob ∨ y.isZrl then [] else smBits y.value.toInt y.cat.toNat

/-- `bits` is the code of a whole block (R365): the DC code and magnitude, then each later slot's code and magnitude. -/
def CodesBlock (c : Config) (buf : List Symbol) (bits : List Bool) : Prop :=
  ∃ (dc : Symbol) (rest : List Symbol) (dcCode : List Bool) (codes : List (List Bool)),
    buf = dc :: rest ∧ HasCode c.hufDc dc.cat.toNat dcCode
      ∧ List.Forall₂ (fun y code => HasCode c.hufAc (keyWord y.skip y.cat) code) rest codes
      ∧ bits = dcCode ++ smBits dc.value.toInt dc.cat.toNat
          ++ ((rest.zip codes).map fun p => p.2 ++ p.1.magnitude).flatten

/-- `bits` is the code of the first symbols `buf` of a block that goes on after them (R366): no symbol yet, or no EOB among
them and the 64 positions not filled. -/
def CodesOpenBlock (c : Config) (buf : List Symbol) (bits : List Bool) : Prop :=
  (buf = [] ∧ bits = []) ∨
    (CodesBlock c buf bits ∧ (∀ i y, 1 ≤ i → buf[i]? = some y → ¬y.isEob) ∧ positionBefore buf buf.length < 64)

/-- The symbols a parse can give (R366): the DC symbol has skip 0, EOB and ZRL have value 0, and every other value has the
category of its symbol. -/
def ParsedSymbol (i : Nat) (y : Symbol) : Prop :=
  (i = 0 → y.skip = 0) ∧ IsCategory y.value.toInt y.cat.toNat

/-- v reads as a table's entry for a key, {CODE[15:0], 11'b0, LEN[4:0]}, LEN = 0 where it has none (20_memory.md
R123). -/
def ReadsAsEntry (t : List HuffEntry) (key : Nat) (v : Word) : Prop :=
  v.extractLsb' 5 11 = 0 ∧ (NoCode t key → v.extractLsb' 0 5 = 0) ∧
    ∀ e ∈ t, e.key = key → (v.extractLsb' 0 5).toNat = e.len ∧ (v.extractLsb' 16 16).toNat = e.code

/-! ### Images -/

/-- The pixel index of element (r, c) of block b in an image of width w (00_scope.md R14). -/
def pixelOf (w b r c : Nat) : Nat := (8 * (b / (w / 8)) + r) * w + 8 * (b % (w / 8)) + c

/-! ### Numbers -/

/-- The real value of a finite binary64 value. -/
def F64.toRat : F64 → Option ℚ
  | .nan => none
  | .inf _ => none
  | .fin s m e => some ((signed s m : ℚ) * (2 : ℚ) ^ e)

/-- r is x rounded to binary64, to nearest, ties to even (00_scope.md R10): no binary64 value is nearer to x, and of two
equally near the one with the even significand is taken; from 2^1024 − 2^970 on the result is an infinity of the sign of
x. -/
def Nearest (x : ℚ) : F64 → Prop
  | .nan => False
  | .inf s => (s = true ↔ x < 0) ∧ (2 : ℚ) ^ 1024 - 2 ^ 970 ≤ |x|
  | .fin s m e =>
    F64.Canon (.fin s m e) ∧ |x| < (2 : ℚ) ^ 1024 - 2 ^ 970
      ∧ ∀ t n f, F64.Canon (.fin t n f) →
          |x - signed s m * (2 : ℚ) ^ e| ≤ |x - signed t n * (2 : ℚ) ^ f|
            ∧ (|x - signed s m * (2 : ℚ) ^ e| = |x - signed t n * (2 : ℚ) ^ f| →
                signed t n * (2 : ℚ) ^ f = signed s m * (2 : ℚ) ^ e ∨ m % 2 = 0)

/-- z is the integer nearest to x, the one farther from zero of two equally near (R10). -/
def NearestAway (x : ℚ) (z : Int) : Prop :=
  |x - z| ≤ 1 / 2 ∧ (|x - z| = 1 / 2 → |x| < |(z : ℚ)|)

/-- The eight-term sum of 42_dct.md R242, from +0.0, in ascending order, every sum rounded. -/
def sum8 (f : Nat → F64) : F64 :=
  let z : F64 := .fin false 0 (-1074)
  F64.add (F64.add (F64.add (F64.add (F64.add (F64.add (F64.add (F64.add z (f 0)) (f 1)) (f 2)) (f 3)) (f 4)) (f 5))
    (f 6)) (f 7)

/-- The constraint of 42_dct.md R241 on the basis of a core: FDCT followed by IDCT gives every finite sample in −300..500
(the range the rule's own check uses; log 9) back within 1e-9. -/
def DctRoundTrips (c : Config) : Prop :=
  ∀ s t u : State, s.cfg = c → (∀ n < 64, ∃ q, (F64.ofBits (nth s.fblk n)).toRat = some q ∧ -300 ≤ q ∧ q ≤ 500) →
    exec .fdct s = .next t → exec .idct t = .next u →
    ∀ n < 64, ∃ p q, (F64.ofBits (nth u.fblk n)).toRat = some p ∧ (F64.ofBits (nth s.fblk n)).toRat = some q ∧
      |p - q| ≤ 1 / 10 ^ 9

end Sys2Proof.Machine
end

