-- ==== Sys2Proof/Certificates/Slice0/Obligations.lean ====
section
/-! DEFINITION. The statements for the provers. Each says which rule of spec/ it formalises. -/

open Sys2Proof Sys2Proof.Machine

/-! ## Encoding and decoding -/

/-- A word decodes to a command exactly when the command is well formed and the word is its encoding
(30_encoding.md R150 to R153, R156, R158, R160). -/
def Obligations.DecodeInvertsEncode : Prop :=
  ∀ (w : Word) (i : Instr), decode w = .ok i ↔ i.wf = true ∧ encode i = w

/-- 60_exceptions.md R461: the words with no command are those the rule lists, and an accepted one ends in ILLEGAL_CMD
with ERR_INFO = the word, changing nothing else. -/
def Obligations.IllegalWordEndsInIllegalCmd : Prop :=
  (∀ w : Word, IllegalWord w ↔ ∀ i, decode w ≠ .ok i) ∧
  ∀ s : State, s.status.busy = true → IllegalWord s.cmd →
    (s.host = [] → step s = .next { s with status := failed s.status 1, errInfo := s.cmd }) ∧
    ∀ rest, s.host = .pass :: rest →
      step s = .next { s with host := rest, status := failed s.status 1, errInfo := s.cmd }

/-- 30_encoding.md R156, its last two sentences, and R158: a decoded word selects its command's row; a word that selects a
row, with the fields the row does not use 0 by its mask, decodes to a command of that row; no word selects two rows. -/
def Obligations.RowSelectionDecides : Prop :=
  ∀ w : Word,
    (∀ i, decode w = .ok i → SelectsRow w i) ∧
    (∀ i, SelectsRow w i → ∃ k, decode w = .ok k ∧ opcodeOf k = opcodeOf i) ∧
    ∀ i j, SelectsRow w i → SelectsRow w j → opcodeOf i = opcodeOf j

/-- Words of every family, written out from R156 and the examples of the command rules. -/
def Obligations.WrittenOutWordsDecode : Prop :=
  decode 0x00000000 = .ok .nop ∧ decode 0x00000010 = .ok .cscFwd ∧ decode 0x00000018 = .ok .subsample ∧
  decode 0x00000021 = .ok .idct ∧ decode 0x00000128 = .ok (.quant .cb) ∧ decode 0x00000031 = .ok .unzigzag ∧
  decode 0x00000239 = .ok (.dcdec .cr) ∧ decode 0x00000042 = .ok .category ∧ decode 0x0000004B = .ok .hufputac ∧
  decode 0x00000059 = .ok .smread ∧ decode 0x00010160 = .ok (.loadblk .cb 1) ∧
  decode 0x00000061 = .ok (.storeblk .y 0) ∧ decode 0x00000262 = .ok (.loadvec .cr 0) ∧
  decode 0x00010063 = .ok (.storevec .y 1) ∧ decode 0x00000028 = .ok (.quant .y) ∧
  decode 0x00000328 = .error .chNamesNone ∧ decode 0x00000429 = .error .rsvNotZero ∧
  decode 0x00000019 = .error .reservedOpcode

/-- A step is the host's next transaction; with none, or where the host passes, it is the core's turn: while BUSY = 1
`exec` of the accepted command, else nothing (20_memory.md R120, R130, 10_state.md R54, 60_exceptions.md R478; the order of
host and core is the model's list of actions, log 1). The fetch word of the host's interface stands for an accepted word
(log 2). -/
def Obligations.StepRunsTheAcceptedCommand : Prop :=
  (∀ (s : State) (i : Instr), i.wf = true → s.status.busy = true → s.cmd = encode i →
    (s.host = [] → step s = exec i s) ∧
    ∀ rest, s.host = .pass :: rest → step s = exec i { s with host := rest }) ∧
  (∀ (s : State) (i : Instr), i.wf = true →
    step (s.withFetchWord 32 (encode i).toNat) =
      exec i { s with
        cmd := encode i
        status := { s.status with busy := true, done := false, err := false, errCode := 0 }
        errInfo := 0 }) ∧
  ∀ (s : State) (rest : List HostAction),
    (∀ a, s.host = .read a :: rest → step s = .next ({ s with host := rest }.busRead a)) ∧
    (∀ a w, s.host = .write a w :: rest → step s = .next ({ s with host := rest }.busWrite a w)) ∧
    (s.status.busy = false → s.host = .pass :: rest → step s = .next { s with host := rest }) ∧
    (s.status.busy = false → s.host = [] → step s = .next s)

/-! ## Reset and the invariant -/

/-- 70_reset_and_hazards.md R500: what the host reads from each register after power-on reset, for any parameters, the
interrupt output, and the constant tables (the working buffers and memories are unspecified there: logs 3 and 4); and
10_state.md R31, R32, R35 to R47: what it reads from each register but CTRL and STATUS in every state with BUSY = 0, with
the fields of BS_WSTATE and PARAM0. -/
def Obligations.ResetRegistersReadTheListedValues : Prop :=
  ∀ c : Config,
    (∀ p ∈ ([(0x000, 0x44435438), (0x004, 1), (0x008, 0), (0x00C, 0), (0x010, 0), (0x014, 0), (0x018, 0), (0x01C, 0),
        (0x020, 0), (0x024, 0), (0x028, 0), (0x02C, 0), (0x030, 0), (0x034, 0), (0x038, 0), (0x03C, 0), (0x040, 0),
        (0x044, 0), (0x048, u32 (c.maxDim + 65536 * c.dcMaxLen + 16777216 * c.acMaxLen)), (0x04C, u32 c.bsCap),
        (0x050, u32 c.maxPixels)] : List (Word × Word)),
      ((State.resetWith c).busRead p.1).response = some (.read p.2 false)) ∧
    (State.resetWith c).irq = false ∧ (State.resetWith c).status.busy = false ∧ (State.resetWith c).cfg = c ∧
    ∀ s : State, s.cfg = c → s.status.busy = false →
      (∀ p ∈ ([(0x000, 0x44435438), (0x004, 1), (0x010, s.cmd), (0x014, s.arg0), (0x018, s.arg1), (0x01C, s.result),
          (0x020, s.imgW.setWidth 32), (0x024, s.imgH.setWidth 32), (0x028, BitVec.ofNat 32 s.numBlocks),
          (0x02C, s.errInfo), (0x030, s.writer.wptr), (0x038, s.reader.rptr), (0x03C, s.reader.rbit.setWidth 32),
          (0x040, s.bsLen), (0x044, s.rleLen.setWidth 32), (0x04C, BitVec.ofNat 32 c.bsCap),
          (0x050, BitVec.ofNat 32 c.maxPixels)] : List (Word × Word)),
        (s.busRead p.1).response = some (.read p.2 false)) ∧
      (∃ v : Word, (s.busRead 0x034).response = some (.read v false) ∧ v.extractLsb' 0 3 = s.writer.nb ∧
        v.extractLsb' 3 5 = 0 ∧ v.extractLsb' 8 8 = s.writer.acc ∧ v.extractLsb' 16 16 = 0) ∧
      (c.wf = true → ∃ v : Word, (s.busRead 0x048).response = some (.read v false) ∧
        (v.extractLsb' 0 16).toNat = c.maxDim ∧ (v.extractLsb' 16 8).toNat = c.dcMaxLen ∧
        (v.extractLsb' 24 8).toNat = c.acMaxLen)

/-- 70_reset_and_hazards.md R502 and 10_state.md R33: a write with bit 31 = 1 to CTRL, whether BUSY or ERR is 0 or 1, gives
every control register its reset value in one step, and the working buffers, the memories and the tables are unchanged; a
write with bit 31 = 0 sets the two enables from bits 0 and 1 and does nothing else; CTRL reads as the two enables, its other
bits 0. -/
def Obligations.CtrlSetsEnablesOrSoftResets : Prop :=
  ∀ (s : State) (rest : List HostAction),
    (∀ w : Word, s.host = .write 0x008 w :: rest → w.getLsbD 31 = true →
      step s = .next { s with
        ctrl := ⟨false, false⟩
        status := { busy := false, done := false, err := false, dropped := false, errCode := 0 }
        cmd := 0, arg0 := 0, arg1 := 0, result := 0, imgW := 0, imgH := 0, errInfo := 0
        writer := { wptr := 0, acc := 0, nb := 0 }
        reader := { rptr := 0, rbit := 0 }
        bsLen := 0, rleLen := 0
        host := rest
        response := some (.write false) }) ∧
    (∀ w : Word, s.host = .write 0x008 w :: rest → w.getLsbD 31 = false →
      step s = .next { s with
        ctrl := ⟨w.getLsbD 0, w.getLsbD 1⟩, host := rest, response := some (.write false) }) ∧
    (s.host = .read 0x008 :: rest → ∃ v : Word,
      step s = .next { s with host := rest, response := some (.read v false) } ∧
      v.getLsbD 0 = s.ctrl.ieDone ∧ v.getLsbD 1 = s.ctrl.ieErr ∧ v.extractLsb' 2 30 = 0)

/-- The invariant holds after power-on reset. -/
def Obligations.InvHoldsAtReset : Prop := State.reset.Inv

/-- Every step keeps the invariant: the parameters' constraints, the canonical forms and sizes of the memories, the ranges
of the pointers (10_state.md R42 to R46), and the agreement of the flags (R34, 60_exceptions.md R471). -/
def Obligations.StepKeepsInv : Prop :=
  ∀ s t : State, s.Inv → step s = .next t → t.Inv

/-! ## How commands end, and what they leave alone -/

/-- 60_exceptions.md R465: every command ends in one of two ways: it completes (DONE rises, BUSY falls, the other flags and
ERR_INFO kept), or it enters the error state, with the code of R460 and ERR_INFO, and nothing else changed. The codes are
those of R460. From a state a run reaches (the invariant, BUSY = 1) exactly one of DONE and ERR is then set (R471). -/
def Obligations.CommandEndsInDoneOrInError : Prop :=
  (∀ (i : Instr) (s : State), ∃ t, exec i s = .next t ∧
    ((t.status = finished s.status ∧ t.errInfo = s.errInfo) ∨
      ∃ e : Raised, t = { s with status := failed s.status (errCodeOf e.kind), errInfo := e.info }) ∧
    (s.Inv → s.status.busy = true → t.status.done = !t.status.err)) ∧
  errCodeOf .illegalCmd = 1 ∧ errCodeOf .badGeometry = 2 ∧ errCodeOf .blkRange = 3 ∧ errCodeOf .tableMiss = 4 ∧
  errCodeOf .huffNomatch = 5 ∧ errCodeOf .bsUnderrun = 6 ∧ errCodeOf .bsOverflow = 7 ∧ errCodeOf .numRange = 8 ∧
  errCodeOf .badOperand = 9

/-- No command writes ARG0, ARG1, BS_LEN, IMG_W, IMG_H, CTRL, CMD, DROPPED or a table (10_state.md R36, R37, R45, R55, R58);
the host's side of the state is the host's. -/
def Obligations.CommandsKeepTheHostsRegisters : Prop :=
  ∀ (i : Instr) (s t : State), exec i s = .next t →
    t.arg0 = s.arg0 ∧ t.arg1 = s.arg1 ∧ t.bsLen = s.bsLen ∧ t.imgW = s.imgW ∧ t.imgH = s.imgH ∧ t.ctrl = s.ctrl ∧
    t.cmd = s.cmd ∧ t.status.dropped = s.status.dropped ∧ t.cfg = s.cfg ∧ t.host = s.host ∧ t.response = s.response

/-- 10_state.md R38: RESULT is written only by the five commands, and only when they complete; the host cannot write it; it
is 0 after reset and is read at 0x01C. -/
def Obligations.ResultIsWrittenByFiveCommands : Prop :=
  (∀ (i : Instr) (s t : State), exec i s = .next t → t.result ≠ s.result →
    i ∈ [Instr.category, .hufgetdc, .hufgetac, .getbits, .smread] ∧ t.status = finished s.status) ∧
  (∀ (s : State) (w : Word), (s.busWrite 0x01C w).result = s.result) ∧
  (∀ c : Config, (State.resetWith c).result = 0) ∧
  ∀ s : State, s.status.busy = false → (s.busRead 0x01C).response = some (.read s.result false)

/-- 10_state.md R56: what changes the writer and the reader, in a step: a soft reset; the commands that use BitWrite, FLUSH
and BSWRST; the commands that use BitRead, and BSRRST. -/
def Obligations.WriterAndReaderHaveOneOwner : Prop :=
  ∀ s t : State, step s = .next t →
    (t.writer ≠ s.writer →
      (∃ w rest, s.host = .write 0x008 w :: rest ∧ w.getLsbD 31 = true ∧ t.writer = ⟨0, 0, 0⟩) ∨
      (s.status.busy = true ∧ ∃ i ∈ [Instr.hufenc, .hufputdc, .hufputac, .putbits, .smwrite, .flush, .bswrst],
        decode s.cmd = .ok i)) ∧
    (t.reader ≠ s.reader →
      (∃ w rest, s.host = .write 0x008 w :: rest ∧ w.getLsbD 31 = true ∧ t.reader = ⟨0, 0⟩) ∨
      (s.status.busy = true ∧ ∃ i ∈ [Instr.hufdec, .hufgetdc, .hufgetac, .getbits, .smread, .bsrrst],
        decode s.cmd = .ok i))

/-- The buffers and memories a command writes (10_state.md R46, R49 to R52, 20_memory.md R100): every other one is
unchanged. -/
def Obligations.CommandsWriteOnlyTheirDestinations : Prop :=
  ∀ (i : Instr) (s t : State), exec i s = .next t →
    (t.fblk ≠ s.fblk → i = .fdct ∨ i = .idct ∨ (∃ ch, i = .dequant ch) ∨ ∃ ch b, i = .loadblk ch b) ∧
    (t.iblk ≠ s.iblk → i = .unzigzag ∨ ∃ ch, i = .quant ch) ∧
    (t.vec ≠ s.vec → i = .zigzag ∨ i = .rledec ∨ ∃ ch b, i = .loadvec ch b) ∧
    (t.rlebuf ≠ s.rlebuf ∨ t.rleLen ≠ s.rleLen → i = .rleenc ∨ i = .hufdec) ∧
    (t.rgb ≠ s.rgb → i = .cscInv) ∧
    (t.ycc ≠ s.ycc → i = .cscFwd ∨ i = .subsample ∨ ∃ ch b, i = .storeblk ch b) ∧
    (t.coef ≠ s.coef → (∃ ch, i = .dcenc ch ∨ i = .dcdec ch) ∨ ∃ ch b, i = .storevec ch b) ∧
    (t.bs ≠ s.bs → i ∈ [Instr.hufenc, .hufputdc, .hufputac, .putbits, .smwrite, .flush])

/-- 20_memory.md R104: commands touch only the elements of the current image; the pixels and blocks beyond are kept. -/
def Obligations.ElementsBeyondTheImageAreKept : Prop :=
  ∀ (i : Instr) (s t : State), s.cfg.wf = true → Memory.wf s.rgb = true → Memory.wf s.ycc = true →
    Memory.wf s.coef = true → exec i s = .next t →
    (∀ n, s.numPixels ≤ n → Memory.read t.rgb n = Memory.read s.rgb n ∧ Memory.read t.ycc n = Memory.read s.ycc n) ∧
    ∀ ch b k, s.numBlocks ≤ b → b < 65536 → k < 64 →
      Memory.read t.coef (coefIx ch b k) = Memory.read s.coef (coefIx ch b k)

/-- 10_state.md R55: no command reads a flag. Run with other flags and other enables, a command ends the same way and
leaves the same state, flags and enables apart. -/
def Obligations.CommandsReadNoFlag : Prop :=
  ∀ (i : Instr) (s : State) (x : Status) (c : Ctrl), ∃ t u,
    exec i s = .next t ∧ exec i { s with status := x, ctrl := c } = .next u ∧
    u = { t with status := u.status, ctrl := c } ∧
    ((t.status = finished s.status ∧ u.status = finished x) ∨
      ∃ k, t.status = failed s.status k ∧ u.status = failed x k)

/-! ## Flags, errors and the bus -/

/-- 60_exceptions.md R466, R468: while ERR = 1 and the core waits, a write to CMD is dropped, and ERR, ERRCODE, ERR_INFO and
CMD stay as they are until the host clears the error or resets the core. That the dropped write answers err = 0 is the
model's inference (log 6, DEDUCED). -/
def Obligations.StickyErrorDropsCommands : Prop :=
  ∀ s t : State, s.status.err = true → s.status.busy = false → step s = .next t →
    (∀ w rest, s.host = .write 0x010 w :: rest →
      t = { s with host := rest, status := { s.status with dropped := true }, response := some (.write false) }) ∧
    ((t.status.err = true ∧ t.status.errCode = s.status.errCode ∧ t.errInfo = s.errInfo ∧ t.cmd = s.cmd
        ∧ t.status.busy = false) ∨
      (∃ w rest, s.host = .write 0x00C w :: rest ∧ w.getLsbD 2 = true) ∨
      ∃ w rest, s.host = .write 0x008 w :: rest ∧ w.getLsbD 31 = true)

/-- 10_state.md R34 and 60_exceptions.md R470: the fields of STATUS as they are read, BUSY = 1 or not, and what a write
clears. -/
def Obligations.StatusReadsItsFieldsAndClearsOnOne : Prop :=
  ∀ (s : State) (rest : List HostAction),
    (s.host = .read 0x00C :: rest → ∃ v : Word,
      step s = .next { s with host := rest, response := some (.read v false) } ∧
      v.getLsbD 0 = s.status.busy ∧ v.getLsbD 1 = s.status.done ∧ v.getLsbD 2 = s.status.err ∧
      v.getLsbD 3 = s.status.dropped ∧
      v.getLsbD 4 = ((s.status.done && s.ctrl.ieDone) || (s.status.err && s.ctrl.ieErr)) ∧
      v.extractLsb' 5 3 = 0 ∧ v.extractLsb' 8 4 = s.status.errCode ∧ v.extractLsb' 12 20 = 0) ∧
    ∀ w : Word, s.host = .write 0x00C w :: rest →
      step s = .next { s with
        host := rest
        status := {
          busy := s.status.busy
          done := s.status.done && !w.getLsbD 1
          err := s.status.err && !w.getLsbD 2
          dropped := s.status.dropped && !w.getLsbD 3
          errCode := if w.getLsbD 2 then 0 else s.status.errCode }
        errInfo := if w.getLsbD 2 then 0 else s.errInfo
        response := some (.write false) }

/-- 10_state.md R35: a write to CMD is accepted when BUSY = 0 and ERR = 0, and else dropped; CMD reads as the last accepted
word, 0 after reset. That a dropped write answers err = 0, whether BUSY = 1 or ERR = 1 drops it, is the model's inference, not
R35's (log 6, DEDUCED). -/
def Obligations.CmdWriteIsAcceptedOrDropped : Prop :=
  (∀ (s : State) (w : Word) (rest : List HostAction), s.host = .write 0x010 w :: rest →
    (s.status.busy = false → s.status.err = false →
      step s = .next { s with
        host := rest, cmd := w, status := { s.status with done := false, busy := true }
        response := some (.write false) }) ∧
    (s.status.busy = true ∨ s.status.err = true →
      step s = .next { s with
        host := rest, status := { s.status with dropped := true }, response := some (.write false) })) ∧
  (∀ s : State, s.status.busy = false → (s.busRead 0x010).response = some (.read s.cmd false)) ∧
  ∀ c : Config, (State.resetWith c).cmd = 0

/-- 10_state.md R54, while BUSY = 1: ID, VERSION, CTRL and STATUS read as always; any other read changes nothing but the
answer (the data of a mapped address is a free value); a write to any address of the map but CTRL and STATUS is dropped.
The model's inference: err = 0 for these reads and dropped writes (log 6, DEDUCED); and a misaligned or unmapped access
answers err = 1, reads 0 and changes nothing, DROPPED included (log 7, DEDUCED). -/
def Obligations.BusyCoreDropsWrites : Prop :=
  ∀ (s : State) (rest : List HostAction), s.status.busy = true →
    (∀ p ∈ [((0x000 : Word), (0x44435438 : Word)), (0x004, 1), (0x008, s.ctrlWord), (0x00C, s.statusWord)],
      s.host = .read p.1 :: rest → step s = .next { s with host := rest, response := some (.read p.2 false) }) ∧
    (∀ a, s.host = .read a :: rest → targetOf s.cfg a.toNat ≠ .misaligned → targetOf s.cfg a.toNat ≠ .unmapped →
      ∃ v n, step s = .next { s with host := rest, response := some (.read v false), free := n }) ∧
    (∀ a w, s.host = .write a w :: rest → a ≠ 0x008 → a ≠ 0x00C →
      targetOf s.cfg a.toNat ≠ .misaligned → targetOf s.cfg a.toNat ≠ .unmapped →
      step s = .next { s with
        host := rest, status := { s.status with dropped := true }, response := some (.write false) }) ∧
    ∀ a, targetOf s.cfg a.toNat = .misaligned ∨ targetOf s.cfg a.toNat = .unmapped →
      (s.host = .read a :: rest → step s = .next { s with host := rest, response := some (.read 0 true) }) ∧
      ∀ w, s.host = .write a w :: rest → step s = .next { s with host := rest, response := some (.write true) }

/-- 20_memory.md R127: a read has no side effect (only the answer changes; the counter of free values is the model's, and
moves only while BUSY = 1, log 10); a write other than to CMD, done twice, does what it does once. -/
def Obligations.ReadsAreFreeAndWritesIdempotent : Prop :=
  (∀ (s t : State) (a : Word) (rest : List HostAction), s.host = .read a :: rest → step s = .next t →
    t = { s with host := rest, response := t.response, free := t.free } ∧
      (s.status.busy = false → t.free = s.free)) ∧
  ∀ (s : State) (a w : Word), Memory.wf s.rgb = true → Memory.wf s.ycc = true → Memory.wf s.coef = true →
    Memory.wf s.bs = true → a ≠ 0x010 → (s.busWrite a w).busWrite a w = s.busWrite a w

/-- The address map of 20_memory.md R121, with the element places of R122 to R124; and what a host read of each place
but a register gives while BUSY = 0 (R122 to R125, R128), field by field. -/
def Obligations.AddressMapIsAsListed : Prop :=
  ∀ c : Config, c.sizesFit = true →
    (∀ p ∈ ([(0x000, .id), (0x004, .version), (0x008, .ctrl), (0x00C, .status), (0x010, .cmd), (0x014, .arg0),
        (0x018, .arg1), (0x01C, .result), (0x020, .imgW), (0x024, .imgH), (0x028, .numBlocks), (0x02C, .errInfo),
        (0x030, .bsWptr), (0x034, .bsWstate), (0x038, .bsRptr), (0x03C, .bsRbit), (0x040, .bsLen), (0x044, .rleLen),
        (0x048, .param0), (0x04C, .param1), (0x050, .param2)] : List (Nat × Csr)), targetOf c p.1 = .csr p.2) ∧
    (∀ k < 64, targetOf c (0x1000 + 4 * k) = .vec k ∧ targetOf c (0x1100 + 4 * k) = .iblk k ∧
      targetOf c (0x1200 + 8 * k) = .fblk k false ∧ targetOf c (0x1200 + 8 * k + 4) = .fblk k true ∧
      targetOf c (0x1400 + 8 * k) = .rlebuf k false ∧ targetOf c (0x1400 + 8 * k + 4) = .rlebuf k true ∧
      targetOf c (0x2000 + 4 * k) = .zigzag k ∧ targetOf c (0x2100 + 4 * k) = .qtabY k ∧
      targetOf c (0x2200 + 4 * k) = .qtabC k ∧ targetOf c (0x2400 + 8 * k) = .dctC k false ∧
      targetOf c (0x2400 + 8 * k + 4) = .dctC k true) ∧
    (∀ k < 16, targetOf c (0x2600 + 4 * k) = .hufDc k ∧
      ∀ cat < 16, targetOf c (0x2800 + 4 * (16 * k + cat)) = .hufAc (16 * cat + k)) ∧
    (∀ i < c.maxPixels, targetOf c (0x01000000 + 4 * i) = .rgb i ∧
      (∀ ch, targetOf c (0x10000000 + 32 * i + 8 * channelNo ch) = .ycc i ch false ∧
        targetOf c (0x10000000 + 32 * i + 8 * channelNo ch + 4) = .ycc i ch true) ∧
      targetOf c (0x10000000 + 32 * i + 24) = .reserved ∧ targetOf c (0x10000000 + 32 * i + 28) = .reserved) ∧
    (∀ ch, ∀ b < c.maxBlocks, ∀ k < 64,
      targetOf c (0x20000000 + 0x01000000 * channelNo ch + 0x100 * b + 4 * k) = .coef ch b k) ∧
    (∀ j, 4 * j < c.bsCap → targetOf c (0x30000000 + 4 * j) = .bs j) ∧
    (∀ a, a % 4 = 0 → 0x54 ≤ a → a < 0x1000 ∨ 0x1600 ≤ a ∧ a < 0x2000 ∨ 0x2300 ≤ a ∧ a < 0x2400 ∨
      0x2640 ≤ a ∧ a < 0x2800 ∨ 0x2C00 ≤ a ∧ a < 0x4000 → targetOf c a = .reserved) ∧
    (∀ a, targetOf c a = .unmapped ↔ a % 4 = 0 ∧ 0x4000 ≤ a ∧
      ¬(0x01000000 ≤ a ∧ a < 0x01000000 + 4 * c.maxPixels) ∧ ¬(0x10000000 ≤ a ∧ a < 0x10000000 + 32 * c.maxPixels) ∧
      (∀ ch, ¬(0x20000000 + 0x01000000 * channelNo ch ≤ a ∧
        a < 0x20000000 + 0x01000000 * channelNo ch + 0x100 * c.maxBlocks)) ∧
      ¬(0x30000000 ≤ a ∧ a < 0x30000000 + c.bsCap)) ∧
    ∀ (s : State) (a : Word), s.cfg = c → c.wf = true → s.status.busy = false →
      ∃ (v : Word) (err : Bool), (s.busRead a).response = some (.read v err) ∧
        (err = true ↔ targetOf c a.toNat = .misaligned ∨ targetOf c a.toNat = .unmapped) ∧
        match targetOf c a.toNat with
        | .vec k => v = nth s.vec k
        | .iblk n => v = nth s.iblk n
        | .fblk n hi => v = (nth s.fblk n).extractLsb' (if hi then 32 else 0) 32
        | .rlebuf i false =>
          v.extractLsb' 0 4 = (nth s.rlebuf i).skip ∧ v.extractLsb' 4 6 = (nth s.rlebuf i).cat ∧ v.extractLsb' 10 22 = 0
        | .rlebuf i true => v = (nth s.rlebuf i).value
        | .zigzag k => v.toNat = (nth c.zigzag k).val
        | .qtabY n => v.toNat = nth c.qtabY n
        | .qtabC n => v.toNat = nth c.qtabC n
        | .dctC n hi => v = (nth c.dctC n).extractLsb' (if hi then 32 else 0) 32
        | .hufDc key => ReadsAsEntry c.hufDc key v
        | .hufAc key => ReadsAsEntry c.hufAc key v
        | .rgb i =>
          v.extractLsb' 0 8 = (Memory.read s.rgb i).r ∧ v.extractLsb' 8 8 = (Memory.read s.rgb i).g ∧
            v.extractLsb' 16 8 = (Memory.read s.rgb i).b ∧ v.extractLsb' 24 8 = 0
        | .ycc i ch hi => v = ((Memory.read s.ycc i).chan ch).extractLsb' (if hi then 32 else 0) 32
        | .coef ch b k => v = Memory.read s.coef (coefIx ch b k)
        | .bs j => ∀ t < 4, v.extractLsb' (8 * t) 8 = if 4 * j + t < c.bsCap then Memory.read s.bs (4 * j + t) else 0
        | .reserved | .misaligned | .unmapped => v = 0
        | .csr _ => True

/-- 20_memory.md R125, R128, 60_exceptions.md R469, with BUSY = 0: a misaligned or unmapped access answers err = 1, reads 0
and changes nothing; a reserved address reads 0 and ignores writes, a read-only register or table ignores writes, both
without err. -/
def Obligations.BusErrorsChangeNothing : Prop :=
  ∀ (s : State) (a w : Word) (rest : List HostAction), s.status.busy = false →
    (a.toNat % 4 ≠ 0 ∨ targetOf s.cfg a.toNat = .unmapped →
      (s.host = .read a :: rest → step s = .next { s with host := rest, response := some (.read 0 true) }) ∧
      (s.host = .write a w :: rest → step s = .next { s with host := rest, response := some (.write true) })) ∧
    (targetOf s.cfg a.toNat = .reserved →
      (s.host = .read a :: rest → step s = .next { s with host := rest, response := some (.read 0 false) }) ∧
      (s.host = .write a w :: rest → step s = .next { s with host := rest, response := some (.write false) })) ∧
    (a ∈ ([0x000, 0x004, 0x01C, 0x028, 0x02C, 0x030, 0x034, 0x038, 0x03C, 0x048, 0x04C, 0x050] : List Word) ∨
        (0x2000 ≤ a.toNat ∧ a.toNat < 0x4000 ∧ a.toNat % 4 = 0) →
      s.host = .write a w :: rest → step s = .next { s with host := rest, response := some (.write false) })

/-- 20_memory.md R122, R124: a word that the host writes to a buffer or memory window while BUSY = 0 is what it reads
there next, the bits and lanes that are not there as 0; the write changes no other word of the windows, and no register.
10_state.md R36, R37, R39, R45, R46: what a write to each of the six writable registers stores (CTRL, STATUS and CMD have
statements of their own). -/
def Obligations.WindowWritesReadBack : Prop :=
  (∀ (s : State) (a w : Word), s.cfg.sizesFit = true → s.status.busy = false → Memory.wf s.rgb = true →
    Memory.wf s.ycc = true → Memory.wf s.coef = true → Memory.wf s.bs = true → 0x1000 ≤ a.toNat →
    let t := s.busWrite a w
    (match targetOf s.cfg a.toNat with
      | .vec _ | .iblk _ | .fblk _ _ | .rlebuf _ true | .ycc _ _ _ | .coef _ _ _ =>
        (t.busRead a).response = some (.read w false)
      | .rlebuf _ false => (t.busRead a).response = some (.read (w &&& 0x3FF) false)
      | .rgb _ => (t.busRead a).response = some (.read (w &&& 0xFFFFFF) false)
      | .bs j => ∃ v : Word, (t.busRead a).response = some (.read v false) ∧ ∀ k < 4, v.extractLsb' (8 * k) 8 =
          if 4 * j + k < s.cfg.bsCap then w.extractLsb' (8 * k) 8 else 0
      | .zigzag _ | .qtabY _ | .qtabC _ | .dctC _ _ | .hufDc _ | .hufAc _ | .reserved | .misaligned | .unmapped | .csr _ =>
        (t.busRead a).response = (s.busRead a).response) ∧
    (∀ b : Word, 0x1000 ≤ b.toNat → b ≠ a → (t.busRead b).response = (s.busRead b).response) ∧
    t = { s with
      vec := t.vec, iblk := t.iblk, fblk := t.fblk, rlebuf := t.rlebuf, rgb := t.rgb, ycc := t.ycc, coef := t.coef
      bs := t.bs, response := t.response }) ∧
  ∀ (s : State) (w : Word), s.status.busy = false →
    s.busWrite 0x014 w = { s with arg0 := w, response := some (.write false) } ∧
    s.busWrite 0x018 w = { s with arg1 := w, response := some (.write false) } ∧
    s.busWrite 0x020 w = { s with imgW := w.extractLsb' 0 16, response := some (.write false) } ∧
    s.busWrite 0x024 w = { s with imgH := w.extractLsb' 0 16, response := some (.write false) } ∧
    s.busWrite 0x040 w = { s with
      bsLen := BitVec.ofNat 32 (min w.toNat s.cfg.bsCap), response := some (.write false) } ∧
    s.busWrite 0x044 w = { s with
      rleLen := BitVec.ofNat 7 (min (w.extractLsb' 0 7).toNat 64), response := some (.write false) }

/-! ## Geometry and block checks -/

/-- 10_state.md R40 and 60_exceptions.md R463: the geometry and NUM_BLOCKS; the nine commands end in BAD_GEOMETRY on an
invalid one, and the others do not read it. -/
def Obligations.BadGeometryStopsTheNineCommands : Prop :=
  (∀ s : State,
    (s.geometryValid = true ↔
      8 ≤ s.imgW.toNat ∧ 8 ≤ s.imgH.toNat ∧ s.imgW.toNat % 8 = 0 ∧ s.imgH.toNat % 8 = 0 ∧
      s.imgW.toNat ≤ s.cfg.maxDim ∧ s.imgH.toNat ≤ s.cfg.maxDim ∧ s.imgW.toNat * s.imgH.toNat ≤ s.cfg.maxPixels) ∧
    (s.geometryValid = true → s.numBlocks = (s.imgW.toNat / 8) * (s.imgH.toNat / 8)) ∧
    (s.geometryValid = false → s.numBlocks = 0) ∧
    (s.geometryValid = false → ∀ ch b,
      ∀ i ∈ [Instr.cscFwd, .cscInv, .subsample, .dcenc ch, .dcdec ch, .loadblk ch b, .storeblk ch b, .loadvec ch b,
        .storevec ch b], EndsInError i s 2 s.geometryInfo)) ∧
  ∀ (i : Instr) (s : State) (w h : BitVec 16),
    (∀ ch b, i ∉ [Instr.cscFwd, .cscInv, .subsample, .dcenc ch, .dcdec ch, .loadblk ch b, .storeblk ch b, .loadvec ch b,
      .storevec ch b]) →
    ∃ t, exec i s = .next t ∧ exec i { s with imgW := w, imgH := h } = .next { t with imgW := w, imgH := h }

/-- 60_exceptions.md R462: the block commands with b ≥ NUM_BLOCKS, on a valid geometry, end in BLK_RANGE; b is the 16-bit
BLK. -/
def Obligations.BlockBeyondTheImageIsBlkRange : Prop :=
  ∀ (s : State) (ch : Channel) (b : Nat), b < 65536 → s.geometryValid = true → 1 ≤ s.numBlocks ∧
    (s.numBlocks ≤ b → ∀ i ∈ [Instr.loadblk ch b, .storeblk ch b, .loadvec ch b, .storevec ch b], EndsInError i s 3 b)

/-! ## The commands -/

/-- 49_transfer_system.md R420: NOP is word 0, and only completes. -/
def Obligations.NopOnlyCompletes : Prop :=
  encode .nop = 0 ∧ (∀ w : Word, decode w = .ok .nop ↔ w = 0) ∧
  ∀ s : State, exec .nop s = .next { s with status := finished s.status }

/-- 40_color_transform.md R200, R201: CSC_FWD gives every pixel of the image the values of R200, with the binary64
literals the rule lists, none of them a NaN or an infinity; the pixels beyond are kept. -/
def Obligations.CscFwdConvertsTheImage : Prop :=
  ∀ s : State, s.geometryValid = true → Memory.wf s.ycc = true →
    ∃ m, exec .cscFwd s = .next { s with ycc := m, status := finished s.status } ∧ Memory.wf m = true ∧
      (∀ i < s.numPixels,
        let p := Memory.read s.rgb i
        let r := F64.ofInt p.r.toNat
        let g := F64.ofInt p.g.toNat
        let b := F64.ofInt p.b.toNat
        let y := F64.add (F64.add (F64.mul (F64.ofBits 0x3FD322D0E5604189) r) (F64.mul (F64.ofBits 0x3FE2C8B439581062) g))
          (F64.mul (F64.ofBits 0x3FBD2F1A9FBE76C9) b)
        F64.ofBits (Memory.read m i).y = y ∧ y.toRat.isSome ∧
        F64.ofBits (Memory.read m i).cb = F64.mul (F64.ofBits 0x3FE20C49BA5E353F) (F64.sub b y) ∧
        (F64.ofBits (Memory.read m i).cb).toRat.isSome ∧
        F64.ofBits (Memory.read m i).cr = F64.mul (F64.ofBits 0x3FE6D0E560418937) (F64.sub r y) ∧
        (F64.ofBits (Memory.read m i).cr).toRat.isSome) ∧
      ∀ i, s.numPixels ≤ i → Memory.read m i = Memory.read s.ycc i

/-- 40_color_transform.md R205, R206: CSC_INV gives every pixel the clamped and rounded values of R205; the lowest pixel
with a NaN ends it in NUM_RANGE, with RGB unchanged. -/
def Obligations.CscInvConvertsTheImage : Prop :=
  ∀ s : State, s.geometryValid = true → Memory.wf s.rgb = true →
    let y := fun i => F64.ofBits (Memory.read s.ycc i).y
    let cb := fun i => F64.ofBits (Memory.read s.ycc i).cb
    let cr := fun i => F64.ofBits (Memory.read s.ycc i).cr
    let r' := fun i => F64.add (y i) (F64.mul (F64.lit 1402 1000) (cr i))
    let g' := fun i => F64.sub (F64.sub (y i) (F64.mul (F64.lit 344 1000) (cb i))) (F64.mul (F64.lit 714 1000) (cr i))
    let b' := fun i => F64.add (y i) (F64.mul (F64.lit 1772 1000) (cb i))
    let bad := fun i => r' i = .nan ∨ g' i = .nan ∨ b' i = .nan
    let out := fun x => F64.roundHA (F64.clamp x (F64.ofInt 0) (F64.ofInt 255))
    ((∀ i < s.numPixels, ¬bad i) →
      ∃ m, exec .cscInv s = .next { s with rgb := m, status := finished s.status } ∧ Memory.wf m = true ∧
        (∀ i < s.numPixels, out (r' i) = some ((Memory.read m i).r.toNat : Int) ∧
          out (g' i) = some ((Memory.read m i).g.toNat : Int) ∧ out (b' i) = some ((Memory.read m i).b.toNat : Int)) ∧
        ∀ i, s.numPixels ≤ i → Memory.read m i = Memory.read s.rgb i) ∧
    ∀ i < s.numPixels, bad i → (∀ j < i, ¬bad j) → EndsInError .cscInv s 8 i

/-- 41_chroma_subsample.md R220, R221: SUBSAMPLE gives the four pixels of every group the group means of Cb and Cr, in the
order of summation of R220, and keeps Y and every pixel beyond the image. -/
def Obligations.SubsampleAveragesEveryGroup : Prop :=
  ∀ s : State, s.geometryValid = true → Memory.wf s.ycc = true →
    ∃ m, exec .subsample s = .next { s with ycc := m, free := s.free + 1, status := finished s.status } ∧
      Memory.wf m = true ∧
      (∀ gy gx, gy < s.imgH.toNat / 2 → gx < s.imgW.toNat / 2 →
        let w := s.imgW.toNat
        let p0 := 2 * gy * w + 2 * gx
        let p1 := 2 * gy * w + 2 * gx + 1
        let p2 := (2 * gy + 1) * w + 2 * gx
        let p3 := (2 * gy + 1) * w + 2 * gx + 1
        let v := fun ch i => F64.ofBits ((Memory.read s.ycc i).chan ch)
        let mean := fun ch => F64.div (F64.add (F64.add (F64.add (v ch p0) (v ch p1)) (v ch p2)) (v ch p3)) (F64.ofInt 4)
        ∀ q ∈ [p0, p1, p2, p3],
          F64.ofBits (Memory.read m q).cb = mean .cb ∧ F64.ofBits (Memory.read m q).cr = mean .cr) ∧
      (∀ i, (Memory.read m i).y = (Memory.read s.ycc i).y) ∧
      ∀ i, s.numPixels ≤ i → Memory.read m i = Memory.read s.ycc i

/-- 42_dct.md R242, R243: FDCT shifts every sample by −128 and forms (C·S)·Cᵀ, every sum from +0.0 in ascending order, every
product and sum rounded. (A NaN element's pattern is a free value: log 5.) -/
def Obligations.FdctTransformsTheBlock : Prop :=
  ∀ s : State,
    let c := fun i j => F64.ofBits (nth s.cfg.dctC (8 * i + j))
    let x := fun i j => F64.sub (F64.ofBits (nth s.fblk (8 * i + j))) (F64.ofInt 128)
    let t := fun u j => sum8 fun k => F64.mul (c u k) (x k j)
    ∃ b, exec .fdct s = .next { s with fblk := b, free := s.free + 1, status := finished s.status } ∧
      ∀ u v, u < 8 → v < 8 →
        F64.ofBits (nth b (8 * u + v)) = sum8 fun k => F64.mul (t u k) (c v k)

/-- 42_dct.md R242, R244: IDCT forms (Cᵀ·D)·C and shifts every sample by +128. -/
def Obligations.IdctTransformsTheBlock : Prop :=
  ∀ s : State,
    let c := fun i j => F64.ofBits (nth s.cfg.dctC (8 * i + j))
    let d := fun i j => F64.ofBits (nth s.fblk (8 * i + j))
    let t := fun i v => sum8 fun k => F64.mul (c k i) (d k v)
    ∃ b, exec .idct s = .next { s with fblk := b, free := s.free + 1, status := finished s.status } ∧
      ∀ i j, i < 8 → j < 8 →
        F64.ofBits (nth b (8 * i + j)) = F64.add (sum8 fun k => F64.mul (t i k) (c k j)) (F64.ofInt 128)

/-- 42_dct.md R243, R244, their corner cases: with a finite basis, a block of constant 128.0 gives 64 coefficients +0.0
exactly, and an all-zero block gives 128.0 in every sample exactly. And R241: with parameters that meet their constraints,
FDCT followed by IDCT gives a block of samples in −300..500 back within 1e-9; a core with a basis that fails this is
refused before it runs (93_implementation_defined.md U13), and a core that has it is not: it starts exactly when this and
its other constraints hold. That the range is −300..500 is the model's inference (log 9, DEDUCED). -/
def Obligations.ConstantBlocksTransformExactly : Prop :=
  (∀ s t : State, (∀ n < 64, (F64.ofBits (nth s.cfg.dctC n)).toRat.isSome) →
    ((∀ n < 64, nth s.fblk n = 0x4060000000000000) → exec .fdct s = .next t → ∀ n < 64, nth t.fblk n = 0) ∧
    ((∀ n < 64, nth s.fblk n = 0) → exec .idct s = .next t → ∀ n < 64, nth t.fblk n = 0x4060000000000000)) ∧
  ∀ c : Config, (c.wf = true → DctRoundTrips c) ∧ (¬DctRoundTrips c → State.boot c = .refused .badConfig) ∧
    (State.boot c = .next (State.resetWith c) ↔ c.sizesFit = true ∧ DctRoundTrips c ∧ c.zigzagFits = true ∧
      c.stepsFit = true ∧ c.tablesFit = true)

/-- 43_quantizer.md R261, R262: QUANT divides each element by its channel's step and rounds half away from zero; the lowest
element whose quotient is not finite or rounds outside 32 bits ends it in NUM_RANGE, with IBLK unchanged. -/
def Obligations.QuantRoundsQuotients : Prop :=
  ∀ (s : State) (ch : Channel),
    let q := fun n => if ch = .y then nth s.cfg.qtabY n else nth s.cfg.qtabC n
    let z := fun n => F64.roundHA (F64.div (F64.ofBits (nth s.fblk n)) (F64.ofInt (q n)))
    let good := fun n => ∃ v : Int, z n = some v ∧ -2 ^ 31 ≤ v ∧ v ≤ 2 ^ 31 - 1
    encode (.quant ch) = 0x28 ||| (BitVec.ofNat 32 (channelNo ch) <<< 8) ∧
    ((∀ n < 64, good n) →
      ∃ b, exec (.quant ch) s = .next { s with iblk := b, status := finished s.status } ∧
        ∀ n < 64, z n = some (nth b n).toInt) ∧
    ∀ n < 64, ¬good n → (∀ k < n, good k) → EndsInError (.quant ch) s 8 n

/-- 43_quantizer.md R261, R263: DEQUANT gives each element the exact product of the integer and its channel's step; zero
gives +0.0. -/
def Obligations.DequantMultipliesExactly : Prop :=
  ∀ (s : State) (ch : Channel), s.cfg.wf = true →
    let q := fun n => if ch = .y then nth s.cfg.qtabY n else nth s.cfg.qtabC n
    encode (.dequant ch) = 0x29 ||| (BitVec.ofNat 32 (channelNo ch) <<< 8) ∧
    ∃ b, exec (.dequant ch) s = .next { s with fblk := b, status := finished s.status } ∧
      ∀ n < 64, (F64.ofBits (nth b n)).toRat = some (((nth s.iblk n).toInt * q n : Int) : ℚ) ∧
        (nth s.iblk n = 0 → nth b n = 0)

/-- 44_zigzag.md R282: ZIGZAG gives VEC[k] the element ZIGZAG[k] of IBLK; the first and the last stay in place. -/
def Obligations.ZigzagReordersTheBlock : Prop :=
  ∀ s : State, encode .zigzag = 0x30 ∧
    ∃ b, exec .zigzag s = .next { s with vec := b, status := finished s.status } ∧
      (∀ k < 64, nth b k = nth s.iblk (nth s.cfg.zigzag k).val) ∧
      (s.cfg.wf = true → nth b 0 = nth s.iblk 0 ∧ nth b 63 = nth s.iblk 63)

/-- 44_zigzag.md R283: UNZIGZAG gives element ZIGZAG[k] of IBLK the value VEC[k], every element once; after ZIGZAG it leaves
IBLK unchanged. -/
def Obligations.UnzigzagRestoresTheBlock : Prop :=
  ∀ s : State, s.cfg.wf = true → encode .unzigzag = 0x31 ∧
    (∃ b, exec .unzigzag s = .next { s with iblk := b, status := finished s.status } ∧
      (∀ k < 64, nth b (nth s.cfg.zigzag k).val = nth s.vec k) ∧
      ∀ n < 64, ∃ k < 64, (nth s.cfg.zigzag k).val = n) ∧
    ∀ t u, exec .zigzag s = .next t → exec .unzigzag t = .next u → u.iblk = s.iblk

/-- 45_dc_predictor.md R300: DCENC gives each block's DC term but the first its difference from the previous one's original
value, modulo 2^32; every other element is kept. An invalid geometry ends it in BAD_GEOMETRY. -/
def Obligations.DcencTakesDifferences : Prop :=
  ∀ (s : State) (ch : Channel), s.cfg.wf = true → Memory.wf s.coef = true →
    encode (.dcenc ch) = 0x38 ||| (BitVec.ofNat 32 (channelNo ch) <<< 8) ∧
    (s.geometryValid = false → EndsInError (.dcenc ch) s 2 s.geometryInfo) ∧
    (s.geometryValid = true →
      ∃ m, exec (.dcenc ch) s = .next { s with coef := m, status := finished s.status } ∧ Memory.wf m = true ∧
        (∀ b, 1 ≤ b → b < s.numBlocks → Memory.read m (coefIx ch b 0)
          = Memory.read s.coef (coefIx ch b 0) - Memory.read s.coef (coefIx ch (b - 1) 0)) ∧
        ∀ n, (∀ b, 1 ≤ b → b < s.numBlocks → n ≠ coefIx ch b 0) → Memory.read m n = Memory.read s.coef n)

/-- 45_dc_predictor.md R301: DCDEC gives each block's DC term but the first the sum of its delta and the previous block's
restored term, modulo 2^32; every other element is kept. -/
def Obligations.DcdecTakesSums : Prop :=
  ∀ (s : State) (ch : Channel), s.cfg.wf = true → Memory.wf s.coef = true → s.geometryValid = true →
    ∃ m, exec (.dcdec ch) s = .next { s with coef := m, status := finished s.status } ∧ Memory.wf m = true ∧
      (∀ b, 1 ≤ b → b < s.numBlocks → Memory.read m (coefIx ch b 0)
        = Memory.read s.coef (coefIx ch b 0) + Memory.read m (coefIx ch (b - 1) 0)) ∧
      ∀ n, (∀ b, 1 ≤ b → b < s.numBlocks → n ≠ coefIx ch b 0) → Memory.read m n = Memory.read s.coef n

/-- 45_dc_predictor.md R301: DCDEC after DCENC restores every sequence exactly, wrapped differences included, and so does
DCENC after DCDEC. -/
def Obligations.DcPredictionRoundTrips : Prop :=
  ∀ (s t : State) (ch : Channel), s.cfg.wf = true → Memory.wf s.coef = true → s.geometryValid = true →
    (exec (.dcenc ch) s = .next t → ∃ u, exec (.dcdec ch) t = .next u ∧ u.coef = s.coef) ∧
    (exec (.dcdec ch) s = .next t → ∃ u, exec (.dcenc ch) t = .next u ∧ u.coef = s.coef)

/-- 46_rle.md R320, R321: CATEGORY gives the least m with |v| < 2^m, v = s32(ARG0). -/
def Obligations.CategoryIsTheBitLength : Prop :=
  encode .category = 0x42 ∧
  ∀ s : State, ∃ m, IsCategory s.arg0.toInt m ∧ m ≤ 32 ∧
    exec .category s = .next { s with result := BitVec.ofNat 32 m, status := finished s.status }

/-- 46_rle.md R322, R323 (as 90_conflicts.md C1 resolves it), R324: RLEENC writes the run-length form of VEC to the first
slots of RLEBUF, at most 64 of them, and its length to RLE_LEN; the other slots keep their contents. -/
def Obligations.RleencWritesTheRunLengthForm : Prop :=
  ∀ s : State, ∃ out b, RunLengthForm s.vec out ∧
    exec .rleenc s = .next { s with
      rlebuf := b, rleLen := BitVec.ofNat 7 out.length, status := finished s.status } ∧
    ∀ i < 64, (i < out.length → out[i]? = some (nth b i)) ∧ (out.length ≤ i → nth b i = nth s.rlebuf i)

/-- 46_rle.md R325, R326: RLEDEC gives VEC[0] the value of slot 0, each position that a used slot writes its value, and
every other position 0; with RLE_LEN = 0 it ends in BAD_OPERAND(0). -/
def Obligations.RledecExpandsTheSymbols : Prop :=
  ∀ s : State, encode .rledec = 0x41 ∧
    (s.rleLen = 0 → EndsInError .rledec s 9 0) ∧
    (s.rleLen ≠ 0 →
      ∃ v, exec .rledec s = .next { s with vec := v, status := finished s.status } ∧
        nth v 0 = (nth s.rlebuf 0).value ∧
        ∀ k, 1 ≤ k → k < 64 →
          (∀ i y, SlotWrites s.symbols i y k → nth v k = y.value) ∧
          ((∀ i y, ¬SlotWrites s.symbols i y k) → nth v k = 0))

/-- 46_rle.md R327: for every vector, RLEENC followed by RLEDEC leaves VEC as it was. -/
def Obligations.RleRoundTrips : Prop :=
  ∀ s t : State, exec .rleenc s = .next t → ∃ u, exec .rledec t = .next u ∧ u.vec = s.vec

/-- 47_huffman_bitstream.md R365, R367: where the symbols hold a whole block whose used slots all have codes, and its code
fits, HUFENC appends exactly that code. -/
def Obligations.HufencAppendsTheBlockCode : Prop :=
  ∀ (s : State) (n : Nat) (bits : List Bool), s.Inv → BlockEndsAt s.symbols n →
    CodesBlock s.cfg (s.symbols.take n) bits → s.roomFor bits → Appends .hufenc s bits

/-- 47_huffman_bitstream.md R365, R367, the errors of HUFENC, in their order: no symbol; a DC category or the first used
slot without a table entry; a buffer that neither ends in EOB nor fills 64 positions. -/
def Obligations.HufencReportsTheFirstError : Prop :=
  ∀ s : State, s.cfg.wf = true →
    let dcOk := ∃ y bits, s.symbols[0]? = some y ∧ HasCode s.cfg.hufDc y.cat.toNat bits
    let slotsOk := fun n => ∀ i y, 1 ≤ i → i < n → s.symbols[i]? = some y →
      ∃ bits, HasCode s.cfg.hufAc (keyWord y.skip y.cat) bits
    (s.symbols = [] → EndsInError .hufenc s 9 0) ∧
    (∀ y, s.symbols[0]? = some y → NoCode s.cfg.hufDc y.cat.toNat → EndsInError .hufenc s 4 (16 * y.cat.toNat)) ∧
    (dcOk → ∀ i y, SlotUsed s.symbols i → s.symbols[i]? = some y → slotsOk i →
      NoCode s.cfg.hufAc (keyWord y.skip y.cat) →
      EndsInError .hufenc s 4 (65536 * i + 16 * y.cat.toNat + y.skip.toNat)) ∧
    (dcOk → slotsOk s.symbols.length → (∀ i, 1 ≤ i → i < s.symbols.length → SlotUsed s.symbols i) →
      ¬BlockEndsAt s.symbols s.symbols.length → EndsInError .hufenc s 9 s.symbols.length)

/-- 47_huffman_bitstream.md R366, R368: where the input goes on with the code of a block, HUFDEC reads just that block: its
symbols go to RLEBUF and RLE_LEN, and the reader stands after its code. With HufencAppendsTheBlockCode: what HUFENC wrote
for a block, HUFDEC reads back. And its errors (60_exceptions.md R467): where, after the code of some first symbols of a
block that goes on, no code follows, it ends in HUFF_NOMATCH at the start of that code if the maximum length is there, else
in BS_UNDERRUN of the first unreadable bit; where a code follows but not its magnitude bits, in BS_UNDERRUN. -/
def Obligations.HufdecReadsBackABlock : Prop :=
  (∀ (s : State) (buf : List Symbol) (bits : List Bool), s.cfg.wf = true → BlockEndsAt buf buf.length →
    CodesBlock s.cfg buf bits → (∀ i y, buf[i]? = some y → ParsedSymbol i y) → s.streamHas s.readPos bits →
    ∃ b, exec .hufdec s = .next { s with
        rlebuf := b
        rleLen := BitVec.ofNat 7 buf.length
        reader := readerAt (s.readPos + bits.length)
        status := finished s.status } ∧
      ∀ i < 64, (i < buf.length → buf[i]? = some (nth b i)) ∧ (buf.length ≤ i → nth b i = nth s.rlebuf i)) ∧
  ∀ (s : State) (buf : List Symbol) (bits : List Bool), s.cfg.wf = true → CodesOpenBlock s.cfg buf bits →
    s.streamHas s.readPos bits →
    let q := s.readPos + bits.length
    let t := if buf = [] then s.cfg.hufDc else s.cfg.hufAc
    let maxLen := if buf = [] then s.cfg.dcMaxLen else s.cfg.acMaxLen
    ((∀ e ∈ t, ¬s.streamHas q (bitString e.code e.len)) →
      if q + maxLen ≤ 8 * s.bsLen.toNat then EndsInError .hufdec s 5 q
      else EndsInError .hufdec s 6 (s.firstUnreadable q)) ∧
    ∀ e ∈ t, s.streamHas q (bitString e.code e.len) →
      8 * s.bsLen.toNat < q + e.len + (if buf = [] then e.key else e.key / 16) →
      EndsInError .hufdec s 6 (s.firstUnreadable (q + e.len))

/-- 47_huffman_bitstream.md R363, R369, R370: HUFPUTDC and HUFPUTAC append the code of the key in ARG0, or end in
TABLE_MISS(ARG0). -/
def Obligations.HufputAppendsTheKeysCode : Prop :=
  ∀ (s : State) (bits : List Bool), s.Inv →
    (HasCode s.cfg.hufDc s.arg0.toNat bits → s.roomFor bits → Appends .hufputdc s bits) ∧
    (NoCode s.cfg.hufDc s.arg0.toNat → EndsInError .hufputdc s 4 s.arg0.toNat) ∧
    (s.arg0.toNat / 1024 = 0 → HasCode s.cfg.hufAc (s.arg0.toNat % 1024) bits → s.roomFor bits →
      Appends .hufputac s bits) ∧
    (s.arg0.toNat / 1024 ≠ 0 ∨ NoCode s.cfg.hufAc (s.arg0.toNat % 1024) → EndsInError .hufputac s 4 s.arg0.toNat)

/-- 47_huffman_bitstream.md R364, R371, R372: HUFGETDC and HUFGETAC read the code the input begins with, and give its key;
an input that begins with no code ends in HUFF_NOMATCH where the maximum length is there, else in BS_UNDERRUN. -/
def Obligations.HufgetReadsACode : Prop :=
  ∀ s : State, s.cfg.wf = true →
    (∀ e ∈ s.cfg.hufDc, s.streamHas s.readPos (bitString e.code e.len) →
      exec .hufgetdc s = .next { s with
        result := u32 e.key, reader := readerAt (s.readPos + e.len), status := finished s.status }) ∧
    (∀ e ∈ s.cfg.hufAc, s.streamHas s.readPos (bitString e.code e.len) →
      exec .hufgetac s = .next { s with
        result := u32 e.key, reader := readerAt (s.readPos + e.len), status := finished s.status }) ∧
    ((∀ e ∈ s.cfg.hufDc, ¬s.streamHas s.readPos (bitString e.code e.len)) →
      if s.readPos + s.cfg.dcMaxLen ≤ 8 * s.bsLen.toNat then EndsInError .hufgetdc s 5 s.readPos
      else EndsInError .hufgetdc s 6 (s.firstUnreadable s.readPos)) ∧
    ((∀ e ∈ s.cfg.hufAc, ¬s.streamHas s.readPos (bitString e.code e.len)) →
      if s.readPos + s.cfg.acMaxLen ≤ 8 * s.bsLen.toNat then EndsInError .hufgetac s 5 s.readPos
      else EndsInError .hufgetac s 6 (s.firstUnreadable s.readPos))

/-- 47_huffman_bitstream.md R373, 48_signed_magnitude.md R400, R402: PUTBITS appends the low n bits of ARG0, SMWRITE the
signed-magnitude code of s32(ARG0) in n bits, most significant bit first; n > 16 ends both in BAD_OPERAND(n). -/
def Obligations.PutbitsAndSmwriteAppendTheirBits : Prop :=
  ∀ s : State, s.Inv →
    let n := s.arg1.toNat
    let raw := (List.range n).map fun i => s.arg0.getLsbD (n - 1 - i)
    (n ≤ 16 → s.roomFor raw → Appends .putbits s raw) ∧
    (n ≤ 16 → s.roomFor raw → Appends .smwrite s (signedMagnitude s.arg0.toInt n)) ∧
    (16 < n → EndsInError .putbits s 9 n ∧ EndsInError .smwrite s 9 n)

/-- 47_huffman_bitstream.md R375: FLUSH appends 8 − NB zero bits, which completes one byte, or nothing when NB = 0; with no
room it ends in BS_OVERFLOW(BS_WPTR). -/
def Obligations.FlushPadsToAByte : Prop :=
  ∀ s : State, s.Inv → encode .flush = 0x50 ∧
    (s.writer.nb = 0 → exec .flush s = .next { s with status := finished s.status }) ∧
    (s.writer.nb ≠ 0 → s.writer.wptr.toNat < s.cfg.bsCap →
      Appends .flush s (List.replicate (8 - s.writer.nb.toNat) false)) ∧
    (s.writer.nb ≠ 0 → s.writer.wptr.toNat = s.cfg.bsCap → EndsInError .flush s 7 s.writer.wptr.toNat)

/-- 20_memory.md R110: bits that would complete a byte at or beyond BS_CAP end the writing command in BS_OVERFLOW(BS_WPTR),
with nothing written: for the four commands whose bits ARG0 and ARG1 give, and for HUFENC. -/
def Obligations.WritersOverflowWithoutAPartialWrite : Prop :=
  ∀ (s : State) (bits : List Bool), s.Inv → ¬s.roomFor bits →
    (HasCode s.cfg.hufDc s.arg0.toNat bits → EndsInError .hufputdc s 7 s.writer.wptr.toNat) ∧
    (s.arg0.toNat / 1024 = 0 → HasCode s.cfg.hufAc s.arg0.toNat bits →
      EndsInError .hufputac s 7 s.writer.wptr.toNat) ∧
    (s.arg1.toNat ≤ 16 → bits.length = s.arg1.toNat →
      EndsInError .putbits s 7 s.writer.wptr.toNat ∧ EndsInError .smwrite s 7 s.writer.wptr.toNat) ∧
    ∀ n, BlockEndsAt s.symbols n → CodesBlock s.cfg (s.symbols.take n) bits →
      EndsInError .hufenc s 7 s.writer.wptr.toNat

/-- 20_memory.md R113, 47_huffman_bitstream.md R374, 48_signed_magnitude.md R401, R403: GETBITS and SMREAD take the next n
bits, as a number and as a signed-magnitude value; n > 16 ends in BAD_OPERAND(n), and bits beyond BS_LEN in BS_UNDERRUN of
the first unreadable one. -/
def Obligations.GetbitsAndSmreadTakeTheNextBits : Prop :=
  ∀ s : State,
    let n := s.arg1.toNat
    (n ≤ 16 → ∀ bits, bits.length = n → s.streamHas s.readPos bits →
      exec .getbits s = .next { s with
        result := u32 (numberOf bits), reader := readerAt (s.readPos + n), status := finished s.status } ∧
      exec .smread s = .next { s with
        result := BitVec.ofInt 32 (match bits with
          | [] => 0
          | true :: _ => numberOf bits
          | false :: _ => -((2 ^ n - 1 - numberOf bits : Nat) : Int))
        reader := readerAt (s.readPos + n)
        status := finished s.status }) ∧
    (16 < n → EndsInError .getbits s 9 n ∧ EndsInError .smread s 9 n) ∧
    (n ≤ 16 → 1 ≤ n → 8 * s.bsLen.toNat < s.readPos + n →
      EndsInError .getbits s 6 (s.firstUnreadable s.readPos) ∧ EndsInError .smread s 6 (s.firstUnreadable s.readPos))

/-- 48_signed_magnitude.md R404: for every v of category n, 1 ≤ n ≤ 16, SMREAD of n bits gives v where the input holds the
bits that SMWRITE appends for v and n; and n = 0 gives 0. -/
def Obligations.SignedMagnitudeRoundTrips : Prop :=
  ∀ (s t : State) (m : Memory Byte) (acc : Byte) (bits : List Bool), s.Inv → IsCategory s.arg0.toInt s.arg1.toNat →
    exec .smwrite s = .next (s.appended bits m acc) → (s.appended bits m acc).written = s.written ++ bits →
    t.arg1 = s.arg1 → t.streamHas t.readPos bits → ∃ u, exec .smread t = .next u ∧ u.result = s.arg0

/-- 47_huffman_bitstream.md R376, R377: BSWRST clears the writer and BSRRST the reader; BS, BS_LEN and the other one are
unchanged. -/
def Obligations.BswrstAndBsrrstClearTheirPointers : Prop :=
  encode .bswrst = 0x51 ∧ encode .bsrrst = 0x52 ∧
  ∀ s : State,
    exec .bswrst s = .next { s with writer := { wptr := 0, acc := 0, nb := 0 }, status := finished s.status } ∧
    exec .bsrrst s = .next { s with reader := { rptr := 0, rbit := 0 }, status := finished s.status }

/-- 49_transfer_system.md R421: LOADBLK copies channel ch of the 64 pixels of block b to FBLK, bit for bit. -/
def Obligations.LoadblkCopiesTheChannel : Prop :=
  ∀ (s : State) (ch : Channel) (b : Nat), s.geometryValid = true → b < s.numBlocks →
    ∃ x, exec (.loadblk ch b) s = .next { s with fblk := x, status := finished s.status } ∧
      ∀ r c, r < 8 → c < 8 → nth x (8 * r + c) = (Memory.read s.ycc (pixelOf s.imgW.toNat b r c)).chan ch

/-- 49_transfer_system.md R422: STOREBLK writes channel ch of the 64 pixels of block b from FBLK; their other channels and
every other pixel keep their values. -/
def Obligations.StoreblkWritesOneChannel : Prop :=
  ∀ (s : State) (ch : Channel) (b : Nat), s.geometryValid = true → b < s.numBlocks → Memory.wf s.ycc = true →
    ∃ m, exec (.storeblk ch b) s = .next { s with ycc := m, status := finished s.status } ∧ Memory.wf m = true ∧
      (∀ r c, r < 8 → c < 8 →
        (Memory.read m (pixelOf s.imgW.toNat b r c)).chan ch = nth s.fblk (8 * r + c) ∧
        ∀ ch', ch' ≠ ch → (Memory.read m (pixelOf s.imgW.toNat b r c)).chan ch'
          = (Memory.read s.ycc (pixelOf s.imgW.toNat b r c)).chan ch') ∧
      ∀ i, (∀ r c, r < 8 → c < 8 → i ≠ pixelOf s.imgW.toNat b r c) → Memory.read m i = Memory.read s.ycc i

/-- 49_transfer_system.md R423, R424: LOADVEC copies the 64 coefficients of block b of channel ch to VEC, STOREVEC copies
VEC to them, and every other coefficient keeps its value. -/
def Obligations.LoadvecAndStorevecCopyTheVector : Prop :=
  ∀ (s : State) (ch : Channel) (b : Nat), s.geometryValid = true → b < s.numBlocks →
    (∃ x, exec (.loadvec ch b) s = .next { s with vec := x, status := finished s.status } ∧
      ∀ k < 64, nth x k = Memory.read s.coef (coefIx ch b k)) ∧
    (Memory.wf s.coef = true →
      ∃ m, exec (.storevec ch b) s = .next { s with coef := m, status := finished s.status } ∧ Memory.wf m = true ∧
        (∀ k < 64, Memory.read m (coefIx ch b k) = nth s.vec k) ∧
        ∀ n, (∀ k < 64, n ≠ coefIx ch b k) → Memory.read m n = Memory.read s.coef n)

/-! ## Arithmetic -/

/-- 00_scope.md R10: the four operations give the exact result rounded to binary64, to nearest, ties to even; `f64(n)` is
the exact value of n; `lit` of a decimal literal, written as a fraction, is the binary64 value nearest to it. From
2^1024 − 2^970 on the result is an infinity, and results below the normal values are kept, as IEEE 754 has it, which R10
names (log 15, PRESUMED); so do operands that are not finite and a zero divisor, of which this says nothing. -/
def Obligations.ArithmeticRoundsToNearestEven : Prop :=
  (∀ (a b : F64) (x y : ℚ), F64.Canon a → F64.Canon b → a.toRat = some x → b.toRat = some y →
    Nearest (x + y) (F64.add a b) ∧ Nearest (x - y) (F64.sub a b) ∧ Nearest (x * y) (F64.mul a b) ∧
    (y ≠ 0 → Nearest (x / y) (F64.div a b))) ∧
  (∀ n : Int, n.natAbs < 2 ^ 53 → (F64.ofInt n).toRat = some (n : ℚ)) ∧
  ∀ m n : Nat, m < 2 ^ 53 → 1 ≤ n → n < 2 ^ 53 → Nearest ((m : ℚ) / n) (F64.lit m n)

/-- 00_scope.md R10: `roundHA` of a finite value is the nearest integer, ties away from zero; `clamp(x, lo, hi)` is lo if
x < lo, hi if x > hi, else x, for finite bounds. That −∞ is below and +∞ above every finite value and that a NaN is neither
is IEEE 754's (log 15, PRESUMED). -/
def Obligations.RoundHalfAwayIsNearest : Prop :=
  (∀ (a : F64) (x : ℚ), a.toRat = some x → ∃ z, F64.roundHA a = some z ∧ NearestAway x z) ∧
  ∀ (lo hi : F64) (l h : ℚ), lo.toRat = some l → hi.toRat = some h →
    (∀ (a : F64) (x : ℚ), a.toRat = some x → F64.clamp a lo hi = if x < l then lo else if h < x then hi else a) ∧
    F64.clamp (.inf true) lo hi = lo ∧ F64.clamp (.inf false) lo hi = hi ∧ F64.clamp .nan lo hi = .nan
end

