-- ==== Sys2Proof/Laws/Block.lean ====
section
/-! SUPPORT. The laws of 64-element blocks. -/

namespace Sys2Proof

variable {α : Type} [Inhabited α]

@[simp] theorem nth_blockOf (f : Nat → α) (n : Nat) (h : n < 64) : nth (blockOf f) n = f n := by
  simp [nth, blockOf, List.getD_eq_getElem?_getD, h]

theorem nth_put (b : Block α) (n k : Nat) (v : α) (hk : k < 64) :
    nth (put b n v) k = if k = n then v else nth b k := by
  have h1 : k < b.toList.length := by simpa using hk
  simp only [nth, put, Vector.toList_setIfInBounds, List.getD_eq_getElem?_getD, List.getElem?_set]
  by_cases h : n = k
  · subst h; simp [hk]
  · simp [h, Ne.symm h]

/-- Blocks with equal elements are equal. -/
theorem block_ext {b c : Block α} (h : ∀ n, n < 64 → nth b n = nth c n) : b = c := by
  apply Vector.ext
  intro i hi
  have := h i hi
  simpa [nth, List.getD_eq_getElem?_getD, hi] using this

end Sys2Proof
end

