-- ==== Sys2Proof/Laws/Float.lean ====
section
/-! SUPPORT. The laws of the binary64 arithmetic: every result is a binary64 value, and its bit pattern reads back. -/

namespace Sys2Proof.Machine

@[simp] theorem signBits_true : signBits true = 2 ^ 63 := rfl

@[simp] theorem signBits_false : signBits false = 0 := rfl

theorem canon_zero (s : Bool) : F64.Canon (.fin s 0 (-1074)) := by
  simp [F64.Canon]

theorem canon_ofBits (d : Double) : F64.Canon (F64.ofBits d) := by
  unfold F64.ofBits
  have hfr : d.toNat % 2 ^ 52 < 2 ^ 52 := Nat.mod_lt _ (by norm_num)
  have hex : d.toNat / 2 ^ 52 % 2048 < 2048 := Nat.mod_lt _ (by norm_num)
  simp only
  generalize d.toNat % 2 ^ 52 = fr at hfr
  generalize d.toNat / 2 ^ 52 % 2048 = ex at hex
  split
  · split <;> trivial
  · split
    · exact ⟨by omega, by omega, by omega, fun _ => rfl⟩
    · exact ⟨by omega, by omega, by omega, by omega⟩

theorem canon_norm {s : Bool} {m : Nat} {e : Int} (hm : m ≤ 2 ^ 53) (he : -1074 ≤ e) (h : m < 2 ^ 52 → e = -1074) :
    F64.Canon (F64.norm s m e) := by
  unfold F64.norm
  split
  · split
    · trivial
    · simp only [F64.Canon]
      omega
  · split
    · trivial
    · simp only [F64.Canon]
      omega

theorem roundEven_bounds (n d : Nat) : n / 2 ^ d ≤ roundEven n d ∧ roundEven n d ≤ n / 2 ^ d + 1 := by
  unfold roundEven
  simp only
  split
  · omega
  · split <;> omega

/-- Rounding gives a binary64 value. -/
theorem canon_round (s : Bool) (n : Nat) (e : Int) : F64.Canon (F64.round s n e) := by
  unfold F64.round
  split
  · exact canon_zero s
  · rename_i hn
    have hlo : 2 ^ Nat.log2 n ≤ n := Nat.log2_self_le hn
    have hhi : n < 2 ^ (Nat.log2 n + 1) := Nat.lt_log2_self
    simp only
    generalize Nat.log2 n = L at hlo hhi
    split
    · rename_i hq
      obtain ⟨k, hk⟩ : ∃ k : Nat, (e - max (e + L - 52) (-1074)).toNat = k := ⟨_, rfl⟩
      rw [hk]
      have hk2 : k + L ≤ 52 := by omega
      have hup : n * 2 ^ k < 2 ^ 53 := by
        calc n * 2 ^ k < 2 ^ (L + 1) * 2 ^ k := by
              exact Nat.mul_lt_mul_of_pos_right hhi (by positivity)
          _ = 2 ^ (L + 1 + k) := (pow_add _ _ _).symm
          _ ≤ 2 ^ 53 := Nat.pow_le_pow_right (by norm_num) (by omega)
      refine canon_norm (le_of_lt hup) (by omega) ?_
      intro hlt
      by_contra hne
      have hk3 : k + L = 52 := by omega
      have : 2 ^ 52 ≤ n * 2 ^ k := by
        calc 2 ^ 52 = 2 ^ L * 2 ^ k := by rw [← pow_add]; congr 1; omega
          _ ≤ n * 2 ^ k := Nat.mul_le_mul_right _ hlo
      omega
    · rename_i hq
      obtain ⟨k, hk⟩ : ∃ k : Nat, (max (e + L - 52) (-1074) - e).toNat = k := ⟨_, rfl⟩
      rw [hk]
      have hb := roundEven_bounds n k
      have hk2 : L ≤ k + 52 := by omega
      have hup : n / 2 ^ k < 2 ^ 53 := by
        rw [Nat.div_lt_iff_lt_mul (by positivity)]
        calc n < 2 ^ (L + 1) := hhi
          _ ≤ 2 ^ (53 + k) := Nat.pow_le_pow_right (by norm_num) (by omega)
          _ = 2 ^ 53 * 2 ^ k := pow_add _ _ _
      refine canon_norm (by omega) (by omega) ?_
      intro hlt
      by_contra hne
      have hk3 : L = k + 52 := by omega
      have : 2 ^ 52 ≤ n / 2 ^ k := by
        rw [Nat.le_div_iff_mul_le (by positivity)]
        calc 2 ^ 52 * 2 ^ k = 2 ^ L := by rw [← pow_add]; congr 1; omega
          _ ≤ n := hlo
      omega

theorem canon_neg {a : F64} (h : F64.Canon a) : F64.Canon (F64.neg a) := by
  cases a <;> exact h

theorem canon_add {a b : F64} : F64.Canon (F64.add a b) := by
  rcases a with _ | s | ⟨s, m, e⟩ <;> rcases b with _ | t | ⟨t, n, f⟩ <;> simp only [F64.add] <;>
    first
    | trivial
    | (split <;> first | trivial | exact canon_zero _ | exact canon_round _ _ _)

theorem canon_sub {a b : F64} : F64.Canon (F64.sub a b) := canon_add

theorem canon_mul {a b : F64} : F64.Canon (F64.mul a b) := by
  rcases a with _ | s | ⟨s, m, e⟩ <;> rcases b with _ | t | ⟨t, n, f⟩ <;> simp only [F64.mul] <;>
    first
    | trivial
    | exact canon_round _ _ _
    | (split <;> trivial)

theorem canon_div {a b : F64} : F64.Canon (F64.div a b) := by
  rcases a with _ | s | ⟨s, m, e⟩ <;> rcases b with _ | t | ⟨t, n, f⟩ <;> simp only [F64.div] <;>
    first
    | trivial
    | exact canon_zero _
    | skip
  split
  · split <;> trivial
  · exact canon_round _ _ _

theorem canon_ofInt (z : Int) : F64.Canon (F64.ofInt z) := canon_round _ _ _

/-- The bit pattern of a value that is not a NaN reads back as it. -/
theorem ofBits_toBits_of_not_nan {x : F64} (h : F64.Canon x) (hx : x ≠ .nan) (p : Double) :
    F64.ofBits (F64.toBits p x) = x := by
  rcases x with _ | s | ⟨s, m, e⟩
  · exact absurd rfl hx
  · cases s <;> simp [F64.toBits, F64.ofBits, signBits]
  · obtain ⟨hm, he1, he2, hsub⟩ := h
    simp only [F64.toBits]
    split
    · rename_i hlt
      have he := hsub hlt
      subst he
      simp only [F64.ofBits, BitVec.toNat_ofNat]
      cases s
      · have h1 : (signBits false + m) % 2 ^ 64 = m := by rw [signBits_false]; omega
        rw [h1, if_neg (by omega), if_pos (by omega)]
        have h2 : m / 2 ^ 63 = 0 := by omega
        have h3 : m % 2 ^ 52 = m := by omega
        rw [h2, h3]; rfl
      · have h1 : (signBits true + m) % 2 ^ 64 = 2 ^ 63 + m := by rw [signBits_true]; omega
        rw [h1, if_neg (by omega), if_pos (by omega)]
        have h2 : (2 ^ 63 + m) / 2 ^ 63 = 1 := by omega
        have h3 : (2 ^ 63 + m) % 2 ^ 52 = m := by omega
        rw [h2, h3]; rfl
    · rename_i hge
      obtain ⟨k, hk⟩ : ∃ k : Nat, (e + 1075).toNat = k := ⟨_, rfl⟩
      have hk1 : 1 ≤ k := by omega
      have hk2 : k ≤ 2046 := by omega
      have hke : (k : Int) - 1075 = e := by omega
      obtain ⟨f, hf⟩ : ∃ f : Nat, m - 2 ^ 52 = f := ⟨_, rfl⟩
      have hf1 : f < 2 ^ 52 := by omega
      have hfm : f + 2 ^ 52 = m := by omega
      rw [hk, hf]
      simp only [F64.ofBits, BitVec.toNat_ofNat]
      cases s
      · have h1 : (signBits false + k * 2 ^ 52 + f) % 2 ^ 64 = k * 2 ^ 52 + f := by rw [signBits_false]; omega
        rw [h1]
        have h2 : (k * 2 ^ 52 + f) / 2 ^ 52 % 2048 = k := by omega
        have h3 : (k * 2 ^ 52 + f) / 2 ^ 63 = 0 := by omega
        have h4 : (k * 2 ^ 52 + f) % 2 ^ 52 = f := by omega
        rw [h2, h3, h4, if_neg (by omega), if_neg (by omega), hfm, hke]; rfl
      · have h1 : (signBits true + k * 2 ^ 52 + f) % 2 ^ 64 = 2 ^ 63 + k * 2 ^ 52 + f := by rw [signBits_true]; omega
        rw [h1]
        have h2 : (2 ^ 63 + k * 2 ^ 52 + f) / 2 ^ 52 % 2048 = k := by omega
        have h3 : (2 ^ 63 + k * 2 ^ 52 + f) / 2 ^ 63 = 1 := by omega
        have h4 : (2 ^ 63 + k * 2 ^ 52 + f) % 2 ^ 52 = f := by omega
        rw [h2, h3, h4, if_neg (by omega), if_neg (by omega), hfm, hke]; rfl

/-- A free NaN pattern is a NaN, whatever the free values are (93_implementation_defined.md U4). -/
@[simp] theorem ofBits_freeNan (t i : Nat) : F64.ofBits (freeNan t i) = .nan := by
  unfold freeNan
  simp only
  generalize Config.nanSign t i = s
  have hfr := (Config.nanFrac t i).isLt
  generalize (Config.nanFrac t i).toNat = fr at hfr
  obtain ⟨g, hg⟩ : ∃ g, (if fr = 0 then 1 else fr) = g := ⟨_, rfl⟩
  have hg1 : 1 ≤ g ∧ g < 2 ^ 52 := by
    split at hg <;> omega
  rw [hg]
  simp only [F64.ofBits, BitVec.toNat_ofNat]
  cases s
  · have h1 : (signBits false + 2047 * 2 ^ 52 + g) % 2 ^ 64 = 2047 * 2 ^ 52 + g := by rw [signBits_false]; omega
    rw [h1, if_pos (by omega), if_neg (by omega)]
  · have h1 : (signBits true + 2047 * 2 ^ 52 + g) % 2 ^ 64 = 2 ^ 63 + 2047 * 2 ^ 52 + g := by
      rw [signBits_true]; omega
    rw [h1, if_pos (by omega), if_neg (by omega)]

/-- A value stored with free NaN patterns reads back as it, a NaN included. -/
theorem ofBits_toBits {x : F64} (h : F64.Canon x) (t i : Nat) : F64.ofBits (F64.toBits (freeNan t i) x) = x := by
  by_cases hx : x = .nan
  · subst hx; simp [F64.toBits]
  · exact ofBits_toBits_of_not_nan h hx _

end Sys2Proof.Machine
end

