-- ==== Sys2Proof/Laws/Dct.lean ====
section
/-! SUPPORT. The 8×8 products as eight-term sums, and what sums of zeros give (spec/42_dct.md R242). -/

namespace Sys2Proof.Machine

theorem mat_mul (a b : Matrix8) {i j : Nat} (hi : i < 8) (hj : j < 8) :
    mat (matMul a b) i j = sum8 fun k => F64.mul (mat a i k) (mat b k j) := by
  unfold mat matMul
  rw [nth_blockOf _ _ (by omega)]
  have e1 : (8 * i + j) / 8 = i := by omega
  have e2 : (8 * i + j) % 8 = j := by omega
  rw [e1, e2]
  rfl

theorem mat_transpose (a : Matrix8) {i j : Nat} (hi : i < 8) (hj : j < 8) : mat (transpose a) i j = mat a j i := by
  unfold mat transpose
  rw [nth_blockOf _ _ (by omega)]
  have e1 : (8 * i + j) / 8 = i := by omega
  have e2 : (8 * i + j) % 8 = j := by omega
  rw [e1, e2]
  rfl

theorem mat_valuesOf (b : Block Double) {i j : Nat} (hi : i < 8) (hj : j < 8) :
    mat (valuesOf b) i j = F64.ofBits (nth b (8 * i + j)) := by
  unfold mat valuesOf
  rw [nth_blockOf _ _ (by omega)]

theorem sum8_congr {f g : Nat → F64} (h : ∀ k < 8, f k = g k) : sum8 f = sum8 g := by
  unfold sum8
  rw [h 0 (by norm_num), h 1 (by norm_num), h 2 (by norm_num), h 3 (by norm_num), h 4 (by norm_num), h 5 (by norm_num),
    h 6 (by norm_num), h 7 (by norm_num)]

theorem canon_sum8 (f : Nat → F64) : F64.Canon (sum8 f) := canon_add

theorem canon_fdctOf (c x : Matrix8) {n : Nat} (hn : n < 64) : F64.Canon (nth (fdctOf c x) n) := by
  have := mat_mul (matMul c (blockOf fun n => F64.sub (nth x n) (F64.ofInt 128))) (transpose c)
    (i := n / 8) (j := n % 8) (by omega) (by omega)
  unfold mat at this
  rw [Nat.div_add_mod] at this
  exact this ▸ canon_sum8 _

/-- The patterns stored for values are the patterns of these values, NaNs included. -/
theorem valuesOf_patternsOf {t : Nat} {a : Matrix8} (h : ∀ n < 64, F64.Canon (nth a n)) :
    valuesOf (patternsOf t a) = a := by
  apply block_ext
  intro n hn
  unfold valuesOf patternsOf
  rw [nth_blockOf _ _ hn, nth_blockOf _ _ hn, ofBits_toBits (h n hn)]

/-- A finite value times a zero is a zero. -/
theorem mul_zero_value {a : F64} (h : a.toRat.isSome) (t : Bool) :
    (∃ s, F64.mul a (.fin t 0 (-1074)) = .fin s 0 (-1074)) ∧ ∃ s, F64.mul (.fin t 0 (-1074)) a = .fin s 0 (-1074) := by
  rcases a with _ | s | ⟨s, m, e⟩
  · cases h
  · cases h
  · refine ⟨⟨xor s t, ?_⟩, xor t s, ?_⟩ <;> simp [F64.mul, F64.round]

/-- A sum of zeros of any sign, from +0.0, is +0.0. -/
theorem sum8_zero {f : Nat → F64} (h : ∀ k < 8, ∃ s, f k = .fin s 0 (-1074)) : sum8 f = .fin false 0 (-1074) := by
  have z : ∀ s, F64.add (.fin false 0 (-1074)) (.fin s 0 (-1074)) = .fin false 0 (-1074) := by
    intro s; cases s <;> decide
  obtain ⟨s0, h0⟩ := h 0 (by norm_num)
  obtain ⟨s1, h1⟩ := h 1 (by norm_num)
  obtain ⟨s2, h2⟩ := h 2 (by norm_num)
  obtain ⟨s3, h3⟩ := h 3 (by norm_num)
  obtain ⟨s4, h4⟩ := h 4 (by norm_num)
  obtain ⟨s5, h5⟩ := h 5 (by norm_num)
  obtain ⟨s6, h6⟩ := h 6 (by norm_num)
  obtain ⟨s7, h7⟩ := h 7 (by norm_num)
  unfold sum8
  simp only [h0, h1, h2, h3, h4, h5, h6, h7, z]

end Sys2Proof.Machine
end

