-- ==== Sys2Proof/Laws/Memory.lean ====
section
/-! SUPPORT. The laws of the local memories: canonical form, read after write, bulk writes. -/

namespace Sys2Proof.Machine

variable {α : Type} [DecidableEq α] [Inhabited α]

omit [DecidableEq α] [Inhabited α] in
theorem above_mono {m n : Nat} (h : m ≤ n) : ∀ {l : Memory α}, above n l = true → above m l = true
  | [], _ => rfl
  | (i, v) :: rest, hl => by
    simp only [above, Bool.and_eq_true, decide_eq_true_eq] at hl ⊢
    exact ⟨by omega, above_mono h hl.2⟩

omit [DecidableEq α] in
@[simp] theorem read_nil (n : Nat) : Memory.read ([] : Memory α) n = default := rfl

omit [DecidableEq α] in
theorem read_above {n k : Nat} (hk : k ≤ n) : ∀ {l : Memory α}, above n l = true → Memory.read l k = default
  | [], _ => rfl
  | (i, v) :: rest, h => by
    simp only [above, Bool.and_eq_true, decide_eq_true_eq] at h
    simp only [Memory.read]
    rw [if_neg (by omega), if_pos (by omega)]

theorem wf_cons {i : Nat} {v : α} {rest : Memory α} (h : Memory.wf ((i, v) :: rest) = true) :
    above i rest = true ∧ v ≠ default ∧ Memory.wf rest = true := by
  simp only [Memory.wf, Bool.and_eq_true, bne_iff_ne, ne_eq] at h
  exact ⟨h.1.1, h.1.2, h.2⟩

theorem wf_cons_of {i : Nat} {v : α} {rest : Memory α} (ha : above i rest = true) (hv : v ≠ default)
    (h : Memory.wf rest = true) : Memory.wf ((i, v) :: rest) = true := by
  simp [Memory.wf, ha, hv, h]

theorem above_write {n k : Nat} (x : α) (h : n < k) :
    ∀ {l : Memory α}, above n l = true → above n (Memory.write l k x) = true
  | [], _ => by
    simp only [Memory.write]
    split <;> simp [above, h]
  | (i, v) :: rest, hl => by
    have hl' := hl
    simp only [above, Bool.and_eq_true, decide_eq_true_eq] at hl
    simp only [Memory.write]
    split
    · split
      · exact hl.2
      · simp [above, h, hl.2]
    · split
      · split
        · exact hl'
        · simp [above, h, hl.1, hl.2]
      · simp [above, hl.1, above_write x h hl.2]

/-- MemWrite keeps the canonical form. -/
theorem wf_write (n : Nat) (x : α) : ∀ {l : Memory α}, Memory.wf l = true → Memory.wf (Memory.write l n x) = true
  | [], _ => by
    simp only [Memory.write]
    split
    · rfl
    · rename_i hx
      exact wf_cons_of rfl hx rfl
  | (i, v) :: rest, h => by
    obtain ⟨ha, hv, hr⟩ := wf_cons h
    simp only [Memory.write]
    split
    · rename_i hni
      split
      · exact hr
      · rename_i hx
        exact wf_cons_of (by rw [hni]; exact ha) hx hr
    · split
      · split
        · exact h
        · rename_i hlt hx
          refine wf_cons_of ?_ hx h
          simp only [above, Bool.and_eq_true, decide_eq_true_eq]
          exact ⟨hlt, above_mono (Nat.le_of_lt hlt) ha⟩
      · exact wf_cons_of (above_write x (by omega) ha) hv (wf_write n x hr)

/-- MemRead after MemWrite to the same index. -/
theorem read_write_same (n : Nat) (x : α) :
    ∀ {l : Memory α}, Memory.wf l = true → Memory.read (Memory.write l n x) n = x
  | [], _ => by
    simp only [Memory.write]
    split
    · rename_i hx; simp [hx]
    · simp [Memory.read]
  | (i, v) :: rest, h => by
    obtain ⟨ha, hv, hr⟩ := wf_cons h
    simp only [Memory.write]
    split
    · rename_i hni
      split
      · rename_i hx
        rw [hx, hni]
        exact read_above (Nat.le_refl _) ha
      · simp [Memory.read]
    · rename_i hni
      split
      · rename_i hlt
        split
        · rename_i hx
          simp [Memory.read, hni, hlt, hx]
        · simp [Memory.read]
      · rename_i hlt
        simp only [Memory.read, if_neg hni, if_neg hlt]
        exact read_write_same n x hr

/-- MemRead after MemWrite to another index. -/
theorem read_write_other {n k : Nat} (hk : k ≠ n) (x : α) :
    ∀ {l : Memory α}, Memory.wf l = true → Memory.read (Memory.write l n x) k = Memory.read l k
  | [], _ => by
    simp only [Memory.write]
    split
    · rfl
    · simp only [Memory.read, if_neg hk]
      split <;> rfl
  | (i, v) :: rest, h => by
    obtain ⟨ha, hv, hr⟩ := wf_cons h
    simp only [Memory.write]
    split
    · rename_i hni
      subst hni
      split
      · simp only [Memory.read, if_neg hk]
        split
        · exact read_above (by omega) ha
        · rfl
      · simp only [Memory.read, if_neg hk]
    · rename_i hni
      split
      · rename_i hlt
        split
        · rfl
        · simp only [Memory.read, if_neg hk]
          split
          · rename_i hkn
            rw [if_neg (by omega), if_pos (by omega)]
          · rfl
      · simp only [Memory.read]
        rw [read_write_other hk x hr]

/-- What an index reads as after one MemWrite. -/
theorem read_write (n k : Nat) (x : α) {l : Memory α} (h : Memory.wf l = true) :
    Memory.read (Memory.write l n x) k = if k = n then x else Memory.read l k := by
  split
  · rename_i hk; subst hk; exact read_write_same _ _ h
  · rename_i hk; exact read_write_other hk _ h

theorem wf_writeAll : ∀ (ps : List (Nat × α)) {l : Memory α}, Memory.wf l = true →
    Memory.wf (Memory.writeAll l ps) = true
  | [], _, h => h
  | p :: ps, _, h => wf_writeAll ps (wf_write p.1 p.2 h)

/-- A bulk write leaves the indices it does not name alone. -/
theorem read_writeAll_other {k : Nat} : ∀ (ps : List (Nat × α)) {l : Memory α}, Memory.wf l = true →
    (∀ p ∈ ps, p.1 ≠ k) → Memory.read (Memory.writeAll l ps) k = Memory.read l k
  | [], _, _, _ => rfl
  | p :: ps, l, h, hk => by
    have h1 := read_writeAll_other ps (wf_write p.1 p.2 h) (fun q hq => hk q (List.mem_cons_of_mem _ hq))
    have h2 := read_write_other (l := l) (Ne.symm (hk p List.mem_cons_self)) p.2 h
    simpa [Memory.writeAll] using h1.trans h2

/-- A bulk write to distinct indices puts each element at its index. -/
theorem read_writeAll_mem {k : Nat} {x : α} : ∀ (ps : List (Nat × α)) {l : Memory α}, Memory.wf l = true →
    (ps.map Prod.fst).Nodup → (k, x) ∈ ps → Memory.read (Memory.writeAll l ps) k = x
  | [], _, _, _, hm => by simp at hm
  | p :: ps, l, h, hn, hm => by
    simp only [List.map_cons, List.nodup_cons] at hn
    rcases List.mem_cons.mp hm with rfl | hm
    · have h1 := read_writeAll_other (k := k) ps (wf_write k x h) (fun q hq hqk =>
        hn.1 (List.mem_map.mpr ⟨q, hq, hqk⟩))
      simpa [Memory.writeAll] using h1.trans (read_write_same k x h)
    · simpa [Memory.writeAll] using read_writeAll_mem ps (wf_write p.1 p.2 h) hn.2 hm

/-- A bulk write of `f i` to every index i < n. -/
theorem read_writeAll_range (n k : Nat) (f : Nat → α) {l : Memory α} (h : Memory.wf l = true) :
    Memory.read (Memory.writeAll l ((List.range n).map fun i => (i, f i))) k
      = if k < n then f k else Memory.read l k := by
  split
  · rename_i hk
    refine read_writeAll_mem _ h ?_ (List.mem_map.mpr ⟨k, List.mem_range.mpr hk, rfl⟩)
    rw [List.map_map]
    simpa [Function.comp_def] using List.nodup_range
  · rename_i hk
    refine read_writeAll_other _ h ?_
    intro p hp
    obtain ⟨i, hi, rfl⟩ := List.mem_map.mp hp
    have := List.mem_range.mp hi
    show i ≠ k
    omega

theorem within_write {n k : Nat} (x : α) (hk : k < n) : ∀ {l : Memory α}, within n l → within n (Memory.write l k x)
  | [], _ => by
    intro p hp
    simp only [Memory.write] at hp
    split at hp
    · simp at hp
    · simp only [List.mem_singleton] at hp
      rw [hp]; exact hk
  | (i, v) :: rest, h => by
    have hr : within n rest := fun p hp => h p (List.mem_cons_of_mem _ hp)
    have hi : i < n := h (i, v) List.mem_cons_self
    intro p hp
    simp only [Memory.write] at hp
    split at hp
    · split at hp
      · exact hr p hp
      · rcases List.mem_cons.mp hp with rfl | hp
        · exact hk
        · exact hr p hp
    · split at hp
      · split at hp
        · exact h p hp
        · rcases List.mem_cons.mp hp with rfl | hp
          · exact hk
          · exact h p hp
      · rcases List.mem_cons.mp hp with rfl | hp
        · exact hi
        · exact within_write x hk hr p hp

theorem within_writeAll {n : Nat} : ∀ (ps : List (Nat × α)) {l : Memory α}, within n l → (∀ p ∈ ps, p.1 < n) →
    within n (Memory.writeAll l ps)
  | [], _, h, _ => h
  | p :: ps, _, h, hp =>
    within_writeAll ps (within_write p.2 (hp p List.mem_cons_self) h) (fun q hq => hp q (List.mem_cons_of_mem _ hq))

/-- Canonical memories that read alike are equal. -/
theorem memory_ext : ∀ {l m : Memory α}, Memory.wf l = true → Memory.wf m = true →
    (∀ k, Memory.read l k = Memory.read m k) → l = m
  | [], [], _, _, _ => rfl
  | [], (i, v) :: m, _, hm, h => by
    obtain ⟨_, hv, _⟩ := wf_cons hm
    have := h i
    simp [Memory.read] at this
    exact absurd this.symm hv
  | (i, v) :: l, [], hl, _, h => by
    obtain ⟨_, hv, _⟩ := wf_cons hl
    have := h i
    simp [Memory.read] at this
    exact absurd this hv
  | (i, v) :: l, (j, w) :: m, hl, hm, h => by
    obtain ⟨hla, hv, hlw⟩ := wf_cons hl
    obtain ⟨hma, hw, hmw⟩ := wf_cons hm
    have hij : i = j := by
      rcases Nat.lt_trichotomy i j with hlt | heq | hgt
      · have := h i
        simp only [Memory.read, if_true, if_neg (Nat.ne_of_lt hlt), if_pos hlt] at this
        exact absurd this hv
      · exact heq
      · have := h j
        simp only [Memory.read, if_true, if_neg (Nat.ne_of_lt hgt), if_pos hgt] at this
        exact absurd this.symm hw
    subst hij
    have hvw : v = w := by simpa [Memory.read] using h i
    subst hvw
    have : l = m := memory_ext hlw hmw fun k => by
      by_cases hk : k ≤ i
      · rw [read_above hk hla, read_above hk hma]
      · have := h k
        simpa only [Memory.read, if_neg (show k ≠ i by omega), if_neg (show ¬k < i by omega)] using this
    rw [this]

end Sys2Proof.Machine
end

