-- ==== Sys2Proof/Laws/Geometry.lean ====
section
/-! SUPPORT. Image geometry: pixels of a block, groups of four, coefficient places, and the two checks (spec/00_scope.md
R14, 10_state.md R40, 41_chroma_subsample.md R220). -/

namespace Sys2Proof.Machine

theorem geometryValid_iff (s : State) : s.geometryValid = true ↔
    8 ≤ s.imgW.toNat ∧ 8 ≤ s.imgH.toNat ∧ s.imgW.toNat % 8 = 0 ∧ s.imgH.toNat % 8 = 0 ∧
    s.imgW.toNat ≤ s.cfg.maxDim ∧ s.imgH.toNat ≤ s.cfg.maxDim ∧ s.imgW.toNat * s.imgH.toNat ≤ s.cfg.maxPixels := by
  simp [State.geometryValid, and_assoc]

theorem checkGeometry_ok {s : State} (h : s.geometryValid = true) : s.checkGeometry = .ok () := by
  simp [State.checkGeometry, h]

theorem checkGeometry_error {s : State} (h : s.geometryValid = false) :
    s.checkGeometry = .error ⟨.badGeometry, u32 s.geometryInfo⟩ := by
  simp [State.checkGeometry, h, raised, State.geometryInfo]

theorem checkBlock_ok {s : State} {b : Nat} (h : s.geometryValid = true) (hb : b < s.numBlocks) :
    s.checkBlock b = .ok () := by
  simp [State.checkBlock, checkGeometry_ok h, hb]

theorem checkBlock_badGeometry {s : State} (b : Nat) (h : s.geometryValid = false) :
    s.checkBlock b = .error ⟨.badGeometry, u32 s.geometryInfo⟩ := by
  simp [State.checkBlock, checkGeometry_error h]

theorem checkBlock_range {s : State} {b : Nat} (h : s.geometryValid = true) (hb : s.numBlocks ≤ b) :
    s.checkBlock b = .error ⟨.blkRange, u32 b⟩ := by
  simp [State.checkBlock, checkGeometry_ok h, hb, raised]

/-- A check that passes says that the geometry is valid and the block in the image. -/
theorem checkBlock_cases (s : State) (b : Nat) :
    (s.geometryValid = true ∧ b < s.numBlocks ∧ s.checkBlock b = .ok ()) ∨ ∃ e, s.checkBlock b = .error e := by
  cases h : s.geometryValid
  · exact .inr ⟨_, checkBlock_badGeometry b h⟩
  · rcases Nat.lt_or_ge b s.numBlocks with hb | hb
    · exact .inl ⟨rfl, hb, checkBlock_ok h hb⟩
    · exact .inr ⟨_, checkBlock_range h hb⟩

theorem checkGeometry_cases (s : State) :
    (s.geometryValid = true ∧ s.checkGeometry = .ok ()) ∨ ∃ e, s.checkGeometry = .error e := by
  cases h : s.geometryValid
  · exact .inr ⟨_, checkGeometry_error h⟩
  · exact .inl ⟨rfl, checkGeometry_ok h⟩

/-- A valid image as blocks: bw columns and bh rows of them. -/
theorem image_blocks {s : State} (h : s.geometryValid = true) : ∃ bw bh, 1 ≤ bw ∧ 1 ≤ bh ∧ s.imgW.toNat = 8 * bw ∧
    s.imgH.toNat = 8 * bh ∧ s.numBlocks = bw * bh ∧ s.numPixels = 64 * (bw * bh) ∧ 64 * (bw * bh) ≤ s.cfg.maxPixels := by
  obtain ⟨h1, h2, h3, h4, _, _, h7⟩ := (geometryValid_iff s).mp h
  obtain ⟨bw, hw⟩ : ∃ bw, s.imgW.toNat = 8 * bw := ⟨s.imgW.toNat / 8, by omega⟩
  obtain ⟨bh, hh⟩ : ∃ bh, s.imgH.toNat = 8 * bh := ⟨s.imgH.toNat / 8, by omega⟩
  have hp : 8 * bw * (8 * bh) = 64 * (bw * bh) := by ring
  refine ⟨bw, bh, by omega, by omega, hw, hh, ?_, ?_, ?_⟩
  · simp [State.numBlocks, h, hw, hh]
  · rw [State.numPixels, hw, hh, hp]
  · rw [hw, hh, hp] at h7; exact h7

theorem numPixels_le {s : State} (h : s.geometryValid = true) : s.numPixels ≤ s.cfg.maxPixels := by
  obtain ⟨bw, bh, _, _, _, _, _, h1, h2⟩ := image_blocks h
  omega

theorem numBlocks_pos {s : State} (h : s.geometryValid = true) : 1 ≤ s.numBlocks := by
  obtain ⟨bw, bh, h1, h2, _, _, h3, _⟩ := image_blocks h
  rw [h3]; exact Nat.mul_pos h1 h2

theorem numBlocks_le {s : State} (hc : s.cfg.sizesFit = true) : s.numBlocks ≤ 65536 := by
  cases h : s.geometryValid
  · simp [State.numBlocks, h]
  · obtain ⟨bw, bh, _, _, _, _, h3, _, h4⟩ := image_blocks h
    simp only [Config.sizesFit, Bool.and_eq_true, decide_eq_true_eq, beq_iff_eq] at hc
    omega

theorem sizesFit_of_wf {c : Config} (h : c.wf = true) : c.sizesFit = true := by
  simp only [Config.wf, Bool.and_eq_true] at h
  exact h.1.1.1.1

theorem dctRestores_of_wf {c : Config} (h : c.wf = true) : c.dctRestores = true := by
  simp only [Config.wf, Bool.and_eq_true] at h
  exact h.1.1.1.2

theorem pix_eq (s : State) (b n : Nat) : s.pix b n = pixelOf s.imgW.toNat b (n / 8) (n % 8) := rfl

theorem pix_rc (s : State) (b : Nat) {r c : Nat} (hc : c < 8) : s.pix b (8 * r + c) = pixelOf s.imgW.toNat b r c := by
  rw [pix_eq]
  congr 1 <;> omega

/-- Different elements of a block are different pixels. -/
theorem pixelOf_inj {w b r c r' c' : Nat} (hw : 8 ≤ w) (h8 : w % 8 = 0) (hc : c < 8) (hc' : c' < 8)
    (h : pixelOf w b r c = pixelOf w b r' c') : r = r' ∧ c = c' := by
  unfold pixelOf at h
  obtain ⟨k, hk⟩ : ∃ k, w = 8 * k := ⟨w / 8, by omega⟩
  have hb : b % (w / 8) < k := by rw [hk, Nat.mul_div_cancel_left _ (by norm_num)]; exact Nat.mod_lt _ (by omega)
  generalize b % (w / 8) = x at *
  generalize b / (w / 8) = y at *
  have h1 : 8 * x + c < w := by omega
  have h2 : 8 * x + c' < w := by omega
  have e1 : (8 * y + r) * w + 8 * x + c = (8 * x + c) + w * (8 * y + r) := by ring
  have e2 : (8 * y + r') * w + 8 * x + c' = (8 * x + c') + w * (8 * y + r') := by ring
  rw [e1, e2] at h
  have hm := congrArg (· % w) h
  have hd := congrArg (· / w) h
  simp only [Nat.add_mul_mod_self_left, Nat.mod_eq_of_lt h1, Nat.mod_eq_of_lt h2] at hm
  simp only [Nat.add_mul_div_left _ _ (by omega : 0 < w), Nat.div_eq_of_lt h1, Nat.div_eq_of_lt h2] at hd
  omega

/-- The pixels of a block of the image are pixels of the image. -/
theorem pixelOf_lt {s : State} (h : s.geometryValid = true) {b r c : Nat} (hb : b < s.numBlocks) (hr : r < 8)
    (hc : c < 8) : pixelOf s.imgW.toNat b r c < s.numPixels := by
  obtain ⟨bw, bh, h1, h2, hw, hh, hnb, hnp, _⟩ := image_blocks h
  unfold pixelOf
  rw [hw, hnp, Nat.mul_div_cancel_left _ (by norm_num)]
  rw [hnb] at hb
  have hx := Nat.mod_lt b (show 0 < bw by omega)
  have hy : b / bw < bh := by rw [Nat.div_lt_iff_lt_mul (by omega)]; rwa [Nat.mul_comm bh bw]
  generalize b % bw = x at *
  generalize b / bw = y at *
  have h3 : 8 * y + r + 1 ≤ 8 * bh := by omega
  have h4 : (8 * y + r + 1) * (8 * bw) ≤ 8 * bh * (8 * bw) := Nat.mul_le_mul_right _ h3
  have h5 : (8 * y + r + 1) * (8 * bw) = (8 * y + r) * (8 * bw) + 8 * bw := by ring
  have h6 : 8 * bh * (8 * bw) = 64 * (bw * bh) := by ring
  omega

theorem pix_lt {s : State} (h : s.geometryValid = true) {b n : Nat} (hb : b < s.numBlocks) (hn : n < 64) :
    s.pix b n < s.numPixels := by
  rw [pix_eq]
  exact pixelOf_lt h hb (by omega) (by omega)

/-- Different elements of a block are different pixels. -/
theorem pix_inj {s : State} (h : s.geometryValid = true) {b n k : Nat} (he : s.pix b n = s.pix b k) : n = k := by
  obtain ⟨h1, _, h3, _⟩ := (geometryValid_iff s).mp h
  rw [pix_eq, pix_eq] at he
  have := pixelOf_inj h1 h3 (by omega) (by omega) he
  omega

theorem coefIx_inj {ch ch' : Channel} {b b' k k' : Nat} (hb : b < 65536) (hb' : b' < 65536) (hk : k < 64) (hk' : k' < 64)
    (h : coefIx ch b k = coefIx ch' b' k') : ch = ch' ∧ b = b' ∧ k = k' := by
  unfold coefIx at h
  cases ch <;> cases ch' <;> simp only [channelNo] at h <;> first | exact ⟨rfl, by omega, by omega⟩ | omega

theorem coefIx_lt (ch : Channel) {b k : Nat} (hb : b < 65536) (hk : k < 64) : coefIx ch b k < 3 * 4194304 := by
  unfold coefIx
  cases ch <;> simp only [channelNo] <;> omega

/-- A channel of a pixel after one channel is replaced. -/
theorem chan_setChan (p : YccPixel) (ch ch' : Channel) (v : Double) :
    (p.setChan ch v).chan ch' = if ch' = ch then v else p.chan ch' := by cases ch <;> cases ch' <;> rfl

/-- The four pixels of group (gy, gx) have the first one as their group's origin, and the same group number. -/
theorem group_of {w gy gx : Nat} (hw : w % 2 = 0) (hx : gx < w / 2) {dy dx : Nat} (hdy : dy < 2) (hdx : dx < 2) :
    groupOrigin w ((2 * gy + dy) * w + 2 * gx + dx) = 2 * gy * w + 2 * gx ∧
      groupNo w ((2 * gy + dy) * w + 2 * gx + dx) = gy * (w / 2) + gx := by
  have hlt : 2 * gx + dx < w := by omega
  have e : (2 * gy + dy) * w + 2 * gx + dx = (2 * gx + dx) + w * (2 * gy + dy) := by ring
  have hd : ((2 * gy + dy) * w + 2 * gx + dx) / w = 2 * gy + dy := by
    rw [e, Nat.add_mul_div_left _ _ (by omega), Nat.div_eq_of_lt hlt]; omega
  have hm : ((2 * gy + dy) * w + 2 * gx + dx) % w = 2 * gx + dx := by
    rw [e, Nat.add_mul_mod_self_left, Nat.mod_eq_of_lt hlt]
  unfold groupOrigin groupNo
  rw [hd, hm]
  have h1 : (2 * gy + dy) / 2 = gy := by omega
  have h2 : (2 * gx + dx) / 2 = gx := by omega
  rw [h1, h2]
  exact ⟨rfl, rfl⟩

end Sys2Proof.Machine
end

