-- ==== Sys2Proof/Laws/Rounding.lean ====
section
/-! SUPPORT. Rounding: every operation of the arithmetic gives a binary64 value nearest to the exact result, ties to even;
`roundHA` gives the nearest integer, ties away from zero (spec/00_scope.md R10). -/

namespace Sys2Proof.Machine

theorem two_zpow_pos (q : Int) : (0 : ℚ) < 2 ^ q := by positivity

/-- A point within half a step of x on a grid is as near to x as any other point of the grid. -/
theorem grid_nearest {x g : ℚ} (hg : 0 < g) {M j : Int} (h : |x - M * g| ≤ g / 2) :
    |x - M * g| ≤ |x - j * g| ∧ (|x - M * g| = |x - j * g| → j = M ∨ |x - M * g| = g / 2) := by
  by_cases hj : j = M
  · subst hj; exact ⟨le_refl _, fun _ => .inl rfl⟩
  · have h1 : (1 : ℚ) ≤ |(M : ℚ) - j| := by
      have : (1 : Int) ≤ |M - j| := Int.one_le_abs (sub_ne_zero.mpr (Ne.symm hj))
      exact_mod_cast this
    have h2 : g ≤ |M * g - j * g| := by
      rw [← sub_mul, abs_mul, abs_of_pos hg]; nlinarith
    have h3 : |M * g - j * g| ≤ |x - M * g| + |x - j * g| := by
      have := abs_sub_le (M * g) x (j * g)
      rwa [abs_sub_comm (M * g) x] at this
    constructor
    · linarith
    · intro he; right; linarith

theorem roundEven_near (n d : Nat) : |(n : ℚ) / 2 ^ d - roundEven n d| ≤ 1 / 2 ∧
    (|(n : ℚ) / 2 ^ d - roundEven n d| = 1 / 2 → roundEven n d % 2 = 0) := by
  have hd : (0 : ℚ) < 2 ^ d := by positivity
  have hn : (n : ℚ) = 2 ^ d * (n / 2 ^ d : Nat) + (n % 2 ^ d : Nat) := by exact_mod_cast (Nat.div_add_mod n (2 ^ d)).symm
  have hlt : ((n % 2 ^ d : Nat) : ℚ) < 2 ^ d := by exact_mod_cast Nat.mod_lt n (by positivity)
  have h0 : (0 : ℚ) ≤ ((n % 2 ^ d : Nat) : ℚ) := by positivity
  unfold roundEven
  simp only
  generalize n / 2 ^ d = q at *
  generalize n % 2 ^ d = r at *
  have hx : (n : ℚ) / 2 ^ d = q + r / 2 ^ d := by rw [hn]; field_simp
  rw [hx]
  have hr1 : (r : ℚ) / 2 ^ d < 1 := by rwa [div_lt_one hd]
  have hr0 : (0 : ℚ) ≤ r / 2 ^ d := by positivity
  split
  · rename_i h
    have h' : (2 : ℚ) ^ d < 2 * r := by exact_mod_cast h
    have : (1 : ℚ) / 2 < r / 2 ^ d := by rw [div_lt_div_iff₀ (by norm_num) hd]; linarith
    push_cast
    rw [abs_of_nonpos (by linarith)]
    exact ⟨by linarith, fun h => by linarith⟩
  · split
    · rename_i h1 h
      have h' : (2 : ℚ) * r = 2 ^ d := by exact_mod_cast h
      have : (r : ℚ) / 2 ^ d = 1 / 2 := by rw [div_eq_div_iff (ne_of_gt hd) (by norm_num)]; linarith
      rw [this]
      rcases Nat.mod_two_eq_zero_or_one q with h2 | h2 <;> rw [h2] <;> push_cast
      · exact ⟨by rw [abs_of_nonneg (by linarith)]; linarith, fun _ => by omega⟩
      · exact ⟨by rw [abs_of_nonpos (by linarith)]; linarith, fun _ => by omega⟩
    · rename_i h1 h2
      have h' : (2 : ℚ) * r < 2 ^ d := by
        have : 2 * r < 2 ^ d := by omega
        exact_mod_cast this
      have : (r : ℚ) / 2 ^ d < 1 / 2 := by rw [div_lt_div_iff₀ hd (by norm_num)]; linarith
      rw [abs_of_nonneg (by linarith)]
      exact ⟨by linarith, fun h => by linarith⟩

theorem signed_cast (s : Bool) (m : Nat) : ((signed s m : Int) : ℚ) = (if s then -1 else 1) * (m : ℚ) := by
  cases s <;> simp [signed]

theorem signed_natAbs (z : Int) : signed (decide (z < 0)) z.natAbs = z := by
  unfold signed
  rcases lt_or_ge z 0 with h | h
  · rw [if_pos (by simpa using h)]; omega
  · rw [if_neg (by simpa using h)]; omega

/-- The distance of two values, one given by its magnitude and the sign s. -/
theorem dist_sign (s t : Bool) (x : ℚ) (k : Nat) (g : ℚ) :
    |(if s then -1 else 1) * x - signed t k * g| = |x - signed (xor s t) k * g| := by
  cases s <;> cases t <;> simp [signed]
  · rw [← abs_neg]; congr 1; ring
  · rw [← abs_neg]; congr 1; ring

/-- A value that rounds to at most the greatest significand, a tie only when it is even, is below the overflow bound. -/
theorem below_top {x P : ℚ} {M : Nat} (hP : 0 < P) (hM : M ≤ 2 ^ 53 - 1) (hx : x ≤ M * P + P / 2)
    (htie : x = M * P + P / 2 → M % 2 = 0) : x < (2 ^ 53 - 1 / 2) * P := by
  rcases lt_or_eq_of_le hM with h | h
  · have : (M : ℚ) ≤ 2 ^ 53 - 2 := by
      have : ((M + 2 : Nat) : ℚ) ≤ ((2 ^ 53 : Nat) : ℚ) := by exact_mod_cast (by omega : M + 2 ≤ 2 ^ 53)
      push_cast at this; linarith
    nlinarith
  · have hMe : (M : ℚ) = 2 ^ 53 - 1 := by
      have : ((M + 1 : Nat) : ℚ) = ((2 ^ 53 : Nat) : ℚ) := by exact_mod_cast (by omega : M + 1 = 2 ^ 53)
      push_cast at this; linarith
    have hle : x ≤ (2 ^ 53 - 1 / 2) * P := by rw [hMe] at hx; linarith
    rcases lt_or_eq_of_le hle with h' | h'
    · exact h'
    · have := htie (by rw [h', hMe]; ring)
      omega

/-- A significand M at exponent q, rounded from the positive x, makes the nearest value. -/
theorem norm_nearest (s : Bool) {x : ℚ} {M : Nat} {q : Int} (hx : 0 < x) (hM : M ≤ 2 ^ 53) (hq : -1074 ≤ q)
    (hsub : q ≠ -1074 → (2 : ℚ) ^ (52 + q) ≤ x ∧ 2 ^ 52 ≤ M) (hup : x < 2 ^ (53 + q))
    (hnear : |x - M * 2 ^ q| ≤ 2 ^ q / 2) (htie : |x - M * 2 ^ q| = 2 ^ q / 2 → M % 2 = 0) :
    Nearest ((if s then -1 else 1) * x) (F64.norm s M q) := by
  have hg := two_zpow_pos q
  have habs : |(if s then (-1 : ℚ) else 1) * x| = x := by
    cases s <;> simp [abs_of_pos hx]
  have hsign : (s = true ↔ (if s then (-1 : ℚ) else 1) * x < 0) := by
    cases s <;> simp [hx, le_of_lt hx]
  -- the significand is as near as any binary64 value
  have key : ∀ t n f, F64.Canon (.fin t n f) →
      |(if s then -1 else 1) * x - signed s M * (2 : ℚ) ^ q| ≤ |(if s then -1 else 1) * x - signed t n * (2 : ℚ) ^ f|
        ∧ (|(if s then -1 else 1) * x - signed s M * (2 : ℚ) ^ q|
            = |(if s then -1 else 1) * x - signed t n * (2 : ℚ) ^ f| →
              signed t n * (2 : ℚ) ^ f = signed s M * (2 : ℚ) ^ q ∨ M % 2 = 0) := by
    intro t n f hc
    obtain ⟨hn, hf1, hf2, hf3⟩ := hc
    rw [dist_sign, dist_sign]
    have hss : (signed (xor s s) M : ℚ) = M := by simp [signed]
    rw [hss]
    have back : ∀ j : Int, (signed (xor s t) n : ℚ) * 2 ^ f = j * 2 ^ q → j = M →
        (signed t n : ℚ) * 2 ^ f = signed s M * 2 ^ q := by
      intro j h1 h2
      subst h2
      rw [signed_cast] at h1 ⊢
      rw [signed_cast]
      cases s <;> cases t <;> simp at h1 ⊢ <;> linarith
    by_cases hqf : q ≤ f
    · obtain ⟨d, hd⟩ : ∃ d : Nat, f = q + d := ⟨(f - q).toNat, by omega⟩
      have hval : (signed (xor s t) n : ℚ) * 2 ^ f = ((signed (xor s t) n * 2 ^ d : Int) : ℚ) * 2 ^ q := by
        rw [hd, zpow_add₀ (by norm_num), zpow_natCast]; push_cast; ring
      rw [hval]
      have hnear' : |x - ((M : Int) : ℚ) * 2 ^ q| ≤ 2 ^ q / 2 := by simpa using hnear
      have := grid_nearest (j := signed (xor s t) n * 2 ^ d) hg hnear'
      simp only [Int.cast_natCast] at this
      refine ⟨this.1, fun he => ?_⟩
      rcases this.2 he with h | h
      · left
        exact back _ hval h
      · exact .inr (htie h)
    · have hlow := hsub (by omega)
      have hB : |x - M * 2 ^ q| ≤ |x - (2 : ℚ) ^ (52 + q)| := by
        have hnear' : |x - ((M : Int) : ℚ) * 2 ^ q| ≤ 2 ^ q / 2 := by simpa using hnear
        have := (grid_nearest (j := 2 ^ 52) hg hnear').1
        rw [zpow_add₀ (by norm_num)]
        rw [Int.cast_natCast] at this
        exact_mod_cast this
      have hy : (signed (xor s t) n : ℚ) * 2 ^ f < 2 ^ (52 + q) := by
        have h1 : (signed (xor s t) n : ℚ) ≤ n := by
          rw [signed_cast]; split
          · have : (0 : ℚ) ≤ n := by positivity
            linarith
          · linarith
        have h2 : (n : ℚ) < 2 ^ (53 : Int) := by
          have : (n : ℚ) < 2 ^ 53 := by exact_mod_cast hn
          exact_mod_cast this
        calc (signed (xor s t) n : ℚ) * 2 ^ f ≤ n * 2 ^ f := by
              apply mul_le_mul_of_nonneg_right h1; positivity
          _ < 2 ^ (53 : Int) * 2 ^ f := by
              apply mul_lt_mul_of_pos_right h2; positivity
          _ = 2 ^ (53 + f) := by rw [← zpow_add₀ (by norm_num)]
          _ ≤ 2 ^ (52 + q) := by apply zpow_le_zpow_right₀ (by norm_num); omega
      have hlt : |x - M * 2 ^ q| < |x - signed (xor s t) n * 2 ^ f| := by
        refine lt_of_le_of_lt hB ?_
        rw [abs_of_nonneg (by linarith), abs_of_pos (by linarith)]
        linarith
      exact ⟨le_of_lt hlt, fun he => absurd he (ne_of_lt hlt)⟩
  have hMq : (M : ℚ) * 2 ^ q - 2 ^ q / 2 ≤ x ∧ x ≤ M * 2 ^ q + 2 ^ q / 2 := by
    have := abs_le.mp hnear
    constructor <;> linarith
  have e0 : (2 : ℚ) ^ (971 : Int) = 2 ^ 970 * 2 := by
    rw [show (971 : Int) = ((970 + 1 : Nat) : Int) by rfl, zpow_natCast, pow_succ]
  have e1 : (2 : ℚ) ^ 1024 - 2 ^ 970 = (2 ^ 53 - 1 / 2) * 2 ^ (971 : Int) := by
    rw [e0, show (1024 : Nat) = 970 + 54 by rfl, pow_add]
    generalize (2 : ℚ) ^ 970 = P
    ring
  have hmono : ∀ a b : Int, a ≤ b → (2 : ℚ) ^ a ≤ 2 ^ b := fun a b h => zpow_le_zpow_right₀ (by norm_num) h
  have e2 : (2 : ℚ) ^ (1023 : Int) < 2 ^ 1024 - 2 ^ 970 := by
    rw [e1, show (1023 : Int) = 52 + 971 by rfl, zpow_add₀ (by norm_num)]
    have := two_zpow_pos 971
    have h52 : (2 : ℚ) ^ (52 : Int) < 2 ^ 53 - 1 / 2 := by norm_num
    exact mul_lt_mul_of_pos_right h52 this
  generalize (if s then (-1 : ℚ) else 1) * x = X at *
  unfold F64.norm
  split
  · rename_i hM53
    split
    · rename_i hov
      refine ⟨hsign, ?_⟩
      rw [habs, e1]
      have := hmono 971 q (by omega)
      rw [hM53] at hMq
      push_cast at hMq
      nlinarith
    · rename_i hov
      have hval : ∀ t : Bool, (signed t (2 ^ 52) : ℚ) * 2 ^ (q + 1) = signed t M * 2 ^ q := by
        intro t
        rw [hM53, signed_cast, signed_cast, zpow_add₀ (by norm_num)]
        push_cast; ring
      refine ⟨⟨by norm_num, by omega, by omega, fun h => by omega⟩, ?_, ?_⟩
      · rw [habs]
        exact lt_trans (lt_of_lt_of_le hup (hmono _ 1023 (by omega))) e2
      · intro t n f hc
        rw [hval]
        exact ⟨(key t n f hc).1, fun _ => .inr (by norm_num)⟩
  · rename_i hM53
    split
    · rename_i hov
      refine ⟨hsign, ?_⟩
      rw [habs, e1]
      have h1 := (hsub (by omega)).1
      have h2 := hmono (52 + 972) (52 + q) (by omega)
      have h3 : ((2 : ℚ) ^ 53 - 1 / 2) * 2 ^ (971 : Int) ≤ 2 ^ (52 + 972 : Int) := by
        rw [show (52 + 972 : Int) = 53 + 971 by rfl, zpow_add₀ (by norm_num)]
        have := two_zpow_pos 971
        have h53 : (2 : ℚ) ^ 53 - 1 / 2 ≤ 2 ^ (53 : Int) := by norm_num
        exact mul_le_mul_of_nonneg_right h53 (le_of_lt this)
      exact le_trans h3 (le_trans h2 h1)
    · rename_i hov
      have hM' : M ≤ 2 ^ 53 - 1 := by omega
      refine ⟨⟨by omega, hq, by omega, fun h => ?_⟩, ?_, key⟩
      · by_contra hne
        have := (hsub hne).2
        omega
      · rw [habs]
        by_cases hq' : q ≤ 970
        · exact lt_trans (lt_of_lt_of_le hup (hmono _ 1023 (by omega))) e2
        · have hq2 : q = 971 := by omega
          subst hq2
          rw [e1]
          refine below_top hg hM' hMq.2 fun h => htie ?_
          rw [h, add_sub_cancel_left]
          exact abs_of_pos (by positivity)


/-- `round` of a positive significand n at exponent e, for an x that is n · 2^e, or lies off it by less than one unit of
an odd n of at least 56 bits (a sticky last bit): the value nearest to x. -/
theorem round_nearest_pos (s : Bool) {x : ℚ} {n : Nat} {e : Int} (hn : n ≠ 0)
    (hx : x = n * 2 ^ e ∨ (n % 2 = 1 ∧ 55 ≤ Nat.log2 n ∧ |x - n * 2 ^ e| < 2 ^ e)) :
    Nearest ((if s then -1 else 1) * x) (F64.round s n e) := by
  have hlo : 2 ^ Nat.log2 n ≤ n := Nat.log2_self_le hn
  have hhi : n < 2 ^ (Nat.log2 n + 1) := Nat.lt_log2_self
  have he := two_zpow_pos e
  -- x lies in the binade of n
  have hbin : (2 : ℚ) ^ (Nat.log2 n + e : Int) ≤ x ∧ x < 2 ^ (Nat.log2 n + 1 + e : Int) := by
    rcases hx with hx | ⟨hodd, hL, hx⟩
    · have h1 : ((2 ^ Nat.log2 n : Nat) : ℚ) ≤ n := by exact_mod_cast hlo
      have h2 : (n : ℚ) < ((2 ^ (Nat.log2 n + 1) : Nat) : ℚ) := by exact_mod_cast hhi
      rw [hx, zpow_add₀ (by norm_num), zpow_add₀ (by norm_num)]
      push_cast at h1 h2
      constructor
      · apply mul_le_mul_of_nonneg_right _ (le_of_lt he)
        rw [zpow_natCast]; exact h1
      · apply mul_lt_mul_of_pos_right _ he
        rw [show ((Nat.log2 n : Int) + 1) = ((Nat.log2 n + 1 : Nat) : Int) by push_cast; rfl, zpow_natCast]; exact h2
    · have hev : 2 ^ Nat.log2 n % 2 = 0 := by
        obtain ⟨k, hk⟩ : ∃ k, Nat.log2 n = k + 1 := ⟨Nat.log2 n - 1, by omega⟩
        rw [hk, pow_succ]; omega
      have h1 : ((2 ^ Nat.log2 n + 1 : Nat) : ℚ) ≤ n := by
        exact_mod_cast (by omega : 2 ^ Nat.log2 n + 1 ≤ n)
      have h2 : ((n + 1 : Nat) : ℚ) ≤ ((2 ^ (Nat.log2 n + 1) : Nat) : ℚ) := by exact_mod_cast hhi
      have hx' := abs_lt.mp hx
      rw [zpow_add₀ (by norm_num), zpow_add₀ (by norm_num),
        show ((Nat.log2 n : Int) + 1) = ((Nat.log2 n + 1 : Nat) : Int) by push_cast; rfl, zpow_natCast, zpow_natCast]
      push_cast at h1 h2
      constructor <;> nlinarith
  have hxpos : 0 < x := lt_of_lt_of_le (by positivity) hbin.1
  unfold F64.round
  rw [if_neg hn]
  simp only
  generalize hLn : Nat.log2 n = L at *
  by_cases hq : max (e + L - 52) (-1074) ≤ e
  · rw [if_pos hq]
    have hexact : x = n * 2 ^ e := by
      rcases hx with h | ⟨_, h, _⟩
      · exact h
      · omega
    obtain ⟨q, hqd⟩ : ∃ q : Int, max (e + L - 52) (-1074) = q := ⟨_, rfl⟩
    rw [hqd]
    obtain ⟨k, hk⟩ : ∃ k : Nat, (e - q).toNat = k := ⟨_, rfl⟩
    rw [hk]
    have hek : e = q + k := by omega
    have hval : (((n * 2 ^ k : Nat) : ℚ)) * 2 ^ q = x := by
      rw [hexact, hek, zpow_add₀ (by norm_num), zpow_natCast]; push_cast; ring
    have hup : n * 2 ^ k < 2 ^ 53 := by
      calc n * 2 ^ k < 2 ^ (L + 1) * 2 ^ k := Nat.mul_lt_mul_of_pos_right hhi (by positivity)
        _ = 2 ^ (L + 1 + k) := (pow_add _ _ _).symm
        _ ≤ 2 ^ 53 := Nat.pow_le_pow_right (by norm_num) (by omega)
    refine norm_nearest s hxpos (le_of_lt hup) (by omega) ?_ ?_ ?_ ?_
    · intro hne
      have hk3 : k + L = 52 := by omega
      refine ⟨le_trans (zpow_le_zpow_right₀ (by norm_num) (by omega)) hbin.1, ?_⟩
      calc 2 ^ 52 = 2 ^ L * 2 ^ k := by rw [← pow_add]; congr 1; omega
        _ ≤ n * 2 ^ k := Nat.mul_le_mul_right _ hlo
    · exact lt_of_lt_of_le hbin.2 (zpow_le_zpow_right₀ (by norm_num) (by omega))
    · rw [hval, sub_self, abs_zero]; positivity
    · intro h
      rw [hval, sub_self, abs_zero] at h
      have := two_zpow_pos q
      linarith
  · rw [if_neg hq]
    obtain ⟨q, hqd⟩ : ∃ q : Int, max (e + L - 52) (-1074) = q := ⟨_, rfl⟩
    rw [hqd] at hq ⊢
    obtain ⟨k, hk⟩ : ∃ k : Nat, (q - e).toNat = k := ⟨_, rfl⟩
    rw [hk]
    have hqk : q = e + k := by omega
    have hk1 : 1 ≤ k := by omega
    have hb := roundEven_bounds n k
    have hnear := roundEven_near n k
    have h2k : (0 : ℚ) < 2 ^ k := by positivity
    have hg : (2 : ℚ) ^ q = 2 ^ k * 2 ^ e := by rw [hqk, zpow_add₀ (by norm_num), zpow_natCast]; ring
    have hup : n / 2 ^ k < 2 ^ 53 := by
      rw [Nat.div_lt_iff_lt_mul (by positivity)]
      calc n < 2 ^ (L + 1) := hhi
        _ ≤ 2 ^ (53 + k) := Nat.pow_le_pow_right (by norm_num) (by omega)
        _ = 2 ^ 53 * 2 ^ k := pow_add _ _ _
    have hnk : (n : ℚ) = (n : ℚ) / 2 ^ k * 2 ^ k := by field_simp
    -- the distance, in units of 2^e
    have hdist : |(n : ℚ) - roundEven n k * 2 ^ k| ≤ 2 ^ k / 2 ∧
        (|(n : ℚ) - roundEven n k * 2 ^ k| = 2 ^ k / 2 → roundEven n k % 2 = 0) := by
      have : (n : ℚ) - roundEven n k * 2 ^ k = ((n : ℚ) / 2 ^ k - roundEven n k) * 2 ^ k := by
        rw [sub_mul, ← hnk]
      rw [this, abs_mul, abs_of_pos h2k]
      refine ⟨by nlinarith [hnear.1], fun h => hnear.2 ?_⟩
      have h' : |(n : ℚ) / 2 ^ k - roundEven n k| * 2 ^ k = 1 / 2 * 2 ^ k := by rw [h]; ring
      exact mul_right_cancel₀ (ne_of_gt h2k) h'
    have hfinal : |x - roundEven n k * 2 ^ q| ≤ 2 ^ q / 2 ∧
        (|x - roundEven n k * 2 ^ q| = 2 ^ q / 2 → roundEven n k % 2 = 0) := by
      rcases hx with hx | ⟨hodd, hL, hx⟩
      · have : x - roundEven n k * 2 ^ q = ((n : ℚ) - roundEven n k * 2 ^ k) * 2 ^ e := by rw [hx, hg]; ring
        rw [this, abs_mul, abs_of_pos he, hg]
        refine ⟨by nlinarith [hdist.1], fun h => hdist.2 ?_⟩
        have h' : |(n : ℚ) - roundEven n k * 2 ^ k| * 2 ^ e = 2 ^ k / 2 * 2 ^ e := by rw [h]; ring
        exact mul_right_cancel₀ (ne_of_gt he) h'
      · -- n is odd and 2^k / 2 even: the distance is at least one unit short of a tie
        have hk2 : 2 ≤ k := by omega
        obtain ⟨j, hj⟩ : ∃ j, k = j + 2 := ⟨k - 2, by omega⟩
        have hshort : |(n : ℚ) - roundEven n k * 2 ^ k| ≤ 2 ^ k / 2 - 1 := by
          have hz : |((n : Int) - roundEven n k * 2 ^ k : Int)| ≤ 2 ^ (j + 1) := by
            have h := hdist.1
            have e1 : (2 : ℚ) ^ k / 2 = ((2 ^ (j + 1) : Int) : ℚ) := by rw [hj, pow_succ]; push_cast; ring
            have e2 : (n : ℚ) - roundEven n k * 2 ^ k = (((n : Int) - roundEven n k * 2 ^ k : Int) : ℚ) := by push_cast; ring
            rw [e1, e2] at h
            exact_mod_cast h
          have hpar : |((n : Int) - roundEven n k * 2 ^ k : Int)| ≠ 2 ^ (j + 1) := by
            intro h
            have hev : (roundEven n k : Int) * 2 ^ k = 2 * (2 * (roundEven n k * 2 ^ j)) := by rw [hj]; ring
            have hev2 : (2 : Int) ^ (j + 1) = 2 * 2 ^ j := by ring
            rw [hev, hev2] at h
            generalize (2 : Int) ^ j = p at h
            rcases abs_choice ((n : Int) - 2 * (2 * (roundEven n k * p))) with h' | h' <;> rw [h'] at h <;> omega
          have hz' : |((n : Int) - roundEven n k * 2 ^ k : Int)| ≤ 2 ^ (j + 1) - 1 := by omega
          have e1 : (2 : ℚ) ^ k / 2 - 1 = ((2 ^ (j + 1) - 1 : Int) : ℚ) := by rw [hj, pow_succ]; push_cast; ring
          have e2 : (n : ℚ) - roundEven n k * 2 ^ k = (((n : Int) - roundEven n k * 2 ^ k : Int) : ℚ) := by push_cast; ring
          rw [e1, e2]
          exact_mod_cast hz'
        have hlt : |x - roundEven n k * 2 ^ q| < 2 ^ q / 2 := by
          have h1 : |x - roundEven n k * 2 ^ q| ≤ |x - n * 2 ^ e| + |(n : ℚ) * 2 ^ e - roundEven n k * 2 ^ q| :=
            abs_sub_le _ _ _
          have h2 : |(n : ℚ) * 2 ^ e - roundEven n k * 2 ^ q| = |(n : ℚ) - roundEven n k * 2 ^ k| * 2 ^ e := by
            rw [← abs_of_pos he, ← abs_mul, abs_of_pos he, hg]; congr 1; ring
          rw [h2] at h1
          have h3 : |(n : ℚ) - roundEven n k * 2 ^ k| * 2 ^ e ≤ (2 ^ k / 2 - 1) * 2 ^ e :=
            mul_le_mul_of_nonneg_right hshort (le_of_lt he)
          rw [hg] at h1 ⊢
          linarith
        exact ⟨le_of_lt hlt, fun h => absurd h (ne_of_lt hlt)⟩
    refine norm_nearest s hxpos (by omega) (by omega) ?_ ?_ hfinal.1 hfinal.2
    · intro hne
      have hk3 : L = k + 52 := by omega
      refine ⟨le_trans (zpow_le_zpow_right₀ (by norm_num) (by omega)) hbin.1, ?_⟩
      have : 2 ^ 52 ≤ n / 2 ^ k := by
        rw [Nat.le_div_iff_mul_le (by positivity)]
        calc 2 ^ 52 * 2 ^ k = 2 ^ L := by rw [← pow_add]; congr 1; omega
          _ ≤ n := hlo
      omega
    · exact lt_of_lt_of_le hbin.2 (zpow_le_zpow_right₀ (by norm_num) (by omega))

theorem nearest_zero (s : Bool) : Nearest 0 (.fin s 0 (-1074)) := by
  refine ⟨canon_zero s, ?_, fun t n f _ => ?_⟩
  · rw [abs_zero, show (1024 : Nat) = 970 + 54 by rfl, pow_add]
    have : (0 : ℚ) < 2 ^ 970 := by positivity
    generalize (2 : ℚ) ^ 970 = P at *
    nlinarith
  · have : (signed s 0 : ℚ) = 0 := by cases s <;> simp [signed]
    rw [this, zero_mul, sub_zero, abs_zero]
    exact ⟨abs_nonneg _, fun h => .inr rfl⟩

/-- `round` gives the nearest value to (−1)^s · n · 2^e. -/
theorem round_nearest (s : Bool) (n : Nat) (e : Int) : Nearest (signed s n * (2 : ℚ) ^ e) (F64.round s n e) := by
  by_cases hn : n = 0
  · subst hn
    have : (signed s 0 : ℚ) * 2 ^ e = 0 := by cases s <;> simp [signed]
    rw [this]
    simpa [F64.round] using nearest_zero s
  · have := round_nearest_pos s (x := n * 2 ^ e) hn (.inl rfl)
    rwa [signed_cast, mul_assoc]

/-- The sum of two finite values as one integer at the smaller exponent. -/
theorem add_exact (s t : Bool) (m n : Nat) (e f : Int) :
    (signed s m : ℚ) * 2 ^ e + signed t n * 2 ^ f
      = ((signed s (m * 2 ^ (e - min e f).toNat) + signed t (n * 2 ^ (f - min e f).toNat) : Int) : ℚ) * 2 ^ min e f := by
  obtain ⟨a, ha⟩ : ∃ a : Nat, (e - min e f).toNat = a := ⟨_, rfl⟩
  obtain ⟨b, hb⟩ : ∃ b : Nat, (f - min e f).toNat = b := ⟨_, rfl⟩
  rw [ha, hb]
  have h1 : e = min e f + a := by omega
  have h2 : f = min e f + b := by omega
  have e1 : (2 : ℚ) ^ e = 2 ^ a * 2 ^ min e f := by
    conv_lhs => rw [h1]
    rw [zpow_add₀ (by norm_num), zpow_natCast]; ring
  have e2 : (2 : ℚ) ^ f = 2 ^ b * 2 ^ min e f := by
    conv_lhs => rw [h2]
    rw [zpow_add₀ (by norm_num), zpow_natCast]; ring
  rw [e1, e2]
  push_cast
  rw [signed_cast, signed_cast, signed_cast, signed_cast]
  push_cast
  ring

/-- The sum of two finite values is rounded to nearest. -/
theorem add_nearest (s t : Bool) (m n : Nat) (e f : Int) :
    Nearest ((signed s m : ℚ) * 2 ^ e + signed t n * 2 ^ f) (F64.add (.fin s m e) (.fin t n f)) := by
  rw [add_exact]
  simp only [F64.add]
  generalize signed s (m * 2 ^ (e - min e f).toNat) + signed t (n * 2 ^ (f - min e f).toNat) = z
  split
  · rename_i h
    rw [h]
    simpa using nearest_zero _
  · have hz : signed (decide (z < 0)) z.natAbs = z := signed_natAbs z
    have := round_nearest (decide (z < 0)) z.natAbs (min e f)
    rwa [hz] at this

theorem toRat_neg {b : F64} {y : ℚ} (h : b.toRat = some y) : (F64.neg b).toRat = some (-y) := by
  rcases b with _ | t | ⟨t, n, f⟩
  · cases h
  · cases h
  · simp only [F64.toRat, Option.some.injEq, F64.neg] at h ⊢
    rw [← h]
    cases t <;> simp [signed]

theorem toRat_some {a : F64} {x : ℚ} (h : a.toRat = some x) : ∃ s m e, a = .fin s m e ∧ x = signed s m * 2 ^ e := by
  rcases a with _ | s | ⟨s, m, e⟩
  · cases h
  · cases h
  · exact ⟨s, m, e, rfl, by simpa [F64.toRat] using h.symm⟩

/-- The product of two finite values is rounded to nearest. -/
theorem mul_nearest (s t : Bool) (m n : Nat) (e f : Int) :
    Nearest ((signed s m : ℚ) * 2 ^ e * (signed t n * 2 ^ f)) (F64.mul (.fin s m e) (.fin t n f)) := by
  have h : (signed s m : ℚ) * 2 ^ e * (signed t n * 2 ^ f) = signed (xor s t) (m * n) * 2 ^ (e + f) := by
    rw [zpow_add₀ (by norm_num), signed_cast, signed_cast, signed_cast]
    cases s <;> cases t <;> simp <;> ring
  rw [h]
  exact round_nearest _ _ _

/-- The quotient of two finite values with a nonzero divisor is rounded to nearest. -/
theorem div_nearest (s t : Bool) {m n : Nat} (e f : Int) (hn0 : n ≠ 0) (hn : n < 2 ^ 53) :
    Nearest ((signed s m : ℚ) * 2 ^ e / (signed t n * 2 ^ f)) (F64.div (.fin s m e) (.fin t n f)) := by
  simp only [F64.div]
  rw [if_neg hn0]
  by_cases hm : m = 0
  · subst hm
    have h0 : (signed s 0 : ℚ) * 2 ^ e / (signed t n * 2 ^ f) = 0 := by
      have : (signed s 0 : ℚ) = 0 := by cases s <;> simp [signed]
      rw [this]; simp
    rw [h0]
    simpa [F64.round] using nearest_zero _
  have hnq : (n : ℚ) ≠ 0 := by exact_mod_cast hn0
  have hval : (signed s m : ℚ) * 2 ^ e / (signed t n * 2 ^ f)
      = (if xor s t then -1 else 1) * ((m : ℚ) * 2 ^ 111 / n * 2 ^ (e - f - 111)) := by
    have e1 : (2 : ℚ) ^ (e - f - 111) = 2 ^ e / 2 ^ f / 2 ^ 111 := by
      rw [zpow_sub₀ (by norm_num), zpow_sub₀ (by norm_num)]
      norm_cast
    rw [e1, signed_cast, signed_cast]
    have := two_zpow_pos f
    cases s <;> cases t <;> simp <;> field_simp
  rw [hval]
  obtain ⟨Q, hQ⟩ : ∃ Q, m * 2 ^ 110 / n = Q := ⟨_, rfl⟩
  obtain ⟨r, hr⟩ : ∃ r, m * 2 ^ 110 % n = r := ⟨_, rfl⟩
  have hdm : n * Q + r = m * 2 ^ 110 := by rw [← hQ, ← hr]; exact Nat.div_add_mod _ _
  have hrn : r < n := by rw [← hr]; exact Nat.mod_lt _ (by omega)
  have hQbig : 2 ^ 57 ≤ Q := by
    rw [← hQ, Nat.le_div_iff_mul_le (by omega)]
    calc 2 ^ 57 * n ≤ 2 ^ 57 * 2 ^ 53 := Nat.mul_le_mul_left _ (le_of_lt hn)
      _ = 1 * 2 ^ 110 := by norm_num
      _ ≤ m * 2 ^ 110 := Nat.mul_le_mul_right _ (by omega)
  rw [hQ, hr]
  have hg := two_zpow_pos (e - f - 111)
  generalize (e - f - 111 : Int) = g at *
  have hdq : (n : ℚ) * Q + r = m * 2 ^ 110 := by exact_mod_cast hdm
  have hnpos : (0 : ℚ) < n := by exact_mod_cast Nat.pos_of_ne_zero hn0
  have hquot : (m : ℚ) * 2 ^ 111 / n = 2 * Q + 2 * r / n := by
    have : (m : ℚ) * 2 ^ 111 = 2 * (n * Q + r) := by rw [hdq]; ring
    rw [this]; field_simp
  by_cases h0 : r = 0
  · rw [h0] at hquot
    rw [if_pos h0]
    refine round_nearest_pos _ (by omega) (.inl ?_)
    rw [hquot]; push_cast; ring
  · rw [if_neg h0]
    refine round_nearest_pos _ (by omega) (.inr ⟨by omega, ?_, ?_⟩)
    · rw [Nat.le_log2 (by omega)]; omega
    · have hr0 : (0 : ℚ) < r := by exact_mod_cast Nat.pos_of_ne_zero h0
      have hr1 : (r : ℚ) < n := by exact_mod_cast hrn
      have h1 : 0 < 2 * (r : ℚ) / n := by positivity
      have h2 : 2 * (r : ℚ) / n < 2 := by rw [div_lt_iff₀ hnpos]; linarith
      rw [hquot]
      push_cast
      rw [← sub_mul, abs_mul, abs_of_pos hg]
      have : |2 * (Q : ℚ) + 2 * r / n - (2 * Q + 1)| < 1 := by
        rw [abs_lt]; constructor <;> linarith
      nlinarith

/-- An integer below 2^53 in magnitude is its own value. -/
theorem ofInt_exact {z : Int} (h : z.natAbs < 2 ^ 53) : (F64.ofInt z).toRat = some (z : ℚ) := by
  unfold F64.ofInt F64.round
  have hz : signed (decide (z < 0)) z.natAbs = z := signed_natAbs z
  split
  · rename_i h0
    have : z = 0 := by omega
    subst this
    simp [F64.toRat, signed]
  · rename_i h0
    have hL : Nat.log2 z.natAbs ≤ 52 := by
      have : Nat.log2 z.natAbs < 53 := (Nat.log2_lt h0).mpr h
      omega
    simp only
    rw [if_pos (by omega)]
    obtain ⟨q, hqd⟩ : ∃ q : Int, max (0 + (Nat.log2 z.natAbs : Int) - 52) (-1074) = q := ⟨_, rfl⟩
    rw [hqd]
    obtain ⟨k, hk⟩ : ∃ k : Nat, (0 - q).toNat = k := ⟨_, rfl⟩
    rw [hk]
    have hq : q = -(k : Int) := by omega
    have hup : z.natAbs * 2 ^ k < 2 ^ 53 := by
      calc z.natAbs * 2 ^ k < 2 ^ (Nat.log2 z.natAbs + 1) * 2 ^ k :=
            Nat.mul_lt_mul_of_pos_right Nat.lt_log2_self (by positivity)
        _ = 2 ^ (Nat.log2 z.natAbs + 1 + k) := (pow_add _ _ _).symm
        _ ≤ 2 ^ 53 := Nat.pow_le_pow_right (by norm_num) (by omega)
    unfold F64.norm
    rw [if_neg (by omega), if_neg (by omega)]
    simp only [F64.toRat, Option.some.injEq]
    rw [hq, zpow_neg, zpow_natCast]
    rw [signed_cast]
    push_cast
    have hz' : (z : ℚ) = (if decide (z < 0) then -1 else 1) * (z.natAbs : ℚ) := by
      rw [← signed_cast, hz]
    rw [hz']
    field_simp

/-- A finite result is at most twice as large as the exact one: 0 would be nearer. -/
theorem Nearest.bound {x : ℚ} {s : Bool} {m : Nat} {e : Int} (h : Nearest x (.fin s m e)) :
    |(signed s m : ℚ) * 2 ^ e| ≤ 2 * |x| := by
  have := (h.2.2 false 0 (-1074) (canon_zero false)).1
  have h0 : (signed false 0 : ℚ) = 0 := by simp [signed]
  rw [h0, zero_mul, sub_zero] at this
  have := abs_sub_le (signed s m * (2 : ℚ) ^ e) x 0
  rw [sub_zero, sub_zero, abs_sub_comm] at this
  linarith

/-- What is well below the overflow bound has a finite nearest value. -/
theorem Nearest.finite {x : ℚ} {r : F64} (h : Nearest x r) (hx : |x| < 2 ^ 1000) : ∃ s m e, r = .fin s m e := by
  rcases r with _ | s | ⟨s, m, e⟩
  · exact absurd h (by simp [Nearest])
  · exfalso
    have h2 := h.2
    rw [show (1024 : Nat) = 970 + 54 by rfl, pow_add] at h2
    rw [show (1000 : Nat) = 970 + 30 by rfl, pow_add] at hx
    have : (0 : ℚ) < 2 ^ 970 := by positivity
    generalize (2 : ℚ) ^ 970 = P at *
    linarith
  · exact ⟨s, m, e, rfl⟩

/-- `roundHA` of a finite value is a nearest integer, ties away from zero. -/
theorem roundHA_nearest {a : F64} {x : ℚ} (h : a.toRat = some x) : ∃ z, F64.roundHA a = some z ∧ NearestAway x z := by
  obtain ⟨s, m, e, rfl, rfl⟩ := toRat_some h
  simp only [F64.roundHA]
  split
  · rename_i hm
    subst hm
    refine ⟨0, rfl, ?_⟩
    have : (signed s 0 : ℚ) = 0 := by cases s <;> simp [signed]
    rw [this]
    simp [NearestAway]
  · split
    · rename_i hm he
      refine ⟨_, rfl, ?_⟩
      obtain ⟨k, hk⟩ : ∃ k : Nat, e = k := ⟨e.toNat, by omega⟩
      subst hk
      have : ((signed s (m * 2 ^ (k : Int).toNat) : Int) : ℚ) = signed s m * 2 ^ (k : Int) := by
        rw [signed_cast, signed_cast, zpow_natCast]; push_cast; simp
      rw [NearestAway, this, sub_self, abs_zero]
      exact ⟨by norm_num, fun h => by norm_num at h⟩
    · rename_i hm he
      refine ⟨_, rfl, ?_⟩
      obtain ⟨k, hk⟩ : ∃ k : Nat, -e = k := ⟨(-e).toNat, by omega⟩
      have hek : e = -(k : Int) := by omega
      subst hek
      have hk0 : (-(-(k : Int))).toNat = k := by simp
      rw [hk0]
      have h2k : (0 : ℚ) < 2 ^ k := by positivity
      obtain ⟨Z, hZ⟩ : ∃ Z, (2 * m + 2 ^ k) / 2 ^ (k + 1) = Z := ⟨_, rfl⟩
      rw [hZ]
      have hdm := Nat.div_add_mod (2 * m + 2 ^ k) (2 ^ (k + 1))
      have hlt := Nat.mod_lt (2 * m + 2 ^ k) (show 0 < 2 ^ (k + 1) by positivity)
      rw [hZ] at hdm
      generalize (2 * m + 2 ^ k) % 2 ^ (k + 1) = r at *
      have hq : (2 : ℚ) ^ (k + 1) * Z + r = 2 * m + 2 ^ k := by exact_mod_cast hdm
      have hr : (r : ℚ) < 2 ^ (k + 1) := by exact_mod_cast hlt
      have hr0 : (0 : ℚ) ≤ r := by positivity
      rw [pow_succ] at hq hr
      have hx : (m : ℚ) * 2 ^ (-(k : Int)) = m / 2 ^ k := by rw [zpow_neg, zpow_natCast]; rfl
      have hdiff : (m : ℚ) / 2 ^ k - Z = r / (2 ^ k * 2) - 1 / 2 := by
        field_simp
        linarith
      have hfr : 0 ≤ (r : ℚ) / (2 ^ k * 2) ∧ (r : ℚ) / (2 ^ k * 2) < 1 := by
        constructor
        · positivity
        · rw [div_lt_one (by positivity)]; exact hr
      have habs : |(signed s m : ℚ) * 2 ^ (-(k : Int)) - (signed s Z : Int)| = |(m : ℚ) / 2 ^ k - Z| := by
        rw [signed_cast, signed_cast, mul_assoc, hx]
        cases s
        · simp
        · simp only [if_true]; rw [← abs_neg]; congr 1; ring
      have habs2 : |(signed s m : ℚ) * 2 ^ (-(k : Int))| = m / 2 ^ k := by
        rw [signed_cast, mul_assoc, hx]
        have : 0 ≤ (m : ℚ) / 2 ^ k := by positivity
        cases s <;> simp [abs_of_nonneg this]
      have habs3 : |((signed s Z : Int) : ℚ)| = Z := by
        rw [signed_cast]
        cases s <;> simp
      refine ⟨?_, fun ht => ?_⟩
      · rw [habs, hdiff, abs_le]
        constructor <;> linarith [hfr.1, hfr.2]
      · rw [habs, hdiff] at ht
        rw [habs2, habs3]
        rcases abs_choice ((r : ℚ) / (2 ^ k * 2) - 1 / 2) with h' | h' <;> rw [h'] at ht <;> linarith [hfr.1, hfr.2]

end Sys2Proof.Machine
end

