-- ==== Sys2Proof/Laws/DctError.lean ====
section
/-! SUPPORT. How far the rounded 8×8 products are from the exact ones, and why a basis that `Config.dctFits` accepts has
the round trip of spec/42_dct.md R241. -/

namespace Sys2Proof.Machine

/-! ### One operation -/

/-- Some binary64 value is within half a unit of the last place of x. -/
theorem exists_near {x : ℚ} (hx : |x| ≤ 2 ^ 200) : ∃ s m e, F64.Canon (.fin s m e) ∧
    |x - signed s m * (2 : ℚ) ^ e| ≤ |x| / 2 ^ 53 + 1 / 2 ^ 200 := by
  -- the sign can be put back at the end
  suffices h : ∀ a : ℚ, 0 ≤ a → a ≤ 2 ^ 200 → ∃ m e, F64.Canon (.fin false m e) ∧
      |a - m * (2 : ℚ) ^ e| ≤ a / 2 ^ 53 + 1 / 2 ^ 200 by
    obtain ⟨m, e, hc, hn⟩ := h |x| (abs_nonneg x) hx
    refine ⟨decide (x < 0), m, e, hc, ?_⟩
    refine le_trans (le_of_eq ?_) hn
    rw [signed_cast]
    rcases lt_or_ge x 0 with hneg | hpos
    · rw [abs_of_neg hneg, ← abs_neg]
      simp [hneg]
      congr 1; ring
    · rw [abs_of_nonneg hpos]
      simp [not_lt.mpr hpos]
  intro a h0 ha
  have key : ∀ q : Int, |a - (⌊a / 2 ^ q + 1 / 2⌋₊ : ℚ) * (2 : ℚ) ^ q| ≤ (2 : ℚ) ^ q / 2 := by
    intro q
    have hq : (0 : ℚ) < 2 ^ q := two_zpow_pos q
    have h1 := Nat.floor_le (a := a / 2 ^ q + 1 / 2) (by positivity)
    have h2 := Nat.lt_floor_add_one (a / 2 ^ q + 1 / 2)
    have e : a - (⌊a / 2 ^ q + 1 / 2⌋₊ : ℚ) * 2 ^ q = (a / 2 ^ q - ⌊a / 2 ^ q + 1 / 2⌋₊) * 2 ^ q := by
      rw [sub_mul, div_mul_cancel₀ _ hq.ne']
    have half : |a / 2 ^ q - ⌊a / 2 ^ q + 1 / 2⌋₊| ≤ 1 / 2 := abs_le.mpr ⟨by linarith, by linarith⟩
    rw [e, abs_mul, abs_of_pos hq]
    have := mul_le_mul_of_nonneg_right half hq.le
    linarith
  have top : ∀ (q : Int) (b : ℚ), a / 2 ^ q + 1 / 2 ≤ b → (⌊a / 2 ^ q + 1 / 2⌋₊ : ℚ) ≤ b := fun q b h =>
    (Nat.floor_le (by positivity)).trans h
  rcases lt_or_ge a ((2 : ℚ) ^ (-1022 : Int)) with hs | hb
  · -- below the normal values: the grid of the subnormals
    refine ⟨_, -1074, ⟨?_, le_refl _, by norm_num, fun _ => rfl⟩, (key (-1074)).trans ?_⟩
    · have h : a / 2 ^ (-1074 : Int) + 1 / 2 ≤ 2 ^ 52 + 1 / 2 := by
        rw [add_le_add_iff_right, div_le_iff₀ (two_zpow_pos _)]
        refine hs.le.trans (le_of_eq ?_)
        rw [← zpow_natCast, ← zpow_add₀ (by norm_num : (2 : ℚ) ≠ 0)]
        norm_num
      have h := top _ _ h
      have : (⌊a / 2 ^ (-1074 : Int) + 1 / 2⌋₊ : ℚ) < (2 ^ 53 : Nat) := h.trans_lt (by norm_num)
      exact_mod_cast this
    · have h1 : (2 : ℚ) ^ (-1074 : Int) ≤ 2 ^ (-200 : Int) := zpow_le_zpow_right₀ (by norm_num) (by norm_num)
      have h2 : (2 : ℚ) ^ (-200 : Int) = 1 / 2 ^ 200 := by rw [zpow_neg, one_div]; norm_cast
      have h3 : (0 : ℚ) < 2 ^ (-1074 : Int) := two_zpow_pos _
      have : 0 ≤ a / 2 ^ 53 := by positivity
      rw [h2] at h1
      linarith
  · have hpos : 0 < a := (two_zpow_pos _).trans_le hb
    obtain ⟨k, hk1, hk2⟩ := exists_mem_Ico_zpow hpos (by norm_num : (1 : ℚ) < 2)
    have hk : -1022 ≤ k := by
      by_contra hc
      have : (2 : ℚ) ^ (k + 1) ≤ 2 ^ (-1022 : Int) := zpow_le_zpow_right₀ (by norm_num) (by omega)
      linarith
    have hk' : k ≤ 200 := by
      by_contra hc
      have : (2 : ℚ) ^ (201 : Int) ≤ 2 ^ k := zpow_le_zpow_right₀ (by norm_num) (by omega)
      have h9 : (2 : ℚ) ^ (201 : Int) = 2 ^ 201 := by norm_cast
      linarith
    have err : (2 : ℚ) ^ (k - 52) / 2 ≤ a / 2 ^ 53 + 1 / 2 ^ 200 := by
      have e : (2 : ℚ) ^ (k - 52) / 2 = 2 ^ k / 2 ^ 53 := by
        rw [zpow_sub₀ (by norm_num)]
        have : (2 : ℚ) ^ (52 : Int) = 2 ^ 52 := by norm_cast
        rw [this, div_div]; norm_num
      rw [e]
      have h1 : (2 : ℚ) ^ k / 2 ^ 53 ≤ a / 2 ^ 53 := div_le_div_of_nonneg_right hk1 (by positivity)
      have h2 : (0 : ℚ) < 1 / 2 ^ 200 := by positivity
      linarith
    have hq : (0 : ℚ) < 2 ^ (k - 52) := two_zpow_pos _
    have two52 : (2 : ℚ) ^ 52 * 2 ^ (k - 52) = 2 ^ k := by
      rw [← zpow_natCast, ← zpow_add₀ (by norm_num)]; congr 1; push_cast; ring
    have lo : (2 : ℚ) ^ 52 ≤ a / 2 ^ (k - 52) := by rw [le_div_iff₀ hq, two52]; exact hk1
    have hi : a / 2 ^ (k - 52) < 2 ^ 53 := by
      rw [div_lt_iff₀ hq, show (53 : Nat) = 52 + 1 by rfl, pow_succ, mul_comm _ (2 : ℚ), mul_assoc, two52]
      rw [zpow_add₀ (by norm_num), zpow_one] at hk2
      linarith
    have hn1 : 2 ^ 52 ≤ ⌊a / 2 ^ (k - 52) + 1 / 2⌋₊ := by
      apply Nat.le_floor
      push_cast
      linarith
    have hn2 : ⌊a / 2 ^ (k - 52) + 1 / 2⌋₊ ≤ 2 ^ 53 := by
      have := Nat.floor_lt (a := a / 2 ^ (k - 52) + 1 / 2) (n := 2 ^ 53 + 1) (by positivity)
      have := this.mpr (by push_cast; linarith)
      omega
    rcases Nat.lt_or_ge ⌊a / 2 ^ (k - 52) + 1 / 2⌋₊ (2 ^ 53) with hlt | hge
    · exact ⟨_, k - 52, ⟨hlt, by omega, by omega, fun h => absurd hn1 (by omega)⟩, (key (k - 52)).trans err⟩
    · refine ⟨2 ^ 52, k - 51, ⟨by norm_num, by omega, by omega, fun h => absurd h (by norm_num)⟩, ?_⟩
      have hn : ⌊a / 2 ^ (k - 52) + 1 / 2⌋₊ = 2 ^ 53 := le_antisymm hn2 hge
      have := (key (k - 52)).trans err
      rw [hn] at this
      have e : ((2 ^ 53 : Nat) : ℚ) * 2 ^ (k - 52) = ((2 ^ 52 : Nat) : ℚ) * 2 ^ (k - 51) := by
        rw [show k - 51 = k - 52 + 1 by ring, zpow_add_one₀ (by norm_num)]; push_cast; ring
      rwa [e] at this

/-- A rounded result is within half a unit of its last place of the exact one. -/
theorem Nearest.error {x : ℚ} {r : F64} (h : Nearest x r) (hx : |x| ≤ 2 ^ 200) :
    ∃ q, r.toRat = some q ∧ |q - x| ≤ |x| / 2 ^ 53 + 1 / 2 ^ 200 := by
  have lt : |x| < 2 ^ 1000 := hx.trans_lt (pow_lt_pow_right₀ (by norm_num) (by norm_num))
  obtain ⟨s, m, e, rfl⟩ := h.finite lt
  obtain ⟨t, n, f, hc, hn⟩ := exists_near hx
  exact ⟨_, rfl, by rw [abs_sub_comm]; exact ((h.2.2 t n f hc).1).trans hn⟩

theorem add_error {a b : F64} {x y : ℚ} (ha : a.toRat = some x) (hb : b.toRat = some y) (h : |x + y| ≤ 2 ^ 200) :
    ∃ q, (F64.add a b).toRat = some q ∧ |q - (x + y)| ≤ |x + y| / 2 ^ 53 + 1 / 2 ^ 200 := by
  obtain ⟨s, m, e, rfl, rfl⟩ := toRat_some ha
  obtain ⟨t, n, f, rfl, rfl⟩ := toRat_some hb
  exact (add_nearest s t m n e f).error h

theorem mul_error {a b : F64} {x y : ℚ} (ha : a.toRat = some x) (hb : b.toRat = some y) (h : |x * y| ≤ 2 ^ 200) :
    ∃ q, (F64.mul a b).toRat = some q ∧ |q - x * y| ≤ |x * y| / 2 ^ 53 + 1 / 2 ^ 200 := by
  obtain ⟨s, m, e, rfl, rfl⟩ := toRat_some ha
  obtain ⟨t, n, f, rfl, rfl⟩ := toRat_some hb
  exact (mul_nearest s t m n e f).error h

/-! ### Sums of eight products -/

/-- The sum from +0.0 of the first n values, in ascending order (42_dct.md R242). -/
def partSum (p : Nat → F64) : Nat → F64
  | 0 => .fin false 0 (-1074)
  | n + 1 => F64.add (partSum p n) (p n)

theorem sum8_eq (p : Nat → F64) : sum8 p = partSum p 8 := rfl

theorem toRat_zero : F64.toRat (.fin false 0 (-1074)) = some 0 := by simp [F64.toRat, signed]

/-- A sum of up to eight values p, each within a rounding of q, is near the exact sum of the q. -/
theorem partSum_error {p : Nat → F64} {q : Nat → ℚ} {B : ℚ} (hB1 : 1 ≤ B) (hB2 : B ≤ 2 ^ 100)
    (hq : ∑ k ∈ Finset.range 8, |q k| ≤ B)
    (hp : ∀ k < 8, ∃ r, (p k).toRat = some r ∧ |r - q k| ≤ |q k| / 2 ^ 53 + 1 / 2 ^ 200) : ∀ n ≤ 8,
    ∃ r, (partSum p n).toRat = some r ∧ |r - ∑ k ∈ Finset.range n, q k| ≤
      n * (B / 2 ^ 53 * (1 + 1 / 2 ^ 40)) + (∑ k ∈ Finset.range n, |q k|) / 2 ^ 53 + n * (1 / 2 ^ 199) := by
  intro n
  induction n with
  | zero => exact fun _ => ⟨0, toRat_zero, by simp⟩
  | succ n ih =>
    intro hn
    obtain ⟨r, hr, er⟩ := ih (by omega)
    obtain ⟨v, hv, ev⟩ := hp n (by omega)
    have hA : ∑ k ∈ Finset.range (n + 1), |q k| ≤ B :=
      (Finset.sum_le_sum_of_subset_of_nonneg (Finset.range_subset_range.mpr hn) fun _ _ _ => abs_nonneg _).trans hq
    have hS : |∑ k ∈ Finset.range (n + 1), q k| ≤ ∑ k ∈ Finset.range (n + 1), |q k| := Finset.abs_sum_le_sum_abs _ _
    have hA0 : 0 ≤ ∑ k ∈ Finset.range n, |q k| := Finset.sum_nonneg fun _ _ => abs_nonneg _
    simp only [Finset.sum_range_succ, Nat.cast_add, Nat.cast_one] at hA hS ⊢
    have hn8 : (n : ℚ) ≤ 7 := by exact_mod_cast (by omega : n ≤ 7)
    have hn0 : (0 : ℚ) ≤ n := Nat.cast_nonneg n
    have hnB : (n : ℚ) * (B / 2 ^ 53 * (1 + 1 / 2 ^ 40)) ≤ 7 * (B / 2 ^ 53 * (1 + 1 / 2 ^ 40)) :=
      mul_le_mul_of_nonneg_right hn8 (by positivity)
    -- the exact sum of the two rounded operands
    have d : |r + v - (∑ k ∈ Finset.range n, q k + q n)| ≤
        n * (B / 2 ^ 53 * (1 + 1 / 2 ^ 40)) + (∑ k ∈ Finset.range n, |q k|) / 2 ^ 53 + n * (1 / 2 ^ 199)
          + (|q n| / 2 ^ 53 + 1 / 2 ^ 200) := by
      rw [show r + v - (∑ k ∈ Finset.range n, q k + q n) = (r - ∑ k ∈ Finset.range n, q k) + (v - q n) by ring]
      exact (abs_add_le _ _).trans (add_le_add er ev)
    have small : |r + v| ≤ B * (1 + 1 / 2 ^ 40) := by
      have h1 : |r + v| ≤ |∑ k ∈ Finset.range n, q k + q n| + |r + v - (∑ k ∈ Finset.range n, q k + q n)| := by
        have := abs_add_le (∑ k ∈ Finset.range n, q k + q n) (r + v - (∑ k ∈ Finset.range n, q k + q n))
        rwa [add_sub_cancel] at this
      norm_num at h1 d hnB hA hS ⊢
      linarith
    have big : |r + v| ≤ 2 ^ 200 := by
      refine small.trans ?_
      norm_num at hB2 ⊢
      linarith
    obtain ⟨w, hw, ew⟩ := add_error hr hv big
    refine ⟨w, hw, ?_⟩
    have h2 : |w - (∑ k ∈ Finset.range n, q k + q n)| ≤
        |w - (r + v)| + |r + v - (∑ k ∈ Finset.range n, q k + q n)| := by
      have := abs_add_le (w - (r + v)) (r + v - (∑ k ∈ Finset.range n, q k + q n))
      rwa [sub_add_sub_cancel] at this
    have h3 : |r + v| / 2 ^ 53 ≤ B * (1 + 1 / 2 ^ 40) / 2 ^ 53 := div_le_div_of_nonneg_right small (by positivity)
    norm_num at h2 h3 d ew ⊢
    linarith

/-- An eight-term sum of rounded products is within 10 units of 2^-53 of the bound on its terms. -/
theorem sum8_error {p : Nat → F64} {q : Nat → ℚ} {B : ℚ} (hB1 : 1 ≤ B) (hB2 : B ≤ 2 ^ 100)
    (hq : ∑ k ∈ Finset.range 8, |q k| ≤ B)
    (hp : ∀ k < 8, ∃ r, (p k).toRat = some r ∧ |r - q k| ≤ |q k| / 2 ^ 53 + 1 / 2 ^ 200) :
    ∃ r, (sum8 p).toRat = some r ∧ |r - ∑ k ∈ Finset.range 8, q k| ≤ 10 * B / 2 ^ 53 := by
  obtain ⟨r, hr, er⟩ := partSum_error hB1 hB2 hq hp 8 (le_refl 8)
  refine ⟨r, hr, er.trans ?_⟩
  norm_num at hq ⊢
  linarith

/-! ### Matrices -/

/-- The binary64 matrix F is within e of the exact matrix X, element by element. -/
def Approx (F : Matrix8) (X : Matrix (Fin 8) (Fin 8) ℚ) (e : ℚ) : Prop :=
  ∀ i j : Fin 8, ∃ r, (mat F i j).toRat = some r ∧ |r - X i j| ≤ e

/-- A row of exact factors c, of magnitudes that sum to at most 2.83, times values within e of x. -/
theorem dot_error {f : Nat → F64} {c x : Fin 8 → ℚ} {r : Fin 8 → ℚ} {M e : ℚ} (hM1 : 1 ≤ M) (hM2 : M ≤ 2 ^ 90) (he0 : 0 ≤ e)
    (he : e ≤ M) (hc : ∑ k, |c k| ≤ 283 / 100) (hx : ∀ k, |x k| ≤ M) (hr : ∀ k, |r k - x k| ≤ e)
    (hf : ∀ k : Fin 8, ∃ q, (f k).toRat = some q ∧ |q - c k * r k| ≤ |c k * r k| / 2 ^ 53 + 1 / 2 ^ 200) :
    ∃ q, (sum8 f).toRat = some q ∧ |q - ∑ k, c k * x k| ≤ 283 / 100 * e + 10 * (283 / 100 * (M + e)) / 2 ^ 53 := by
  have hrM : ∀ k, |r k| ≤ M + e := fun k => by
    have := abs_add_le (x k) (r k - x k)
    rw [add_sub_cancel] at this
    linarith [hx k, hr k]
  have terms : ∑ k, |c k * r k| ≤ 283 / 100 * (M + e) := by
    calc ∑ k, |c k * r k| ≤ ∑ k, |c k| * (M + e) :=
          Finset.sum_le_sum fun k _ => by rw [abs_mul]; exact mul_le_mul_of_nonneg_left (hrM k) (abs_nonneg _)
      _ = (∑ k, |c k|) * (M + e) := by rw [Finset.sum_mul]
      _ ≤ _ := mul_le_mul_of_nonneg_right hc (by linarith)
  have drift : |∑ k, c k * r k - ∑ k, c k * x k| ≤ 283 / 100 * e := by
    rw [← Finset.sum_sub_distrib]
    calc |∑ k, (c k * r k - c k * x k)| ≤ ∑ k, |c k * r k - c k * x k| := Finset.abs_sum_le_sum_abs _ _
      _ ≤ ∑ k, |c k| * e := Finset.sum_le_sum fun k _ => by
          rw [← mul_sub, abs_mul]; exact mul_le_mul_of_nonneg_left (hr k) (abs_nonneg _)
      _ = (∑ k, |c k|) * e := by rw [Finset.sum_mul]
      _ ≤ _ := mul_le_mul_of_nonneg_right hc he0
  let q : Nat → ℚ := fun k => if h : k < 8 then c ⟨k, h⟩ * r ⟨k, h⟩ else 0
  have hsum : ∑ k ∈ Finset.range 8, |q k| = ∑ k, |c k * r k| := by
    rw [Finset.sum_range]; exact Finset.sum_congr rfl fun k _ => by simp [q]
  have hsum' : ∑ k ∈ Finset.range 8, q k = ∑ k, c k * r k := by
    rw [Finset.sum_range]; exact Finset.sum_congr rfl fun k _ => by simp [q]
  obtain ⟨v, hv, ev⟩ := sum8_error (p := f) (q := q) (B := 283 / 100 * (M + e)) (by linarith)
    (by norm_num at hM2 ⊢; linarith) (by rw [hsum]; exact terms) (fun k hk => by simpa [q, hk] using hf ⟨k, hk⟩)
  refine ⟨v, hv, ?_⟩
  rw [hsum'] at ev
  have := abs_add_le (v - ∑ k, c k * r k) (∑ k, c k * r k - ∑ k, c k * x k)
  rw [sub_add_sub_cancel] at this
  linarith

/-- The binary64 matrix A holds the exact matrix C. -/
def Holds (A : Matrix8) (C : Matrix (Fin 8) (Fin 8) ℚ) : Prop := ∀ i j : Fin 8, (mat A i j).toRat = some (C i j)

theorem holds_transpose {A : Matrix8} {C : Matrix (Fin 8) (Fin 8) ℚ} (h : Holds A C) : Holds (transpose A) C.transpose :=
  fun i j => by rw [mat_transpose A i.isLt j.isLt]; exact h j i

/-- What one product does to the bound on the elements and to the error. -/
def nextError (M e : ℚ) : ℚ := 283 / 100 * e + 10 * (283 / 100 * (M + e)) / 2 ^ 53

theorem prod_small {c r M e x : ℚ} (hc : |c| ≤ 283 / 100) (hM2 : M ≤ 2 ^ 90) (he : e ≤ M) (hx : |x| ≤ M) (hr : |r - x| ≤ e) :
    |c * r| ≤ 2 ^ 200 := by
  have h1 : |r| ≤ 2 * M := by
    have := abs_add_le x (r - x)
    rw [add_sub_cancel] at this
    linarith
  rw [abs_mul]
  have : |c| * |r| ≤ 283 / 100 * (2 * M) := mul_le_mul hc h1 (abs_nonneg _) (by norm_num)
  norm_num at hM2 ⊢
  linarith

theorem matMul_left {A F : Matrix8} {C X : Matrix (Fin 8) (Fin 8) ℚ} {M e : ℚ} (hA : Holds A C)
    (hC : ∀ i, ∑ k, |C i k| ≤ 283 / 100) (hF : Approx F X e) (hX : ∀ i j, |X i j| ≤ M) (hM1 : 1 ≤ M) (hM2 : M ≤ 2 ^ 90)
    (he0 : 0 ≤ e) (he : e ≤ M) : Approx (matMul A F) (C * X) (nextError M e) := by
  intro i j
  rw [mat_mul A F i.isLt j.isLt]
  choose r hr er using fun k => hF k j
  rw [show (C * X) i j = ∑ k, C i k * X k j from Matrix.mul_apply]
  refine dot_error hM1 hM2 he0 he (hC i) (fun k => hX k j) er fun k => ?_
  have hk : |C i k| ≤ 283 / 100 :=
    (Finset.single_le_sum (f := fun k => |C i k|) (fun _ _ => abs_nonneg _) (Finset.mem_univ k)).trans (hC i)
  exact mul_error (hA i k) (hr k) (prod_small hk hM2 he (hX k j) (er k))

theorem matMul_right {A F : Matrix8} {C X : Matrix (Fin 8) (Fin 8) ℚ} {M e : ℚ} (hA : Holds A C)
    (hC : ∀ j, ∑ k, |C k j| ≤ 283 / 100) (hF : Approx F X e) (hX : ∀ i j, |X i j| ≤ M) (hM1 : 1 ≤ M) (hM2 : M ≤ 2 ^ 90)
    (he0 : 0 ≤ e) (he : e ≤ M) : Approx (matMul F A) (X * C) (nextError M e) := by
  intro i j
  rw [mat_mul F A i.isLt j.isLt]
  choose r hr er using fun k => hF i k
  have hmul : (X * C) i j = ∑ k, C k j * X i k := by
    rw [Matrix.mul_apply]; exact Finset.sum_congr rfl fun k _ => mul_comm _ _
  rw [hmul]
  refine dot_error hM1 hM2 he0 he (hC j) (fun k => hX i k) er fun k => ?_
  have hk : |C k j| ≤ 283 / 100 :=
    (Finset.single_le_sum (f := fun k => |C k j|) (fun _ _ => abs_nonneg _) (Finset.mem_univ k)).trans (hC j)
  have small := prod_small hk hM2 he (hX i k) (er k)
  rw [mul_comm] at small ⊢
  exact mul_error (hr k) (hA k j) small

theorem mul_bound_left {C X : Matrix (Fin 8) (Fin 8) ℚ} {K M : ℚ} (hC : ∀ i, ∑ k, |C i k| ≤ K)
    (hX : ∀ i j, |X i j| ≤ M) (hM : 0 ≤ M) (i j : Fin 8) : |(C * X) i j| ≤ K * M := by
  rw [Matrix.mul_apply]
  calc |∑ k, C i k * X k j| ≤ ∑ k, |C i k * X k j| := Finset.abs_sum_le_sum_abs _ _
    _ ≤ ∑ k, |C i k| * M := Finset.sum_le_sum fun k _ => by
        rw [abs_mul]; exact mul_le_mul_of_nonneg_left (hX k j) (abs_nonneg _)
    _ = (∑ k, |C i k|) * M := by rw [Finset.sum_mul]
    _ ≤ _ := mul_le_mul_of_nonneg_right (hC i) hM

theorem mul_bound_right {C X : Matrix (Fin 8) (Fin 8) ℚ} {K M : ℚ} (hC : ∀ j, ∑ k, |C k j| ≤ K)
    (hX : ∀ i j, |X i j| ≤ M) (hM : 0 ≤ M) (i j : Fin 8) : |(X * C) i j| ≤ K * M := by
  have := mul_bound_left (C := C.transpose) (X := X.transpose) hC (fun i j => hX j i) hM j i
  rwa [← Matrix.transpose_mul, Matrix.transpose_apply] at this

/-! ### The basis -/

/-- The exact basis matrix (42_dct.md R240). -/
def dctExact (c : Config) : Matrix (Fin 8) (Fin 8) ℚ := fun u x => (c.dctUnits u x : ℚ) / 2 ^ 1074

theorem toRat_units {a : F64} (h : F64.Canon a) (hf : a.isFinite = true) : a.toRat = some ((a.units : ℚ) / 2 ^ 1074) := by
  rcases a with _ | s | ⟨s, m, e⟩
  · cases hf
  · cases hf
  · have he : -1074 ≤ e := h.2.1
    have hp : (2 : ℚ) ^ e = 2 ^ (e + 1074).toNat / 2 ^ 1074 := by
      obtain ⟨k, hk⟩ : ∃ k : Nat, e + 1074 = k := ⟨_, (Int.toNat_of_nonneg (by omega)).symm⟩
      have ht : (2 : ℚ) ^ (1074 : Int) = 2 ^ (1074 : Nat) := zpow_natCast 2 1074
      rw [hk, Int.toNat_natCast, ← ht, eq_div_iff (two_zpow_pos _).ne', ← zpow_add₀ two_ne_zero, hk, zpow_natCast]
    simp only [F64.toRat, F64.units, Option.some.injEq, signed_cast, hp]
    cases s <;> push_cast <;> ring

theorem sumTo8_eq (f : Nat → Int) : (sumTo8 f : ℚ) = ∑ k : Fin 8, (f k : ℚ) := by
  simp [sumTo8, List.range, List.range.loop, Fin.sum_univ_eight, add_assoc]

/-- An element of Cᵀ·C − I from the whole-number sums, the unit of C being 1/P. -/
theorem gap_eq {x y : Nat → Int} {g : Int} {i j : Fin 8} {P : ℚ} (hp : 0 < P) (hP : ((2 ^ 2148 : Int) : ℚ) = P * P)
    (hg : g = sumTo8 (fun u => x u * y u) - if i.val = j.val then 2 ^ 2148 else 0) :
    ∑ k : Fin 8, (x k : ℚ) / P * ((y k : ℚ) / P) - (1 : Matrix (Fin 8) (Fin 8) ℚ) i j = (g : ℚ) / (P * P) := by
  have h1 : ∑ k : Fin 8, (x k : ℚ) / P * ((y k : ℚ) / P) = (sumTo8 (fun u => x u * y u) : ℚ) / (P * P) := by
    rw [sumTo8_eq, Finset.sum_div]
    exact Finset.sum_congr rfl fun u _ => by rw [div_mul_div_comm, Int.cast_mul]
  rw [h1, hg, Int.cast_sub, sub_div]
  congr 1
  by_cases hij : i = j
  · subst hij
    rw [if_pos rfl, hP, Matrix.one_apply_eq, div_self (by positivity)]
  · rw [if_neg (fun h => hij (Fin.ext h)), Matrix.one_apply_ne hij, Int.cast_zero, zero_div]

/-- What `Config.dctFits` says of the exact basis. -/
theorem dctFits_exact {c : Config} (h : c.dctFits = true) :
    Holds (valuesOf c.dctC) (dctExact c) ∧ (∀ u, ∑ x, |(dctExact c) u x| ≤ 283 / 100) ∧
    (∀ x, ∑ u, |(dctExact c) u x| ≤ 283 / 100) ∧
    ∀ i, ∑ j, |((dctExact c).transpose * (dctExact c) - 1 : Matrix (Fin 8) (Fin 8) ℚ) i j| ≤ 1 / 10 ^ 12 := by
  simp only [Config.dctFits, Bool.and_eq_true, List.all_eq_true, List.mem_range, decide_eq_true_eq] at h
  obtain ⟨⟨⟨hf, hr⟩, hc⟩, hg⟩ := h
  have pos : (0 : ℚ) < 2 ^ 1074 := by positivity
  have absDiv : ∀ z : Int, |(z : ℚ) / 2 ^ 1074| = |(z : ℚ)| / 2 ^ 1074 := fun z => by
    rw [abs_div, abs_of_pos pos]
  have sums : ∀ f : Nat → Int, 100 * sumTo8 (fun k => ((f k).natAbs : Int)) ≤ 283 * 2 ^ 1074 →
      ∑ k : Fin 8, |(f k : ℚ) / 2 ^ 1074| ≤ 283 / 100 := by
    intro f hs
    have hs' : ((100 * sumTo8 (fun k => ((f k).natAbs : Int)) : Int) : ℚ) ≤ ((283 * 2 ^ 1074 : Int) : ℚ) := Int.cast_le.mpr hs
    rw [Int.cast_mul, Int.cast_mul, sumTo8_eq, Int.cast_pow] at hs'
    simp only [absDiv, ← Finset.sum_div]
    rw [div_le_iff₀ pos]
    push_cast at hs' ⊢
    generalize (2 : ℚ) ^ 1074 = P at hs' ⊢
    linarith
  refine ⟨fun i j => ?_, fun u => sums _ (hr u u.isLt), fun x => sums (fun u => c.dctUnits u x) (hc x x.isLt), fun i => ?_⟩
  · rw [mat_valuesOf _ i.isLt j.isLt]
    exact toRat_units (canon_ofBits _) (hf _ (by omega))
  · have hP : ((2 ^ 2148 : Int) : ℚ) = 2 ^ 1074 * 2 ^ 1074 := by
      rw [Int.cast_pow, Int.cast_ofNat]
      exact pow_add 2 1074 1074
    have gap : ∀ j : Fin 8, ((dctExact c).transpose * (dctExact c) - 1 : Matrix (Fin 8) (Fin 8) ℚ) i j
        = (c.dctGap i j : ℚ) / (2 ^ 1074 * 2 ^ 1074) := fun j => by
      rw [Matrix.sub_apply, Matrix.mul_apply]
      exact gap_eq (x := fun u => c.dctUnits u i) (y := fun u => c.dctUnits u j) pos hP rfl
    have hs : ((10 ^ 12 * sumTo8 (fun j => ((c.dctGap i j).natAbs : Int)) : Int) : ℚ) ≤ ((2 ^ 2148 : Int) : ℚ) :=
      Int.cast_le.mpr (hg i i.isLt)
    rw [Int.cast_mul, sumTo8_eq, hP] at hs
    generalize (2 : ℚ) ^ 1074 = P at gap hs pos
    have e : ∀ j : Fin 8, |((dctExact c).transpose * (dctExact c) - 1 : Matrix (Fin 8) (Fin 8) ℚ) i j|
        = |(c.dctGap i j : ℚ)| / (P * P) := fun j => by rw [gap, abs_div, abs_of_pos (by positivity : 0 < P * P)]
    simp only [e, ← Finset.sum_div]
    rw [div_le_iff₀ (by positivity)]
    push_cast at hs ⊢
    linarith

/-- Twice through a matrix within 1e-12 of the identity: an element of at most M moves by at most 2.1e-12·M. -/
theorem gap_bound {G S : Matrix (Fin 8) (Fin 8) ℚ} {M : ℚ} (hG : G.transpose = G)
    (hH : ∀ i, ∑ j, |(G - 1) i j| ≤ 1 / 10 ^ 12) (hS : ∀ i j, |S i j| ≤ M) (hM : 0 ≤ M) (i j : Fin 8) :
    |(G * S * G - S) i j| ≤ 20001 / 10 ^ 16 * M := by
  have hcol : ∀ j, ∑ i, |(G - 1) i j| ≤ 1 / 10 ^ 12 := fun j => by
    refine le_trans (le_of_eq (Finset.sum_congr rfl fun i _ => ?_)) (hH j)
    have : (G - 1).transpose = G - 1 := by rw [Matrix.transpose_sub, hG, Matrix.transpose_one]
    rw [← this, Matrix.transpose_apply, this]
  have split : G * S * G - S = (G - 1) * S + S * (G - 1) + (G - 1) * S * (G - 1) := by noncomm_ring
  have h1 := mul_bound_left hH hS hM i j
  have h2 := mul_bound_right hcol hS hM i j
  have h3 := mul_bound_right (K := 1 / 10 ^ 12) hcol (fun i j => mul_bound_left hH hS hM i j) (by positivity) i j
  rw [split, Matrix.add_apply, Matrix.add_apply]
  have t1 := abs_add_le (((G - 1) * S) i j + (S * (G - 1)) i j) (((G - 1) * S * (G - 1)) i j)
  have t2 := abs_add_le (((G - 1) * S) i j) ((S * (G - 1)) i j)
  linarith

theorem Approx.mono {F : Matrix8} {X : Matrix (Fin 8) (Fin 8) ℚ} {e e' : ℚ} (h : Approx F X e) (he : e ≤ e') :
    Approx F X e' := fun i j => by
  obtain ⟨r, hr, er⟩ := h i j
  exact ⟨r, hr, er.trans he⟩

/-- FDCT followed by IDCT, on the values of a block of samples in −300..500, gives every sample back within 1e-9
(42_dct.md R241). -/
theorem dctFits_roundTrips {c : Config} (hc : c.dctFits = true) {x : Matrix8}
    (hx : ∀ n < 64, ∃ q, (nth x n).toRat = some q ∧ -300 ≤ q ∧ q ≤ 500) : ∀ n < 64,
    ∃ p q, (nth (idctOf (valuesOf c.dctC) (fdctOf (valuesOf c.dctC) x)) n).toRat = some p ∧ (nth x n).toRat = some q ∧
      |p - q| ≤ 1 / 10 ^ 9 := by
  obtain ⟨hA, hrow, hcol, hgap⟩ := dctFits_exact hc
  have hAT := holds_transpose hA
  choose v hv hlo hhi using hx
  have h128 : (F64.ofInt 128).toRat = some (128 : ℚ) := ofInt_exact (by norm_num)
  have lt64 : ∀ i j : Fin 8, 8 * i.val + j.val < 64 := fun i j => by omega
  -- the exact shifted samples
  let S : Matrix (Fin 8) (Fin 8) ℚ := fun i j => v (8 * i + j) (lt64 i j) - 128
  have hS : ∀ i j, |S i j| ≤ 428 := fun i j => abs_le.mpr
    ⟨by have := hlo _ (lt64 i j); simp only [S]; linarith, by have := hhi _ (lt64 i j); simp only [S]; linarith⟩
  have a0 : Approx (blockOf fun n => F64.sub (nth x n) (F64.ofInt 128)) S (1 / 10 ^ 13) := by
    intro i j
    unfold mat
    rw [nth_blockOf _ _ (lt64 i j)]
    have eS : S i j = v (8 * i + j) (lt64 i j) + -128 := sub_eq_add_neg _ _
    have s128 := eS ▸ hS i j
    rw [eS]
    have big : |v (8 * i + j) (lt64 i j) + -128| ≤ 2 ^ 200 := s128.trans (by norm_num)
    obtain ⟨r, hr, er⟩ := add_error (hv _ (lt64 i j)) (toRat_neg h128) big
    refine ⟨r, hr, er.trans ?_⟩
    norm_num at s128 ⊢
    linarith
  have b1 := fun i j => mul_bound_left hrow hS (by norm_num) i j
  have b2 := fun i j => mul_bound_right (C := (dctExact c).transpose) (fun j => hrow j) b1 (by norm_num) i j
  have b3 := fun i j => mul_bound_left (C := (dctExact c).transpose) (fun i => hcol i) b2 (by norm_num) i j
  have a1 := (matMul_left hA hrow a0 hS (by norm_num) (by norm_num) (by norm_num) (by norm_num)).mono
    (e' := 17 / 10 ^ 13) (by norm_num [nextError])
  have a2 := (matMul_right hAT (fun j => hrow j) a1 b1 (by norm_num) (by norm_num) (by norm_num) (by norm_num)).mono
    (e' := 9 / 10 ^ 12) (by norm_num [nextError])
  have a3 := (matMul_left hAT (fun i => hcol i) a2 b2 (by norm_num) (by norm_num) (by norm_num) (by norm_num)).mono
    (e' := 37 / 10 ^ 12) (by norm_num [nextError])
  have a4 := (matMul_right hA hcol a3 b3 (by norm_num) (by norm_num) (by norm_num) (by norm_num)).mono
    (e' := 14 / 10 ^ 11) (by norm_num [nextError])
  intro n hn
  let i : Fin 8 := ⟨n / 8, by omega⟩
  let j : Fin 8 := ⟨n % 8, by omega⟩
  have hij : 8 * i.val + j.val = n := Nat.div_add_mod n 8
  obtain ⟨r, hr, er⟩ := a4 i j
  have assoc : (dctExact c).transpose * (dctExact c * S * (dctExact c).transpose) * dctExact c
      = (dctExact c).transpose * dctExact c * S * ((dctExact c).transpose * dctExact c) := by simp only [Matrix.mul_assoc]
  have hG : ((dctExact c).transpose * dctExact c).transpose = (dctExact c).transpose * dctExact c := by
    rw [Matrix.transpose_mul, Matrix.transpose_transpose]
  have hgb := gap_bound hG hgap hS (by norm_num) i j
  rw [Matrix.sub_apply] at hgb
  rw [assoc] at er
  generalize ((dctExact c).transpose * dctExact c * S * ((dctExact c).transpose * dctExact c)) i j = y at er hgb
  have eS : S i j = v n hn - 128 := by simp only [S, hij]
  have near : |r + 128 - v n hn| ≤ 9975 / 10 ^ 13 := by
    rw [eS] at hgb
    rw [show r + 128 - v n hn = (r - y) + (y - (v n hn - 128)) by ring]
    refine (abs_add_le _ _).trans ((add_le_add er hgb).trans ?_)
    norm_num
  have size : |r + 128| ≤ 1000 := by
    have h1 := abs_le.mp near
    exact abs_le.mpr ⟨by linarith [hlo n hn], by linarith [hhi n hn]⟩
  obtain ⟨p, hp, ep⟩ := add_error hr h128 (size.trans (by norm_num))
  refine ⟨p, v n hn, ?_, hv n hn, ?_⟩
  · unfold idctOf fdctOf
    rw [nth_blockOf _ _ hn, ← hij]
    exact hp
  · rw [show p - v n hn = (p - (r + 128)) + (r + 128 - v n hn) by ring]
    refine (abs_add_le _ _).trans ((add_le_add ep near).trans ?_)
    norm_num at size ⊢
    linarith

end Sys2Proof.Machine
end

