-- ==== Sys2Proof/Laws/Basis.lean ====
section
/-! SUPPORT. What the checks of a basis matrix say (spec/42_dct.md R241). -/

namespace Sys2Proof.Machine

/-! ### Values in whole units -/

theorem finite_of_toRat {a : F64} {q : ℚ} (h : a.toRat = some q) : a.isFinite = true := by
  obtain ⟨s, m, e, rfl, -⟩ := toRat_some h
  rfl

theorem between_iff {a : F64} (ha : F64.Canon a) (lo hi : Int) :
    a.between lo hi = true ↔ ∃ q, a.toRat = some q ∧ (lo : ℚ) ≤ q ∧ q ≤ hi := by
  have pos : (0 : ℚ) < 2 ^ 1074 := by positivity
  have two : ((2 ^ 1074 : Int) : ℚ) = 2 ^ 1074 := by rw [Int.cast_pow, Int.cast_ofNat]
  have lower : lo * 2 ^ 1074 ≤ a.units ↔ (lo : ℚ) ≤ a.units / 2 ^ 1074 := by
    rw [le_div_iff₀ pos, ← two, ← Int.cast_mul, Int.cast_le]
  have upper : a.units ≤ hi * 2 ^ 1074 ↔ (a.units : ℚ) / 2 ^ 1074 ≤ hi := by
    rw [div_le_iff₀ pos, ← two, ← Int.cast_mul, Int.cast_le]
  unfold F64.between
  rw [Bool.and_eq_true, Bool.and_eq_true, decide_eq_true_eq, decide_eq_true_eq, lower, upper]
  constructor
  · rintro ⟨⟨hf, h1⟩, h2⟩
    exact ⟨_, toRat_units ha hf, h1, h2⟩
  · rintro ⟨q, hq, h1, h2⟩
    have hf := finite_of_toRat hq
    rw [toRat_units ha hf, Option.some.injEq] at hq
    exact ⟨⟨hf, hq ▸ h1⟩, hq ▸ h2⟩

theorem near_iff {a b : F64} (ha : F64.Canon a) (hb : F64.Canon b) :
    a.near b = true ↔ ∃ p q, a.toRat = some p ∧ b.toRat = some q ∧ |p - q| ≤ 1 / 10 ^ 9 := by
  have pos : (0 : ℚ) < 2 ^ 1074 := by positivity
  have two : ((2 ^ 1074 : Int) : ℚ) = 2 ^ 1074 := by rw [Int.cast_pow, Int.cast_ofNat]
  have dist : 10 ^ 9 * ((a.units - b.units).natAbs : Int) ≤ 2 ^ 1074 ↔
      |(a.units : ℚ) / 2 ^ 1074 - (b.units : ℚ) / 2 ^ 1074| ≤ 1 / 10 ^ 9 := by
    rw [← sub_div, abs_div, abs_of_pos pos, div_le_div_iff₀ pos (by positivity), one_mul, ← two, ← Int.cast_sub,
      ← Int.cast_abs, Int.natCast_natAbs, mul_comm, ← Int.cast_le (R := ℚ), Int.cast_mul, Int.cast_pow 10 9,
      Int.cast_ofNat]
  unfold F64.near
  rw [Bool.and_eq_true, Bool.and_eq_true, decide_eq_true_eq, dist]
  constructor
  · rintro ⟨⟨h1, h2⟩, h⟩
    exact ⟨_, _, toRat_units ha h1, toRat_units hb h2, h⟩
  · rintro ⟨p, q, hp, hq, h⟩
    have h1 := finite_of_toRat hp
    have h2 := finite_of_toRat hq
    rw [toRat_units ha h1, Option.some.injEq] at hp
    rw [toRat_units hb h2, Option.some.injEq] at hq
    exact ⟨⟨h1, h2⟩, hp ▸ hq ▸ h⟩

/-! ### Every block -/

theorem allBelow_iff (p : Nat → Bool) : ∀ n, allBelow p n = true ↔ ∀ k < n, p k = true
  | 0 => by simp [allBelow]
  | n + 1 => by simp only [allBelow, Bool.and_eq_true, allBelow_iff p n, Nat.forall_lt_succ_right]

theorem allPatterns_iff (p : List Double → Bool) : ∀ (n : Nat) (l : List Double),
    allPatterns p n l = true ↔ ∀ m : List Double, m.length = n → p (m ++ l) = true
  | 0, l => by
    refine ⟨fun h m hm => ?_, fun h => h [] rfl⟩
    rw [List.length_eq_zero_iff] at hm
    rw [hm]
    exact h
  | n + 1, l => by
    rw [allPatterns, allBelow_iff]
    constructor
    · intro h m hm
      obtain ⟨m, d, rfl⟩ := List.eq_nil_or_concat' m |>.resolve_left (by rintro rfl; cases hm)
      have := (allPatterns_iff p n _).mp (h d.toNat d.isLt) m (by simpa using hm)
      rw [BitVec.ofNat_toNat, BitVec.setWidth_eq] at this
      rwa [List.append_assoc]
    · intro h k _
      refine (allPatterns_iff p n _).mpr fun m hm => ?_
      have := h (m ++ [BitVec.ofNat 64 k]) (by simp [hm])
      rwa [List.append_assoc] at this

/-- The check of every block tries every block. -/
theorem restoresEveryBlock_iff (c : Config) : c.restoresEveryBlock = true ↔
    ∀ b : Block Double, inPipelineRange (valuesOf b) = true → c.restores (valuesOf b) = true := by
  unfold Config.restoresEveryBlock
  rw [allPatterns_iff]
  simp only [List.append_nil, Bool.or_eq_true, Bool.not_eq_true', ← Bool.not_eq_true, ← imp_iff_not_or, blockValues]
  refine ⟨fun h b => ?_, fun h m _ => h _⟩
  have hb : (blockOf fun n => b.toList.getD n 0) = b := block_ext fun n hn => nth_blockOf _ _ hn
  have := h b.toList (by simp)
  rwa [hb] at this

theorem canon_valuesOf (b : Block Double) {n : Nat} (hn : n < 64) : F64.Canon (nth (valuesOf b) n) := by
  unfold valuesOf
  rw [nth_blockOf _ _ hn]
  exact canon_ofBits _

theorem canon_idctOf (c x : Matrix8) {n : Nat} (hn : n < 64) : F64.Canon (nth (idctOf c x) n) := by
  unfold idctOf
  rw [nth_blockOf _ _ hn]
  exact canon_add

theorem inPipelineRange_iff (b : Block Double) : inPipelineRange (valuesOf b) = true ↔
    ∀ n < 64, ∃ q, (nth (valuesOf b) n).toRat = some q ∧ -300 ≤ q ∧ q ≤ 500 := by
  simp only [inPipelineRange, List.all_eq_true, List.mem_range]
  refine forall_congr' fun n => forall_congr' fun hn => ?_
  rw [between_iff (canon_valuesOf b hn)]
  norm_num

theorem restores_iff (c : Config) (b : Block Double) : c.restores (valuesOf b) = true ↔
    ∀ n < 64, ∃ p q, (nth (idctOf (valuesOf c.dctC) (fdctOf (valuesOf c.dctC) (valuesOf b))) n).toRat = some p ∧
      (nth (valuesOf b) n).toRat = some q ∧ |p - q| ≤ 1 / 10 ^ 9 := by
  simp only [Config.restores, List.all_eq_true, List.mem_range]
  exact forall_congr' fun n => forall_congr' fun hn => near_iff (canon_idctOf _ _ hn) (canon_valuesOf b hn)

/-! ### The two checks -/

/-- The short check is enough. -/
theorem dctFits_restores {c : Config} (h : c.dctFits = true) : c.restoresEveryBlock = true :=
  (restoresEveryBlock_iff c).mpr fun b hb =>
    (restores_iff c b).mpr (dctFits_roundTrips h ((inPipelineRange_iff b).mp hb))

/-- The check that `Config.wf` makes is the check of every block. -/
theorem dctRestores_eq (c : Config) : c.dctRestores = c.restoresEveryBlock := by
  unfold Config.dctRestores
  cases h : c.dctFits
  · exact Bool.false_or _
  · rw [Bool.true_or, dctFits_restores h]

/-- A block in the range that is not restored refuses the basis. -/
theorem dctRestores_false {c : Config} (b : Block Double) (h : inPipelineRange (valuesOf b) = true)
    (hb : c.restores (valuesOf b) = false) : c.dctRestores = false := by
  rw [dctRestores_eq, ← Bool.not_eq_true, restoresEveryBlock_iff]
  intro all
  rw [all b h] at hb
  cases hb

end Sys2Proof.Machine
end

