-- ==== Sys2Proof/Laws/Bits.lean ====
section
/-! SUPPORT. The laws of bit-strings, of the bitstream writer and of the reader (spec/20_memory.md R110 to R113). -/

namespace Sys2Proof.Machine

/-! ### Bit-strings -/

@[simp] theorem length_bitString (n len : Nat) : (bitString n len).length = len := by simp [bitString]

theorem getElem_bitString {n len i : Nat} (h : i < (bitString n len).length) :
    (bitString n len)[i] = n.testBit (len - 1 - i) := by simp [bitString]

@[simp] theorem bitString_zero (n : Nat) : bitString n 0 = [] := rfl

/-- One more bit at the low end. -/
theorem bitString_succ (n len : Nat) : bitString n (len + 1) = bitString (n / 2) len ++ [n.testBit 0] := by
  apply List.ext_getElem
  · simp
  · intro i h1 h2
    rw [getElem_bitString]
    simp only [length_bitString] at h1
    rcases Nat.lt_or_ge i len with hi | hi
    · rw [List.getElem_append_left (by simpa using hi), getElem_bitString, Nat.testBit_div_two]
      congr 1
      omega
    · have : i = len := by omega
      subst this
      simp

theorem bitString_double (n len : Nat) (b : Bool) : bitString (2 * n + b.toNat) (len + 1) = bitString n len ++ [b] := by
  rw [bitString_succ]
  have h1 : (2 * n + b.toNat) / 2 = n := by have := Bool.toNat_lt b; omega
  have h2 : (2 * n + b.toNat).testBit 0 = b := by cases b <;> simp [Nat.testBit_zero]
  rw [h1, h2]

theorem numberOf_snoc (l : List Bool) (b : Bool) : numberOf (l ++ [b]) = 2 * numberOf l + b.toNat := by
  simp [numberOf]

theorem numberOf_bitString (n : Nat) : ∀ len, numberOf (bitString n len) = n % 2 ^ len := by
  intro len
  induction len generalizing n with
  | zero => simp [numberOf, Nat.mod_one]
  | succ len ih =>
    rw [bitString_succ, numberOf_snoc, ih, Nat.testBit_zero]
    have h : n % 2 ^ (len + 1) = 2 * (n / 2 % 2 ^ len) + n % 2 := by
      rw [pow_succ, Nat.mul_comm (2 ^ len) 2, Nat.mod_mul]
      omega
    rw [h]
    rcases Nat.mod_two_eq_zero_or_one n with h2 | h2 <;> simp [h2]

theorem bitString_numberOf (l : List Bool) : bitString (numberOf l) l.length = l := by
  induction l using List.reverseRecOn with
  | nil => rfl
  | append_singleton l b ih =>
    rw [numberOf_snoc, List.length_append, List.length_singleton, bitString_double, ih]

theorem numberOf_lt (l : List Bool) : numberOf l < 2 ^ l.length := by
  induction l using List.reverseRecOn with
  | nil => simp [numberOf]
  | append_singleton l b ih =>
    rw [numberOf_snoc, List.length_append, List.length_singleton, pow_succ]
    cases b <;> simp <;> omega

/-! ### The writer -/

/-- The bits of the first w bytes of a memory, and the pending ones. -/
def streamOf (m : Memory Byte) (w : Nat) (acc nb : Nat) : List Bool :=
  ((List.range (8 * w)).map fun pos => (Memory.read m (pos / 8)).getLsbD (7 - pos % 8)) ++ bitString acc nb

theorem written_eq (s : State) :
    s.written = streamOf s.bs s.writer.wptr.toNat s.writer.acc.toNat s.writer.nb.toNat := rfl

/-- The bits of a whole byte, most significant first. -/
theorem bitString_byte (v : Byte) : bitString v.toNat 8 = (List.range 8).map fun q => v.getLsbD (7 - q) := by
  apply List.ext_getElem
  · simp
  · intro i h1 h2
    rw [getElem_bitString]
    simp [BitVec.getLsbD]

theorem streamOf_write {m : Memory Byte} (hm : Memory.wf m = true) (w : Nat) (v : Byte) :
    streamOf (Memory.write m w v) (w + 1) 0 0 = streamOf m w v.toNat 8 := by
  unfold streamOf
  rw [bitString_zero, List.append_nil, Nat.mul_succ, List.range_add, List.map_append]
  congr 1
  · apply List.map_congr_left
    intro p hp
    rw [List.mem_range] at hp
    rw [read_write_other (by omega) v hm]
  · rw [bitString_byte, List.map_map]
    apply List.map_congr_left
    intro q hq
    rw [List.mem_range] at hq
    have h1 : (8 * w + q) / 8 = w := by omega
    have h2 : (8 * w + q) % 8 = q := by omega
    simp only [Function.comp_apply, h1, h2, read_write_same w v hm]

/-- What one bit does to the writer, from `st` to `st'`. -/
structure WroteOne (cap : Nat) (st st' : Writer × Memory Byte) (bit : Bool) : Prop where
  stream : streamOf st'.2 st'.1.wptr.toNat st'.1.acc.toNat st'.1.nb.toNat
    = streamOf st.2 st.1.wptr.toNat st.1.acc.toNat st.1.nb.toNat ++ [bit]
  count : 8 * st'.1.wptr.toNat + st'.1.nb.toNat = 8 * st.1.wptr.toNat + st.1.nb.toNat + 1
  form : Memory.wf st'.2 = true
  pending : st'.1.acc.toNat < 2 ^ st'.1.nb.toNat
  size : within cap st.2 → within cap st'.2
  frame : ∀ j, (j < st.1.wptr.toNat ∨ st'.1.wptr.toNat ≤ j) → Memory.read st'.2 j = Memory.read st.2 j

theorem writeBit_spec {cap : Nat} (hcap : cap ≤ 2 ^ 28) {st : Writer × Memory Byte} (hm : Memory.wf st.2 = true)
    (ha : st.1.acc.toNat < 2 ^ st.1.nb.toNat) (hr : st.1.wptr.toNat + (st.1.nb.toNat + 1) / 8 ≤ cap) (bit : Bool) :
    WroteOne cap st (writeBit st bit) bit := by
  obtain ⟨⟨w, acc, nb⟩, m⟩ := st
  simp only at hm ha hr
  have hnb := nb.isLt
  have hb : bit.toNat ≤ 1 := Bool.toNat_le bit
  unfold writeBit
  by_cases h7 : nb = 7
  · have hn : nb.toNat = 7 := by rw [h7]; rfl
    have ha8 : 2 * acc.toNat + bit.toNat < 256 := by rw [hn] at ha; omega
    have hw : w.toNat + 1 ≤ cap := by omega
    have hw1 : (w + 1).toNat = w.toNat + 1 := by
      rw [BitVec.toNat_add]; simp; omega
    simp only [h7, if_true]
    have hacc : (BitVec.ofNat 8 (2 * acc.toNat + bit.toNat)).toNat = 2 * acc.toNat + bit.toNat := by
      rw [BitVec.toNat_ofNat]; omega
    refine ⟨?_, ?_, wf_write _ _ hm, ?_, fun h => within_write _ (by omega) h, ?_⟩
    · have h0 : (0 : Byte).toNat = 0 := rfl
      have h0' : (0 : BitVec 3).toNat = 0 := rfl
      have h7' : (7 : BitVec 3).toNat = 7 := rfl
      simp only [hw1, h0, h0', h7']
      rw [streamOf_write hm, hacc]
      unfold streamOf
      rw [bitString_double, List.append_assoc]
    · simp only [hw1]
      simp
      omega
    · simp
    · intro j hj
      simp only [hw1] at hj
      exact read_write_other (by omega) _ hm
  · have hn : nb.toNat < 7 := by
      have : nb.toNat ≠ 7 := fun h => h7 (BitVec.eq_of_toNat_eq (by rw [h]; rfl))
      omega
    have hp : 2 ^ nb.toNat ≤ 2 ^ 6 := Nat.pow_le_pow_right (by norm_num) (by omega)
    have hacc : (BitVec.ofNat 8 (2 * acc.toNat + bit.toNat)).toNat = 2 * acc.toNat + bit.toNat := by
      rw [BitVec.toNat_ofNat]; omega
    have hnb1 : (nb + 1).toNat = nb.toNat + 1 := by
      rw [BitVec.toNat_add]; simp; omega
    simp only [h7, if_false]
    refine ⟨?_, ?_, hm, ?_, fun h => h, fun j _ => rfl⟩
    · simp only [hacc, hnb1]
      unfold streamOf
      rw [bitString_double, List.append_assoc]
    · simp only [hnb1]
      omega
    · simp only [hacc, hnb1, pow_succ]
      omega

/-- What a bit-string does to the writer. -/
structure WroteAll (cap : Nat) (st st' : Writer × Memory Byte) (bits : List Bool) : Prop where
  stream : streamOf st'.2 st'.1.wptr.toNat st'.1.acc.toNat st'.1.nb.toNat
    = streamOf st.2 st.1.wptr.toNat st.1.acc.toNat st.1.nb.toNat ++ bits
  count : 8 * st'.1.wptr.toNat + st'.1.nb.toNat = 8 * st.1.wptr.toNat + st.1.nb.toNat + bits.length
  form : Memory.wf st'.2 = true
  pending : st'.1.acc.toNat < 2 ^ st'.1.nb.toNat
  size : within cap st.2 → within cap st'.2
  frame : ∀ j, (j < st.1.wptr.toNat ∨ st'.1.wptr.toNat ≤ j) → Memory.read st'.2 j = Memory.read st.2 j

theorem writeBits_spec {cap : Nat} (hcap : cap ≤ 2 ^ 28) : ∀ (bits : List Bool) {st : Writer × Memory Byte},
    Memory.wf st.2 = true → st.1.acc.toNat < 2 ^ st.1.nb.toNat →
    st.1.wptr.toNat + (st.1.nb.toNat + bits.length) / 8 ≤ cap → WroteAll cap st (bits.foldl writeBit st) bits
  | [], st, hm, ha, _ => ⟨by simp, by simp, hm, ha, fun h => h, fun _ _ => rfl⟩
  | b :: bits, st, hm, ha, hr => by
    simp only [List.length_cons] at hr
    have h1 := writeBit_spec hcap hm ha (by omega) b
    have hnb := st.1.nb.isLt
    have hnb' := (writeBit st b).1.nb.isLt
    have hc1 := h1.count
    have h2 := writeBits_spec hcap bits h1.form h1.pending (by omega)
    have hc2 := h2.count
    have hnb'' := (bits.foldl writeBit (writeBit st b)).1.nb.isLt
    refine ⟨?_, ?_, h2.form, h2.pending, fun h => h2.size (h1.size h), ?_⟩
    · rw [List.foldl_cons, h2.stream, h1.stream, List.append_assoc, List.singleton_append]
    · rw [List.foldl_cons, hc2, hc1, List.length_cons]; omega
    · intro j hj
      rw [List.foldl_cons] at hj ⊢
      rw [h2.frame j (by omega), h1.frame j (by omega)]

/-- BitWrite with room (R110): the registers, the stream, the bytes kept. -/
theorem bitWrite_spec {s : State} {bits : List Bool} (hcap : s.cfg.bsCap ≤ 2 ^ 28) (hm : Memory.wf s.bs = true)
    (ha : s.writer.acc.toNat < 2 ^ s.writer.nb.toNat) (hr : s.roomFor bits) :
    ∃ w m, s.bitWrite bits = .ok { s with writer := w, bs := m } ∧ WroteAll s.cfg.bsCap (s.writer, s.bs) (w, m) bits := by
  have h := writeBits_spec hcap bits (st := (s.writer, s.bs)) hm ha hr
  refine ⟨_, _, ?_, h⟩
  unfold State.bitWrite
  rw [if_neg (by unfold State.roomFor at hr; omega)]

/-- BitWrite without room changes nothing (R110). -/
theorem bitWrite_full {s : State} {bits : List Bool} (hr : ¬s.roomFor bits) :
    s.bitWrite bits = raised .bsOverflow s.writer.wptr.toNat := by
  unfold State.bitWrite State.roomFor at *
  rw [if_pos (by omega)]

/-- BitWrite with room, in the terms of the claims. -/
theorem bitWrite_appends {s : State} {bits : List Bool} (hcap : s.cfg.bsCap ≤ 2 ^ 28) (hm : Memory.wf s.bs = true)
    (ha : s.writer.acc.toNat < 2 ^ s.writer.nb.toNat) (hr : s.roomFor bits) :
    ∃ m acc, settle s (s.bitWrite bits) = .next (s.appended bits m acc)
      ∧ (s.appended bits m acc).written = s.written ++ bits
      ∧ ∀ j, (j < s.writer.wptr.toNat ∨ s.writer.wptr.toNat + (s.writer.nb.toNat + bits.length) / 8 ≤ j) →
          Memory.read m j = Memory.read s.bs j := by
  obtain ⟨w, m, hok, h⟩ := bitWrite_spec hcap hm ha hr
  have hc := h.count
  simp only at hc
  have hw := w.nb.isLt
  have hs := s.writer.nb.isLt
  unfold State.roomFor at hr
  have e1 : w.wptr.toNat = s.writer.wptr.toNat + (s.writer.nb.toNat + bits.length) / 8 := by omega
  have e2 : w.nb.toNat = (s.writer.nb.toNat + bits.length) % 8 := by omega
  have ew : w = ⟨BitVec.ofNat 32 (s.writer.wptr.toNat + (s.writer.nb.toNat + bits.length) / 8), w.acc,
      BitVec.ofNat 3 ((s.writer.nb.toNat + bits.length) % 8)⟩ := by
    cases w with
    | mk p a n =>
      simp only [Writer.mk.injEq, true_and]
      simp only at e1 e2
      rw [← e1, ← e2]
      simp
  have hst : s.appended bits m w.acc = { s with writer := w, bs := m, status := finished s.status } := by
    unfold State.appended
    simp only
    rw [← ew]
  refine ⟨m, w.acc, ?_, ?_, ?_⟩
  · rw [hok, hst]; rfl
  · rw [hst, written_eq, written_eq]; exact h.stream
  · intro j hj
    exact h.frame j (by simp only [e1]; exact hj)

end Sys2Proof.Machine
end

