-- ==== Sys2Proof/Laws/State.lean ====
section
/-! SUPPORT. What each named update of the state leaves in each field, one lemma a field, each true by unfolding. -/

namespace Sys2Proof.Machine

variable (s : State)

/-! ### enterError -/

@[simp] theorem State.enterError_cfg (e : Raised) : (s.enterError e).cfg = s.cfg := rfl
@[simp] theorem State.enterError_ctrl (e : Raised) : (s.enterError e).ctrl = s.ctrl := rfl
@[simp] theorem State.enterError_status (e : Raised) :
    (s.enterError e).status = { s.status with err := true, errCode := errCodeOf e.kind, busy := false } := rfl
@[simp] theorem State.enterError_cmd (e : Raised) : (s.enterError e).cmd = s.cmd := rfl
@[simp] theorem State.enterError_arg0 (e : Raised) : (s.enterError e).arg0 = s.arg0 := rfl
@[simp] theorem State.enterError_arg1 (e : Raised) : (s.enterError e).arg1 = s.arg1 := rfl
@[simp] theorem State.enterError_result (e : Raised) : (s.enterError e).result = s.result := rfl
@[simp] theorem State.enterError_imgW (e : Raised) : (s.enterError e).imgW = s.imgW := rfl
@[simp] theorem State.enterError_imgH (e : Raised) : (s.enterError e).imgH = s.imgH := rfl
@[simp] theorem State.enterError_errInfo (e : Raised) : (s.enterError e).errInfo = e.info := rfl
@[simp] theorem State.enterError_writer (e : Raised) : (s.enterError e).writer = s.writer := rfl
@[simp] theorem State.enterError_reader (e : Raised) : (s.enterError e).reader = s.reader := rfl
@[simp] theorem State.enterError_bsLen (e : Raised) : (s.enterError e).bsLen = s.bsLen := rfl
@[simp] theorem State.enterError_rleLen (e : Raised) : (s.enterError e).rleLen = s.rleLen := rfl
@[simp] theorem State.enterError_fblk (e : Raised) : (s.enterError e).fblk = s.fblk := rfl
@[simp] theorem State.enterError_iblk (e : Raised) : (s.enterError e).iblk = s.iblk := rfl
@[simp] theorem State.enterError_vec (e : Raised) : (s.enterError e).vec = s.vec := rfl
@[simp] theorem State.enterError_rlebuf (e : Raised) : (s.enterError e).rlebuf = s.rlebuf := rfl
@[simp] theorem State.enterError_rgb (e : Raised) : (s.enterError e).rgb = s.rgb := rfl
@[simp] theorem State.enterError_ycc (e : Raised) : (s.enterError e).ycc = s.ycc := rfl
@[simp] theorem State.enterError_coef (e : Raised) : (s.enterError e).coef = s.coef := rfl
@[simp] theorem State.enterError_bs (e : Raised) : (s.enterError e).bs = s.bs := rfl
@[simp] theorem State.enterError_host (e : Raised) : (s.enterError e).host = s.host := rfl
@[simp] theorem State.enterError_response (e : Raised) : (s.enterError e).response = s.response := rfl
@[simp] theorem State.enterError_free (e : Raised) : (s.enterError e).free = s.free := rfl

/-! ### clearError -/

@[simp] theorem State.clearError_cfg : (s.clearError).cfg = s.cfg := rfl
@[simp] theorem State.clearError_ctrl : (s.clearError).ctrl = s.ctrl := rfl
@[simp] theorem State.clearError_status : (s.clearError).status = { s.status with err := false, errCode := 0 } := rfl
@[simp] theorem State.clearError_cmd : (s.clearError).cmd = s.cmd := rfl
@[simp] theorem State.clearError_arg0 : (s.clearError).arg0 = s.arg0 := rfl
@[simp] theorem State.clearError_arg1 : (s.clearError).arg1 = s.arg1 := rfl
@[simp] theorem State.clearError_result : (s.clearError).result = s.result := rfl
@[simp] theorem State.clearError_imgW : (s.clearError).imgW = s.imgW := rfl
@[simp] theorem State.clearError_imgH : (s.clearError).imgH = s.imgH := rfl
@[simp] theorem State.clearError_errInfo : (s.clearError).errInfo = 0 := rfl
@[simp] theorem State.clearError_writer : (s.clearError).writer = s.writer := rfl
@[simp] theorem State.clearError_reader : (s.clearError).reader = s.reader := rfl
@[simp] theorem State.clearError_bsLen : (s.clearError).bsLen = s.bsLen := rfl
@[simp] theorem State.clearError_rleLen : (s.clearError).rleLen = s.rleLen := rfl
@[simp] theorem State.clearError_fblk : (s.clearError).fblk = s.fblk := rfl
@[simp] theorem State.clearError_iblk : (s.clearError).iblk = s.iblk := rfl
@[simp] theorem State.clearError_vec : (s.clearError).vec = s.vec := rfl
@[simp] theorem State.clearError_rlebuf : (s.clearError).rlebuf = s.rlebuf := rfl
@[simp] theorem State.clearError_rgb : (s.clearError).rgb = s.rgb := rfl
@[simp] theorem State.clearError_ycc : (s.clearError).ycc = s.ycc := rfl
@[simp] theorem State.clearError_coef : (s.clearError).coef = s.coef := rfl
@[simp] theorem State.clearError_bs : (s.clearError).bs = s.bs := rfl
@[simp] theorem State.clearError_host : (s.clearError).host = s.host := rfl
@[simp] theorem State.clearError_response : (s.clearError).response = s.response := rfl
@[simp] theorem State.clearError_free : (s.clearError).free = s.free := rfl

/-! ### complete -/

@[simp] theorem State.complete_cfg : (s.complete).cfg = s.cfg := rfl
@[simp] theorem State.complete_ctrl : (s.complete).ctrl = s.ctrl := rfl
@[simp] theorem State.complete_status : (s.complete).status = { s.status with done := true, busy := false } := rfl
@[simp] theorem State.complete_cmd : (s.complete).cmd = s.cmd := rfl
@[simp] theorem State.complete_arg0 : (s.complete).arg0 = s.arg0 := rfl
@[simp] theorem State.complete_arg1 : (s.complete).arg1 = s.arg1 := rfl
@[simp] theorem State.complete_result : (s.complete).result = s.result := rfl
@[simp] theorem State.complete_imgW : (s.complete).imgW = s.imgW := rfl
@[simp] theorem State.complete_imgH : (s.complete).imgH = s.imgH := rfl
@[simp] theorem State.complete_errInfo : (s.complete).errInfo = s.errInfo := rfl
@[simp] theorem State.complete_writer : (s.complete).writer = s.writer := rfl
@[simp] theorem State.complete_reader : (s.complete).reader = s.reader := rfl
@[simp] theorem State.complete_bsLen : (s.complete).bsLen = s.bsLen := rfl
@[simp] theorem State.complete_rleLen : (s.complete).rleLen = s.rleLen := rfl
@[simp] theorem State.complete_fblk : (s.complete).fblk = s.fblk := rfl
@[simp] theorem State.complete_iblk : (s.complete).iblk = s.iblk := rfl
@[simp] theorem State.complete_vec : (s.complete).vec = s.vec := rfl
@[simp] theorem State.complete_rlebuf : (s.complete).rlebuf = s.rlebuf := rfl
@[simp] theorem State.complete_rgb : (s.complete).rgb = s.rgb := rfl
@[simp] theorem State.complete_ycc : (s.complete).ycc = s.ycc := rfl
@[simp] theorem State.complete_coef : (s.complete).coef = s.coef := rfl
@[simp] theorem State.complete_bs : (s.complete).bs = s.bs := rfl
@[simp] theorem State.complete_host : (s.complete).host = s.host := rfl
@[simp] theorem State.complete_response : (s.complete).response = s.response := rfl
@[simp] theorem State.complete_free : (s.complete).free = s.free := rfl

/-! ### clearDone -/

@[simp] theorem State.clearDone_cfg (b : Bool) : (s.clearDone b).cfg = s.cfg := rfl
@[simp] theorem State.clearDone_ctrl (b : Bool) : (s.clearDone b).ctrl = s.ctrl := rfl
@[simp] theorem State.clearDone_status (b : Bool) :
    (s.clearDone b).status = { s.status with done := s.status.done && !b } := rfl
@[simp] theorem State.clearDone_cmd (b : Bool) : (s.clearDone b).cmd = s.cmd := rfl
@[simp] theorem State.clearDone_arg0 (b : Bool) : (s.clearDone b).arg0 = s.arg0 := rfl
@[simp] theorem State.clearDone_arg1 (b : Bool) : (s.clearDone b).arg1 = s.arg1 := rfl
@[simp] theorem State.clearDone_result (b : Bool) : (s.clearDone b).result = s.result := rfl
@[simp] theorem State.clearDone_imgW (b : Bool) : (s.clearDone b).imgW = s.imgW := rfl
@[simp] theorem State.clearDone_imgH (b : Bool) : (s.clearDone b).imgH = s.imgH := rfl
@[simp] theorem State.clearDone_errInfo (b : Bool) : (s.clearDone b).errInfo = s.errInfo := rfl
@[simp] theorem State.clearDone_writer (b : Bool) : (s.clearDone b).writer = s.writer := rfl
@[simp] theorem State.clearDone_reader (b : Bool) : (s.clearDone b).reader = s.reader := rfl
@[simp] theorem State.clearDone_bsLen (b : Bool) : (s.clearDone b).bsLen = s.bsLen := rfl
@[simp] theorem State.clearDone_rleLen (b : Bool) : (s.clearDone b).rleLen = s.rleLen := rfl
@[simp] theorem State.clearDone_fblk (b : Bool) : (s.clearDone b).fblk = s.fblk := rfl
@[simp] theorem State.clearDone_iblk (b : Bool) : (s.clearDone b).iblk = s.iblk := rfl
@[simp] theorem State.clearDone_vec (b : Bool) : (s.clearDone b).vec = s.vec := rfl
@[simp] theorem State.clearDone_rlebuf (b : Bool) : (s.clearDone b).rlebuf = s.rlebuf := rfl
@[simp] theorem State.clearDone_rgb (b : Bool) : (s.clearDone b).rgb = s.rgb := rfl
@[simp] theorem State.clearDone_ycc (b : Bool) : (s.clearDone b).ycc = s.ycc := rfl
@[simp] theorem State.clearDone_coef (b : Bool) : (s.clearDone b).coef = s.coef := rfl
@[simp] theorem State.clearDone_bs (b : Bool) : (s.clearDone b).bs = s.bs := rfl
@[simp] theorem State.clearDone_host (b : Bool) : (s.clearDone b).host = s.host := rfl
@[simp] theorem State.clearDone_response (b : Bool) : (s.clearDone b).response = s.response := rfl
@[simp] theorem State.clearDone_free (b : Bool) : (s.clearDone b).free = s.free := rfl

/-! ### clearDropped -/

@[simp] theorem State.clearDropped_cfg (b : Bool) : (s.clearDropped b).cfg = s.cfg := rfl
@[simp] theorem State.clearDropped_ctrl (b : Bool) : (s.clearDropped b).ctrl = s.ctrl := rfl
@[simp] theorem State.clearDropped_status (b : Bool) :
    (s.clearDropped b).status = { s.status with dropped := s.status.dropped && !b } := rfl
@[simp] theorem State.clearDropped_cmd (b : Bool) : (s.clearDropped b).cmd = s.cmd := rfl
@[simp] theorem State.clearDropped_arg0 (b : Bool) : (s.clearDropped b).arg0 = s.arg0 := rfl
@[simp] theorem State.clearDropped_arg1 (b : Bool) : (s.clearDropped b).arg1 = s.arg1 := rfl
@[simp] theorem State.clearDropped_result (b : Bool) : (s.clearDropped b).result = s.result := rfl
@[simp] theorem State.clearDropped_imgW (b : Bool) : (s.clearDropped b).imgW = s.imgW := rfl
@[simp] theorem State.clearDropped_imgH (b : Bool) : (s.clearDropped b).imgH = s.imgH := rfl
@[simp] theorem State.clearDropped_errInfo (b : Bool) : (s.clearDropped b).errInfo = s.errInfo := rfl
@[simp] theorem State.clearDropped_writer (b : Bool) : (s.clearDropped b).writer = s.writer := rfl
@[simp] theorem State.clearDropped_reader (b : Bool) : (s.clearDropped b).reader = s.reader := rfl
@[simp] theorem State.clearDropped_bsLen (b : Bool) : (s.clearDropped b).bsLen = s.bsLen := rfl
@[simp] theorem State.clearDropped_rleLen (b : Bool) : (s.clearDropped b).rleLen = s.rleLen := rfl
@[simp] theorem State.clearDropped_fblk (b : Bool) : (s.clearDropped b).fblk = s.fblk := rfl
@[simp] theorem State.clearDropped_iblk (b : Bool) : (s.clearDropped b).iblk = s.iblk := rfl
@[simp] theorem State.clearDropped_vec (b : Bool) : (s.clearDropped b).vec = s.vec := rfl
@[simp] theorem State.clearDropped_rlebuf (b : Bool) : (s.clearDropped b).rlebuf = s.rlebuf := rfl
@[simp] theorem State.clearDropped_rgb (b : Bool) : (s.clearDropped b).rgb = s.rgb := rfl
@[simp] theorem State.clearDropped_ycc (b : Bool) : (s.clearDropped b).ycc = s.ycc := rfl
@[simp] theorem State.clearDropped_coef (b : Bool) : (s.clearDropped b).coef = s.coef := rfl
@[simp] theorem State.clearDropped_bs (b : Bool) : (s.clearDropped b).bs = s.bs := rfl
@[simp] theorem State.clearDropped_host (b : Bool) : (s.clearDropped b).host = s.host := rfl
@[simp] theorem State.clearDropped_response (b : Bool) : (s.clearDropped b).response = s.response := rfl
@[simp] theorem State.clearDropped_free (b : Bool) : (s.clearDropped b).free = s.free := rfl

/-! ### dropWrite -/

@[simp] theorem State.dropWrite_cfg : (s.dropWrite).cfg = s.cfg := rfl
@[simp] theorem State.dropWrite_ctrl : (s.dropWrite).ctrl = s.ctrl := rfl
@[simp] theorem State.dropWrite_status : (s.dropWrite).status = { s.status with dropped := true } := rfl
@[simp] theorem State.dropWrite_cmd : (s.dropWrite).cmd = s.cmd := rfl
@[simp] theorem State.dropWrite_arg0 : (s.dropWrite).arg0 = s.arg0 := rfl
@[simp] theorem State.dropWrite_arg1 : (s.dropWrite).arg1 = s.arg1 := rfl
@[simp] theorem State.dropWrite_result : (s.dropWrite).result = s.result := rfl
@[simp] theorem State.dropWrite_imgW : (s.dropWrite).imgW = s.imgW := rfl
@[simp] theorem State.dropWrite_imgH : (s.dropWrite).imgH = s.imgH := rfl
@[simp] theorem State.dropWrite_errInfo : (s.dropWrite).errInfo = s.errInfo := rfl
@[simp] theorem State.dropWrite_writer : (s.dropWrite).writer = s.writer := rfl
@[simp] theorem State.dropWrite_reader : (s.dropWrite).reader = s.reader := rfl
@[simp] theorem State.dropWrite_bsLen : (s.dropWrite).bsLen = s.bsLen := rfl
@[simp] theorem State.dropWrite_rleLen : (s.dropWrite).rleLen = s.rleLen := rfl
@[simp] theorem State.dropWrite_fblk : (s.dropWrite).fblk = s.fblk := rfl
@[simp] theorem State.dropWrite_iblk : (s.dropWrite).iblk = s.iblk := rfl
@[simp] theorem State.dropWrite_vec : (s.dropWrite).vec = s.vec := rfl
@[simp] theorem State.dropWrite_rlebuf : (s.dropWrite).rlebuf = s.rlebuf := rfl
@[simp] theorem State.dropWrite_rgb : (s.dropWrite).rgb = s.rgb := rfl
@[simp] theorem State.dropWrite_ycc : (s.dropWrite).ycc = s.ycc := rfl
@[simp] theorem State.dropWrite_coef : (s.dropWrite).coef = s.coef := rfl
@[simp] theorem State.dropWrite_bs : (s.dropWrite).bs = s.bs := rfl
@[simp] theorem State.dropWrite_host : (s.dropWrite).host = s.host := rfl
@[simp] theorem State.dropWrite_response : (s.dropWrite).response = s.response := rfl
@[simp] theorem State.dropWrite_free : (s.dropWrite).free = s.free := rfl

/-! ### acceptCmd -/

@[simp] theorem State.acceptCmd_cfg (w : Word) : (s.acceptCmd w).cfg = s.cfg := rfl
@[simp] theorem State.acceptCmd_ctrl (w : Word) : (s.acceptCmd w).ctrl = s.ctrl := rfl
@[simp] theorem State.acceptCmd_status (w : Word) :
    (s.acceptCmd w).status = { s.status with done := false, busy := true } := rfl
@[simp] theorem State.acceptCmd_cmd (w : Word) : (s.acceptCmd w).cmd = w := rfl
@[simp] theorem State.acceptCmd_arg0 (w : Word) : (s.acceptCmd w).arg0 = s.arg0 := rfl
@[simp] theorem State.acceptCmd_arg1 (w : Word) : (s.acceptCmd w).arg1 = s.arg1 := rfl
@[simp] theorem State.acceptCmd_result (w : Word) : (s.acceptCmd w).result = s.result := rfl
@[simp] theorem State.acceptCmd_imgW (w : Word) : (s.acceptCmd w).imgW = s.imgW := rfl
@[simp] theorem State.acceptCmd_imgH (w : Word) : (s.acceptCmd w).imgH = s.imgH := rfl
@[simp] theorem State.acceptCmd_errInfo (w : Word) : (s.acceptCmd w).errInfo = s.errInfo := rfl
@[simp] theorem State.acceptCmd_writer (w : Word) : (s.acceptCmd w).writer = s.writer := rfl
@[simp] theorem State.acceptCmd_reader (w : Word) : (s.acceptCmd w).reader = s.reader := rfl
@[simp] theorem State.acceptCmd_bsLen (w : Word) : (s.acceptCmd w).bsLen = s.bsLen := rfl
@[simp] theorem State.acceptCmd_rleLen (w : Word) : (s.acceptCmd w).rleLen = s.rleLen := rfl
@[simp] theorem State.acceptCmd_fblk (w : Word) : (s.acceptCmd w).fblk = s.fblk := rfl
@[simp] theorem State.acceptCmd_iblk (w : Word) : (s.acceptCmd w).iblk = s.iblk := rfl
@[simp] theorem State.acceptCmd_vec (w : Word) : (s.acceptCmd w).vec = s.vec := rfl
@[simp] theorem State.acceptCmd_rlebuf (w : Word) : (s.acceptCmd w).rlebuf = s.rlebuf := rfl
@[simp] theorem State.acceptCmd_rgb (w : Word) : (s.acceptCmd w).rgb = s.rgb := rfl
@[simp] theorem State.acceptCmd_ycc (w : Word) : (s.acceptCmd w).ycc = s.ycc := rfl
@[simp] theorem State.acceptCmd_coef (w : Word) : (s.acceptCmd w).coef = s.coef := rfl
@[simp] theorem State.acceptCmd_bs (w : Word) : (s.acceptCmd w).bs = s.bs := rfl
@[simp] theorem State.acceptCmd_host (w : Word) : (s.acceptCmd w).host = s.host := rfl
@[simp] theorem State.acceptCmd_response (w : Word) : (s.acceptCmd w).response = s.response := rfl
@[simp] theorem State.acceptCmd_free (w : Word) : (s.acceptCmd w).free = s.free := rfl

/-! ### setReadPos -/

@[simp] theorem State.setReadPos_cfg (pos : Nat) : (s.setReadPos pos).cfg = s.cfg := rfl
@[simp] theorem State.setReadPos_ctrl (pos : Nat) : (s.setReadPos pos).ctrl = s.ctrl := rfl
@[simp] theorem State.setReadPos_status (pos : Nat) : (s.setReadPos pos).status = s.status := rfl
@[simp] theorem State.setReadPos_cmd (pos : Nat) : (s.setReadPos pos).cmd = s.cmd := rfl
@[simp] theorem State.setReadPos_arg0 (pos : Nat) : (s.setReadPos pos).arg0 = s.arg0 := rfl
@[simp] theorem State.setReadPos_arg1 (pos : Nat) : (s.setReadPos pos).arg1 = s.arg1 := rfl
@[simp] theorem State.setReadPos_result (pos : Nat) : (s.setReadPos pos).result = s.result := rfl
@[simp] theorem State.setReadPos_imgW (pos : Nat) : (s.setReadPos pos).imgW = s.imgW := rfl
@[simp] theorem State.setReadPos_imgH (pos : Nat) : (s.setReadPos pos).imgH = s.imgH := rfl
@[simp] theorem State.setReadPos_errInfo (pos : Nat) : (s.setReadPos pos).errInfo = s.errInfo := rfl
@[simp] theorem State.setReadPos_writer (pos : Nat) : (s.setReadPos pos).writer = s.writer := rfl
@[simp] theorem State.setReadPos_reader (pos : Nat) :
    (s.setReadPos pos).reader = ⟨BitVec.ofNat 32 (pos / 8), BitVec.ofNat 3 (pos % 8)⟩ := rfl
@[simp] theorem State.setReadPos_bsLen (pos : Nat) : (s.setReadPos pos).bsLen = s.bsLen := rfl
@[simp] theorem State.setReadPos_rleLen (pos : Nat) : (s.setReadPos pos).rleLen = s.rleLen := rfl
@[simp] theorem State.setReadPos_fblk (pos : Nat) : (s.setReadPos pos).fblk = s.fblk := rfl
@[simp] theorem State.setReadPos_iblk (pos : Nat) : (s.setReadPos pos).iblk = s.iblk := rfl
@[simp] theorem State.setReadPos_vec (pos : Nat) : (s.setReadPos pos).vec = s.vec := rfl
@[simp] theorem State.setReadPos_rlebuf (pos : Nat) : (s.setReadPos pos).rlebuf = s.rlebuf := rfl
@[simp] theorem State.setReadPos_rgb (pos : Nat) : (s.setReadPos pos).rgb = s.rgb := rfl
@[simp] theorem State.setReadPos_ycc (pos : Nat) : (s.setReadPos pos).ycc = s.ycc := rfl
@[simp] theorem State.setReadPos_coef (pos : Nat) : (s.setReadPos pos).coef = s.coef := rfl
@[simp] theorem State.setReadPos_bs (pos : Nat) : (s.setReadPos pos).bs = s.bs := rfl
@[simp] theorem State.setReadPos_host (pos : Nat) : (s.setReadPos pos).host = s.host := rfl
@[simp] theorem State.setReadPos_response (pos : Nat) : (s.setReadPos pos).response = s.response := rfl
@[simp] theorem State.setReadPos_free (pos : Nat) : (s.setReadPos pos).free = s.free := rfl

/-! ### setSymbols -/

@[simp] theorem State.setSymbols_cfg (out : List Symbol) : (s.setSymbols out).cfg = s.cfg := rfl
@[simp] theorem State.setSymbols_ctrl (out : List Symbol) : (s.setSymbols out).ctrl = s.ctrl := rfl
@[simp] theorem State.setSymbols_status (out : List Symbol) : (s.setSymbols out).status = s.status := rfl
@[simp] theorem State.setSymbols_cmd (out : List Symbol) : (s.setSymbols out).cmd = s.cmd := rfl
@[simp] theorem State.setSymbols_arg0 (out : List Symbol) : (s.setSymbols out).arg0 = s.arg0 := rfl
@[simp] theorem State.setSymbols_arg1 (out : List Symbol) : (s.setSymbols out).arg1 = s.arg1 := rfl
@[simp] theorem State.setSymbols_result (out : List Symbol) : (s.setSymbols out).result = s.result := rfl
@[simp] theorem State.setSymbols_imgW (out : List Symbol) : (s.setSymbols out).imgW = s.imgW := rfl
@[simp] theorem State.setSymbols_imgH (out : List Symbol) : (s.setSymbols out).imgH = s.imgH := rfl
@[simp] theorem State.setSymbols_errInfo (out : List Symbol) : (s.setSymbols out).errInfo = s.errInfo := rfl
@[simp] theorem State.setSymbols_writer (out : List Symbol) : (s.setSymbols out).writer = s.writer := rfl
@[simp] theorem State.setSymbols_reader (out : List Symbol) : (s.setSymbols out).reader = s.reader := rfl
@[simp] theorem State.setSymbols_bsLen (out : List Symbol) : (s.setSymbols out).bsLen = s.bsLen := rfl
@[simp] theorem State.setSymbols_rleLen (out : List Symbol) :
    (s.setSymbols out).rleLen = BitVec.ofNat 7 out.length := rfl
@[simp] theorem State.setSymbols_fblk (out : List Symbol) : (s.setSymbols out).fblk = s.fblk := rfl
@[simp] theorem State.setSymbols_iblk (out : List Symbol) : (s.setSymbols out).iblk = s.iblk := rfl
@[simp] theorem State.setSymbols_vec (out : List Symbol) : (s.setSymbols out).vec = s.vec := rfl
@[simp] theorem State.setSymbols_rlebuf (out : List Symbol) :
    (s.setSymbols out).rlebuf = blockOf fun i => if i < out.length then out.getD i default else nth s.rlebuf i := rfl
@[simp] theorem State.setSymbols_rgb (out : List Symbol) : (s.setSymbols out).rgb = s.rgb := rfl
@[simp] theorem State.setSymbols_ycc (out : List Symbol) : (s.setSymbols out).ycc = s.ycc := rfl
@[simp] theorem State.setSymbols_coef (out : List Symbol) : (s.setSymbols out).coef = s.coef := rfl
@[simp] theorem State.setSymbols_bs (out : List Symbol) : (s.setSymbols out).bs = s.bs := rfl
@[simp] theorem State.setSymbols_host (out : List Symbol) : (s.setSymbols out).host = s.host := rfl
@[simp] theorem State.setSymbols_response (out : List Symbol) : (s.setSymbols out).response = s.response := rfl
@[simp] theorem State.setSymbols_free (out : List Symbol) : (s.setSymbols out).free = s.free := rfl

/-! ### softReset -/

@[simp] theorem State.softReset_cfg : (s.softReset).cfg = s.cfg := rfl
@[simp] theorem State.softReset_ctrl : (s.softReset).ctrl = ⟨false, false⟩ := rfl
@[simp] theorem State.softReset_status : (s.softReset).status = ⟨false, false, false, false, 0⟩ := rfl
@[simp] theorem State.softReset_cmd : (s.softReset).cmd = 0 := rfl
@[simp] theorem State.softReset_arg0 : (s.softReset).arg0 = 0 := rfl
@[simp] theorem State.softReset_arg1 : (s.softReset).arg1 = 0 := rfl
@[simp] theorem State.softReset_result : (s.softReset).result = 0 := rfl
@[simp] theorem State.softReset_imgW : (s.softReset).imgW = 0 := rfl
@[simp] theorem State.softReset_imgH : (s.softReset).imgH = 0 := rfl
@[simp] theorem State.softReset_errInfo : (s.softReset).errInfo = 0 := rfl
@[simp] theorem State.softReset_writer : (s.softReset).writer = ⟨0, 0, 0⟩ := rfl
@[simp] theorem State.softReset_reader : (s.softReset).reader = ⟨0, 0⟩ := rfl
@[simp] theorem State.softReset_bsLen : (s.softReset).bsLen = 0 := rfl
@[simp] theorem State.softReset_rleLen : (s.softReset).rleLen = 0 := rfl
@[simp] theorem State.softReset_fblk : (s.softReset).fblk = s.fblk := rfl
@[simp] theorem State.softReset_iblk : (s.softReset).iblk = s.iblk := rfl
@[simp] theorem State.softReset_vec : (s.softReset).vec = s.vec := rfl
@[simp] theorem State.softReset_rlebuf : (s.softReset).rlebuf = s.rlebuf := rfl
@[simp] theorem State.softReset_rgb : (s.softReset).rgb = s.rgb := rfl
@[simp] theorem State.softReset_ycc : (s.softReset).ycc = s.ycc := rfl
@[simp] theorem State.softReset_coef : (s.softReset).coef = s.coef := rfl
@[simp] theorem State.softReset_bs : (s.softReset).bs = s.bs := rfl
@[simp] theorem State.softReset_host : (s.softReset).host = s.host := rfl
@[simp] theorem State.softReset_response : (s.softReset).response = s.response := rfl
@[simp] theorem State.softReset_free : (s.softReset).free = s.free := rfl

end Sys2Proof.Machine
end

