-- ==== Sys2Proof/Laws/Bus.lean ====
section
/-! SUPPORT. The laws of a host transaction: how a step takes one, and what an open, a closed and a dropped access do
(spec/20_memory.md R120, R125, R128; 10_state.md R54). -/

namespace Sys2Proof.Machine

theorem step_read {s : State} {a : Word} {rest : List HostAction} (h : s.host = .read a :: rest) :
    step s = .next ({ s with host := rest }.busRead a) := by
  simp only [step, h]

theorem step_write {s : State} {a w : Word} {rest : List HostAction} (h : s.host = .write a w :: rest) :
    step s = .next ({ s with host := rest }.busWrite a w) := by
  simp only [step, h]

theorem step_pass {s : State} {rest : List HostAction} (h : s.host = .pass :: rest) :
    step s = coreTurn { s with host := rest } := by
  simp only [step, h]

theorem step_nil {s : State} (h : s.host = []) : step s = coreTurn s := by
  simp only [step, h]

/-- An access that is served. -/
theorem busRead_open {s : State} {a : Word} {t : Target} (ht : targetOf s.cfg a.toNat = t)
    (ho : s.status.busy = false ∨ openToRead t = true) :
    s.busRead a = { s with response := some (.read (s.valueAt t) (busErr t)) } := by
  unfold State.busRead
  rw [ht]
  rcases ho with h | h <;> simp [h]

/-- A read while BUSY = 1 of a target that is closed then (10_state.md R54). -/
theorem busRead_closed {s : State} {a : Word} {t : Target} (ht : targetOf s.cfg a.toNat = t) (hb : s.status.busy = true)
    (ho : openToRead t = false) :
    s.busRead a = { s with response := some (.read (Config.busyData s.free) (busErr t)), free := s.free + 1 } := by
  unfold State.busRead
  rw [ht]
  simp [hb, ho]

theorem busWrite_open {s : State} {a w : Word} {t : Target} (ht : targetOf s.cfg a.toNat = t)
    (ho : s.status.busy = false ∨ openToWrite t = true) :
    s.busWrite a w = { s.writeAt w t with response := some (.write (busErr t)) } := by
  unfold State.busWrite
  rw [ht]
  rcases ho with h | h <;> simp [h]

/-- A write that is dropped (10_state.md R54). -/
theorem busWrite_dropped {s : State} {a w : Word} {t : Target} (ht : targetOf s.cfg a.toNat = t)
    (hb : s.status.busy = true) (ho : openToWrite t = false) :
    s.busWrite a w = { s.dropWrite with response := some (.write (busErr t)) } := by
  unfold State.busWrite
  rw [ht]
  simp [hb, ho]

/-- A read changes only the answer and, while BUSY = 1, the counter of free values (20_memory.md R127). -/
theorem busRead_shape (s : State) (a : Word) :
    ∃ r n, s.busRead a = { s with response := some r, free := n } ∧ (s.status.busy = false → n = s.free) := by
  by_cases ho : s.status.busy = false ∨ openToRead (targetOf s.cfg a.toNat) = true
  · exact ⟨_, s.free, busRead_open rfl ho, fun _ => rfl⟩
  · have hb : s.status.busy = true := by
      cases h : s.status.busy
      · exact absurd (.inl h) ho
      · rfl
    have hc : openToRead (targetOf s.cfg a.toNat) = false := by
      cases h : openToRead (targetOf s.cfg a.toNat)
      · rfl
      · exact absurd (.inr h) ho
    exact ⟨_, _, busRead_closed rfl hb hc, fun h => by rw [hb] at h; cases h⟩

/-- The CSR page below its reserved part. -/
theorem targetOf_csr (c : Config) (k : Nat) (r : Csr) (h : csrList[k]? = some r) : targetOf c (4 * k) = .csr r := by
  have hk : k < 21 := by
    obtain ⟨h1, -⟩ := List.getElem?_eq_some_iff.mp h
    simpa [csrList] using h1
  unfold targetOf
  rw [if_neg (by omega), if_pos (by omega)]
  unfold csrTarget
  have : 4 * k / 4 = k := by omega
  rw [this, h]

theorem ite_ne {p : Prop} [Decidable p] {x y t : Target} (hx : x ≠ t) (hy : y ≠ t) : (if p then x else y) ≠ t := by
  split <;> assumption

theorem pageTarget_ne_csr (a : Nat) (r : Csr) : pageTarget a ≠ .csr r := by
  unfold pageTarget
  repeat' first | apply ite_ne | exact Target.noConfusion

theorem windowTarget_ne_csr (c : Config) (a : Nat) (r : Csr) : windowTarget c a ≠ .csr r := by
  unfold windowTarget
  simp only
  repeat' first | apply ite_ne | exact Target.noConfusion

/-- An address whose target is a register. -/
theorem csr_address {c : Config} {a : Nat} {r : Csr} (h : targetOf c a = .csr r) : ∃ k, a = 4 * k ∧ csrList[k]? = some r := by
  unfold targetOf at h
  split at h
  · cases h
  · split at h
    · unfold csrTarget at h
      split at h
      · rename_i x hx
        cases h
        exact ⟨a / 4, by omega, hx⟩
      · cases h
    · split at h
      · exact absurd h (pageTarget_ne_csr a r)
      · split at h
        · cases h
        · exact absurd h (windowTarget_ne_csr c a r)

theorem targetOf_ctrl {c : Config} {a : Nat} (h : targetOf c a = .csr .ctrl) : a = 8 := by
  obtain ⟨k, rfl, hk⟩ := csr_address h
  have hl : k < 21 := by
    obtain ⟨h1, -⟩ := List.getElem?_eq_some_iff.mp hk
    simpa [csrList] using h1
  interval_cases k <;> simp_all [csrList]

theorem targetOf_status {c : Config} {a : Nat} (h : targetOf c a = .csr .status) : a = 12 := by
  obtain ⟨k, rfl, hk⟩ := csr_address h
  have hl : k < 21 := by
    obtain ⟨h1, -⟩ := List.getElem?_eq_some_iff.mp hk
    simpa [csrList] using h1
  interval_cases k <;> simp_all [csrList]

theorem targetOf_cmd {c : Config} {a : Nat} (h : targetOf c a = .csr .cmd) : a = 16 := by
  obtain ⟨k, rfl, hk⟩ := csr_address h
  have hl : k < 21 := by
    obtain ⟨h1, -⟩ := List.getElem?_eq_some_iff.mp hk
    simpa [csrList] using h1
  interval_cases k <;> simp_all [csrList]

end Sys2Proof.Machine
end

