-- ==== Sys2Proof/Laws/Collect.lean ====
section
/-! SUPPORT. The laws of `collect`: all results in order, or the first error (spec/60_exceptions.md R467). -/

namespace Sys2Proof.Machine

variable {α : Type}

/-- Every number gives a result: the results in order. -/
theorem collect_ok {f : Nat → Except Raised α} {g : Nat → α} : ∀ {l : List Nat}, (∀ n ∈ l, f n = .ok (g n)) →
    collect f l = .ok (l.map g)
  | [], _ => rfl
  | n :: l, h => by
    simp only [collect, h n List.mem_cons_self, collect_ok (fun k hk => h k (List.mem_cons_of_mem _ hk)), List.map_cons]

/-- The first number that gives an error decides. -/
theorem collect_error {f : Nat → Except Raised α} {e : Raised} {n : Nat} : ∀ {pre post : List Nat},
    (∀ k ∈ pre, ∃ v, f k = .ok v) → f n = .error e → collect f (pre ++ n :: post) = .error e
  | [], _, _, he => by simp only [List.nil_append, collect, he]
  | k :: pre, post, h, he => by
    obtain ⟨v, hv⟩ := h k List.mem_cons_self
    simp only [List.cons_append, collect, hv]
    rw [collect_error (fun j hj => h j (List.mem_cons_of_mem _ hj)) he]

theorem zip_range_map (f : Nat → α) (n : Nat) :
    (List.range n).zip ((List.range n).map f) = (List.range n).map fun i => (i, f i) := by
  apply List.ext_getElem <;> simp

theorem range_split {n m : Nat} (h : n < m) : List.range m = List.range n ++ n :: List.range' (n + 1) (m - n - 1) := by
  rw [List.range_eq_range', List.range_eq_range', show n :: List.range' (n + 1) (m - n - 1) = List.range' n (m - n) by
    conv_rhs => rw [show m - n = m - n - 1 + 1 by omega]
    rw [List.range'_succ]]
  conv_lhs => rw [show m = n + (m - n) by omega]
  rw [← List.range'_append_1]
  simp

/-- The lowest number below m that gives an error decides. -/
theorem collect_range_error {f : Nat → Except Raised α} {e : Raised} {n m : Nat} (hn : n < m)
    (h : ∀ k < n, ∃ v, f k = .ok v) (he : f n = .error e) : collect f (List.range m) = .error e := by
  rw [range_split hn]
  exact collect_error (fun k hk => h k (List.mem_range.mp hk)) he

end Sys2Proof.Machine
end

