-- ==== Sys2Proof/Laws/Color.lean ====
section
/-! SUPPORT. The colour transform: no value of CSC_FWD leaves the finite range, and a clamped channel is a byte
(spec/40_color_transform.md R200, R205). -/

namespace Sys2Proof.Machine

/-- A binary64 value that is finite and at most b in magnitude. -/
def Below (b : ℚ) (a : F64) : Prop := F64.Canon a ∧ ∃ x, a.toRat = some x ∧ |x| ≤ b

theorem Below.notNan {b : ℚ} {a : F64} (h : Below b a) : a ≠ .nan := by
  rintro rfl
  obtain ⟨-, x, hx, -⟩ := h
  cases hx

theorem Below.finite {b : ℚ} {a : F64} (h : Below b a) : a.toRat.isSome := by
  obtain ⟨-, x, hx, -⟩ := h
  rw [hx]; rfl

/-- A rounded result is at most twice the bound of the exact one. -/
theorem below_of_nearest {x b : ℚ} {r : F64} (hr : F64.Canon r) (h : Nearest x r) (hx : |x| ≤ b) (hb : b < 2 ^ 1000) :
    Below (2 * b) r := by
  obtain ⟨s, m, e, rfl⟩ := h.finite (lt_of_le_of_lt hx hb)
  exact ⟨hr, _, rfl, by have := h.bound; linarith⟩

theorem below_add {a b : ℚ} {x y : F64} (hx : Below a x) (hy : Below b y) (h : a + b < 2 ^ 1000) :
    Below (2 * (a + b)) (F64.add x y) := by
  obtain ⟨-, u, hu, hu'⟩ := hx
  obtain ⟨-, v, hv, hv'⟩ := hy
  obtain ⟨s, m, e, rfl, rfl⟩ := toRat_some hu
  obtain ⟨t, n, f, rfl, rfl⟩ := toRat_some hv
  exact below_of_nearest canon_add (add_nearest s t m n e f) (le_trans (abs_add_le _ _) (add_le_add hu' hv')) h

theorem below_neg {a : ℚ} {x : F64} (hx : Below a x) : Below a (F64.neg x) := by
  obtain ⟨hc, u, hu, hu'⟩ := hx
  exact ⟨canon_neg hc, -u, toRat_neg hu, by rwa [abs_neg]⟩

theorem below_sub {a b : ℚ} {x y : F64} (hx : Below a x) (hy : Below b y) (h : a + b < 2 ^ 1000) :
    Below (2 * (a + b)) (F64.sub x y) := below_add hx (below_neg hy) h

theorem below_mul {a b : ℚ} {x y : F64} (ha : 0 ≤ a) (hx : Below a x) (hy : Below b y) (h : a * b < 2 ^ 1000) :
    Below (2 * (a * b)) (F64.mul x y) := by
  obtain ⟨-, u, hu, hu'⟩ := hx
  obtain ⟨-, v, hv, hv'⟩ := hy
  obtain ⟨s, m, e, rfl, rfl⟩ := toRat_some hu
  obtain ⟨t, n, f, rfl, rfl⟩ := toRat_some hv
  refine below_of_nearest canon_mul (mul_nearest s t m n e f) ?_ h
  rw [abs_mul]
  exact mul_le_mul hu' hv' (abs_nonneg _) ha

theorem below_byte (b : Byte) : Below 255 (byteValue b) := by
  have hb := b.isLt
  refine ⟨canon_ofInt _, _, ofInt_exact (by simp; omega), ?_⟩
  have h1 : (b.toNat : ℚ) ≤ 255 := by exact_mod_cast (by omega : b.toNat ≤ 255)
  rw [Int.cast_natCast, abs_of_nonneg (by positivity)]
  exact h1

/-- A decimal literal of the colour transform, all below 1, is finite. -/
theorem below_lit {num den : Nat} (hn : num ≤ den) (h0 : den ≠ 0) (hd : den < 2 ^ 53) : Below 2 (F64.lit num den) := by
  have h1 := ofInt_exact (z := num) (by simp; omega)
  have h2 := ofInt_exact (z := den) (by simp; omega)
  obtain ⟨s, m, e, he, hx⟩ := toRat_some h1
  obtain ⟨t, n, f, hf, hy⟩ := toRat_some h2
  have hc := canon_ofInt (den : Int)
  rw [hf] at hc
  have hden : (0 : ℚ) < den := by exact_mod_cast Nat.pos_of_ne_zero h0
  have hn0 : n ≠ 0 := by
    rintro rfl
    have h3 : (signed t 0 : ℚ) = 0 := by cases t <;> simp [signed]
    rw [h3, zero_mul] at hy
    simp only [Int.cast_natCast] at hy
    linarith
  have := div_nearest s t (m := m) (n := n) e f hn0 hc.1
  rw [← he, ← hf, ← hx, ← hy] at this
  have hle : (num : ℚ) ≤ den := by exact_mod_cast hn
  have hb : |((num : Int) : ℚ) / ((den : Int) : ℚ)| ≤ 1 := by
    rw [Int.cast_natCast, Int.cast_natCast, abs_of_nonneg (by positivity), div_le_one hden]
    exact hle
  have := below_of_nearest canon_div this hb (by
    have : (1 : ℚ) < 2 ^ 1000 := one_lt_pow₀ (by norm_num) (by norm_num)
    exact this)
  rw [mul_one] at this
  exact this

theorem big_bound {x : ℚ} (h : x < 2 ^ 30) : x < 2 ^ 1000 :=
  lt_of_lt_of_le h (pow_le_pow_right₀ (by norm_num) (by norm_num))

/-- Y is finite. -/
theorem below_luma (p : Pixel) : Below 16320 (lumaOf p) := by
  have l : ∀ n ≤ 1000, Below 2 (F64.lit n 1000) := fun n hn => below_lit hn (by norm_num) (by norm_num)
  have m : ∀ n ≤ 1000, ∀ b : Byte, Below 1020 (F64.mul (F64.lit n 1000) (byteValue b)) := by
    intro n hn b
    have := below_mul (by norm_num) (l n hn) (below_byte b) (big_bound (by norm_num))
    norm_num at this
    exact this
  have a1 := below_add (m 299 (by norm_num) p.r) (m 587 (by norm_num) p.g) (big_bound (by norm_num))
  have a2 := below_add a1 (m 114 (by norm_num) p.b) (big_bound (by norm_num))
  obtain ⟨h1, x, h2, h3⟩ := a2
  exact ⟨h1, x, h2, le_trans h3 (by norm_num)⟩

/-- The chroma values are finite. -/
theorem below_chroma (p : Pixel) (b : Byte) {n : Nat} (hn : n ≤ 1000) :
    Below 200000 (F64.mul (F64.lit n 1000) (F64.sub (byteValue b) (lumaOf p))) := by
  have h := below_sub (below_byte b) (below_luma p) (big_bound (by norm_num))
  have := below_mul (by norm_num) (below_lit (den := 1000) hn (by norm_num) (by norm_num)) h (big_bound (by norm_num))
  obtain ⟨h1, x, h2, h3⟩ := this
  exact ⟨h1, x, h2, le_trans h3 (by norm_num)⟩

/-- What CSC_FWD stores reads back as the values of R200. -/
theorem rgbToYcc_values (p : Pixel) :
    F64.ofBits (rgbToYcc p).y = lumaOf p ∧
    F64.ofBits (rgbToYcc p).cb = F64.mul (F64.lit 564 1000) (F64.sub (byteValue p.b) (lumaOf p)) ∧
    F64.ofBits (rgbToYcc p).cr = F64.mul (F64.lit 713 1000) (F64.sub (byteValue p.r) (lumaOf p)) := by
  have h1 := below_luma p
  have h2 := below_chroma p p.b (n := 564) (by norm_num)
  have h3 := below_chroma p p.r (n := 713) (by norm_num)
  exact ⟨ofBits_toBits_of_not_nan h1.1 h1.notNan _, ofBits_toBits_of_not_nan h2.1 h2.notNan _,
    ofBits_toBits_of_not_nan h3.1 h3.notNan _⟩

/-! ### Clamping -/

theorem lt_fin {s t : Bool} {m n : Nat} {e f : Int} :
    F64.lt (.fin s m e) (.fin t n f) = true ↔ (signed s m : ℚ) * 2 ^ e < signed t n * 2 ^ f := by
  have h := add_exact s (!t) m n e f
  have hneg : ∀ k : Nat, signed (!t) k = -signed t k := by intro k; cases t <;> simp [signed]
  simp only [F64.lt, decide_eq_true_eq]
  have hg := two_zpow_pos (min e f)
  rw [hneg, hneg] at h
  push_cast at h
  constructor
  · intro hlt
    have hlt' : ((signed s (m * 2 ^ (e - min e f).toNat) : Int) : ℚ) < (signed t (n * 2 ^ (f - min e f).toNat) : Int) := by
      exact_mod_cast hlt
    nlinarith
  · intro hlt
    by_contra hge
    have hge' : ((signed t (n * 2 ^ (f - min e f).toNat) : Int) : ℚ) ≤ (signed s (m * 2 ^ (e - min e f).toNat) : Int) := by
      exact_mod_cast (by omega : signed t (n * 2 ^ (f - min e f).toNat) ≤ signed s (m * 2 ^ (e - min e f).toNat))
    nlinarith

theorem zero_value : F64.ofInt 0 = .fin false 0 (-1074) := by decide

theorem top_value : F64.ofInt 255 = .fin false (255 * 2 ^ 45) (-45) := by decide

/-- A clamped value that is no NaN is finite and between 0 and 255. -/
theorem clamp_range {x : F64} (h : x ≠ .nan) :
    ∃ v : ℚ, (F64.clamp x (F64.ofInt 0) (F64.ofInt 255)).toRat = some v ∧ 0 ≤ v ∧ v ≤ 255 := by
  rw [zero_value, top_value]
  have e0 : (F64.fin false 0 (-1074)).toRat = some 0 := by simp [F64.toRat, signed]
  have e1 : (F64.fin false (255 * 2 ^ 45) (-45)).toRat = some 255 := by
    simp only [F64.toRat, signed]; norm_num
  have v1 : (signed false (255 * 2 ^ 45) : ℚ) * 2 ^ (-45 : Int) = 255 := by simp only [signed]; norm_num
  have v0 : (signed false 0 : ℚ) * 2 ^ (-1074 : Int) = 0 := by simp [signed]
  unfold F64.clamp
  split
  · exact ⟨0, e0, le_refl _, by norm_num⟩
  · rename_i h0
    split
    · exact ⟨255, e1, by norm_num, le_refl _⟩
    · rename_i h1
      rcases x with _ | s | ⟨s, m, e⟩
      · exact absurd rfl h
      · cases s <;> simp [F64.lt] at h0 h1
      · rw [lt_fin, v0, not_lt] at h0
        rw [lt_fin, v1, not_lt] at h1
        exact ⟨_, rfl, h0, h1⟩

/-- A nearest integer of a value between 0 and 255 is between 0 and 255. -/
theorem nearestAway_range {v : ℚ} {z : Int} (h : NearestAway v z) (h0 : 0 ≤ v) (h1 : v ≤ 255) : 0 ≤ z ∧ z ≤ 255 := by
  have := abs_le.mp h.1
  constructor
  · have : (-1 : ℚ) < z := by linarith
    have : (-1 : Int) < z := by exact_mod_cast this
    omega
  · have : (z : ℚ) < 256 := by linarith
    have : z < 256 := by exact_mod_cast this
    omega

/-- The byte of a channel (R205). -/
theorem channelByte_spec {x : F64} (h : x ≠ .nan) :
    F64.roundHA (F64.clamp x (F64.ofInt 0) (F64.ofInt 255)) = some ((channelByte x).toNat : Int) := by
  obtain ⟨v, hv, h0, h1⟩ := clamp_range h
  obtain ⟨z, hz, hn⟩ := roundHA_nearest hv
  have hr := nearestAway_range hn h0 h1
  unfold channelByte
  rw [hz]
  simp only [Option.some.injEq, BitVec.toNat_ofInt]
  omega

end Sys2Proof.Machine
end

