-- ==== Sys2Proof/Laws/DcPred.lean ====
section
/-! SUPPORT. What the two loops of DC prediction leave in the coefficient memory (spec/45_dc_predictor.md R300, R301). -/

namespace Sys2Proof.Machine

theorem dc_ne {ch : Channel} {b c : Nat} (h : b ≠ c) : coefIx ch b 0 ≠ coefIx ch c 0 := by
  unfold coefIx; omega

theorem wf_dcEncode (ch : Channel) : ∀ (k : Nat) {m : Memory Word}, Memory.wf m = true →
    Memory.wf (dcEncode ch k m) = true
  | 0, _, h => h
  | k + 1, _, h => wf_dcEncode ch k (wf_write _ _ h)

theorem wf_dcDecode (ch : Channel) {m : Memory Word} (h : Memory.wf m = true) : ∀ k : Nat,
    Memory.wf (dcDecode ch k m) = true
  | 0 => h
  | k + 1 => wf_write _ _ (wf_dcDecode ch h k)

theorem within_dcEncode (ch : Channel) : ∀ (k : Nat) {m : Memory Word}, k < 65536 → within (3 * 4194304) m →
    within (3 * 4194304) (dcEncode ch k m)
  | 0, _, _, h => h
  | k + 1, _, hk, h =>
    within_dcEncode ch k (by omega) (within_write _ (coefIx_lt ch hk (by norm_num)) h)

theorem within_dcDecode (ch : Channel) {m : Memory Word} (h : within (3 * 4194304) m) : ∀ k : Nat, k < 65536 →
    within (3 * 4194304) (dcDecode ch k m)
  | 0, _ => h
  | k + 1, hk => within_write _ (coefIx_lt ch hk (by norm_num)) (within_dcDecode ch h k (by omega))

/-- Elements that are no DC term of blocks 1..k are left alone. -/
theorem read_dcEncode_other (ch : Channel) {n : Nat} : ∀ (k : Nat) {m : Memory Word}, Memory.wf m = true →
    (∀ b, 1 ≤ b → b ≤ k → n ≠ coefIx ch b 0) → Memory.read (dcEncode ch k m) n = Memory.read m n
  | 0, _, _, _ => rfl
  | k + 1, m, h, hn => by
    rw [dcEncode, read_dcEncode_other ch k (wf_write _ _ h) fun b h1 h2 => hn b h1 (by omega),
      read_write_other (hn (k + 1) (by omega) le_rfl) _ h]

/-- The DC term of block b, 1 ≤ b ≤ k, gets the difference of the original values. -/
theorem read_dcEncode (ch : Channel) {b : Nat} (hb : 1 ≤ b) : ∀ (k : Nat) {m : Memory Word}, Memory.wf m = true →
    b ≤ k → Memory.read (dcEncode ch k m) (coefIx ch b 0)
      = Memory.read m (coefIx ch b 0) - Memory.read m (coefIx ch (b - 1) 0)
  | 0, _, _, h => by omega
  | k + 1, m, h, hk => by
    rw [dcEncode]
    rcases Nat.lt_or_eq_of_le hk with hlt | heq
    · rw [read_dcEncode ch hb k (wf_write _ _ h) (by omega), read_write_other (dc_ne (by omega)) _ h,
        read_write_other (dc_ne (by omega)) _ h]
    · subst heq
      rw [read_dcEncode_other ch k (wf_write _ _ h) fun c h1 h2 => dc_ne (by omega), read_write_same _ _ h]
      rfl

theorem read_dcDecode_other (ch : Channel) {n : Nat} {m : Memory Word} (h : Memory.wf m = true) : ∀ k : Nat,
    (∀ b, 1 ≤ b → b ≤ k → n ≠ coefIx ch b 0) → Memory.read (dcDecode ch k m) n = Memory.read m n
  | 0, _ => rfl
  | k + 1, hn => by
    rw [dcDecode]
    rw [read_write_other (hn (k + 1) (by omega) le_rfl) _ (wf_dcDecode ch h k),
      read_dcDecode_other ch h k fun b h1 h2 => hn b h1 (by omega)]

/-- The DC term of block b, 1 ≤ b ≤ k, gets the sum of its delta and the restored term before it. -/
theorem read_dcDecode (ch : Channel) {b : Nat} (hb : 1 ≤ b) {m : Memory Word} (h : Memory.wf m = true) : ∀ k : Nat,
    b ≤ k → Memory.read (dcDecode ch k m) (coefIx ch b 0)
      = Memory.read m (coefIx ch b 0) + Memory.read (dcDecode ch k m) (coefIx ch (b - 1) 0)
  | 0, h => by omega
  | k + 1, hk => by
    rw [dcDecode]
    rcases Nat.lt_or_eq_of_le hk with hlt | heq
    · rw [read_write_other (dc_ne (by omega)) _ (wf_dcDecode ch h k),
        read_write_other (dc_ne (by omega)) _ (wf_dcDecode ch h k), read_dcDecode ch hb h k (by omega)]
    · subst heq
      rw [read_write_same _ _ (wf_dcDecode ch h k), read_write_other (dc_ne (by omega)) _ (wf_dcDecode ch h k),
        dcTerm, dcTerm, read_dcDecode_other ch h k fun c h1 h2 => dc_ne (by omega)]
      rfl

/-- Two canonical memories that agree off the DC terms of blocks 1..k and whose DC terms there run alike are equal. -/
theorem dc_ext (ch : Channel) {m n : Memory Word} (hm : Memory.wf m = true) (hn : Memory.wf n = true) (k : Nat)
    (hother : ∀ i, (∀ b, 1 ≤ b → b ≤ k → i ≠ coefIx ch b 0) → Memory.read m i = Memory.read n i)
    (hdc : ∀ b, 1 ≤ b → b ≤ k → Memory.read m (coefIx ch (b - 1) 0) = Memory.read n (coefIx ch (b - 1) 0) →
      Memory.read m (coefIx ch b 0) = Memory.read n (coefIx ch b 0)) : m = n := by
  apply memory_ext hm hn
  intro i
  by_cases h : ∀ b, 1 ≤ b → b ≤ k → i ≠ coefIx ch b 0
  · exact hother i h
  · push Not at h
    obtain ⟨b, _, hb2, rfl⟩ := h
    have all : ∀ b, b ≤ k → Memory.read m (coefIx ch b 0) = Memory.read n (coefIx ch b 0) := by
      intro b
      induction b with
      | zero => exact fun _ => hother _ fun c h1 _ => dc_ne (by omega)
      | succ b ih => exact fun hle => hdc (b + 1) (by omega) hle (ih (by omega))
    exact all b hb2

end Sys2Proof.Machine
end

