-- ==== Sys2Proof/Laws/Decode.lean ====
section
/-! SUPPORT. The laws of the command word's fields and of the opcode map (spec/30_encoding.md R150 to R156). -/

namespace Sys2Proof

theorem channelNo_le (ch : Channel) : channelNo ch ≤ 2 := by cases ch <;> decide

theorem channelOf_eq_ok {n : Nat} {ch : Channel} : channelOf n = .ok ch ↔ n = channelNo ch := by
  unfold channelOf
  constructor
  · intro h
    split_ifs at h <;> cases h <;> simp_all [channelNo]
  · rintro rfl
    cases ch <;> rfl

theorem opcodeOf_lt (i : Instr) : opcodeOf i < 256 := by cases i <;> simp [opcodeOf]

theorem fieldCh_le (i : Instr) : (fieldsOf i).1 ≤ 2 := by
  cases i <;> first | exact Nat.zero_le 2 | exact channelNo_le _

theorem fieldBlk_lt {i : Instr} (h : i.wf = true) : (fieldsOf i).2 < 65536 := by
  cases i <;> simp_all [Instr.wf, fieldsOf]

theorem toNat_encode {i : Instr} (h : i.wf = true) :
    (encode i).toNat = opcodeOf i + 256 * (fieldsOf i).1 + 65536 * (fieldsOf i).2 := by
  have hb := fieldBlk_lt h
  have hc := fieldCh_le i
  have ho := opcodeOf_lt i
  unfold encode
  rw [BitVec.toNat_ofNat]
  omega

/-- The fields of an encoded command. -/
theorem fields_encode {i : Instr} (h : i.wf = true) :
    rsvOf (encode i) = 0 ∧ opcOf (encode i) = opcodeOf i ∧ chOf (encode i) = (fieldsOf i).1
      ∧ blkOf (encode i) = (fieldsOf i).2 := by
  have hb := fieldBlk_lt h
  have hc := fieldCh_le i
  have ho := opcodeOf_lt i
  have ht := toNat_encode h
  unfold rsvOf opcOf chOf blkOf
  omega

/-- A word is determined by its fields. -/
theorem encode_of_fields {w : Word} {i : Instr} (hr : rsvOf w = 0) (ho : opcOf w = opcodeOf i)
    (hc : chOf w = (fieldsOf i).1) (hb : blkOf w = (fieldsOf i).2) : encode i = w := by
  apply BitVec.eq_of_toNat_eq
  have := w.isLt
  unfold encode
  rw [BitVec.toNat_ofNat]
  unfold rsvOf opcOf chOf blkOf at *
  omega

theorem mem_of_lookup {n : Nat} {sh : Shape} (h : opcodeMap.lookup n = some sh) : (n, sh) ∈ opcodeMap := by
  obtain ⟨l1, l2, h1, -⟩ := List.lookup_eq_some_iff.mp h
  rw [h1]
  simp

theorem except_map_ok {α β : Type} {x : Except Reject α} {f : α → β} {y : β} (h : x.map f = .ok y) :
    ∃ a, x = .ok a ∧ f a = y := by
  cases x with
  | error e => cases h
  | ok a => exact ⟨a, rfl, by cases h; rfl⟩

end Sys2Proof
end

