-- ==== Sys2Proof/Laws/Exec.lean ====
section
/-! SUPPORT. What a command can do, said once: it settles, and its effect touches only its own destinations. -/

namespace Sys2Proof.Machine

@[simp] theorem settle_ok (s t : State) : settle s (.ok t) = .next t.complete := rfl

@[simp] theorem settle_error (s : State) (e : Raised) : settle s (.error e) = .next (s.enterError e) := rfl

/-- A command that writes bits writes only BS and the writer. -/
theorem bitWrite_shape {s t : State} {bits : List Bool} (h : s.bitWrite bits = .ok t) :
    ∃ w m, t = { s with writer := w, bs := m } := by
  unfold State.bitWrite at h
  split at h
  · cases h
  · cases h
    exact ⟨_, _, rfl⟩

/-- The destinations of a command: how its own effect may change the state (60_exceptions.md R465 and the 4N files). -/
def Touches (i : Instr) (s t : State) : Prop :=
  match i with
  | .nop => t = s
  | .cscFwd => ∃ m, t = { s with ycc := m }
  | .cscInv => ∃ m, t = { s with rgb := m }
  | .subsample => ∃ m, t = { s with ycc := m, free := s.free + 1 }
  | .fdct | .idct => ∃ b, t = { s with fblk := b, free := s.free + 1 }
  | .quant _ | .unzigzag => ∃ b, t = { s with iblk := b }
  | .dequant _ | .loadblk _ _ => ∃ b, t = { s with fblk := b }
  | .zigzag | .rledec | .loadvec _ _ => ∃ b, t = { s with vec := b }
  | .dcenc _ | .dcdec _ | .storevec _ _ => ∃ m, t = { s with coef := m }
  | .rleenc => ∃ out, t = s.setSymbols out
  | .category => ∃ v, t = { s with result := v }
  | .hufdec => ∃ out pos, t = (s.setSymbols out).setReadPos pos
  | .hufgetdc | .hufgetac | .getbits | .smread => ∃ v pos, t = { s.setReadPos pos with result := v }
  | .hufenc | .hufputdc | .hufputac | .putbits | .flush | .smwrite => ∃ w m, t = { s with writer := w, bs := m }
  | .bswrst => t = { s with writer := ⟨0, 0, 0⟩ }
  | .bsrrst => t = { s with reader := ⟨0, 0⟩ }
  | .storeblk _ _ => ∃ m, t = { s with ycc := m }

/-- Every command settles: its own effect, which touches only its destinations, or an error. -/
theorem exec_cases (i : Instr) (s : State) : ∃ r, exec i s = settle s r ∧ ∀ t, r = .ok t → Touches i s t := by
  cases i <;> simp only [exec,
    execNop, execCscFwd, execCscInv, execSubsample, execFdct, execIdct, execQuant, execDequant, execZigzag,
    execUnzigzag, execDcenc, execDcdec, execRleenc, execRledec, execCategory, execHufenc, execHufdec,
    execHufputdc, execHufputac, execHufgetdc, execHufgetac, execPutbits, execGetbits, execFlush, execBswrst,
    execBsrrst, execSmwrite, execSmread, execLoadblk, execStoreblk, execLoadvec, execStorevec] <;>
    refine ⟨_, rfl, ?_⟩ <;> intro t h
  case nop => cases h; rfl
  case fdct => cases h; exact ⟨_, rfl⟩
  case idct => cases h; exact ⟨_, rfl⟩
  case dequant ch => cases h; exact ⟨_, rfl⟩
  case zigzag => cases h; exact ⟨_, rfl⟩
  case unzigzag => cases h; exact ⟨_, rfl⟩
  case rleenc => cases h; exact ⟨_, rfl⟩
  case category => cases h; exact ⟨_, rfl⟩
  case bswrst => cases h; rfl
  case bsrrst => cases h; rfl
  case cscFwd => split at h <;> cases h; exact ⟨_, rfl⟩
  case subsample => split at h <;> cases h; exact ⟨_, rfl⟩
  case dcenc ch => split at h <;> cases h; exact ⟨_, rfl⟩
  case dcdec ch => split at h <;> cases h; exact ⟨_, rfl⟩
  case loadblk ch b => split at h <;> cases h; exact ⟨_, rfl⟩
  case storeblk ch b => split at h <;> cases h; exact ⟨_, rfl⟩
  case loadvec ch b => split at h <;> cases h; exact ⟨_, rfl⟩
  case storevec ch b => split at h <;> cases h; exact ⟨_, rfl⟩
  case quant ch => split at h <;> cases h; exact ⟨_, rfl⟩
  case rledec => split at h <;> cases h; exact ⟨_, rfl⟩
  case cscInv =>
    split at h
    · cases h
    · split at h <;> cases h; exact ⟨_, rfl⟩
  case hufenc => split at h; · cases h
                 · exact bitWrite_shape h
  case hufputdc => split at h; · cases h
                   · exact bitWrite_shape h
  case hufputac => split at h; · cases h
                   · exact bitWrite_shape h
  case putbits => split at h; · cases h
                  · exact bitWrite_shape h
  case smwrite => split at h; · cases h
                  · exact bitWrite_shape h
  case flush =>
    split at h
    · cases h; exact ⟨_, _, rfl⟩
    · exact bitWrite_shape h
  case hufdec => split at h <;> cases h; exact ⟨_, _, rfl⟩
  case hufgetdc => split at h <;> cases h; exact ⟨_, _, rfl⟩
  case hufgetac => split at h <;> cases h; exact ⟨_, _, rfl⟩
  case getbits =>
    split at h
    · cases h
    · split at h <;> cases h; exact ⟨_, _, rfl⟩
  case smread =>
    split at h
    · cases h
    · split at h <;> cases h; exact ⟨_, _, rfl⟩

/-- What no command's own effect changes. -/
structure Keeps (s t : State) : Prop where
  cfg : t.cfg = s.cfg
  ctrl : t.ctrl = s.ctrl
  status : t.status = s.status
  cmd : t.cmd = s.cmd
  arg0 : t.arg0 = s.arg0
  arg1 : t.arg1 = s.arg1
  imgW : t.imgW = s.imgW
  imgH : t.imgH = s.imgH
  errInfo : t.errInfo = s.errInfo
  bsLen : t.bsLen = s.bsLen
  host : t.host = s.host
  response : t.response = s.response

theorem Touches.keeps {i : Instr} {s t : State} (h : Touches i s t) : Keeps s t := by
  cases i <;> simp only [Touches] at h <;>
    first
    | (subst h; exact ⟨rfl, rfl, rfl, rfl, rfl, rfl, rfl, rfl, rfl, rfl, rfl, rfl⟩)
    | (obtain ⟨_, rfl⟩ := h; exact ⟨rfl, rfl, rfl, rfl, rfl, rfl, rfl, rfl, rfl, rfl, rfl, rfl⟩)
    | (obtain ⟨_, _, rfl⟩ := h; exact ⟨rfl, rfl, rfl, rfl, rfl, rfl, rfl, rfl, rfl, rfl, rfl, rfl⟩)

/-- The next state of a command, by its two ends. -/
theorem exec_next {i : Instr} {s u : State} (h : exec i s = .next u) :
    (∃ t, Touches i s t ∧ u = t.complete) ∨ ∃ e, u = s.enterError e := by
  obtain ⟨r, hr, ht⟩ := exec_cases i s
  rw [hr] at h
  cases r with
  | ok t => cases h; exact .inl ⟨t, ht t rfl, rfl⟩
  | error e => cases h; exact .inr ⟨e, rfl⟩

end Sys2Proof.Machine
end

