-- ==== Sys2Proof/Laws/Reader.lean ====
section
/-! SUPPORT. The laws of the bitstream reader (spec/20_memory.md R113) and of the Huffman match
(47_huffman_bitstream.md R363, R364). -/

namespace Sys2Proof.Machine

/-! ### Reading bits -/

theorem bitAt_ok {s : State} {pos : Nat} (h : pos < 8 * s.bsLen.toNat) : s.bitAt pos = .ok (s.streamBit pos) := by
  unfold State.bitAt
  rw [if_neg (by omega)]
  rfl

theorem bitAt_end {s : State} {pos : Nat} (h : 8 * s.bsLen.toNat ≤ pos) : s.bitAt pos = raised .bsUnderrun pos := by
  unfold State.bitAt
  rw [if_pos (by omega)]

theorem streamHas_cons {s : State} {pos : Nat} {b : Bool} {bits : List Bool} :
    s.streamHas pos (b :: bits) ↔
      (pos < 8 * s.bsLen.toNat ∧ s.streamBit pos = b) ∧ s.streamHas (pos + 1) bits := by
  constructor
  · intro h
    refine ⟨h 0 (by simp), ?_⟩
    intro i hi
    have := h (i + 1) (by simpa using hi)
    simpa [Nat.add_assoc, Nat.add_comm 1 i] using this
  · rintro ⟨h0, h⟩ i hi
    cases i with
    | zero => simpa using h0
    | succ i =>
      have := h i (by simpa using hi)
      simpa [Nat.add_assoc, Nat.add_comm 1 i] using this

theorem streamHas_append {s : State} {pos : Nat} {a b : List Bool} :
    s.streamHas pos (a ++ b) ↔ s.streamHas pos a ∧ s.streamHas (pos + a.length) b := by
  induction a generalizing pos with
  | nil =>
    constructor
    · intro h
      exact ⟨by intro i hi; simp at hi, by simpa using h⟩
    · rintro ⟨-, h⟩
      simpa using h
  | cons x a ih =>
    rw [List.cons_append, streamHas_cons, streamHas_cons, ih]
    simp [Nat.add_assoc, Nat.add_comm 1, and_assoc]

/-- BitRead of bits the input has. -/
theorem bitRead_has {s : State} : ∀ {bits : List Bool} {pos v : Nat}, s.streamHas pos bits →
    s.bitRead bits.length pos v = .ok (bits.foldl (fun v b => 2 * v + b.toNat) v, pos + bits.length)
  | [], _, _, _ => rfl
  | b :: bits, pos, v, h => by
    obtain ⟨⟨h1, h2⟩, h3⟩ := streamHas_cons.mp h
    simp only [List.length_cons, State.bitRead, bitAt_ok h1, h2, bitRead_has h3, List.foldl_cons]
    rw [Nat.add_assoc, Nat.add_comm 1]

theorem bitRead_has_zero {s : State} {bits : List Bool} {pos : Nat} (h : s.streamHas pos bits) :
    s.bitRead bits.length pos 0 = .ok (numberOf bits, pos + bits.length) := bitRead_has h

/-- The next n bits of the input. -/
def State.streamBits (s : State) (pos n : Nat) : List Bool := (List.range n).map fun i => s.streamBit (pos + i)

@[simp] theorem length_streamBits (s : State) (pos n : Nat) : (s.streamBits pos n).length = n := by
  simp [State.streamBits]

theorem streamHas_streamBits {s : State} {pos n : Nat} (h : n = 0 ∨ pos + n ≤ 8 * s.bsLen.toNat) :
    s.streamHas pos (s.streamBits pos n) := by
  intro i hi
  simp only [length_streamBits] at hi
  exact ⟨by omega, by simp [State.streamBits]⟩

/-- BitRead beyond the input (R113). -/
theorem bitRead_short {s : State} : ∀ {n pos v : Nat}, 1 ≤ n → 8 * s.bsLen.toNat < pos + n →
    s.bitRead n pos v = raised .bsUnderrun (s.firstUnreadable pos)
  | n + 1, pos, v, _, h => by
    rcases Nat.lt_or_ge pos (8 * s.bsLen.toNat) with hp | hp
    · have hm : s.firstUnreadable pos = s.firstUnreadable (pos + 1) := by
        unfold State.firstUnreadable
        omega
      simp only [State.bitRead, bitAt_ok hp]
      rw [hm]
      exact bitRead_short (by omega) (by omega)
    · have hm : s.firstUnreadable pos = pos := by
        unfold State.firstUnreadable
        omega
      simp only [State.bitRead, bitAt_end hp, hm, raised]

/-- What BitRead gives, on every input. -/
theorem bitRead_cases (s : State) (n pos : Nat) :
    (∃ bits, bits.length = n ∧ s.streamHas pos bits ∧ s.bitRead n pos 0 = .ok (numberOf bits, pos + n))
    ∨ (1 ≤ n ∧ 8 * s.bsLen.toNat < pos + n ∧ s.bitRead n pos 0 = raised .bsUnderrun (s.firstUnreadable pos)) := by
  by_cases h : n = 0 ∨ pos + n ≤ 8 * s.bsLen.toNat
  · refine .inl ⟨s.streamBits pos n, by simp, streamHas_streamBits h, ?_⟩
    have := bitRead_has_zero (streamHas_streamBits h)
    simpa using this
  · exact .inr ⟨by omega, by omega, bitRead_short (by omega) (by omega)⟩

/-! ### Tables -/

theorem prefixFree_pair : ∀ {t : List HuffEntry}, prefixFree t = true → ∀ {e f : HuffEntry}, e ∈ t → f ∈ t →
    e.isPrefixOf f = true → e = f
  | x :: rest, h, e, f, he, hf, hp => by
    simp only [prefixFree, Bool.and_eq_true, List.all_eq_true, Bool.not_eq_true'] at h
    rcases List.mem_cons.mp he with he1 | he
    · rcases List.mem_cons.mp hf with hf1 | hf
      · rw [he1, hf1]
      · have := (h.1 f hf).1
        rw [← he1, hp] at this
        cases this
    · rcases List.mem_cons.mp hf with hf1 | hf
      · have := (h.1 e he).2
        rw [← hf1, hp] at this
        cases this
      · exact prefixFree_pair h.2 he hf hp

/-- What the laws of a Huffman table need of it (47_huffman_bitstream.md R362). -/
structure GoodTable (t : List HuffEntry) (maxLen : Nat) : Prop where
  prefixes : ∀ {e f : HuffEntry}, e ∈ t → f ∈ t → e.isPrefixOf f = true → e = f
  lengths : ∀ {e : HuffEntry}, e ∈ t → 1 ≤ e.len ∧ e.len ≤ maxLen ∧ e.code < 2 ^ e.len
  bound : maxLen ≤ 16
  keys : ∀ {e f : HuffEntry}, e ∈ t → f ∈ t → e.key = f.key → e = f

theorem keys_unique {t : List HuffEntry} {keys : List Nat} (hn : keys.Nodup) (h : keysAre t keys = true) :
    (∀ {e f : HuffEntry}, e ∈ t → f ∈ t → e.key = f.key → e = f) ∧ ∀ {e : HuffEntry}, e ∈ t → e.key ∈ keys := by
  simp only [keysAre, Bool.and_eq_true, beq_iff_eq, List.all_eq_true, List.any_eq_true] at h
  obtain ⟨hl, hk⟩ := h
  have hsub : keys ⊆ t.map HuffEntry.key := by
    intro k hkm
    obtain ⟨e, he, hek⟩ := hk k hkm
    exact List.mem_map.mpr ⟨e, he, hek⟩
  have hperm : keys.Perm (t.map HuffEntry.key) :=
    (hn.subperm hsub).perm_of_length_le (by simp [hl])
  have hnod : (t.map HuffEntry.key).Nodup := hperm.nodup_iff.mp hn
  refine ⟨fun {e f} he hf hef => List.inj_on_of_nodup_map hnod he hf hef, fun {e} he => ?_⟩
  exact hperm.mem_iff.mpr (List.mem_map.mpr ⟨e, he, rfl⟩)

theorem dcKeys_nodup : dcKeys.Nodup := List.nodup_range

theorem acKeys_nodup : acKeys.Nodup := by decide +kernel

theorem goodTable_of {t : List HuffEntry} {keys : List Nat} {maxLen : Nat} (hn : keys.Nodup)
    (hk : keysAre t keys = true) (hc : codesFit t maxLen = true) (hp : prefixFree t = true) : GoodTable t maxLen := by
  simp only [codesFit, Bool.and_eq_true, decide_eq_true_eq, List.all_eq_true] at hc
  exact ⟨fun he hf h => prefixFree_pair hp he hf h, fun he => by
    obtain ⟨⟨h1, h2⟩, h3⟩ := hc.2 _ he
    exact ⟨h1, h2, h3⟩, hc.1, (keys_unique hn hk).1⟩

theorem dcTable_good {c : Config} (h : c.wf = true) : GoodTable c.hufDc c.dcMaxLen := by
  simp only [Config.wf, Config.tablesFit, Bool.and_eq_true] at h
  exact goodTable_of dcKeys_nodup h.2.1.1.1.1.1 h.2.1.1.1.1.2 h.2.1.1.1.2

theorem acTable_good {c : Config} (h : c.wf = true) : GoodTable c.hufAc c.acMaxLen := by
  simp only [Config.wf, Config.tablesFit, Bool.and_eq_true] at h
  exact goodTable_of acKeys_nodup h.2.1.1.2 h.2.1.2 h.2.2

/-- The DC keys are the categories 0..10 (00_scope.md R6). -/
theorem dcKey_le {c : Config} (h : c.wf = true) {e : HuffEntry} (he : e ∈ c.hufDc) : e.key ≤ 10 := by
  simp only [Config.wf, Config.tablesFit, Bool.and_eq_true] at h
  have := (keys_unique dcKeys_nodup h.2.1.1.1.1.1).2 he
  simp only [dcKeys, List.mem_range] at this
  omega

/-- An AC key has a category of at most 10, and none but EOB and ZRL has category 0 (R6). -/
theorem acKey_fits {c : Config} (h : c.wf = true) {e : HuffEntry} (he : e ∈ c.hufAc) :
    e.key = 0 ∨ e.key = 15 ∨ (1 ≤ e.key / 16 ∧ e.key / 16 ≤ 10) := by
  simp only [Config.wf, Config.tablesFit, Bool.and_eq_true] at h
  have hk := (keys_unique acKeys_nodup h.2.1.1.2).2 he
  simp only [acKeys, List.mem_cons, List.mem_map, List.mem_range] at hk
  rcases hk with h0 | h15 | ⟨n, hn, hk⟩
  · exact .inl h0
  · exact .inr (.inl h15)
  · refine .inr (.inr ?_)
    omega

/-! ### Encode lookup -/

theorem huffCode_of {t : List HuffEntry} {maxLen key : Nat} {bits : List Bool} (ht : GoodTable t maxLen)
    (h : HasCode t key bits) : huffCode t key = some bits := by
  obtain ⟨e, he, hk, hb⟩ := h
  unfold huffCode
  cases hf : t.find? (fun x => x.key == key) with
  | none =>
    have := List.find?_eq_none.mp hf e he
    simp [hk] at this
  | some f =>
    have h1 := List.mem_of_find?_eq_some hf
    have h2 := List.find?_some hf
    simp only [beq_iff_eq] at h2
    have : f = e := ht.keys h1 he (by rw [h2, hk])
    subst this
    simp [hb]

theorem huffCode_none {t : List HuffEntry} {key : Nat} (h : NoCode t key) : huffCode t key = none := by
  unfold huffCode
  rw [Option.map_eq_none_iff, List.find?_eq_none]
  intro e he
  simpa using h e he

theorem hasCode_or_noCode (t : List HuffEntry) (key : Nat) : (∃ bits, HasCode t key bits) ∨ NoCode t key := by
  by_cases h : ∃ e ∈ t, e.key = key
  · obtain ⟨e, he, hk⟩ := h
    exact .inl ⟨_, e, he, hk, rfl⟩
  · exact .inr fun e he hk => h ⟨e, he, hk⟩

/-! ### Decode match -/

theorem huffKey_some {t : List HuffEntry} {maxLen : Nat} (ht : GoodTable t maxLen) {e : HuffEntry} (he : e ∈ t) :
    huffKey t e.code e.len = some e.key := by
  unfold huffKey
  cases hf : t.find? (fun x => x.len == e.len && x.code == e.code) with
  | none =>
    have := List.find?_eq_none.mp hf e he
    simp at this
  | some f =>
    have h1 := List.mem_of_find?_eq_some hf
    have h2 := List.find?_some hf
    simp only [Bool.and_eq_true, beq_iff_eq] at h2
    have : f = e := ht.prefixes h1 he (by simp [HuffEntry.isPrefixOf, h2.1, h2.2])
    subst this
    rfl

theorem huffKey_none {t : List HuffEntry} {v len : Nat} (h : ∀ e ∈ t, ¬(e.len = len ∧ e.code = v)) :
    huffKey t v len = none := by
  unfold huffKey
  rw [Option.map_eq_none_iff, List.find?_eq_none]
  intro e he
  simpa using h e he

/-- The number of the first `len + 1` of a bit-string's bits, from that of the first `len`. -/
theorem numberOf_take_succ {l : List Bool} {len : Nat} (h : len < l.length) :
    numberOf (l.take (len + 1)) = 2 * numberOf (l.take len) + l[len].toNat := by
  rw [List.take_succ_eq_append_getElem h, numberOf_snoc]

theorem bitString_take (n len k : Nat) (h : k ≤ len) : (bitString n len).take k = bitString (n >>> (len - k)) k := by
  apply List.ext_getElem
  · simp [h]
  · intro i h1 h2
    rw [List.getElem_take, getElem_bitString, getElem_bitString, Nat.testBit_shiftRight]
    simp only [length_bitString] at h2
    congr 1
    omega

/-- The match loop on an input that has the bits read so far, and no code of the table among their beginnings: it
finds the entry whose code the input goes on with. -/
theorem huffLoop_finds {s : State} {t : List HuffEntry} {maxLen start : Nat} (ht : GoodTable t maxLen) {e : HuffEntry}
    (he : e ∈ t) {pos : Nat} (h : s.streamHas pos (bitString e.code e.len)) :
    ∀ more len, len < e.len → len + more + 1 = maxLen →
      s.huffLoop t start more (pos + len) (numberOf ((bitString e.code e.len).take len)) len
        = .ok (e.key, pos + e.len) := by
  obtain ⟨hl1, hl2, hcode⟩ := ht.lengths he
  have key : ∀ len (hlen : len < e.len),
      s.bitAt (pos + len) = .ok ((bitString e.code e.len)[len]'(by simpa using hlen)) ∧
      2 * numberOf ((bitString e.code e.len).take len) + ((bitString e.code e.len)[len]'(by simpa using hlen)).toNat
        = numberOf ((bitString e.code e.len).take (len + 1)) := by
    intro len hlen
    have h1 := h len (by simpa using hlen)
    exact ⟨by rw [bitAt_ok h1.1, h1.2], (numberOf_take_succ (by simpa using hlen)).symm⟩
  have hval : ∀ len, len ≤ e.len → numberOf ((bitString e.code e.len).take len) = e.code >>> (e.len - len) := by
    intro len hlen
    rw [bitString_take _ _ _ hlen, numberOf_bitString, Nat.mod_eq_of_lt]
    rw [Nat.shiftRight_eq_div_pow, Nat.div_lt_iff_lt_mul (by positivity), ← pow_add]
    have : len + (e.len - len) = e.len := by omega
    rw [this]
    exact hcode
  have hnone : ∀ len, len + 1 < e.len → huffKey t (numberOf ((bitString e.code e.len).take (len + 1))) (len + 1) = none := by
    intro len hlen
    apply huffKey_none
    rintro f hf ⟨hfl, hfc⟩
    have : f = e := ht.prefixes hf he (by
      simp only [HuffEntry.isPrefixOf, Bool.and_eq_true, decide_eq_true_eq, beq_iff_eq]
      rw [hval _ (by omega)] at hfc
      refine ⟨by omega, ?_⟩
      rw [hfl, hfc])
    subst this
    omega
  have hsome : ∀ len, len + 1 = e.len → huffKey t (numberOf ((bitString e.code e.len).take (len + 1))) (len + 1)
      = some e.key := by
    intro len hlen
    rw [hval _ (by omega), hlen]
    simpa using huffKey_some ht he
  intro more
  induction more with
  | zero =>
    intro len hlen hm
    obtain ⟨h1, h2⟩ := key len hlen
    have : len + 1 = e.len := by omega
    simp only [State.huffLoop, h1, h2, hsome len this]
    rw [Nat.add_assoc, this]
  | succ more ih =>
    intro len hlen hm
    obtain ⟨h1, h2⟩ := key len hlen
    by_cases hend : len + 1 = e.len
    · simp only [State.huffLoop, h1, h2, hsome len hend]
      rw [Nat.add_assoc, hend]
    · simp only [State.huffLoop, h1, h2, hnone len (by omega)]
      exact ih (len + 1) (by omega) (by omega)

/-- The match on an input that begins with a code of the table (R364). -/
theorem huffMatch_finds {s : State} {t : List HuffEntry} {maxLen : Nat} (ht : GoodTable t maxLen) {e : HuffEntry}
    (he : e ∈ t) {pos : Nat} (h : s.streamHas pos (bitString e.code e.len)) :
    s.huffMatch t maxLen pos = .ok (e.key, pos + e.len) := by
  obtain ⟨hl1, hl2, -⟩ := ht.lengths he
  exact huffLoop_finds ht he h (maxLen - 1) 0 (by omega) (by omega)

theorem huffLoop_fails {s : State} {t : List HuffEntry} {maxLen start : Nat}
    {pos : Nat} (hno : ∀ e ∈ t, ¬s.streamHas pos (bitString e.code e.len)) :
    ∀ more len, len + more + 1 = maxLen → (len = 0 ∨ pos + len ≤ 8 * s.bsLen.toNat) →
      s.huffLoop t start more (pos + len) (numberOf (s.streamBits pos len)) len
        = if pos + maxLen ≤ 8 * s.bsLen.toNat then raised .huffNomatch start
          else raised .bsUnderrun (s.firstUnreadable pos) := by
  have hnone : ∀ len, pos + len + 1 ≤ 8 * s.bsLen.toNat →
      huffKey t (2 * numberOf (s.streamBits pos len) + (s.streamBit (pos + len)).toNat) (len + 1) = none := by
    intro len hlen
    apply huffKey_none
    rintro f hf ⟨hfl, hfc⟩
    apply hno f hf
    have hb : bitString f.code f.len = s.streamBits pos (len + 1) := by
      have h1 : f.code = numberOf (s.streamBits pos (len + 1)) := by
        rw [hfc, State.streamBits, State.streamBits, List.range_succ, List.map_append, List.map_singleton, numberOf_snoc]
      have h2 := bitString_numberOf (s.streamBits pos (len + 1))
      rw [length_streamBits] at h2
      rw [hfl, h1, h2]
    rw [hb]
    exact streamHas_streamBits (.inr (by omega))
  have hstep : ∀ len, numberOf (s.streamBits pos (len + 1))
      = 2 * numberOf (s.streamBits pos len) + (s.streamBit (pos + len)).toNat := by
    intro len
    rw [State.streamBits, State.streamBits, List.range_succ, List.map_append, List.map_singleton, numberOf_snoc]
  intro more
  induction more with
  | zero =>
    intro len hm hl
    rcases Nat.lt_or_ge (pos + len) (8 * s.bsLen.toNat) with hp | hp
    · rw [if_pos (by omega)]
      simp only [State.huffLoop, bitAt_ok hp, hnone len (by omega)]
    · rw [if_neg (by omega)]
      have : s.firstUnreadable pos = pos + len := by unfold State.firstUnreadable; omega
      simp only [State.huffLoop, bitAt_end hp, this, raised]
  | succ more ih =>
    intro len hm hl
    rcases Nat.lt_or_ge (pos + len) (8 * s.bsLen.toNat) with hp | hp
    · simp only [State.huffLoop, bitAt_ok hp, hnone len (by omega)]
      rw [← hstep]
      exact ih (len + 1) (by omega) (.inr (by omega))
    · rw [if_neg (by omega)]
      have : s.firstUnreadable pos = pos + len := by unfold State.firstUnreadable; omega
      simp only [State.huffLoop, bitAt_end hp, this, raised]

/-- The match on an input that begins with no code of the table (R364): HUFF_NOMATCH where maxLen bits are there, else
BS_UNDERRUN. -/
theorem huffMatch_fails {s : State} {t : List HuffEntry} {maxLen : Nat} (hmax : 1 ≤ maxLen)
    {pos : Nat} (hno : ∀ e ∈ t, ¬s.streamHas pos (bitString e.code e.len)) :
    s.huffMatch t maxLen pos = if pos + maxLen ≤ 8 * s.bsLen.toNat then raised .huffNomatch pos
      else raised .bsUnderrun (s.firstUnreadable pos) :=
  huffLoop_fails hno (maxLen - 1) 0 (by omega) (.inl rfl)

/-- What the match gives, on every input. -/
theorem huffMatch_cases (s : State) {t : List HuffEntry} {maxLen : Nat} (ht : GoodTable t maxLen) (hmax : 1 ≤ maxLen)
    (pos : Nat) :
    (∃ e ∈ t, s.streamHas pos (bitString e.code e.len) ∧ s.huffMatch t maxLen pos = .ok (e.key, pos + e.len))
    ∨ (∀ e ∈ t, ¬s.streamHas pos (bitString e.code e.len))
      ∧ ∃ r : Raised, s.huffMatch t maxLen pos = .error r := by
  by_cases h : ∃ e ∈ t, s.streamHas pos (bitString e.code e.len)
  · obtain ⟨e, he, hs⟩ := h
    exact .inl ⟨e, he, hs, huffMatch_finds ht he hs⟩
  · have hno : ∀ e ∈ t, ¬s.streamHas pos (bitString e.code e.len) := fun e he hs => h ⟨e, he, hs⟩
    refine .inr ⟨hno, ?_⟩
    rw [huffMatch_fails hmax hno]
    split <;> exact ⟨_, rfl⟩

end Sys2Proof.Machine
end

