-- ==== Sys2Proof/Laws/SignedMag.lean ====
section
/-! SUPPORT. The laws of the category (spec/46_rle.md R320) and of the signed-magnitude code (48_signed_magnitude.md R400,
R401, R404). -/

namespace Sys2Proof.Machine

/-- `categoryOf` is the category of R320. -/
theorem categoryOf_isCategory (v : Int) : IsCategory v (categoryOf v) := by
  unfold categoryOf
  split
  · rename_i h
    subst h
    exact ⟨by simp, fun k _ => Nat.zero_le k⟩
  · rename_i h
    have hn : v.natAbs ≠ 0 := by omega
    refine ⟨Nat.lt_log2_self, fun k hk => ?_⟩
    exact Nat.succ_le_of_lt ((Nat.log2_lt hn).mpr hk)

theorem IsCategory.unique {v : Int} {m n : Nat} (hm : IsCategory v m) (hn : IsCategory v n) : m = n :=
  Nat.le_antisymm (hm.2 n hn.1) (hn.2 m hm.1)

theorem IsCategory.eq_categoryOf {v : Int} {m : Nat} (h : IsCategory v m) : m = categoryOf v :=
  h.unique (categoryOf_isCategory v)

theorem IsCategory.lower {v : Int} {m : Nat} (h : IsCategory v (m + 1)) : 2 ^ m ≤ v.natAbs := by
  by_contra hlt
  have := h.2 m (by omega)
  omega

theorem categoryOf_le (v : Word) : categoryOf v.toInt ≤ 32 := by
  apply (categoryOf_isCategory v.toInt).2
  have h1 := BitVec.toInt_lt (x := v)
  have h2 := BitVec.le_toInt (x := v)
  norm_num at h1 h2 ⊢
  omega

@[simp] theorem categoryOf_zero : categoryOf 0 = 0 := rfl

theorem isCategory_zero {v : Int} (h : IsCategory v 0) : v = 0 := by
  have := h.1
  simp at this
  omega

@[simp] theorem length_smBits (v : Int) (n : Nat) : (smBits v n).length = n := by
  unfold smBits
  split <;> simp

@[simp] theorem smBits_zero (v : Int) : smBits v 0 = [] := by
  unfold smBits
  split <;> rfl

theorem testBit_top {r n : Nat} (h : r < 2 ^ (n + 1)) : r.testBit n = decide (2 ^ n ≤ r) := by
  rcases Nat.lt_or_ge r (2 ^ n) with h1 | h1
  · rw [Nat.testBit_lt_two_pow h1]
    simp [h1]
  · have h2 : r / 2 ^ n = 1 := by
      have : r / 2 ^ n < 2 := (Nat.div_lt_iff_lt_mul (by positivity)).mpr (by rw [pow_succ] at h; omega)
      have : 1 ≤ r / 2 ^ n := (Nat.le_div_iff_mul_le (by positivity)).mpr (by omega)
      omega
    rw [Nat.testBit_eq_decide_div_mod_eq, h2]
    simp [h1]

/-- Reading back what was written, in the value's own category (R404). -/
theorem smValue_smBits {v : Int} {n : Nat} (h : IsCategory v n) : smValue (numberOf (smBits v n)) n = v := by
  cases n with
  | zero => simp [smValue, isCategory_zero h]
  | succ n =>
    have hlo := h.lower
    have hhi := h.1
    have hp : 2 ^ (n + 1) = 2 * 2 ^ n := by rw [pow_succ]; omega
    have hm : v.natAbs % 2 ^ (n + 1) = v.natAbs := Nat.mod_eq_of_lt hhi
    unfold smValue smBits
    rw [if_neg (by omega), Nat.add_sub_cancel, hm]
    by_cases hv : 0 ≤ v
    · rw [if_pos hv, numberOf_bitString, hm, testBit_top hhi, if_pos (by simpa using hlo)]
      omega
    · have hr : 2 ^ (n + 1) - 1 - v.natAbs < 2 ^ (n + 1) := by omega
      rw [if_neg hv, numberOf_bitString, Nat.mod_eq_of_lt hr, testBit_top hr, if_neg (by simp; omega)]
      omega

/-- What a read gives is a value of the category n (R401). -/
theorem smValue_isCategory {r n : Nat} (h : r < 2 ^ n) : IsCategory (smValue r n) n := by
  cases n with
  | zero => simpa [smValue] using categoryOf_isCategory 0
  | succ n =>
    have hp : 2 ^ (n + 1) = 2 * 2 ^ n := by rw [pow_succ]; omega
    unfold smValue
    rw [if_neg (by omega), Nat.add_sub_cancel, testBit_top h]
    have key : ∀ z : Int, z.natAbs < 2 ^ (n + 1) → 2 ^ n ≤ z.natAbs → IsCategory z (n + 1) := by
      intro z h1 h2
      refine ⟨h1, fun k hk => ?_⟩
      have : 2 ^ n < 2 ^ k := by omega
      exact Nat.succ_le_of_lt ((Nat.pow_lt_pow_iff_right (by norm_num)).mp this)
    by_cases ht : 2 ^ n ≤ r
    · rw [if_pos (by simpa using ht)]
      exact key _ (by omega) (by omega)
    · rw [if_neg (by simpa using ht)]
      exact key _ (by omega) (by omega)

/-- The code of R400 is the one the claims spell out bit by bit. -/
theorem smBits_eq_signedMagnitude (v : Int) (n : Nat) : smBits v n = signedMagnitude v n := by
  apply List.ext_getElem
  · simp [signedMagnitude]
  · intro i h1 h2
    rw [length_smBits] at h1
    have hR : (signedMagnitude v n)[i] = (v.natAbs.testBit (n - 1 - i) ^^ decide (v < 0)) := by
      simp [signedMagnitude]
    rw [hR]
    unfold smBits
    split
    · rename_i h
      rw [getElem_bitString, Nat.testBit_mod_two_pow]
      simp [show ¬v < 0 by omega]
      omega
    · rename_i h
      rw [getElem_bitString, show 2 ^ n - 1 - v.natAbs % 2 ^ n = 2 ^ n - (v.natAbs % 2 ^ n + 1) by omega,
        Nat.testBit_two_pow_sub_succ (Nat.mod_lt _ (by positivity)), Nat.testBit_mod_two_pow]
      simp [show v < 0 by omega, show n - 1 - i < n by omega]

/-- `sm_value` of a bit-string, by its first bit (R401). -/
theorem smValue_numberOf (bits : List Bool) :
    smValue (numberOf bits) bits.length = (match bits with
      | [] => (0 : Int)
      | true :: _ => numberOf bits
      | false :: _ => -((2 ^ bits.length - 1 - numberOf bits : Nat) : Int)) := by
  cases bits with
  | nil => rfl
  | cons b tl =>
    have ht : (numberOf (b :: tl)).testBit ((b :: tl).length - 1) = b := by
      have h2 := bitString_numberOf (b :: tl)
      have h0 : 0 < (bitString (numberOf (b :: tl)) (b :: tl).length).length := by simp
      have h3 : (bitString (numberOf (b :: tl)) (b :: tl).length)[0]? = some b := by rw [h2]; rfl
      rw [List.getElem?_eq_getElem h0, getElem_bitString] at h3
      simpa using h3
    unfold smValue
    rw [ht]
    cases b <;> simp

end Sys2Proof.Machine
end

