-- ==== Sys2Proof/Laws/Huffman.lean ====
section
/-! SUPPORT. The laws of a block's code: serialisation and parse (spec/47_huffman_bitstream.md R365, R366). -/

namespace Sys2Proof.Machine

/-! ### The used slots of a block, by recursion -/

/-- From position p on, `rest` is exactly the used slots of a block that ends (R365). -/
def EndsBlock : List Symbol → Nat → Prop
  | [], p => 64 ≤ p
  | y :: rest, p => p < 64 ∧ if y.isEob then rest = [] else EndsBlock rest (p + y.advance)

/-- From position p on, every slot of `rest` is used, none of them is an EOB, and p' is the position after them. -/
def OpenSlots : List Symbol → Nat → Nat → Prop
  | [], p, p' => p = p'
  | y :: rest, p, p' => p < 64 ∧ ¬y.isEob ∧ OpenSlots rest (p + y.advance) p'

theorem positionBefore_cons (dc : Symbol) (rest : List Symbol) (i : Nat) :
    positionBefore (dc :: rest) (i + 1) = 1 + ((rest.take i).map Symbol.advance).sum := by
  simp [positionBefore]

theorem endsBlock_of : ∀ {rest : List Symbol} {p : Nat},
    (∀ i, i < rest.length → (∀ j y, j < i → rest[j]? = some y → ¬y.isEob)
      ∧ p + ((rest.take i).map Symbol.advance).sum < 64) →
    ((∃ y, rest ≠ [] ∧ rest[rest.length - 1]? = some y ∧ y.isEob) ∨ 64 ≤ p + (rest.map Symbol.advance).sum) →
    EndsBlock rest p
  | [], p, _, hend => by
    rcases hend with ⟨y, h, -⟩ | h
    · exact absurd rfl h
    · simpa [EndsBlock] using h
  | y :: rest, p, huse, hend => by
    refine ⟨by simpa using (huse 0 (by simp)).2, ?_⟩
    by_cases he : y.isEob
    · rw [if_pos he]
      by_contra hne
      have hpos : 0 < rest.length := List.length_pos_iff.mpr hne
      exact (huse 1 (by simpa using hpos)).1 0 y (by omega) (by simp) he
    · rw [if_neg he]
      apply endsBlock_of
      · intro i hi
        obtain ⟨h1, h2⟩ := huse (i + 1) (by simpa using hi)
        refine ⟨fun j z hj hz => h1 (j + 1) z (by omega) (by simpa using hz), ?_⟩
        simpa [Nat.add_assoc] using h2
      · rcases hend with ⟨z, -, hz, hze⟩ | h
        · left
          have hne : rest ≠ [] := by
            rintro rfl
            simp only [List.length_singleton, Nat.sub_self, List.getElem?_cons_zero, Option.some.injEq] at hz
            subst hz
            exact he hze
          refine ⟨z, hne, ?_, hze⟩
          have hpos : 0 < rest.length := List.length_pos_iff.mpr hne
          have : (y :: rest).length - 1 = (rest.length - 1) + 1 := by simp; omega
          rw [this] at hz
          simpa using hz
        · right
          simpa [Nat.add_assoc] using h

/-- The slots of a block that ends at slot n (R365). -/
theorem BlockEndsAt.ends {dc : Symbol} {rest : List Symbol} {n : Nat} (h : BlockEndsAt (dc :: rest) n) :
    EndsBlock (rest.take (n - 1)) 1 := by
  obtain ⟨h1, h2, h3, h4⟩ := h
  simp only [List.length_cons] at h2
  have hlen : (rest.take (n - 1)).length = n - 1 := by simp; omega
  apply endsBlock_of
  · intro i hi
    rw [hlen] at hi
    obtain ⟨-, -, h5, h6⟩ := h3 (i + 1) (by omega) (by omega)
    refine ⟨fun j y hj hy => ?_, ?_⟩
    · rw [List.getElem?_take_of_lt (by omega)] at hy
      exact h5 (j + 1) y (by omega) (by omega) (by simpa using hy)
    · rw [positionBefore_cons] at h6
      rwa [List.take_take, Nat.min_eq_left (by omega)]
  · rcases h4 with ⟨h5, y, hy, he⟩ | h5
    · left
      refine ⟨y, ?_, ?_, he⟩
      · intro h0
        rw [h0] at hlen
        simp at hlen
        omega
      · rw [hlen, List.getElem?_take_of_lt (by omega)]
        have : n - 1 = (n - 1 - 1) + 1 := by omega
        rw [this] at hy
        simpa using hy
    · right
      have : n = (n - 1) + 1 := by omega
      rw [this, positionBefore_cons] at h5
      exact h5

/-- Slots before a used slot, or before the end of a buffer that does not end, are open. -/
theorem openSlots_of : ∀ {rest : List Symbol} {p : Nat},
    (∀ i, i < rest.length → p + ((rest.take i).map Symbol.advance).sum < 64) →
    (∀ (j : Nat) (y : Symbol), rest[j]? = some y → ¬y.isEob) →
    OpenSlots rest p (p + (rest.map Symbol.advance).sum)
  | [], p, _, _ => by simp [OpenSlots]
  | y :: rest, p, hpos, heob => by
    refine ⟨by simpa using hpos 0 (by simp), heob 0 y (by simp), ?_⟩
    have := openSlots_of (rest := rest) (p := p + y.advance) (fun i hi => by
      have := hpos (i + 1) (by simpa using hi)
      simpa [Nat.add_assoc] using this) (fun j z hz => heob (j + 1) z (by simpa using hz))
    simpa [Nat.add_assoc] using this

/-! ### Serialisation -/

theorem keyWord_fields (y : Symbol) : keyWord y.skip y.cat % 16 = y.skip.toNat ∧ keyWord y.skip y.cat / 16 = y.cat.toNat := by
  have := y.skip.isLt
  unfold keyWord
  omega

theorem advance_zrl {y : Symbol} (h : y.isZrl) : y.advance = 16 := by
  unfold Symbol.advance
  rw [if_pos h]

theorem advance_other {y : Symbol} (h : ¬y.isZrl) : y.advance = y.skip.toNat + 1 := by
  unfold Symbol.advance
  rw [if_neg h]

/-- The bits of coded slots (R365). -/
def slotBits (rest : List Symbol) (codes : List (List Bool)) : List Bool :=
  ((rest.zip codes).map fun p => p.2 ++ p.1.magnitude).flatten

@[simp] theorem slotBits_cons (y : Symbol) (rest : List Symbol) (c : List Bool) (codes : List (List Bool)) :
    slotBits (y :: rest) (c :: codes) = c ++ y.magnitude ++ slotBits rest codes := by
  simp [slotBits]

@[simp] theorem slotBits_nil : slotBits [] [] = [] := rfl

theorem eob_not_zrl {y : Symbol} (h : y.isEob) : ¬y.isZrl := by
  rintro ⟨h1, -⟩
  rw [h.1] at h1
  exact absurd h1 (by decide)

/-- Open slots that all have codes are coded, and the serialisation goes on after them. -/
theorem acBits_open {t : List HuffEntry} {maxLen : Nat} (ht : GoodTable t maxLen) (len : Nat) :
    ∀ {rest : List Symbol} {codes : List (List Bool)} {p p' : Nat} (tail : List Symbol) (i : Nat), OpenSlots rest p p' →
      List.Forall₂ (fun y code => HasCode t (keyWord y.skip y.cat) code) rest codes →
      acBits t len (rest ++ tail) i p = (acBits t len tail (i + rest.length) p').map (slotBits rest codes ++ ·)
  | [], [], p, p', tail, i, ho, _ => by
    simp only [OpenSlots] at ho
    subst ho
    cases h : acBits t len tail i p <;> simp [h, Except.map]
  | y :: rest, c :: codes, p, p', tail, i, ho, hc => by
    obtain ⟨hp, he, ho⟩ := ho
    obtain ⟨hc1, hc2⟩ := List.forall₂_cons.mp hc
    rw [List.cons_append, acBits, if_neg (by omega)]
    simp only [huffCode_of ht hc1]
    rw [if_neg he]
    have hlen : i + (y :: rest).length = (i + 1) + rest.length := by simp; omega
    by_cases hz : y.isZrl
    · have := acBits_open ht len tail (i + 1) ho hc2
      rw [advance_zrl hz] at this
      rw [if_pos hz, this, hlen]
      have hm : y.magnitude = [] := by unfold Symbol.magnitude; rw [if_pos (.inr hz)]
      cases acBits t len tail (i + 1 + rest.length) p' <;> simp [Except.map, hm]
    · have := acBits_open ht len tail (i + 1) ho hc2
      rw [advance_other hz, ← Nat.add_assoc] at this
      rw [if_neg hz, this, hlen]
      have hm : y.magnitude = smBits y.value.toInt y.cat.toNat := by
        unfold Symbol.magnitude
        rw [if_neg (by rintro (h | h) <;> contradiction)]
      cases acBits t len tail (i + 1 + rest.length) p' <;> simp [Except.map, hm]

/-- The used slots of a block that ends are coded, and what follows them is not looked at (R365). -/
theorem acBits_ends {t : List HuffEntry} {maxLen : Nat} (ht : GoodTable t maxLen) (len : Nat) :
    ∀ {rest : List Symbol} {codes : List (List Bool)} {p : Nat} (tail : List Symbol) (i : Nat), EndsBlock rest p →
      List.Forall₂ (fun y code => HasCode t (keyWord y.skip y.cat) code) rest codes →
      acBits t len (rest ++ tail) i p = .ok (slotBits rest codes)
  | [], [], p, tail, i, he, _ => by
    simp only [EndsBlock] at he
    cases tail with
    | nil => simp [acBits, he]
    | cons y tail => simp [acBits, he]
  | y :: rest, c :: codes, p, tail, i, he, hc => by
    obtain ⟨hp, he⟩ := he
    obtain ⟨hc1, hc2⟩ := List.forall₂_cons.mp hc
    rw [List.cons_append, acBits, if_neg (by omega)]
    simp only [huffCode_of ht hc1]
    by_cases heob : y.isEob
    · rw [if_pos heob] at he
      subst he
      cases hc2
      rw [if_pos heob]
      have hm : y.magnitude = [] := by unfold Symbol.magnitude; rw [if_pos (.inl heob)]
      simp [hm]
    · rw [if_neg heob] at he
      rw [if_neg heob]
      have := acBits_ends ht len tail (i + 1) he hc2
      by_cases hz : y.isZrl
      · rw [advance_zrl hz] at this
        rw [if_pos hz, this]
        have hm : y.magnitude = [] := by unfold Symbol.magnitude; rw [if_pos (.inr hz)]
        simp [Except.map, hm]
      · rw [advance_other hz, ← Nat.add_assoc] at this
        rw [if_neg hz, this]
        have hm : y.magnitude = smBits y.value.toInt y.cat.toNat := by
          unfold Symbol.magnitude
          rw [if_neg (by rintro (h | h) <;> contradiction)]
        simp [Except.map, hm]

/-- A slot whose key has no entry is missed, when it is reached (R365). -/
theorem acBits_miss {t : List HuffEntry} {len i p : Nat} {y : Symbol} {tail : List Symbol} (hp : p < 64)
    (h : NoCode t (keyWord y.skip y.cat)) :
    acBits t len (y :: tail) i p = raised .tableMiss (65536 * i + keyWord y.skip y.cat) := by
  rw [acBits, if_neg (by omega)]
  simp only [huffCode_none h]

/-- The code of a whole block, which may stand before other slots (R365). -/
theorem blockBits_codes {c : Config} (hc : c.wf = true) {buf tail : List Symbol} {bits : List Bool}
    (hends : BlockEndsAt (buf ++ tail) buf.length) (h : CodesBlock c buf bits) (len : Nat) :
    blockBits c (buf ++ tail) len = .ok bits := by
  obtain ⟨dc, rest, dcCode, codes, rfl, hdc, hrest, rfl⟩ := h
  have he : EndsBlock rest 1 := by
    have := BlockEndsAt.ends (rest := rest ++ tail) hends
    rwa [List.length_cons, Nat.add_sub_cancel, List.take_left' rfl] at this
  rw [List.cons_append, blockBits]
  simp only [huffCode_of (dcTable_good hc) hdc]
  rw [acBits_ends (acTable_good hc) len tail 1 he hrest]
  simp [Except.map, slotBits]

/-! ### Parse -/

theorem symbol_of_fields {y : Symbol} {r : Nat} (hv : smValue r y.cat.toNat = y.value.toInt) :
    (⟨BitVec.ofNat 4 (keyWord y.skip y.cat % 16), BitVec.ofNat 6 (keyWord y.skip y.cat / 16),
      BitVec.ofInt 32 (smValue r (keyWord y.skip y.cat / 16))⟩ : Symbol) = y := by
  rw [(keyWord_fields y).1, (keyWord_fields y).2, hv]
  simp

theorem eq_eobSymbol {y : Symbol} (h : y.isEob) (hc : IsCategory y.value.toInt y.cat.toNat) : y = eobSymbol := by
  obtain ⟨skip, cat, value⟩ := y
  obtain ⟨h1, h2⟩ := h
  simp only at h1 h2 hc
  subst h1 h2
  have hv : value = 0 := BitVec.eq_of_toInt_eq (by rw [isCategory_zero hc]; rfl)
  subst hv
  rfl

theorem eq_zrlSymbol {y : Symbol} (h : y.isZrl) (hc : IsCategory y.value.toInt y.cat.toNat) : y = zrlSymbol := by
  obtain ⟨skip, cat, value⟩ := y
  obtain ⟨h1, h2⟩ := h
  simp only at h1 h2 hc
  subst h1 h2
  have hv : value = 0 := BitVec.eq_of_toInt_eq (by rw [isCategory_zero hc]; rfl)
  subst hv
  rfl

/-- The parse of the used slots of a block that ends (R366). -/
theorem acParse_codes {s : State} (hc : s.cfg.wf = true) :
    ∀ {rest : List Symbol} {codes : List (List Bool)} {p pos : Nat} (fuel : Nat), 64 ≤ fuel + p → EndsBlock rest p →
      List.Forall₂ (fun y code => HasCode s.cfg.hufAc (keyWord y.skip y.cat) code) rest codes →
      (∀ y ∈ rest, IsCategory y.value.toInt y.cat.toNat) →
      s.streamHas pos (slotBits rest codes) →
      s.acParse fuel pos p = .ok (rest, pos + (slotBits rest codes).length)
  | [], [], p, pos, fuel, hf, he, _, _, _ => by
    simp only [EndsBlock] at he
    cases fuel with
    | zero => simp [State.acParse]
    | succ fuel => simp [State.acParse, he]
  | y :: rest, c :: codes, p, pos, fuel, hf, he, hcodes, hcat, hs => by
    obtain ⟨hp, he⟩ := he
    obtain ⟨⟨e, het, hek, hec⟩, hc2⟩ := List.forall₂_cons.mp hcodes
    rw [slotBits_cons, streamHas_append, streamHas_append] at hs
    obtain ⟨⟨hs1, hs2⟩, hs3⟩ := hs
    have hcy := hcat y (by simp)
    have hclen : c.length = e.len := by rw [hec]; simp
    obtain ⟨fuel, rfl⟩ : ∃ f, fuel = f + 1 := ⟨fuel - 1, by omega⟩
    rw [State.acParse, if_neg (by omega)]
    rw [hec] at hs1
    simp only [huffMatch_finds (acTable_good hc) het hs1, hek]
    obtain ⟨k1, k2⟩ := keyWord_fields y
    by_cases heob : y.isEob
    · rw [if_pos heob] at he
      subst he
      cases hc2
      have h0 : y.skip.toNat = 0 ∧ y.cat.toNat = 0 := by rw [heob.1, heob.2]; exact ⟨rfl, rfl⟩
      have hy : y = eobSymbol := eq_eobSymbol heob hcy
      have hm : y.magnitude = [] := by unfold Symbol.magnitude; rw [if_pos (.inl heob)]
      rw [k1, k2, if_pos h0]
      rw [slotBits_cons, slotBits_nil, hm, List.append_nil, List.append_nil, hclen, hy]
    · have hne : ¬(y.skip.toNat = 0 ∧ y.cat.toNat = 0) := by
        rintro ⟨h1, h2⟩
        exact heob ⟨BitVec.eq_of_toNat_eq (by rw [h1]; rfl), BitVec.eq_of_toNat_eq (by rw [h2]; rfl)⟩
      rw [if_neg heob] at he
      rw [k1, k2, if_neg hne]
      by_cases hz : y.isZrl
      · have h15 : y.skip.toNat = 15 ∧ y.cat.toNat = 0 := by rw [hz.1, hz.2]; exact ⟨rfl, rfl⟩
        have hy : y = zrlSymbol := eq_zrlSymbol hz hcy
        have hm : y.magnitude = [] := by unfold Symbol.magnitude; rw [if_pos (.inr hz)]
        rw [advance_zrl hz] at he
        rw [hm] at hs3
        rw [List.append_nil, hclen] at hs3
        have ih := acParse_codes hc fuel (by omega) he hc2 (fun z hz' => hcat z (by simp [hz'])) hs3
        rw [if_pos h15, ih]
        simp only [Except.map, slotBits_cons, hm, List.length_append, hclen, List.length_nil, ← hy]
        congr 2
        omega
      · have hn15 : ¬(y.skip.toNat = 15 ∧ y.cat.toNat = 0) := by
          rintro ⟨h1, h2⟩
          exact hz ⟨BitVec.eq_of_toNat_eq (by rw [h1]; rfl), BitVec.eq_of_toNat_eq (by rw [h2]; rfl)⟩
        have hm : y.magnitude = smBits y.value.toInt y.cat.toNat := by
          unfold Symbol.magnitude
          rw [if_neg (by rintro (h | h) <;> contradiction)]
        rw [hm] at hs2 hs3
        rw [hclen] at hs2
        rw [List.length_append, hclen, length_smBits, ← Nat.add_assoc] at hs3
        rw [advance_other hz, ← Nat.add_assoc] at he
        have hr := bitRead_has_zero hs2
        rw [length_smBits] at hr
        have ih := acParse_codes hc fuel (by omega) he hc2 (fun z hz' => hcat z (by simp [hz'])) hs3
        have hsym := symbol_of_fields (smValue_smBits hcy)
        rw [k1, k2] at hsym
        rw [if_neg hn15, hr]
        simp only [ih, Except.map, hsym, slotBits_cons, hm, List.length_append, hclen, length_smBits]
        congr 2
        omega

/-- The parse of a whole block's code (R366). -/
theorem blockParse_codes {s : State} (hc : s.cfg.wf = true) {buf : List Symbol} {bits : List Bool}
    (hends : BlockEndsAt buf buf.length) (h : CodesBlock s.cfg buf bits)
    (hp : ∀ i y, buf[i]? = some y → ParsedSymbol i y) (hs : s.streamHas s.readPos bits) :
    s.blockParse = .ok (buf, s.readPos + bits.length) := by
  obtain ⟨dc, rest, dcCode, codes, rfl, ⟨e, het, hek, hec⟩, hrest, rfl⟩ := h
  have he := hends.ends
  simp only [List.length_cons, Nat.add_sub_cancel, List.take_length] at he
  have hcat : ∀ y ∈ rest, IsCategory y.value.toInt y.cat.toNat := by
    intro y hy
    obtain ⟨i, hi, rfl⟩ := List.getElem_of_mem hy
    exact (hp (i + 1) rest[i] (by simp)).2
  obtain ⟨hskip, hcdc⟩ := hp 0 dc (by simp)
  rw [streamHas_append, streamHas_append] at hs
  obtain ⟨⟨hs1, hs2⟩, hs3⟩ := hs
  have hclen : dcCode.length = e.len := by rw [hec]; simp
  rw [hec] at hs1
  rw [hclen] at hs2
  rw [List.length_append, hclen, length_smBits, ← Nat.add_assoc] at hs3
  have hr := bitRead_has_zero hs2
  rw [length_smBits] at hr
  have ih := acParse_codes hc 64 (by omega) he hrest hcat hs3
  unfold State.blockParse
  rw [huffMatch_finds (dcTable_good hc) het hs1]
  simp only [hek, hr, ih, Except.map, smValue_smBits hcdc]
  have hdc : (⟨0, BitVec.ofNat 6 dc.cat.toNat, BitVec.ofInt 32 dc.value.toInt⟩ : Symbol) = dc := by
    cases dc
    have := hskip rfl
    simp_all
  rw [hdc]
  congr 2
  simp only [slotBits, List.length_append, hclen, length_smBits]
  omega

theorem except_map_map {ε α β γ : Type} (x : Except ε α) (g : α → β) (h : β → γ) : (x.map g).map h = x.map (h ∘ g) := by
  cases x <;> rfl

/-- The parse goes on after open slots: with the turns left, from the position after their code (R366). -/
theorem acParse_open {s : State} (hc : s.cfg.wf = true) :
    ∀ {rest : List Symbol} {codes : List (List Bool)} {p p' pos : Nat} (fuel : Nat), 64 ≤ fuel + p → OpenSlots rest p p' →
      List.Forall₂ (fun y code => HasCode s.cfg.hufAc (keyWord y.skip y.cat) code) rest codes →
      s.streamHas pos (slotBits rest codes) →
      ∃ fuel' g, 64 ≤ fuel' + p' ∧
        s.acParse fuel pos p = (s.acParse fuel' (pos + (slotBits rest codes).length) p').map g
  | [], [], p, p', pos, fuel, hf, ho, _, _ => by
    simp only [OpenSlots] at ho
    subst ho
    refine ⟨fuel, id, hf, ?_⟩
    simp only [slotBits_nil, List.length_nil, Nat.add_zero]
    cases s.acParse fuel pos p <;> rfl
  | y :: rest, c :: codes, p, p', pos, fuel, hf, ho, hcodes, hs => by
    obtain ⟨hp, heob, ho⟩ := ho
    obtain ⟨⟨e, het, hek, hec⟩, hc2⟩ := List.forall₂_cons.mp hcodes
    rw [slotBits_cons, streamHas_append, streamHas_append] at hs
    obtain ⟨⟨hs1, hs2⟩, hs3⟩ := hs
    have hclen : c.length = e.len := by rw [hec]; simp
    obtain ⟨fuel, rfl⟩ : ∃ f, fuel = f + 1 := ⟨fuel - 1, by omega⟩
    rw [hec] at hs1
    obtain ⟨k1, k2⟩ := keyWord_fields y
    have hne : ¬(y.skip.toNat = 0 ∧ y.cat.toNat = 0) := by
      rintro ⟨h1, h2⟩
      exact heob ⟨BitVec.eq_of_toNat_eq (by rw [h1]; rfl), BitVec.eq_of_toNat_eq (by rw [h2]; rfl)⟩
    rw [State.acParse, if_neg (by omega)]
    simp only [huffMatch_finds (acTable_good hc) het hs1, hek, k1, k2]
    rw [if_neg hne]
    by_cases hz : y.isZrl
    · have h15 : y.skip.toNat = 15 ∧ y.cat.toNat = 0 := by rw [hz.1, hz.2]; exact ⟨rfl, rfl⟩
      have hm : y.magnitude = [] := by unfold Symbol.magnitude; rw [if_pos (.inr hz)]
      rw [advance_zrl hz] at ho
      rw [hm, List.append_nil, hclen] at hs3
      obtain ⟨fuel', g, hf', ih⟩ := acParse_open hc fuel (by omega) ho hc2 hs3
      rw [if_pos h15, ih, except_map_map, slotBits_cons, hm, List.append_nil, List.length_append, hclen, Nat.add_assoc]
      exact ⟨fuel', _, hf', rfl⟩
    · have hn15 : ¬(y.skip.toNat = 15 ∧ y.cat.toNat = 0) := by
        rintro ⟨h1, h2⟩
        exact hz ⟨BitVec.eq_of_toNat_eq (by rw [h1]; rfl), BitVec.eq_of_toNat_eq (by rw [h2]; rfl)⟩
      have hm : y.magnitude = smBits y.value.toInt y.cat.toNat := by
        unfold Symbol.magnitude
        rw [if_neg (by rintro (h | h) <;> contradiction)]
      rw [hm] at hs2 hs3
      rw [hclen] at hs2
      rw [List.length_append, hclen, length_smBits, ← Nat.add_assoc] at hs3
      rw [advance_other hz, ← Nat.add_assoc] at ho
      have hr := bitRead_has_zero hs2
      rw [length_smBits] at hr
      obtain ⟨fuel', g, hf', ih⟩ := acParse_open hc fuel (by omega) ho hc2 hs3
      simp only [if_neg hn15, hr]
      rw [ih, except_map_map, slotBits_cons, hm, List.length_append, List.length_append, hclen, length_smBits, ← Nat.add_assoc,
        ← Nat.add_assoc]
      exact ⟨fuel', _, hf', rfl⟩

/-- The parse goes on after the first symbols of a block that goes on (R366): the first turn of what is left is at a
position below 64. -/
theorem blockParse_open {s : State} (hc : s.cfg.wf = true) {buf : List Symbol} {bits : List Bool} (hne : buf ≠ [])
    (h : CodesOpenBlock s.cfg buf bits) (hs : s.streamHas s.readPos bits) :
    ∃ fuel p g, p < 64 ∧ s.blockParse = (s.acParse (fuel + 1) (s.readPos + bits.length) p).map g := by
  rcases h with ⟨h, -⟩ | ⟨⟨dc, rest, dcCode, codes, rfl, ⟨e, het, hek, hec⟩, hrest, rfl⟩, hnoEob, hpos⟩
  · exact absurd h hne
  have hopen : OpenSlots rest 1 (1 + (rest.map Symbol.advance).sum) := by
    rw [List.length_cons, positionBefore_cons, List.take_length] at hpos
    refine openSlots_of (fun k hk => ?_) fun j y hy => hnoEob (j + 1) y (by omega) (by simpa using hy)
    have hsplit : (rest.map Symbol.advance).sum
        = ((rest.take k).map Symbol.advance).sum + ((rest.drop k).map Symbol.advance).sum := by
      rw [← List.sum_append, ← List.map_append, List.take_append_drop]
    omega
  rw [List.length_cons, positionBefore_cons, List.take_length] at hpos
  rw [streamHas_append, streamHas_append] at hs
  obtain ⟨⟨hs1, hs2⟩, hs3⟩ := hs
  have hclen : dcCode.length = e.len := by rw [hec]; simp
  rw [hec] at hs1
  rw [hclen] at hs2
  rw [List.length_append, hclen, length_smBits, ← Nat.add_assoc] at hs3
  have hr := bitRead_has_zero hs2
  rw [length_smBits] at hr
  obtain ⟨fuel, g, hf, ih⟩ := acParse_open hc 64 (by omega) hopen hrest hs3
  obtain ⟨fuel, rfl⟩ : ∃ f, fuel = f + 1 := ⟨fuel - 1, by omega⟩
  rw [List.length_append, List.length_append, hclen, length_smBits, ← Nat.add_assoc, ← Nat.add_assoc]
  unfold State.blockParse
  rw [huffMatch_finds (dcTable_good hc) het hs1]
  simp only [hek, hr]
  rw [ih, except_map_map]
  exact ⟨fuel, _, _, hpos, rfl⟩

end Sys2Proof.Machine
end

