-- ==== Sys2Proof/Laws/Rle.lean ====
section
/-! SUPPORT. The laws of run-length coding: what RLEENC writes, what RLEDEC reads, the round trip (spec/46_rle.md R323,
R325, R327). -/

namespace Sys2Proof.Machine

/-! ### Sizes -/

theorem advance_pos (y : Symbol) : 1 ≤ y.advance := by
  unfold Symbol.advance
  split <;> omega

theorem length_le_advance (l : List Symbol) : l.length ≤ (l.map Symbol.advance).sum := by
  induction l with
  | nil => simp
  | cons y l ih =>
    have := advance_pos y
    simp only [List.length_cons, List.map_cons, List.sum_cons]
    omega

theorem endsBlock_length : ∀ {rest : List Symbol} {p : Nat}, 1 ≤ p → EndsBlock rest p → rest.length + p ≤ 64 ∨ rest = []
  | [], _, _, _ => .inr rfl
  | y :: rest, p, hp, h => by
    left
    obtain ⟨h1, h2⟩ := h
    by_cases he : y.isEob
    · rw [if_pos he] at h2
      subst h2
      simp
      omega
    · rw [if_neg he] at h2
      have := advance_pos y
      rcases endsBlock_length (p := p + y.advance) (by omega) h2 with h3 | h3
      · simp only [List.length_cons]
        omega
      · subst h3
        simp
        omega

/-- A block that ends has at most 64 symbols. -/
theorem blockEnds_length {buf : List Symbol} (h : BlockEndsAt buf buf.length) : buf.length ≤ 64 := by
  cases buf with
  | nil => simp
  | cons dc rest =>
    have he := h.ends
    simp only [List.length_cons, Nat.add_sub_cancel, List.take_length] at he
    rcases endsBlock_length (by omega) he with h1 | h1
    · simp only [List.length_cons]; omega
    · subst h1; simp

/-! ### The symbol buffer -/

theorem rlebuf_getElem (s : State) {i : Nat} (h : i < 64) : s.rlebuf.toList[i]? = some (nth s.rlebuf i) := by
  have : i < s.rlebuf.toList.length := by simpa using h
  simp [nth, List.getD_eq_getElem?_getD, List.getElem?_eq_getElem this]

/-- The symbols after a list of at most 64 was put into the buffer. -/
theorem symbols_setSymbols (s : State) {out : List Symbol} (h : out.length ≤ 64) :
    (s.setSymbols out).symbols = out := by
  unfold State.symbols
  rw [State.setSymbols_rleLen]
  have hl : (BitVec.ofNat 7 out.length).toNat = out.length := by
    rw [BitVec.toNat_ofNat]; omega
  rw [hl]
  apply List.ext_getElem?
  intro i
  rw [List.getElem?_take]
  split
  · rename_i hi
    rw [rlebuf_getElem _ (by omega), State.setSymbols_rlebuf, nth_blockOf _ _ (by omega), if_pos hi]
    simp [List.getD_eq_getElem?_getD, hi]
  · rw [List.getElem?_eq_none (by omega)]

/-! ### Encoding -/

/-- The coefficients a symbol of slot ≥ 1 stands for. -/
def Symbol.expand (y : Symbol) : List Word :=
  if y.isZrl then List.replicate 16 0 else List.replicate y.skip.toNat 0 ++ [y.value]

@[simp] theorem length_expand (y : Symbol) : y.expand.length = y.advance := by
  unfold Symbol.expand Symbol.advance
  split <;> simp

/-- A symbol as RLEENC emits it for the AC positions, EOB apart. -/
def GoodSlot (y : Symbol) : Prop := y = zrlSymbol ∨ ∃ skip v, skip < 16 ∧ v ≠ 0 ∧ y = valueSymbol skip v

theorem zrl_isZrl : zrlSymbol.isZrl := ⟨rfl, rfl⟩

theorem valueSymbol_cat {skip : Nat} {v : Word} : (valueSymbol skip v).cat.toNat = categoryOf v.toInt := by
  have := categoryOf_le v
  unfold valueSymbol
  rw [BitVec.toNat_ofNat]
  omega

theorem valueSymbol_skip {skip : Nat} (h : skip < 16) {v : Word} : (valueSymbol skip v).skip.toNat = skip := by
  unfold valueSymbol
  rw [BitVec.toNat_ofNat]
  omega

theorem toInt_ne_zero {v : Word} (h : v ≠ 0) : v.toInt ≠ 0 := by
  intro h0
  exact h (BitVec.eq_of_toInt_eq (by rw [h0]; rfl))

theorem valueSymbol_cat_ne {skip : Nat} {v : Word} (h : v ≠ 0) : (valueSymbol skip v).cat ≠ 0 := by
  intro h0
  have h1 := valueSymbol_cat (skip := skip) (v := v)
  rw [h0] at h1
  have := categoryOf_isCategory v.toInt
  rw [← h1] at this
  exact toInt_ne_zero h (isCategory_zero this)

theorem valueSymbol_not_zrl {skip : Nat} {v : Word} (h : v ≠ 0) : ¬(valueSymbol skip v).isZrl :=
  fun hz => valueSymbol_cat_ne h hz.2

theorem valueSymbol_not_eob {skip : Nat} {v : Word} (h : v ≠ 0) : ¬(valueSymbol skip v).isEob :=
  fun hz => valueSymbol_cat_ne h hz.2

theorem expand_zrl : zrlSymbol.expand = List.replicate 16 0 := by
  unfold Symbol.expand
  rw [if_pos zrl_isZrl]

theorem expand_value {skip : Nat} (hs : skip < 16) {v : Word} (h : v ≠ 0) :
    (valueSymbol skip v).expand = List.replicate skip 0 ++ [v] := by
  unfold Symbol.expand
  rw [if_neg (valueSymbol_not_zrl h), valueSymbol_skip hs]
  rfl

theorem GoodSlot.not_eob {y : Symbol} (h : GoodSlot y) : ¬y.isEob := by
  rcases h with rfl | ⟨skip, v, -, hv, rfl⟩
  · rintro ⟨h, -⟩
    exact absurd h (by decide)
  · exact valueSymbol_not_eob hv

/-- What the scan emits stands for the coefficients scanned, up to a pending run of zeros. -/
theorem rleScan_spec : ∀ (l : List Word) (skip : Nat), skip < 16 →
    (∀ y ∈ rleScan l skip, GoodSlot y) ∧
    ∃ r, (rleScan l skip).flatMap Symbol.expand ++ List.replicate r 0 = List.replicate skip 0 ++ l
  | [], skip, _ => ⟨by simp [rleScan], skip, by simp [rleScan]⟩
  | v :: rest, skip, hs => by
    rw [rleScan]
    by_cases hv : v = 0
    · rw [if_pos hv]
      subst hv
      have hrep : ∀ m : List Word, List.replicate skip 0 ++ 0 :: m = List.replicate (skip + 1) 0 ++ m := by
        intro m
        rw [List.replicate_succ', List.append_assoc]
        rfl
      by_cases h16 : skip + 1 = 16
      · obtain ⟨h1, r, h2⟩ := rleScan_spec rest 0 (by omega)
        rw [if_pos h16]
        refine ⟨by rintro y (_ | ⟨_, hy⟩); exacts [.inl rfl, h1 y hy], r, ?_⟩
        rw [List.flatMap_cons, expand_zrl, List.append_assoc, h2, hrep, h16]
        rfl
      · obtain ⟨h1, r, h2⟩ := rleScan_spec rest (skip + 1) (by omega)
        rw [if_neg h16]
        exact ⟨h1, r, by rw [h2, hrep]⟩
    · obtain ⟨h1, r, h2⟩ := rleScan_spec rest 0 (by omega)
      rw [if_neg hv]
      refine ⟨by rintro y (_ | ⟨_, hy⟩); exacts [.inr ⟨skip, v, hs, hv, rfl⟩, h1 y hy], r, ?_⟩
      rw [List.flatMap_cons, expand_value hs hv, List.append_assoc, h2]
      simp

/-- Trimming removes ZRLs from the end, and leaves none there. -/
theorem trimZrl_spec (l : List Symbol) :
    ∃ n, l = trimZrl l ++ List.replicate n zrlSymbol ∧ ∀ y, (trimZrl l).getLast? = some y → y ≠ zrlSymbol := by
  refine ⟨(l.reverse.takeWhile (· == zrlSymbol)).length, ?_, ?_⟩
  · have h1 : l.reverse.takeWhile (· == zrlSymbol)
        = List.replicate (l.reverse.takeWhile (· == zrlSymbol)).length zrlSymbol := by
      apply List.eq_replicate_of_mem
      intro y hy
      simpa using List.mem_takeWhile_imp hy
    have h2 := congrArg List.reverse (List.takeWhile_append_dropWhile (p := (· == zrlSymbol)) (l := l.reverse))
    rw [List.reverse_append, List.reverse_reverse, h1, List.reverse_replicate] at h2
    simpa [trimZrl] using h2.symm
  · intro y hy
    unfold trimZrl at hy
    rw [List.getLast?_reverse] at hy
    intro hz
    have := List.head?_dropWhile_not (· == zrlSymbol) l.reverse
    rw [hy] at this
    simp [hz] at this

theorem flatMap_replicate_zrl (n : Nat) :
    (List.replicate n zrlSymbol).flatMap Symbol.expand = List.replicate (16 * n) (0 : Word) := by
  induction n with
  | zero => rfl
  | succ n ih =>
    rw [List.replicate_succ, List.flatMap_cons, ih, expand_zrl, List.replicate_append_replicate]
    congr 1
    omega

/-- The AC slots of the encoding, EOB apart: the coefficients 1..63 are what they stand for, then zeros. -/
theorem rleEncode_slots (v : Block Word) :
    ∃ (slots : List Symbol) (r : Nat), (∀ y ∈ slots, GoodSlot y)
      ∧ v.toList.drop 1 = slots.flatMap Symbol.expand ++ List.replicate r 0
      ∧ (nth v 63 = 0 → rleEncode v = valueSymbol 0 (nth v 0) :: (slots ++ [eobSymbol])
          ∧ ∀ y, slots.getLast? = some y → y ≠ zrlSymbol)
      ∧ (nth v 63 ≠ 0 → rleEncode v = valueSymbol 0 (nth v 0) :: slots ∧ r = 0) := by
  obtain ⟨hg, r, hr⟩ := rleScan_spec (v.toList.drop 1) 0 (by omega)
  simp only [List.replicate_zero, List.nil_append] at hr
  by_cases h63 : nth v 63 = 0
  · obtain ⟨n, hn, hlast⟩ := trimZrl_spec (rleScan (v.toList.drop 1) 0)
    refine ⟨trimZrl (rleScan (v.toList.drop 1) 0), 16 * n + r, fun y hy => hg y ?_, ?_, fun _ => ⟨?_, hlast⟩,
      fun h => absurd h63 h⟩
    · rw [hn]
      exact List.mem_append_left _ hy
    · refine hr.symm.trans ?_
      rw [congrArg (List.flatMap Symbol.expand) hn, List.flatMap_append, flatMap_replicate_zrl, List.append_assoc,
        List.replicate_append_replicate]
    · simp only [rleEncode, if_pos h63]
  · refine ⟨rleScan (v.toList.drop 1) 0, r, hg, hr.symm, fun h => absurd h h63, fun _ => ⟨?_, ?_⟩⟩
    · simp only [rleEncode, if_neg h63]
    · by_contra hne
      apply h63
      have h1 : v.toList.drop 1 = (rleScan (v.toList.drop 1) 0).flatMap Symbol.expand ++ List.replicate (r - 1) 0 ++ [0] := by
        conv_lhs => rw [← hr]
        rw [List.append_assoc]
        congr 1
        have : r = r - 1 + 1 := by omega
        conv_lhs => rw [this]
        exact List.replicate_succ'
      have h2 := congrArg List.getLast? h1
      rw [List.getLast?_append_of_ne_nil _ (by simp)] at h2
      rw [List.getLast?_eq_getElem?] at h2
      simpa [nth, List.getD_eq_getElem?_getD] using congrArg (Option.getD · 0) h2

/-- Coefficient k ≥ 1 in the list of coefficients 1..63. -/
theorem nth_drop_one (v : Block Word) {k : Nat} (h1 : 1 ≤ k) (h2 : k < 64) :
    (v.toList.drop 1)[k - 1]? = some (nth v k) := by
  have hk : k < v.toList.length := by simpa using h2
  rw [List.getElem?_drop]
  have : 1 + (k - 1) = k := by omega
  rw [this, List.getElem?_eq_getElem hk]
  simp [nth, List.getD_eq_getElem?_getD, h2]

theorem flatMap_expand_length (l : List Symbol) : (l.flatMap Symbol.expand).length = (l.map Symbol.advance).sum := by
  induction l with
  | nil => rfl
  | cons y l ih => simp [ih]

/-- The coefficients a slot stands for, by position. -/
theorem slot_coefficients {v : Block Word} {a b : List Symbol} {y : Symbol} {zs : List Word}
    (h : v.toList.drop 1 = (a ++ y :: b).flatMap Symbol.expand ++ zs) {j : Nat} (hj : j < y.advance) :
    1 + (a.map Symbol.advance).sum + j < 64
      ∧ some (nth v (1 + (a.map Symbol.advance).sum + j)) = y.expand[j]? := by
  have hlen := congrArg List.length h
  simp only [List.length_drop, List.flatMap_append, List.flatMap_cons, List.length_append, length_expand,
    flatMap_expand_length] at hlen
  have hv : v.toList.length = 64 := by simp
  rw [hv] at hlen
  have hk : 1 + (a.map Symbol.advance).sum + j < 64 := by omega
  refine ⟨hk, ?_⟩
  rw [← nth_drop_one v (by omega) hk, h]
  have : 1 + (a.map Symbol.advance).sum + j - 1 = (a.flatMap Symbol.expand).length + j := by
    rw [flatMap_expand_length]; omega
  rw [this, List.flatMap_append, List.append_assoc, List.getElem?_append_right (by omega), Nat.add_sub_cancel_left,
    List.flatMap_cons, List.append_assoc, List.getElem?_append_left (by simpa using hj)]

/-- The coefficients after all slots are zero. -/
theorem tail_coefficients {v : Block Word} {a : List Symbol} {r : Nat}
    (h : v.toList.drop 1 = a.flatMap Symbol.expand ++ List.replicate r 0) {k : Nat}
    (h1 : 1 + (a.map Symbol.advance).sum ≤ k) (h2 : k < 64) : nth v k = 0 := by
  have h3 := nth_drop_one v (by omega) h2
  rw [h, List.getElem?_append_right (by rw [flatMap_expand_length]; omega)] at h3
  rw [List.getElem?_replicate] at h3
  split at h3
  · simpa using h3.symm
  · cases h3

theorem positionBefore_append {dc : Symbol} {a : List Symbol} (b : List Symbol) :
    positionBefore (dc :: (a ++ b)) (a.length + 1) = 1 + (a.map Symbol.advance).sum := by
  rw [positionBefore_cons, List.take_left' rfl]

/-- RLEENC writes the run-length form of the vector (R323). -/
theorem rleEncode_form (v : Block Word) : RunLengthForm v (rleEncode v) := by
  obtain ⟨slots, r, hg, hv, hz, hn⟩ := rleEncode_slots v
  have hlen := congrArg List.length hv
  simp only [List.length_drop, List.length_append, flatMap_expand_length, List.length_replicate] at hlen
  have hv64 : v.toList.length = 64 := by simp
  rw [hv64] at hlen
  have hcount := length_le_advance slots
  have hdc : ∃ y, (valueSymbol 0 (nth v 0) :: slots ++ [eobSymbol])[0]? = some y ∧ y.skip = 0
      ∧ IsCategory (nth v 0).toInt y.cat.toNat ∧ y.value = nth v 0 :=
    ⟨_, rfl, rfl, by rw [valueSymbol_cat]; exact categoryOf_isCategory _, rfl⟩
  -- what holds of an AC slot, whatever follows the slots
  have hslot : ∀ (tail : List Symbol) (i : Nat) (y : Symbol), i < slots.length → slots[i]? = some y →
      (y.isZrl ∧ y.value = 0 ∧ positionBefore (valueSymbol 0 (nth v 0) :: (slots ++ tail)) (i + 1) + 16 ≤ 64
        ∧ ∀ k, positionBefore (valueSymbol 0 (nth v 0) :: (slots ++ tail)) (i + 1) ≤ k →
            k < positionBefore (valueSymbol 0 (nth v 0) :: (slots ++ tail)) (i + 1) + 16 → nth v k = 0)
      ∨ (y.value ≠ 0 ∧ IsCategory y.value.toInt y.cat.toNat
        ∧ positionBefore (valueSymbol 0 (nth v 0) :: (slots ++ tail)) (i + 1) + y.skip.toNat < 64
        ∧ nth v (positionBefore (valueSymbol 0 (nth v 0) :: (slots ++ tail)) (i + 1) + y.skip.toNat) = y.value
        ∧ ∀ k, positionBefore (valueSymbol 0 (nth v 0) :: (slots ++ tail)) (i + 1) ≤ k →
            k < positionBefore (valueSymbol 0 (nth v 0) :: (slots ++ tail)) (i + 1) + y.skip.toNat → nth v k = 0) := by
    intro tail i y hi hy
    have hsplit : slots = slots.take i ++ y :: slots.drop (i + 1) := by
      have h1 : slots[i] = y := by
        rw [List.getElem?_eq_getElem hi] at hy
        exact Option.some.inj hy
      rw [← h1, List.cons_getElem_drop_succ, List.take_append_drop]
    have hpos : positionBefore (valueSymbol 0 (nth v 0) :: (slots ++ tail)) (i + 1)
        = 1 + ((slots.take i).map Symbol.advance).sum := by
      rw [positionBefore_cons, List.take_append_of_le_length (by omega)]
    rw [hpos]
    have hco := fun j hj => slot_coefficients (a := slots.take i) (b := slots.drop (i + 1)) (y := y)
      (zs := List.replicate r 0) (v := v) (by rw [← hsplit]; exact hv) (j := j) hj
    have hy' : GoodSlot y := hg y (List.mem_of_getElem? hy)
    rcases hy' with rfl | ⟨skip, w, hs, hw, rfl⟩
    · left
      have hadv : zrlSymbol.advance = 16 := advance_zrl zrl_isZrl
      refine ⟨zrl_isZrl, rfl, ?_, fun k hk1 hk2 => ?_⟩
      · have := (hco 15 (by omega)).1
        omega
      · obtain ⟨j, rfl⟩ := Nat.exists_eq_add_of_le hk1
        have h2 := (hco j (by omega)).2
        rw [expand_zrl, List.getElem?_replicate, if_pos (by omega)] at h2
        exact Option.some.inj h2
    · right
      have hadv : (valueSymbol skip w).advance = skip + 1 := by
        rw [advance_other (valueSymbol_not_zrl hw), valueSymbol_skip hs]
      rw [valueSymbol_skip hs, valueSymbol_cat]
      refine ⟨hw, categoryOf_isCategory _, (hco skip (by omega)).1, ?_, fun k hk1 hk2 => ?_⟩
      · have h2 := (hco skip (by omega)).2
        rw [expand_value hs hw, List.getElem?_append_right (by simp)] at h2
        simp only [List.length_replicate, Nat.sub_self, List.getElem?_cons_zero] at h2
        exact Option.some.inj h2
      · obtain ⟨j, rfl⟩ := Nat.exists_eq_add_of_le hk1
        have h2 := (hco j (by omega)).2
        rw [expand_value hs hw, List.getElem?_append_left (by simp; omega), List.getElem?_replicate,
          if_pos (by omega)] at h2
        exact Option.some.inj h2
  by_cases h63 : nth v 63 = 0
  · obtain ⟨hout, hlast⟩ := hz h63
    -- the tail is not empty, or there is no slot at all
    have hroom : slots.length + 2 ≤ 64 := by
      rcases Nat.eq_zero_or_pos r with h0 | h0
      · rcases List.eq_nil_or_concat slots with rfl | ⟨a, y, rfl⟩
        · simp
        · exfalso
          have hgl : (a.concat y).getLast? = some y := by simp
          rcases hg y (by simp) with rfl | ⟨skip, w, hs, hw, rfl⟩
          · exact hlast _ hgl rfl
          · have hadv : (valueSymbol skip w).advance = skip + 1 := by
              rw [advance_other (valueSymbol_not_zrl hw), valueSymbol_skip hs]
            have h2 := slot_coefficients (a := a) (b := []) (y := valueSymbol skip w) (zs := List.replicate r 0) (v := v)
              (by rw [hv]; simp) (j := skip) (by omega)
            have hsum : 1 + (a.map Symbol.advance).sum + skip = 63 := by
              simp only [List.concat_eq_append, List.map_append, List.map_cons, List.map_nil, List.sum_append,
                List.sum_cons, List.sum_nil, hadv] at hlen
              omega
            rw [hsum, h63, expand_value hs hw, List.getElem?_append_right (by simp)] at h2
            simp only [List.length_replicate, Nat.sub_self, List.getElem?_cons_zero] at h2
            exact hw (Option.some.inj h2.2).symm
      · omega
    rw [hout]
    have hlenout : (valueSymbol 0 (nth v 0) :: (slots ++ [eobSymbol])).length = slots.length + 2 := by simp
    have heobLast : (valueSymbol 0 (nth v 0) :: (slots ++ [eobSymbol]))[slots.length + 2 - 1]? = some eobSymbol := by
      have : slots.length + 2 - 1 = slots.length + 1 := by omega
      rw [this, List.getElem?_cons_succ, List.getElem?_append_right (by omega)]
      simp
    refine ⟨by rw [hlenout]; omega, hdc, ?_, ?_, ?_, fun h => absurd h63 h⟩
    · intro i y hi hy
      obtain ⟨i, rfl⟩ : ∃ j, i = j + 1 := ⟨i - 1, by omega⟩
      rw [List.getElem?_cons_succ] at hy
      rcases Nat.lt_or_ge i slots.length with hlt | hge
      · rw [List.getElem?_append_left hlt] at hy
        exact .inr (hslot _ i y hlt hy)
      · left
        rw [List.getElem?_append_right hge] at hy
        have hi0 : i = slots.length := by
          have := List.getElem?_eq_some_iff.mp hy
          obtain ⟨h1, -⟩ := this
          simp at h1
          omega
        subst hi0
        simp only [Nat.sub_self, List.getElem?_cons_zero, Option.some.injEq] at hy
        subst hy
        refine ⟨⟨rfl, rfl⟩, rfl, by simp, fun k hk1 hk2 => ?_⟩
        rw [positionBefore_append] at hk1
        exact tail_coefficients hv hk1 hk2
    · refine ⟨fun _ => ⟨eobSymbol, by rw [hlenout]; omega, by rw [hlenout]; exact heobLast, rfl, rfl⟩, fun _ => h63⟩
    · intro _ y hl hy
      rw [hlenout] at hl hy
      have hidx : slots.length + 2 - 2 = (slots.length - 1) + 1 := by omega
      rw [hidx, List.getElem?_cons_succ, List.getElem?_append_left (by omega), ← List.getLast?_eq_getElem?] at hy
      have hne := hlast y hy
      rcases hg y (List.mem_of_getLast? hy) with h | ⟨skip, w, hs, hw, rfl⟩
      · exact absurd h hne
      · exact valueSymbol_not_zrl hw
  · obtain ⟨hout, hr0⟩ := hn h63
    subst hr0
    rw [hout]
    have hlenout : (valueSymbol 0 (nth v 0) :: slots).length = slots.length + 1 := by simp
    have hslot' := hslot []
    simp only [List.append_nil] at hslot'
    refine ⟨by rw [hlenout]; omega, ⟨_, rfl, rfl, by rw [valueSymbol_cat]; exact categoryOf_isCategory _, rfl⟩, ?_, ?_,
      fun h => absurd h h63, fun _ => ?_⟩
    · intro i y hi hy
      obtain ⟨i, rfl⟩ : ∃ j, i = j + 1 := ⟨i - 1, by omega⟩
      rw [List.getElem?_cons_succ] at hy
      obtain ⟨hlt, -⟩ := List.getElem?_eq_some_iff.mp hy
      exact .inr (hslot' i y hlt hy)
    · refine ⟨fun h => absurd h h63, ?_⟩
      rintro ⟨y, hl, hy, he⟩
      rw [hlenout] at hl hy
      have hidx : slots.length + 1 - 1 = (slots.length - 1) + 1 := by omega
      rw [hidx, List.getElem?_cons_succ] at hy
      exact absurd he (hg y (List.mem_of_getElem? hy)).not_eob
    · have := positionBefore_append (dc := valueSymbol 0 (nth v 0)) (a := slots) []
      rw [List.append_nil] at this
      rw [hlenout, this]
      omega

/-! ### Decoding -/

/-- Positions before p are not written. -/
theorem rleExpand_below : ∀ (rest : List Symbol) (p : Nat) (v : Block Word) {k : Nat}, k < p → k < 64 →
    nth (rleExpand rest p v) k = nth v k
  | [], _, _, _, _, _ => rfl
  | y :: rest, p, v, k, hk, h64 => by
    rw [rleExpand]
    split
    · rfl
    · split
      · rfl
      · split
        · exact rleExpand_below rest _ v (by omega) h64
        · simp only
          rw [rleExpand_below rest _ _ (by omega) h64]
          split
          · rw [nth_put _ _ _ _ h64, if_neg (by omega)]
          · rfl

/-- Slot i of `rest`, from position p, writes y's value at k. -/
def WritesAt (rest : List Symbol) (p i : Nat) (y : Symbol) (k : Nat) : Prop :=
  (∀ j z, j < i → rest[j]? = some z → ¬Symbol.isEob z) ∧ p + ((rest.take i).map Symbol.advance).sum < 64
    ∧ rest[i]? = some y ∧ ¬y.isEob ∧ ¬y.isZrl ∧ p + ((rest.take i).map Symbol.advance).sum + y.skip.toNat = k

theorem writesAt_succ {z y : Symbol} {rest : List Symbol} {p i k : Nat} (hz : ¬z.isEob) :
    WritesAt (z :: rest) p (i + 1) y k ↔ WritesAt rest (p + z.advance) i y k := by
  unfold WritesAt
  simp only [List.take_succ_cons, List.map_cons, List.sum_cons, List.getElem?_cons_succ, ← Nat.add_assoc]
  constructor
  · rintro ⟨h1, h2⟩
    exact ⟨fun j w hj hw => h1 (j + 1) w (by omega) (by simpa using hw), h2⟩
  · rintro ⟨h1, h2⟩
    refine ⟨fun j w hj hw => ?_, h2⟩
    cases j with
    | zero =>
      simp only [List.getElem?_cons_zero, Option.some.injEq] at hw
      subst hw
      exact hz
    | succ j => exact h1 j w (by omega) (by simpa using hw)

/-- The expansion: a position a slot writes holds its value, every other one what it held (R325). -/
theorem rleExpand_spec : ∀ (rest : List Symbol) (p : Nat) (v : Block Word) {k : Nat}, k < 64 →
    (∀ i y, WritesAt rest p i y k → nth (rleExpand rest p v) k = y.value)
    ∧ ((∀ i y, ¬WritesAt rest p i y k) → nth (rleExpand rest p v) k = nth v k)
  | [], p, v, k, _ => by
    refine ⟨fun i y h => ?_, fun _ => rfl⟩
    have := h.2.2.1
    simp at this
  | z :: rest, p, v, k, hk => by
    rw [rleExpand]
    by_cases hp : 64 ≤ p
    · rw [if_pos hp]
      refine ⟨fun i y h => ?_, fun _ => rfl⟩
      have := h.2.1
      omega
    · rw [if_neg hp]
      by_cases he : z.skip = 0 ∧ z.cat = 0
      · rw [if_pos he]
        refine ⟨fun i y h => ?_, fun _ => rfl⟩
        exfalso
        cases i with
        | zero =>
          have h3 := h.2.2.1
          simp only [List.getElem?_cons_zero, Option.some.injEq] at h3
          subst h3
          exact h.2.2.2.1 he
        | succ i => exact h.1 0 z (by omega) (by simp) he
      · rw [if_neg he]
        by_cases hz : z.skip = 15 ∧ z.cat = 0
        · rw [if_pos hz]
          obtain ⟨ih1, ih2⟩ := rleExpand_spec rest (p + 16) v hk
          have hsucc : ∀ i y, WritesAt (z :: rest) p (i + 1) y k ↔ WritesAt rest (p + 16) i y k := by
            intro i y
            rw [writesAt_succ he, advance_zrl hz]
          have hzero : ∀ y, ¬WritesAt (z :: rest) p 0 y k := by
            intro y h
            have h3 := h.2.2.1
            simp only [List.getElem?_cons_zero, Option.some.injEq] at h3
            subst h3
            exact h.2.2.2.2.1 hz
          refine ⟨fun i y h => ?_, fun h => ih2 fun i y hw => h (i + 1) y ((hsucc i y).mpr hw)⟩
          cases i with
          | zero => exact absurd h (hzero y)
          | succ i => exact ih1 i y ((hsucc i y).mp h)
        · rw [if_neg hz]
          simp only
          obtain ⟨ih1, ih2⟩ := rleExpand_spec rest (p + z.skip.toNat + 1)
            (if p + z.skip.toNat ≤ 63 then put v (p + z.skip.toNat) z.value else v) hk
          have hsucc : ∀ i y, WritesAt (z :: rest) p (i + 1) y k ↔ WritesAt rest (p + z.skip.toNat + 1) i y k := by
            intro i y
            rw [writesAt_succ he, advance_other hz, ← Nat.add_assoc]
          have hzero : ∀ y, WritesAt (z :: rest) p 0 y k ↔ y = z ∧ p + z.skip.toNat = k := by
            intro y
            unfold WritesAt
            simp only [List.take_zero, List.map_nil, List.sum_nil, Nat.add_zero, List.getElem?_cons_zero, Option.some.injEq]
            constructor
            · rintro ⟨-, -, rfl, -, -, h⟩
              exact ⟨rfl, h⟩
            · rintro ⟨rfl, h⟩
              exact ⟨fun j w hj => absurd hj (by omega), by omega, rfl, he, hz, h⟩
          refine ⟨fun i y h => ?_, fun h => ?_⟩
          · cases i with
            | zero =>
              obtain ⟨rfl, rfl⟩ := (hzero y).mp h
              rw [rleExpand_below _ _ _ (by omega) hk, if_pos (by omega), nth_put _ _ _ _ hk, if_pos rfl]
            | succ i => exact ih1 i y ((hsucc i y).mp h)
          · rw [ih2 fun i y hw => h (i + 1) y ((hsucc i y).mpr hw)]
            have hne : p + z.skip.toNat ≠ k := fun hk' => h 0 z ((hzero z).mpr ⟨rfl, hk'⟩)
            split
            · rw [nth_put _ _ _ _ hk, if_neg (fun hh => hne hh.symm)]
            · rfl

theorem slotWrites_iff {dc y : Symbol} {rest : List Symbol} {i k : Nat} :
    SlotWrites (dc :: rest) (i + 1) y k ↔ WritesAt rest 1 i y k := by
  unfold SlotWrites SlotUsed WritesAt
  rw [positionBefore_cons, List.getElem?_cons_succ]
  constructor
  · rintro ⟨⟨-, -, h1, h2⟩, h3, h4, h5, h6⟩
    exact ⟨fun j z hj hz => h1 (j + 1) z (by omega) (by omega) (by simpa using hz), h2, h3, h4, h5, h6⟩
  · rintro ⟨h1, h2, h3, h4, h5, h6⟩
    obtain ⟨hlt, -⟩ := List.getElem?_eq_some_iff.mp h3
    refine ⟨⟨by omega, by simpa using hlt, fun j z hj hj2 hz => ?_, h2⟩, h3, h4, h5, h6⟩
    obtain ⟨j, rfl⟩ : ∃ j', j = j' + 1 := ⟨j - 1, by omega⟩
    exact h1 j z (by omega) (by simpa using hz)

/-- The decoded vector (R325). -/
theorem rleDecode_spec (dc : Symbol) (rest : List Symbol) :
    nth (rleDecode (dc :: rest)) 0 = dc.value
    ∧ ∀ k, 1 ≤ k → k < 64 →
        (∀ i y, SlotWrites (dc :: rest) i y k → nth (rleDecode (dc :: rest)) k = y.value)
        ∧ ((∀ i y, ¬SlotWrites (dc :: rest) i y k) → nth (rleDecode (dc :: rest)) k = 0) := by
  unfold rleDecode
  simp only [List.drop_succ_cons, List.drop_zero, List.headD_cons]
  refine ⟨?_, fun k h1 h2 => ?_⟩
  · rw [rleExpand_below _ _ _ (by omega) (by omega), nth_put _ _ _ _ (by omega), if_pos rfl]
  · obtain ⟨hw, hn⟩ := rleExpand_spec rest 1 (put (blockOf fun _ => (0 : Word)) 0 dc.value) h2
    refine ⟨fun i y h => ?_, fun h => ?_⟩
    · obtain ⟨i, rfl⟩ : ∃ j, i = j + 1 := ⟨i - 1, by have := h.1.1; omega⟩
      exact hw i y (slotWrites_iff.mp h)
    · rw [hn fun i y hwr => h (i + 1) y (slotWrites_iff.mpr hwr), nth_put _ _ _ _ h2, if_neg (by omega),
        nth_blockOf _ _ h2]

theorem getD_replicate_zero (n k : Nat) : (List.replicate n (0 : Word)).getD k 0 = 0 := by
  rw [List.getD_eq_getElem?_getD, List.getElem?_replicate]
  split <;> rfl

/-- Slots that stand for coefficients write just these. -/
theorem rleExpand_slots : ∀ (slots tail : List Symbol) (p : Nat) (v : Block Word), (∀ y ∈ slots, GoodSlot y) →
    p + (slots.map Symbol.advance).sum ≤ 64 →
    (tail = [] ∨ tail = [eobSymbol]) → ∀ {k : Nat}, p ≤ k → k < 64 → (∀ j, p ≤ j → j < 64 → nth v j = 0) →
    nth (rleExpand (slots ++ tail) p v) k = (slots.flatMap Symbol.expand).getD (k - p) 0
  | [], tail, p, v, _, _, ht, k, hk, h64, hv => by
    have : rleExpand tail p v = v := by
      rcases ht with rfl | rfl
      · rfl
      · rw [rleExpand]
        split
        · rfl
        · rw [if_pos ⟨rfl, rfl⟩]
    simp [this, hv k hk h64]
  | y :: slots, tail, p, v, hg, hp, ht, k, hk, h64, hv => by
    have hadv := advance_pos y
    simp only [List.map_cons, List.sum_cons] at hp
    rw [List.cons_append, rleExpand, if_neg (by omega), List.flatMap_cons]
    have hgy := hg y (by simp)
    rw [if_neg hgy.not_eob]
    rcases hgy with rfl | ⟨skip, w, hs, hw, rfl⟩
    · have ha : zrlSymbol.advance = 16 := advance_zrl zrl_isZrl
      rw [if_pos zrl_isZrl, expand_zrl]
      rcases Nat.lt_or_ge k (p + 16) with hlt | hge
      · rw [rleExpand_below _ _ _ hlt h64, hv k hk h64, List.getD_append _ _ _ _ (by simp; omega)]
        rw [getD_replicate_zero]
      · rw [rleExpand_slots slots tail (p + 16) v (fun z hz => hg z (by simp [hz])) (by omega) ht hge h64
          (fun j hj hj2 => hv j (by omega) hj2), List.getD_append_right _ _ _ _ (by simp; omega)]
        congr 1
    · have ha : (valueSymbol skip w).advance = skip + 1 := by
        rw [advance_other (valueSymbol_not_zrl hw), valueSymbol_skip hs]
      rw [if_neg (valueSymbol_not_zrl hw), valueSymbol_skip hs, expand_value hs hw]
      simp only
      rw [if_pos (by omega)]
      have hput : ∀ j, j < 64 → nth (put v (p + skip) (valueSymbol skip w).value) j
          = if j = p + skip then w else nth v j := fun j hj => nth_put _ _ _ _ hj
      rcases Nat.lt_or_ge k (p + skip + 1) with hlt | hge
      · rw [rleExpand_below _ _ _ hlt h64, hput k h64, List.getD_append _ _ _ _ (by simp; omega)]
        by_cases hks : k = p + skip
        · rw [if_pos hks, List.getD_append_right _ _ _ _ (by simp; omega)]
          have : k - p - skip = 0 := by omega
          simp [this]
        · rw [if_neg hks, hv k hk h64, List.getD_append _ _ _ _ (by simp; omega)]
          rw [getD_replicate_zero]
      · rw [rleExpand_slots slots tail (p + skip + 1) _ (fun z hz => hg z (by simp [hz])) (by omega) ht hge h64
          (fun j hj hj2 => by rw [hput j hj2, if_neg (by omega)]; exact hv j (by omega) hj2),
          List.getD_append_right _ _ _ _ (by simp; omega)]
        congr 1
        simp
        omega

/-- Decoding what was encoded (R327). -/
theorem rleDecode_rleEncode (v : Block Word) : rleDecode (rleEncode v) = v := by
  obtain ⟨slots, r, hg, hv, hz, hn⟩ := rleEncode_slots v
  have hlen := congrArg List.length hv
  simp only [List.length_drop, List.length_append, flatMap_expand_length, List.length_replicate] at hlen
  have hv64 : v.toList.length = 64 := by simp
  rw [hv64] at hlen
  obtain ⟨tail, htail, hout⟩ : ∃ tail, (tail = [] ∨ tail = [eobSymbol])
      ∧ rleEncode v = valueSymbol 0 (nth v 0) :: (slots ++ tail) := by
    by_cases h63 : nth v 63 = 0
    · exact ⟨[eobSymbol], .inr rfl, (hz h63).1⟩
    · exact ⟨[], .inl rfl, by rw [(hn h63).1, List.append_nil]⟩
  apply block_ext
  intro k hk
  rw [hout]
  rcases Nat.eq_zero_or_pos k with rfl | hpos
  · exact (rleDecode_spec _ _).1
  · unfold rleDecode
    simp only [List.drop_succ_cons, List.drop_zero, List.headD_cons]
    rw [rleExpand_slots slots tail 1 _ hg (by omega) htail hpos hk (fun j hj hj2 => by
      rw [nth_put _ _ _ _ hj2, if_neg (by omega), nth_blockOf _ _ hj2])]
    have h1 := nth_drop_one v hpos hk
    rw [hv] at h1
    rw [List.getElem?_append] at h1
    split at h1
    · rw [List.getD_eq_getElem?_getD, h1]; rfl
    · rename_i hge
      rw [List.getD_eq_getElem?_getD, List.getElem?_eq_none (by omega)]
      rw [List.getElem?_replicate] at h1
      split at h1
      · exact Option.some.inj h1
      · cases h1

theorem rleEncode_length (v : Block Word) : (rleEncode v).length ≤ 64 := (rleEncode_form v).count.2

end Sys2Proof.Machine
end

