-- ==== Sys2Proof/Laws/Windows.lean ====
section
/-! SUPPORT. The buffer and memory windows of the bus: where an element stands, and what a write to a window does to each
element (spec/20_memory.md R121 to R124). -/

namespace Sys2Proof.Machine

/-- The place of the high word of a two-word element. -/
def hiOffset (hi : Bool) : Nat := if hi then 4 else 0

/-- The byte address of an element of the windows (R121). -/
def placeOf : Target → Nat
  | .vec k => 0x1000 + 4 * k
  | .iblk n => 0x1100 + 4 * n
  | .fblk n hi => 0x1200 + 8 * n + hiOffset hi
  | .rlebuf i hi => 0x1400 + 8 * i + hiOffset hi
  | .rgb i => 0x01000000 + 4 * i
  | .ycc i ch hi => 0x10000000 + 32 * i + 8 * channelNo ch + hiOffset hi
  | .coef ch b k => 0x20000000 + 0x01000000 * channelNo ch + 0x100 * b + 4 * k
  | .bs j => 0x30000000 + 4 * j
  | .csr _ | .zigzag _ | .qtabY _ | .qtabC _ | .dctC _ _ | .hufDc _ | .hufAc _ | .reserved | .misaligned | .unmapped => 0

/-- An element of a writable window is within it. -/
def InWindow (c : Config) : Target → Prop
  | .vec k => k < 64
  | .iblk n => n < 64
  | .fblk n _ => n < 64
  | .rlebuf i _ => i < 64
  | .rgb i => i < c.maxPixels
  | .ycc i _ _ => i < c.maxPixels
  | .coef _ b k => b < c.maxBlocks ∧ k < 64
  | .bs j => 4 * j < c.bsCap
  | .csr _ | .zigzag _ | .qtabY _ | .qtabC _ | .dctC _ _ | .hufDc _ | .hufAc _ | .reserved | .misaligned | .unmapped => False

/-- A target that a host write leaves alone (R123, R125, R128). -/
def ReadOnly : Target → Prop
  | .zigzag _ | .qtabY _ | .qtabC _ | .dctC _ _ | .hufDc _ | .hufAc _ | .reserved | .misaligned | .unmapped => True
  | .vec _ | .iblk _ | .fblk _ _ | .rlebuf _ _ | .rgb _ | .ycc _ _ _ | .coef _ _ _ | .bs _ | .csr _ => False

theorem hiOffset_of {o : Nat} (h : o % 4 = 0) : o % 8 = hiOffset (o % 8 == 4) := by
  unfold hiOffset
  rcases (by omega : o % 8 = 0 ∨ o % 8 = 4) with h' | h' <;> simp [h']

theorem channelNo_chanOfNo {n : Nat} (h : n < 3) : channelNo (chanOfNo n) = n := by
  interval_cases n <;> rfl

/-- What an address names: an element of a writable window at its own place, or something read-only. -/
def Placed (c : Config) (a : Nat) (t : Target) : Prop := (a = placeOf t ∧ InWindow c t) ∨ ReadOnly t

theorem placed_ite {c : Config} {a : Nat} {p : Prop} [Decidable p] {x y : Target} (hx : p → Placed c a x)
    (hy : ¬p → Placed c a y) : Placed c a (if p then x else y) := by
  split
  · exact hx ‹_›
  · exact hy ‹_›

theorem pageTarget_placed {c : Config} {a : Nat} (h : 0x1000 ≤ a) (h4 : a % 4 = 0) : Placed c a (pageTarget a) := by
  have ho := hiOffset_of (o := a) h4
  unfold pageTarget
  refine placed_ite (fun h1 => .inl ⟨?_, ?_⟩) fun h1 => ?_
  · show a = 0x1000 + 4 * ((a - 0x1000) / 4); omega
  · show (a - 0x1000) / 4 < 64; omega
  refine placed_ite (fun h2 => .inl ⟨?_, ?_⟩) fun h2 => ?_
  · show a = 0x1100 + 4 * ((a - 0x1100) / 4); omega
  · show (a - 0x1100) / 4 < 64; omega
  refine placed_ite (fun h3 => .inl ⟨?_, ?_⟩) fun h3 => ?_
  · show a = 0x1200 + 8 * ((a - 0x1200) / 8) + hiOffset (a % 8 == 4); omega
  · show (a - 0x1200) / 8 < 64; omega
  refine placed_ite (fun h5 => .inl ⟨?_, ?_⟩) fun h5 => .inr ?_
  · show a = 0x1400 + 8 * ((a - 0x1400) / 8) + hiOffset (a % 8 == 4); omega
  · show (a - 0x1400) / 8 < 64; omega
  repeat' first | trivial | split

theorem windowTarget_placed {c : Config} {a : Nat} (h : 0x01000000 ≤ a) (h4 : a % 4 = 0) :
    Placed c a (windowTarget c a) := by
  unfold windowTarget
  refine placed_ite (fun h1 => placed_ite (fun h2 => .inl ⟨?_, ?_⟩) fun _ => .inr trivial) fun h1 => ?_
  · show a = 0x01000000 + 4 * ((a - 0x01000000) / 4); omega
  · show (a - 0x01000000) / 4 < c.maxPixels; omega
  refine placed_ite (fun h2 => placed_ite (fun h3 => placed_ite (fun h5 => .inl ⟨?_, ?_⟩) fun _ => .inr trivial)
    fun _ => .inr trivial) fun h2 => ?_
  · have h6 := hiOffset_of (o := a - 0x10000000) (by omega)
    have h7 := channelNo_chanOfNo (n := (a - 0x10000000) % 32 / 8) (by omega)
    show a = 0x10000000 + 32 * ((a - 0x10000000) / 32) + 8 * channelNo (chanOfNo ((a - 0x10000000) % 32 / 8))
      + hiOffset ((a - 0x10000000) % 8 == 4)
    omega
  · show (a - 0x10000000) / 32 < c.maxPixels; omega
  refine placed_ite (fun h3 => placed_ite (fun h5 => .inl ⟨?_, ?_⟩) fun _ => .inr trivial) fun h3 => ?_
  · have h7 := channelNo_chanOfNo (n := (a - 0x20000000) / 0x01000000) h5.1
    show a = 0x20000000 + 0x01000000 * channelNo (chanOfNo ((a - 0x20000000) / 0x01000000))
      + 0x100 * ((a - 0x20000000) % 0x01000000 / 0x100) + 4 * ((a - 0x20000000) % 0x100 / 4)
    omega
  · exact ⟨h5.2, by omega⟩
  refine placed_ite (fun h5 => .inl ⟨?_, ?_⟩) fun _ => .inr trivial
  · show a = 0x30000000 + 4 * ((a - 0x30000000) / 4); omega
  · show 4 * ((a - 0x30000000) / 4) < c.bsCap; omega

/-- An address from 0x1000 on names an element of a writable window at its own place, or something read-only. -/
theorem target_place {c : Config} {a : Nat} (h : 0x1000 ≤ a) : Placed c a (targetOf c a) := by
  unfold targetOf
  refine placed_ite (fun _ => .inr trivial) fun h4 => placed_ite (fun h1 => by omega) fun _ =>
    placed_ite (fun _ => pageTarget_placed h (by omega)) fun _ => placed_ite (fun _ => .inr trivial) fun _ =>
      windowTarget_placed (by omega) (by omega)

/-- A write to a read-only target has no effect. -/
theorem writeAt_readOnly {s : State} {w : Word} {t : Target} (h : ReadOnly t) : s.writeAt w t = s := by
  cases t <;> first | rfl | exact absurd h (by simp [ReadOnly])

/-! ### The byte lanes of BS -/

theorem wf_writeLane (c : Config) (j : Nat) (w : Word) (t : Nat) {m : Memory Byte} (h : Memory.wf m = true) :
    Memory.wf (writeLane c j w m t) = true := by
  unfold writeLane
  split
  · exact wf_write _ _ h
  · exact h

theorem wf_writeLanes (c : Config) (j : Nat) (w : Word) : ∀ (l : List Nat) {m : Memory Byte}, Memory.wf m = true →
    Memory.wf (l.foldl (writeLane c j w) m) = true
  | [], _, h => h
  | t :: l, _, h => wf_writeLanes c j w l (wf_writeLane c j w t h)

theorem within_writeLanes (c : Config) (j : Nat) (w : Word) : ∀ (l : List Nat) {m : Memory Byte}, within c.bsCap m →
    within c.bsCap (l.foldl (writeLane c j w) m)
  | [], _, h => h
  | t :: l, m, h => by
    refine within_writeLanes c j w l (m := writeLane c j w m t) ?_
    unfold writeLane
    split
    · rename_i hlt
      exact within_write _ hlt h
    · exact h

theorem read_writeLane (c : Config) (j : Nat) (w : Word) (t : Nat) {m : Memory Byte} (h : Memory.wf m = true) (k : Nat) :
    Memory.read (writeLane c j w m t) k
      = if k = 4 * j + t ∧ k < c.bsCap then BitVec.ofNat 8 (w.toNat / 256 ^ t) else Memory.read m k := by
  unfold writeLane
  split
  · rename_i hlt
    rw [read_write _ _ _ h]
    by_cases hk : k = 4 * j + t
    · rw [if_pos hk, if_pos ⟨hk, by omega⟩]
    · rw [if_neg hk, if_neg (fun h => hk h.1)]
  · rename_i hlt
    rw [if_neg (by omega)]

theorem read_writeLanes (c : Config) (j : Nat) (w : Word) {k : Nat} : ∀ (l : List Nat) {m : Memory Byte},
    Memory.wf m = true → Memory.read (l.foldl (writeLane c j w) m) k
      = if 4 * j ≤ k ∧ k - 4 * j ∈ l ∧ k < c.bsCap then BitVec.ofNat 8 (w.toNat / 256 ^ (k - 4 * j)) else Memory.read m k
  | [], _, _ => by simp
  | t :: l, m, h => by
    rw [List.foldl_cons, read_writeLanes c j w l (wf_writeLane c j w t h), read_writeLane c j w t h]
    by_cases h1 : 4 * j ≤ k ∧ k - 4 * j ∈ l ∧ k < c.bsCap
    · rw [if_pos h1, if_pos ⟨h1.1, List.mem_cons_of_mem _ h1.2.1, h1.2.2⟩]
    · rw [if_neg h1]
      by_cases h2 : k = 4 * j + t ∧ k < c.bsCap
      · have h3 : k - 4 * j = t := by omega
        rw [if_pos h2, if_pos ⟨by omega, by simp [h3], h2.2⟩, h3]
      · rw [if_neg h2, if_neg ?_]
        rintro ⟨h3, h4, h5⟩
        rcases List.mem_cons.mp h4 with h6 | h6
        · exact h2 ⟨by omega, h5⟩
        · exact h1 ⟨h3, h6, h5⟩

/-- A byte of BS after a write of word j. -/
theorem read_bs_write (c : Config) (j : Nat) (w : Word) {k : Nat} {m : Memory Byte} (h : Memory.wf m = true) :
    Memory.read ((List.range 4).foldl (writeLane c j w) m) k
      = if 4 * j ≤ k ∧ k < 4 * j + 4 ∧ k < c.bsCap then BitVec.ofNat 8 (w.toNat / 256 ^ (k - 4 * j)) else Memory.read m k := by
  rw [read_writeLanes c j w _ h]
  have : (4 * j ≤ k ∧ k - 4 * j ∈ List.range 4 ∧ k < c.bsCap) ↔ (4 * j ≤ k ∧ k < 4 * j + 4 ∧ k < c.bsCap) := by
    rw [List.mem_range]; omega
  simp only [this]

/-! ### Halves of a binary64 pattern -/

theorem half_setHalf_same (d : Double) (hi : Bool) (w : Word) : half (setHalf d hi w) hi = w := by
  have hw := w.isLt
  have hd := d.isLt
  apply BitVec.eq_of_toNat_eq
  cases hi <;> simp only [half, setHalf, u32, if_true, Bool.false_eq_true, if_false, BitVec.toNat_ofNat] <;> omega

theorem half_setHalf_other (d : Double) (hi : Bool) (w : Word) : half (setHalf d hi w) (!hi) = half d (!hi) := by
  have hw := w.isLt
  have hd := d.isLt
  apply BitVec.eq_of_toNat_eq
  cases hi <;> simp only [half, setHalf, u32, Bool.not_true, Bool.not_false, if_true, Bool.false_eq_true, if_false,
    BitVec.toNat_ofNat] <;> omega

theorem setHalf_twice (d : Double) (hi : Bool) (w : Word) : setHalf (setHalf d hi w) hi w = setHalf d hi w := by
  have hw := w.isLt
  have hd := d.isLt
  apply BitVec.eq_of_toNat_eq
  cases hi <;> simp only [setHalf, if_true, Bool.false_eq_true, if_false, BitVec.toNat_ofNat] <;> omega

/-! ### What a write to a window does -/

/-- A write to one element of the windows changes no other. -/
theorem valueAt_writeAt_other {s : State} {w : Word} {t u : Target} (hc : s.cfg.sizesFit = true)
    (h1 : Memory.wf s.rgb = true) (h2 : Memory.wf s.ycc = true) (h3 : Memory.wf s.coef = true)
    (h4 : Memory.wf s.bs = true) (ht : InWindow s.cfg t) (hu : InWindow s.cfg u ∨ ReadOnly u) (hne : u ≠ t) :
    (s.writeAt w t).valueAt u = s.valueAt u := by
  have hb : ∀ {b}, b < s.cfg.maxBlocks → b < 65536 := by
    intro b hb
    simp only [Config.sizesFit, Bool.and_eq_true, decide_eq_true_eq, beq_iff_eq] at hc
    unfold Config.maxBlocks at hb
    omega
  cases t with
  | csr r => exact ht.elim
  | misaligned | unmapped | reserved | zigzag _ | qtabY _ | qtabC _ | dctC _ _ | hufDc _ | hufAc _ => rfl
  | vec k =>
    cases u with
    | vec k' =>
      have hk : k' < 64 := hu.elim id False.elim
      simp only [State.writeAt, State.valueAt, nth_put _ _ _ _ hk]
      exact if_neg fun h => hne (by rw [h])
    | csr r => exact (hu.elim id id).elim
    | _ => rfl
  | iblk k =>
    cases u with
    | iblk k' =>
      have hk : k' < 64 := hu.elim id False.elim
      simp only [State.writeAt, State.valueAt, nth_put _ _ _ _ hk]
      exact if_neg fun h => hne (by rw [h])
    | csr r => exact (hu.elim id id).elim
    | _ => rfl
  | fblk k hi =>
    cases u with
    | fblk k' hi' =>
      have hk : k' < 64 := hu.elim id False.elim
      simp only [State.writeAt, State.valueAt, nth_put _ _ _ _ hk]
      by_cases h : k' = k
      · subst h
        rw [if_pos rfl]
        have : hi' = !hi := by
          cases hi <;> cases hi' <;> first | rfl | exact absurd rfl hne
        rw [this, half_setHalf_other]
      · rw [if_neg h]
    | csr r => exact (hu.elim id id).elim
    | _ => rfl
  | rlebuf k hi =>
    cases u with
    | rlebuf k' hi' =>
      have hk : k' < 64 := hu.elim id False.elim
      simp only [State.writeAt, State.valueAt, nth_put _ _ _ _ hk]
      by_cases h : k' = k
      · subst h
        cases hi <;> cases hi' <;> first | exact absurd rfl hne | simp
      · simp only [if_neg h]
    | csr r => exact (hu.elim id id).elim
    | _ => rfl
  | rgb i =>
    cases u with
    | rgb i' =>
      simp only [State.writeAt, State.valueAt]
      rw [read_write_other (fun h => hne (by rw [h])) _ h1]
    | csr r => exact (hu.elim id id).elim
    | _ => rfl
  | ycc i ch hi =>
    cases u with
    | ycc i' ch' hi' =>
      simp only [State.writeAt, State.valueAt, read_write _ _ _ h2]
      by_cases h : i' = i
      · subst h
        rw [if_pos rfl, chan_setChan]
        by_cases hch : ch' = ch
        · subst hch
          rw [if_pos rfl]
          have : hi' = !hi := by
            cases hi <;> cases hi' <;> first | rfl | exact absurd rfl hne
          rw [this, half_setHalf_other]
        · rw [if_neg hch]
      · rw [if_neg h]
    | csr r => exact (hu.elim id id).elim
    | _ => rfl
  | coef ch b k =>
    cases u with
    | coef ch' b' k' =>
      have hu' : b' < s.cfg.maxBlocks ∧ k' < 64 := hu.elim id False.elim
      simp only [State.writeAt, State.valueAt]
      refine read_write_other (fun h => hne ?_) _ h3
      obtain ⟨rfl, rfl, rfl⟩ := coefIx_inj (hb hu'.1) (hb ht.1) hu'.2 ht.2 h
      rfl
    | csr r => exact (hu.elim id id).elim
    | _ => rfl
  | bs j =>
    cases u with
    | bs j' =>
      have hj : j' ≠ j := fun h => hne (by rw [h])
      have hl : ∀ t < 4, State.bsLane { s with bs := (List.range 4).foldl (writeLane s.cfg j w) s.bs } j' t
          = s.bsLane j' t := by
        intro t ht4
        unfold State.bsLane
        simp only
        rw [read_bs_write _ _ _ h4, if_neg (fun h => by omega : ¬(4 * j ≤ 4 * j' + t ∧ _))]
      simp only [State.writeAt, State.valueAt]
      rw [hl 0 (by omega), hl 1 (by omega), hl 2 (by omega), hl 3 (by omega)]
    | csr r => exact (hu.elim id id).elim
    | _ => rfl

/-- The data a window's element reads as after a write of w to it: the bits that are not there read 0 (R122, R124). -/
def readBack (c : Config) (w : Word) : Target → Word
  | .rlebuf _ false => w &&& 0x3FF
  | .rgb _ => w &&& 0xFFFFFF
  | .bs j => u32 (((List.range 4).map fun t => if 4 * j + t < c.bsCap then 256 ^ t * (w.toNat / 256 ^ t % 256) else 0).sum)
  | .rlebuf _ true | .vec _ | .iblk _ | .fblk _ _ | .ycc _ _ _ | .coef _ _ _ | .csr _ | .zigzag _ | .qtabY _ | .qtabC _
  | .dctC _ _ | .hufDc _ | .hufAc _ | .reserved | .misaligned | .unmapped => w

theorem and_mask_toNat (w : Word) (k : Nat) (hk : k ≤ 32) :
    (w &&& BitVec.ofNat 32 (2 ^ k - 1)).toNat = w.toNat % 2 ^ k := by
  have : (2 : Nat) ^ k - 1 < 2 ^ 32 := by
    have := Nat.pow_le_pow_right (show 0 < 2 by norm_num) hk
    have h0 : 0 < 2 ^ k := by positivity
    omega
  rw [BitVec.toNat_and, BitVec.toNat_ofNat, Nat.mod_eq_of_lt this, Nat.and_two_pow_sub_one_eq_mod]

theorem valueAt_writeAt_same {s : State} {w : Word} {t : Target} (h1 : Memory.wf s.rgb = true)
    (h2 : Memory.wf s.ycc = true) (h3 : Memory.wf s.coef = true) (h4 : Memory.wf s.bs = true) (ht : InWindow s.cfg t) :
    (s.writeAt w t).valueAt t = readBack s.cfg w t := by
  have hw := w.isLt
  cases t with
  | csr _ | misaligned | unmapped | reserved | zigzag _ | qtabY _ | qtabC _ | dctC _ _ | hufDc _ | hufAc _ =>
    exact ht.elim
  | vec k => simp [State.writeAt, State.valueAt, readBack, nth_put _ _ _ _ (show k < 64 from ht)]
  | iblk k => simp [State.writeAt, State.valueAt, readBack, nth_put _ _ _ _ (show k < 64 from ht)]
  | fblk k hi =>
    simp only [State.writeAt, State.valueAt, readBack, nth_put _ _ _ _ (show k < 64 from ht), if_true]
    exact half_setHalf_same _ _ _
  | rlebuf k hi =>
    cases hi
    · simp only [State.writeAt, State.valueAt, readBack, nth_put _ _ _ _ (show k < 64 from ht), if_true,
        Bool.false_eq_true, if_false]
      apply BitVec.eq_of_toNat_eq
      have := and_mask_toNat w 10 (by norm_num)
      rw [show (0x3FF : Word) = BitVec.ofNat 32 (2 ^ 10 - 1) by rfl, this]
      simp only [u32, keyWord, BitVec.toNat_ofNat]
      omega
    · simp [State.writeAt, State.valueAt, readBack, nth_put _ _ _ _ (show k < 64 from ht)]
  | rgb i =>
    simp only [State.writeAt, State.valueAt, readBack, read_write_same _ _ h1]
    apply BitVec.eq_of_toNat_eq
    have := and_mask_toNat w 24 (by norm_num)
    rw [show (0xFFFFFF : Word) = BitVec.ofNat 32 (2 ^ 24 - 1) by rfl, this]
    simp only [u32, BitVec.toNat_ofNat]
    omega
  | ycc i ch hi =>
    simp only [State.writeAt, State.valueAt, readBack, read_write_same _ _ h2, chan_setChan, if_true]
    exact half_setHalf_same _ _ _
  | coef ch b k => simp only [State.writeAt, State.valueAt, readBack, read_write_same _ _ h3]
  | bs j =>
    have hl : ∀ t < 4, State.bsLane { s with bs := (List.range 4).foldl (writeLane s.cfg j w) s.bs } j t
        = if 4 * j + t < s.cfg.bsCap then w.toNat / 256 ^ t % 256 else 0 := by
      intro t ht4
      unfold State.bsLane
      simp only
      split
      · rename_i hlt
        rw [read_bs_write _ _ _ h4, if_pos (by omega), Nat.add_sub_cancel_left, BitVec.toNat_ofNat]
      · rfl
    simp only [State.writeAt, State.valueAt, readBack]
    rw [hl 0 (by omega), hl 1 (by omega), hl 2 (by omega), hl 3 (by omega)]
    rw [show List.range 4 = [0, 1, 2, 3] by rfl]
    simp only [List.map_cons, List.map_nil, List.sum_cons, List.sum_nil]
    congr 1
    have hpull : ∀ (b n : Nat), (if 4 * j + b < s.cfg.bsCap then 256 ^ b * n else 0)
        = 256 ^ b * (if 4 * j + b < s.cfg.bsCap then n else 0) := by
      intro b n; split <;> simp
    rw [hpull, hpull, hpull, hpull]
    generalize (if 4 * j + 0 < s.cfg.bsCap then w.toNat / 256 ^ 0 % 256 else 0) = a
    generalize (if 4 * j + 1 < s.cfg.bsCap then w.toNat / 256 ^ 1 % 256 else 0) = b
    generalize (if 4 * j + 2 < s.cfg.bsCap then w.toNat / 256 ^ 2 % 256 else 0) = c
    generalize (if 4 * j + 3 < s.cfg.bsCap then w.toNat / 256 ^ 3 % 256 else 0) = d
    omega

/-! ### The answer, the configuration and repeated writes -/

@[simp] theorem valueAt_response (s : State) (r : Option Response) (t : Target) :
    State.valueAt { s with response := r } t = s.valueAt t := by
  cases t with
  | csr c => cases c <;> rfl
  | _ => rfl

theorem writeAt_response (s : State) (r : Option Response) (w : Word) (t : Target) :
    State.writeAt { s with response := r } w t = { s.writeAt w t with response := r } := by
  cases t <;> try rfl
  rename_i c; cases c <;> try rfl
  · simp only [State.writeAt, State.writeCsr, State.writeCtrl]; split <;> rfl
  · simp only [State.writeAt, State.writeCsr, State.writeStatus]; split <;> rfl
  · simp only [State.writeAt, State.writeCsr, State.writeCmd]; split <;> rfl

@[simp] theorem writeAt_cfg (s : State) (w : Word) (t : Target) : (s.writeAt w t).cfg = s.cfg := by
  cases t <;> try rfl
  rename_i r; cases r <;> try rfl
  · simp [State.writeAt, State.writeCsr, State.writeCtrl]; split <;> rfl
  · simp [State.writeAt, State.writeCsr, State.writeStatus]; split <;> rfl
  · simp [State.writeAt, State.writeCsr, State.writeCmd]; split <;> rfl

/-- Only a write to CMD can start a command. -/
theorem writeAt_busy (s : State) (w : Word) (t : Target) (ht : t ≠ .csr .cmd) :
    (s.writeAt w t).status.busy = true → s.status.busy = true := by
  cases t <;> try exact id
  rename_i c; cases c <;> try exact id
  · simp only [State.writeAt, State.writeCsr, State.writeCtrl]; split
    · intro h; cases h
    · exact id
  · simp only [State.writeAt, State.writeCsr, State.writeStatus]; split <;> exact id
  · exact absurd rfl ht

theorem put_put {α : Type} [Inhabited α] (b : Block α) (n : Nat) (v w : α) : put (put b n v) n w = put b n w := by
  apply block_ext
  intro k hk
  rw [nth_put _ _ _ _ hk, nth_put _ _ _ _ hk, nth_put _ _ _ _ hk]
  split <;> rfl

theorem write_write {α : Type} [DecidableEq α] [Inhabited α] {m : Memory α} (h : Memory.wf m = true) (n : Nat) (v w : α) :
    Memory.write (Memory.write m n v) n w = Memory.write m n w := by
  apply memory_ext (wf_write _ _ (wf_write _ _ h)) (wf_write _ _ h)
  intro k
  rw [read_write _ _ _ (wf_write _ _ h), read_write _ _ _ h, read_write _ _ _ h]
  split <;> rfl

theorem put_big {α : Type} (b : Block α) {n : Nat} (h : 64 ≤ n) (v : α) : put b n v = b := by
  unfold put
  apply Vector.ext
  intro i hi
  simp only [Vector.getElem_setIfInBounds]
  rw [if_neg (by omega)]

theorem nth_put_same {α : Type} [Inhabited α] (b : Block α) {n : Nat} (h : n < 64) (v : α) : nth (put b n v) n = v := by
  rw [nth_put _ _ _ _ h, if_pos rfl]

/-- A write other than to CMD, done twice, does what it does once (R127). -/
theorem writeAt_twice {s : State} {w : Word} {t : Target} 
    (h1 : Memory.wf s.rgb = true) (h2 : Memory.wf s.ycc = true) (h3 : Memory.wf s.coef = true)
    (h4 : Memory.wf s.bs = true) (ht : t ≠ .csr .cmd) :
    (s.writeAt w t).writeAt w t = s.writeAt w t := by
  cases t with
  | csr r =>
    cases r with
    | cmd => exact absurd rfl ht
    | ctrl =>
      simp only [State.writeAt, State.writeCsr, State.writeCtrl]
      by_cases h : w.getLsbD 31 = true
      · rw [if_pos h, if_pos h]; rfl
      · rw [if_neg h, if_neg h]
    | status =>
      simp only [State.writeAt, State.writeCsr, State.writeStatus]
      cases w.getLsbD 1 <;> cases w.getLsbD 2 <;> cases w.getLsbD 3 <;> simp [State.clearDone, State.clearDropped, State.clearError]
    | bsLen =>
      simp [State.writeAt, State.writeCsr]
    | _ => rfl
  | vec k => simp only [State.writeAt, put_put]
  | iblk k => simp only [State.writeAt, put_put]
  | fblk k hi =>
    simp only [State.writeAt, put_put]
    rcases Nat.lt_or_ge k 64 with hk | hk
    · rw [nth_put_same _ hk, setHalf_twice]
    · rw [put_big _ hk, put_big _ hk]
  | rlebuf k hi =>
    simp only [State.writeAt, put_put]
    rcases Nat.lt_or_ge k 64 with hk | hk
    · rw [nth_put_same _ hk]; cases hi <;> rfl
    · rw [put_big _ hk, put_big _ hk]
  | rgb i => simp only [State.writeAt, write_write h1]
  | ycc i ch hi =>
    simp only [State.writeAt, write_write h2, read_write_same _ _ h2, chan_setChan, if_true, setHalf_twice]
    congr 1
    cases ch <;> rfl
  | coef ch b k => simp only [State.writeAt, write_write h3]
  | bs j =>
    simp only [State.writeAt]
    congr 1
    apply memory_ext (wf_writeLanes _ _ _ _ (wf_writeLanes _ _ _ _ h4)) (wf_writeLanes _ _ _ _ h4)
    intro k
    rw [read_bs_write _ _ _ (wf_writeLanes _ _ _ _ h4), read_bs_write _ _ _ h4]
    split <;> rfl
  | _ => rfl

end Sys2Proof.Machine
end

