-- ==== Sys2Proof/Laws/Invariant.lean ====
section
/-! SUPPORT. What the shared operations, the commands' effects and the host's writes keep of the invariant of
Safety.lean. -/

namespace Sys2Proof.Machine

/-- The part of the invariant about the data: the parameters, the memories, the pointers. -/
structure DataInv (s : State) : Prop where
  params : s.cfg.wf = true
  rgbForm : Memory.wf s.rgb = true
  yccForm : Memory.wf s.ycc = true
  coefForm : Memory.wf s.coef = true
  bsForm : Memory.wf s.bs = true
  rgbSize : within s.cfg.maxPixels s.rgb
  yccSize : within s.cfg.maxPixels s.ycc
  coefSize : within (3 * 4194304) s.coef
  bsSize : within s.cfg.bsCap s.bs
  wptrRange : s.writer.wptr.toNat ≤ s.cfg.bsCap
  pendingBits : s.writer.acc.toNat < 2 ^ s.writer.nb.toNat
  readerRange : s.readPos ≤ 8 * s.cfg.bsCap
  bsLenRange : s.bsLen.toNat ≤ s.cfg.bsCap
  rleLenRange : s.rleLen.toNat ≤ 64

/-- The part about the flags. -/
structure FlagInv (s : State) : Prop where
  errIffCode : s.status.err = true ↔ s.status.errCode ≠ 0
  codeRange : s.status.errCode.toNat ≤ 9
  infoOfErr : s.status.err = false → s.errInfo = 0
  busyAlone : s.status.busy = true → s.status.done = false ∧ s.status.err = false
  doneOrErr : ¬(s.status.done = true ∧ s.status.err = true)

theorem State.Inv.data {s : State} (h : s.Inv) : DataInv s :=
  ⟨h.params, h.rgbForm, h.yccForm, h.coefForm, h.bsForm, h.rgbSize, h.yccSize, h.coefSize, h.bsSize, h.wptrRange,
    h.pendingBits, h.readerRange, h.bsLenRange, h.rleLenRange⟩

theorem State.Inv.flags {s : State} (h : s.Inv) : FlagInv s :=
  ⟨h.errIffCode, h.codeRange, h.infoOfErr, h.busyAlone, h.doneOrErr⟩

theorem inv_of {s : State} (h : DataInv s) (f : FlagInv s) : s.Inv :=
  ⟨h.params, h.rgbForm, h.yccForm, h.coefForm, h.bsForm, h.rgbSize, h.yccSize, h.coefSize, h.bsSize, h.wptrRange,
    h.pendingBits, h.readerRange, h.bsLenRange, h.rleLenRange, f.errIffCode, f.codeRange, f.infoOfErr, f.busyAlone,
    f.doneOrErr⟩

theorem bsCap_le {c : Config} (h : c.wf = true) : c.bsCap ≤ 2 ^ 28 := by
  have := sizesFit_of_wf h
  simp only [Config.sizesFit, Bool.and_eq_true, decide_eq_true_eq, beq_iff_eq] at this
  omega

/-! ### Flags -/

theorem errCodeOf_ne_zero (k : ErrKind) : errCodeOf k ≠ 0 := by cases k <;> decide

theorem errCodeOf_le (k : ErrKind) : (errCodeOf k).toNat ≤ 9 := by cases k <;> decide

/-- Error entry from a busy state. -/
theorem flags_enterError {s : State} (h : FlagInv s) (hb : s.status.busy = true) (e : Raised) :
    FlagInv (s.enterError e) := by
  have hd := (h.busyAlone hb).1
  refine ⟨?_, ?_, ?_, ?_, ?_⟩
  · exact ⟨fun _ => errCodeOf_ne_zero _, fun _ => rfl⟩
  · exact errCodeOf_le _
  · simp
  · simp
  · simp [hd]

/-- Completion from a busy state. -/
theorem flags_complete {s : State} (h : FlagInv s) (hb : s.status.busy = true) : FlagInv s.complete := by
  have he := (h.busyAlone hb).2
  exact ⟨h.errIffCode, h.codeRange, h.infoOfErr, by simp, by simp [he]⟩

/-! ### Operations -/

theorem data_setReadPos {s : State} (h : DataInv s) {pos : Nat} (hp : pos ≤ 8 * s.cfg.bsCap) :
    DataInv (s.setReadPos pos) := by
  have hc := bsCap_le h.params
  refine { h with readerRange := ?_ }
  simp only [State.readPos, State.setReadPos, BitVec.toNat_ofNat]
  have h1 : pos / 8 % 2 ^ 32 = pos / 8 := Nat.mod_eq_of_lt (by omega)
  have h2 : pos % 8 % 2 ^ 3 = pos % 8 := by omega
  rw [h1, h2]
  omega

theorem data_setSymbols {s : State} (h : DataInv s) {out : List Symbol} (ho : out.length ≤ 64) :
    DataInv (s.setSymbols out) := by
  refine { h with rleLenRange := ?_ }
  simp only [State.setSymbols, BitVec.toNat_ofNat]
  omega

theorem data_bitWrite {s t : State} (h : DataInv s) {bits : List Bool} (hb : s.bitWrite bits = .ok t) : DataInv t := by
  by_cases hr : s.roomFor bits
  · obtain ⟨w, m, hok, hw⟩ := bitWrite_spec (bsCap_le h.params) h.bsForm h.pendingBits hr
    rw [hok] at hb
    cases hb
    have hc := hw.count
    have hn := s.writer.nb.isLt
    have hn' := w.nb.isLt
    unfold State.roomFor at hr
    refine { h with bsForm := hw.form, bsSize := hw.size h.bsSize, wptrRange := ?_, pendingBits := hw.pending }
    simp only at hc
    show w.wptr.toNat ≤ s.cfg.bsCap
    omega
  · rw [bitWrite_full hr] at hb
    cases hb

theorem streamHas_end {s : State} {pos : Nat} {bits : List Bool} (h : s.streamHas pos bits) (hp : pos ≤ 8 * s.cfg.bsCap)
    (hl : s.bsLen.toNat ≤ s.cfg.bsCap) : pos + bits.length ≤ 8 * s.cfg.bsCap := by
  rcases Nat.eq_zero_or_pos bits.length with h0 | h0
  · omega
  · have := (h (bits.length - 1) (by omega)).1
    omega

/-- BitRead ends within the bitstream memory. -/
theorem bitRead_end {s : State} (h : DataInv s) {n pos v q : Nat} (hp : pos ≤ 8 * s.cfg.bsCap)
    (hr : s.bitRead n pos 0 = .ok (v, q)) : q ≤ 8 * s.cfg.bsCap := by
  rcases bitRead_cases s n pos with ⟨bits, hl, hs, hok⟩ | ⟨_, _, herr⟩
  · rw [hok] at hr
    cases hr
    have := streamHas_end hs hp h.bsLenRange
    omega
  · rw [herr] at hr
    cases hr

/-- A match ends within the bitstream memory. -/
theorem huffMatch_end {s : State} (h : DataInv s) {t : List HuffEntry} {maxLen pos k q : Nat} (ht : GoodTable t maxLen)
    (hm : 1 ≤ maxLen) (hp : pos ≤ 8 * s.cfg.bsCap) (hr : s.huffMatch t maxLen pos = .ok (k, q)) :
    q ≤ 8 * s.cfg.bsCap := by
  rcases huffMatch_cases s ht hm pos with ⟨e, he, hs, hok⟩ | ⟨_, r, herr⟩
  · rw [hok] at hr
    cases hr
    have := streamHas_end hs hp h.bsLenRange
    rwa [length_bitString] at this
  · rw [herr] at hr
    cases hr

theorem maxLens_pos {c : Config} (h : c.wf = true) : 1 ≤ c.dcMaxLen ∧ 1 ≤ c.acMaxLen := by
  have key : ∀ {t : List HuffEntry} {keys : List Nat} {m : Nat}, keysAre t keys = true → keys ≠ [] →
      codesFit t m = true → 1 ≤ m := by
    intro t keys m h1 h2 h3
    simp only [keysAre, Bool.and_eq_true, beq_iff_eq] at h1
    simp only [codesFit, Bool.and_eq_true, decide_eq_true_eq, List.all_eq_true] at h3
    cases t with
    | nil =>
      have := h1.1
      simp only [List.length_nil] at this
      exact absurd (List.length_eq_zero_iff.mp this.symm) h2
    | cons e t =>
      have := h3.2 e List.mem_cons_self
      omega
  simp only [Config.wf, Config.tablesFit, Bool.and_eq_true] at h
  obtain ⟨-, ⟨⟨⟨⟨h1, h2⟩, -⟩, h3⟩, h4⟩, -⟩ := h
  exact ⟨key h1 (by simp [dcKeys]) h2, key h3 (by simp [acKeys]) h4⟩

theorem acParse_end {s : State} (h : DataInv s) : ∀ (fuel : Nat) {pos p q : Nat} {out : List Symbol},
    pos ≤ 8 * s.cfg.bsCap → 1 ≤ p → s.acParse fuel pos p = .ok (out, q) →
    (out.length + p ≤ 64 ∨ out = []) ∧ q ≤ 8 * s.cfg.bsCap
  | 0, pos, p, q, out, hp, _, hr => by
    cases hr
    exact ⟨.inr rfl, hp⟩
  | fuel + 1, pos, p, q, out, hp, h1, hr => by
    rw [State.acParse] at hr
    split at hr
    · cases hr
      exact ⟨.inr rfl, hp⟩
    rename_i hlt
    split at hr
    · cases hr
    rename_i key pos1 hm
    have hp1 := huffMatch_end h (acTable_good h.params) (maxLens_pos h.params).2 hp hm
    dsimp only at hr
    split at hr
    · cases hr
      exact ⟨.inl (by simp only [List.length_cons, List.length_nil]; omega), hp1⟩
    split at hr
    · obtain ⟨r, hr1, hr2⟩ : ∃ r, s.acParse fuel pos1 (p + 16) = .ok r ∧ (zrlSymbol :: r.1, r.2) = (out, q) := by
        cases hx : s.acParse fuel pos1 (p + 16) with
        | error e => rw [hx] at hr; cases hr
        | ok r => rw [hx] at hr; exact ⟨r, rfl, by simpa [Except.map] using hr⟩
      have ih := acParse_end h fuel hp1 (by omega) hr1
      cases hr2
      refine ⟨.inl ?_, ih.2⟩
      rcases ih.1 with h2 | h2 <;> simp only [List.length_cons]
      · omega
      · rw [h2]; simp only [List.length_nil]; omega
    · split at hr
      · cases hr
      rename_i raw pos2 hb
      have hp2 := bitRead_end h hp1 hb
      obtain ⟨r, y, hr1, hr2⟩ : ∃ (r : List Symbol × Nat) (y : Symbol), s.acParse fuel pos2 (p + key % 16 + 1) = .ok r
          ∧ (y :: r.1, r.2) = (out, q) := by
        cases hx : s.acParse fuel pos2 (p + key % 16 + 1) with
        | error e => rw [hx] at hr; cases hr
        | ok r => rw [hx] at hr; exact ⟨r, _, rfl, by simpa [Except.map] using hr⟩
      have ih := acParse_end h fuel hp2 (by omega) hr1
      cases hr2
      refine ⟨.inl ?_, ih.2⟩
      rcases ih.1 with h2 | h2 <;> simp only [List.length_cons]
      · omega
      · rw [h2]; simp only [List.length_nil]; omega

/-- A parsed block has at most 64 symbols and ends within the bitstream memory (R366). -/
theorem blockParse_end {s : State} (h : DataInv s) {out : List Symbol} {q : Nat} (hr : s.blockParse = .ok (out, q)) :
    out.length ≤ 64 ∧ q ≤ 8 * s.cfg.bsCap := by
  rw [State.blockParse] at hr
  split at hr
  · cases hr
  rename_i cat pos1 hm
  have hp1 := huffMatch_end h (dcTable_good h.params) (maxLens_pos h.params).1 h.readerRange hm
  split at hr
  · cases hr
  rename_i raw pos2 hb
  have hp2 := bitRead_end h hp1 hb
  cases hx : s.acParse 64 pos2 1 with
  | error e => rw [hx] at hr; cases hr
  | ok r =>
    rw [hx] at hr
    have ih := acParse_end h 64 hp2 (by omega) hx
    cases hr
    refine ⟨?_, ih.2⟩
    rcases ih.1 with h2 | h2 <;> simp only [List.length_cons]
    · omega
    · rw [h2]; simp

/-! ### Commands -/

/-- A state with the same data has the data part of the invariant. -/
theorem DataInv.other {s t : State} (h : DataInv s) (h1 : t.cfg = s.cfg) (h2 : t.rgb = s.rgb) (h3 : t.ycc = s.ycc)
    (h4 : t.coef = s.coef) (h5 : t.bs = s.bs) (h6 : t.writer = s.writer) (h7 : t.reader = s.reader)
    (h8 : t.bsLen = s.bsLen) (h9 : t.rleLen = s.rleLen) : DataInv t := by
  have hr : t.readPos = s.readPos := by rw [State.readPos, State.readPos, h7]
  exact {
    params := by rw [h1]; exact h.params
    rgbForm := by rw [h2]; exact h.rgbForm
    yccForm := by rw [h3]; exact h.yccForm
    coefForm := by rw [h4]; exact h.coefForm
    bsForm := by rw [h5]; exact h.bsForm
    rgbSize := by rw [h1, h2]; exact h.rgbSize
    yccSize := by rw [h1, h3]; exact h.yccSize
    coefSize := by rw [h4]; exact h.coefSize
    bsSize := by rw [h1, h5]; exact h.bsSize
    wptrRange := by rw [h1, h6]; exact h.wptrRange
    pendingBits := by rw [h6]; exact h.pendingBits
    readerRange := by rw [h1, hr]; exact h.readerRange
    bsLenRange := by rw [h1, h8]; exact h.bsLenRange
    rleLenRange := by rw [h9]; exact h.rleLenRange }

theorem data_rgb {s : State} (h : DataInv s) {m : Memory Pixel} (hw : Memory.wf m = true) (hs : within s.cfg.maxPixels m) :
    DataInv { s with rgb := m } := { h with rgbForm := hw, rgbSize := hs }

theorem data_ycc {s : State} (h : DataInv s) {m : Memory YccPixel} (hw : Memory.wf m = true) (hs : within s.cfg.maxPixels m) :
    DataInv { s with ycc := m } := { h with yccForm := hw, yccSize := hs }

theorem data_coef {s : State} (h : DataInv s) {m : Memory Word} (hw : Memory.wf m = true) (hs : within (3 * 4194304) m) :
    DataInv { s with coef := m } := { h with coefForm := hw, coefSize := hs }

/-- The command settles, and its own effect, where it has one, keeps the data part and touches only its destinations. -/
def GoodEffect (i : Instr) (s : State) : Prop :=
  ∃ r, exec i s = settle s r ∧ ∀ t, r = .ok t → DataInv t ∧ Touches i s t

theorem good_nop {s : State} (h : DataInv s) : GoodEffect .nop s := by
  unfold GoodEffect
  simp only [exec, execNop]
  refine ⟨_, rfl, ?_⟩
  intro t ht
  cases ht
  exact ⟨h, rfl⟩

theorem good_fdct {s : State} (h : DataInv s) : GoodEffect .fdct s := by
  unfold GoodEffect
  simp only [exec, execFdct]
  refine ⟨_, rfl, ?_⟩
  intro t ht
  cases ht
  exact ⟨h.other rfl rfl rfl rfl rfl rfl rfl rfl rfl, _, rfl⟩

theorem good_idct {s : State} (h : DataInv s) : GoodEffect .idct s := by
  unfold GoodEffect
  simp only [exec, execIdct]
  refine ⟨_, rfl, ?_⟩
  intro t ht
  cases ht
  exact ⟨h.other rfl rfl rfl rfl rfl rfl rfl rfl rfl, _, rfl⟩

theorem good_dequant (ch : Channel) {s : State} (h : DataInv s) : GoodEffect (.dequant ch) s := by
  unfold GoodEffect
  simp only [exec, execDequant]
  refine ⟨_, rfl, ?_⟩
  intro t ht
  cases ht
  exact ⟨h.other rfl rfl rfl rfl rfl rfl rfl rfl rfl, _, rfl⟩

theorem good_zigzag {s : State} (h : DataInv s) : GoodEffect .zigzag s := by
  unfold GoodEffect
  simp only [exec, execZigzag]
  refine ⟨_, rfl, ?_⟩
  intro t ht
  cases ht
  exact ⟨h.other rfl rfl rfl rfl rfl rfl rfl rfl rfl, _, rfl⟩

theorem good_unzigzag {s : State} (h : DataInv s) : GoodEffect .unzigzag s := by
  unfold GoodEffect
  simp only [exec, execUnzigzag]
  refine ⟨_, rfl, ?_⟩
  intro t ht
  cases ht
  exact ⟨h.other rfl rfl rfl rfl rfl rfl rfl rfl rfl, _, rfl⟩

theorem good_category {s : State} (h : DataInv s) : GoodEffect .category s := by
  unfold GoodEffect
  simp only [exec, execCategory]
  refine ⟨_, rfl, ?_⟩
  intro t ht
  cases ht
  exact ⟨h.other rfl rfl rfl rfl rfl rfl rfl rfl rfl, _, rfl⟩

theorem good_rleenc {s : State} (h : DataInv s) : GoodEffect .rleenc s := by
  unfold GoodEffect
  simp only [exec, execRleenc]
  refine ⟨_, rfl, ?_⟩
  intro t ht
  cases ht
  exact ⟨data_setSymbols h (rleEncode_length _), _, rfl⟩

theorem good_bswrst {s : State} (h : DataInv s) : GoodEffect .bswrst s := by
  unfold GoodEffect
  simp only [exec, execBswrst]
  refine ⟨_, rfl, ?_⟩
  intro t ht
  cases ht
  exact ⟨{ h with wptrRange := Nat.zero_le _, pendingBits := Nat.one_pos }, rfl⟩

theorem good_bsrrst {s : State} (h : DataInv s) : GoodEffect .bsrrst s := by
  unfold GoodEffect
  simp only [exec, execBsrrst]
  refine ⟨_, rfl, ?_⟩
  intro t ht
  cases ht
  exact ⟨{ h with readerRange := Nat.zero_le _ }, rfl⟩

theorem good_quant (ch : Channel) {s : State} (h : DataInv s) : GoodEffect (.quant ch) s := by
  unfold GoodEffect
  simp only [exec, execQuant]
  refine ⟨_, rfl, ?_⟩
  intro t ht
  split at ht <;> cases ht
  exact ⟨h.other rfl rfl rfl rfl rfl rfl rfl rfl rfl, _, rfl⟩

theorem good_rledec {s : State} (h : DataInv s) : GoodEffect .rledec s := by
  unfold GoodEffect
  simp only [exec, execRledec]
  refine ⟨_, rfl, ?_⟩
  intro t ht
  split at ht <;> cases ht
  exact ⟨h.other rfl rfl rfl rfl rfl rfl rfl rfl rfl, _, rfl⟩

theorem good_loadblk (ch : Channel) (b : Nat) {s : State} (h : DataInv s) : GoodEffect (.loadblk ch b) s := by
  unfold GoodEffect
  simp only [exec, execLoadblk]
  refine ⟨_, rfl, ?_⟩
  intro t ht
  split at ht <;> cases ht
  exact ⟨h.other rfl rfl rfl rfl rfl rfl rfl rfl rfl, _, rfl⟩

theorem good_loadvec (ch : Channel) (b : Nat) {s : State} (h : DataInv s) : GoodEffect (.loadvec ch b) s := by
  unfold GoodEffect
  simp only [exec, execLoadvec]
  refine ⟨_, rfl, ?_⟩
  intro t ht
  split at ht <;> cases ht
  exact ⟨h.other rfl rfl rfl rfl rfl rfl rfl rfl rfl, _, rfl⟩

theorem good_cscFwd {s : State} (h : DataInv s) : GoodEffect .cscFwd s := by
  unfold GoodEffect
  simp only [exec, execCscFwd]
  refine ⟨_, rfl, ?_⟩
  intro t ht
  rcases checkGeometry_cases s with ⟨hg, hok⟩ | ⟨e, he⟩
  · rw [hok] at ht
    cases ht
    refine ⟨data_ycc h (wf_writeAll _ h.yccForm) (within_writeAll _ h.yccSize ?_), _, rfl⟩
    intro p hp
    obtain ⟨n, hn, rfl⟩ := List.mem_map.mp hp
    exact lt_of_lt_of_le (List.mem_range.mp hn) (numPixels_le hg)
  · rw [he] at ht; cases ht

theorem good_subsample {s : State} (h : DataInv s) : GoodEffect .subsample s := by
  unfold GoodEffect
  simp only [exec, execSubsample]
  refine ⟨_, rfl, ?_⟩
  intro t ht
  rcases checkGeometry_cases s with ⟨hg, hok⟩ | ⟨e, he⟩
  · rw [hok] at ht
    cases ht
    refine ⟨(data_ycc h (wf_writeAll _ h.yccForm) (within_writeAll _ h.yccSize ?_)).other rfl rfl rfl rfl rfl rfl rfl rfl rfl, _, rfl⟩
    intro p hp
    obtain ⟨n, hn, rfl⟩ := List.mem_map.mp hp
    exact lt_of_lt_of_le (List.mem_range.mp hn) (numPixels_le hg)
  · rw [he] at ht; cases ht

theorem good_cscInv {s : State} (h : DataInv s) : GoodEffect .cscInv s := by
  unfold GoodEffect
  simp only [exec, execCscInv]
  refine ⟨_, rfl, ?_⟩
  intro t ht
  rcases checkGeometry_cases s with ⟨hg, hok⟩ | ⟨e, he⟩
  · rw [hok] at ht
    simp only at ht
    split at ht
    · cases ht
    · cases ht
      refine ⟨data_rgb h (wf_writeAll _ h.rgbForm) (within_writeAll _ h.rgbSize ?_), _, rfl⟩
      intro p hp
      have := List.of_mem_zip hp
      exact lt_of_lt_of_le (List.mem_range.mp this.1) (numPixels_le hg)
  · rw [he] at ht; cases ht

theorem good_dcenc (ch : Channel) {s : State} (h : DataInv s) : GoodEffect (.dcenc ch) s := by
  unfold GoodEffect
  simp only [exec, execDcenc]
  refine ⟨_, rfl, ?_⟩
  intro t ht
  have hnb := numBlocks_le (s := s) (sizesFit_of_wf h.params)
  rcases checkGeometry_cases s with ⟨hg, hok⟩ | ⟨e, he⟩
  · rw [hok] at ht
    cases ht
    exact ⟨{ h with
      coefForm := wf_dcEncode _ _ h.coefForm
      coefSize := within_dcEncode _ _ (by omega) h.coefSize }, _, rfl⟩
  · rw [he] at ht; cases ht

theorem good_dcdec (ch : Channel) {s : State} (h : DataInv s) : GoodEffect (.dcdec ch) s := by
  unfold GoodEffect
  simp only [exec, execDcdec]
  refine ⟨_, rfl, ?_⟩
  intro t ht
  have hnb := numBlocks_le (s := s) (sizesFit_of_wf h.params)
  rcases checkGeometry_cases s with ⟨hg, hok⟩ | ⟨e, he⟩
  · rw [hok] at ht
    cases ht
    exact ⟨{ h with
      coefForm := wf_dcDecode _ h.coefForm _
      coefSize := within_dcDecode _ h.coefSize _ (by omega) }, _, rfl⟩
  · rw [he] at ht; cases ht

theorem good_storeblk (ch : Channel) (b : Nat) {s : State} (h : DataInv s) : GoodEffect (.storeblk ch b) s := by
  unfold GoodEffect
  simp only [exec, execStoreblk]
  refine ⟨_, rfl, ?_⟩
  intro t ht
  rcases checkBlock_cases s b with ⟨hg, hb, hok⟩ | ⟨e, he⟩
  · rw [hok] at ht
    cases ht
    refine ⟨data_ycc h (wf_writeAll _ h.yccForm) (within_writeAll _ h.yccSize ?_), _, rfl⟩
    intro p hp
    obtain ⟨n, hn, rfl⟩ := List.mem_map.mp hp
    exact lt_of_lt_of_le (pix_lt hg hb (List.mem_range.mp hn)) (numPixels_le hg)
  · rw [he] at ht; cases ht

theorem good_storevec (ch : Channel) (b : Nat) {s : State} (h : DataInv s) : GoodEffect (.storevec ch b) s := by
  unfold GoodEffect
  simp only [exec, execStorevec]
  refine ⟨_, rfl, ?_⟩
  intro t ht
  have hnb := numBlocks_le (s := s) (sizesFit_of_wf h.params)
  rcases checkBlock_cases s b with ⟨hg, hb, hok⟩ | ⟨e, he⟩
  · rw [hok] at ht
    cases ht
    refine ⟨data_coef h (wf_writeAll _ h.coefForm) (within_writeAll _ h.coefSize ?_), _, rfl⟩
    intro p hp
    obtain ⟨n, hn, rfl⟩ := List.mem_map.mp hp
    exact coefIx_lt ch (by omega) (List.mem_range.mp hn)
  · rw [he] at ht; cases ht

theorem good_hufenc {s : State} (h : DataInv s) : GoodEffect .hufenc s := by
  unfold GoodEffect
  simp only [exec, execHufenc]
  refine ⟨_, rfl, ?_⟩
  intro t ht
  split at ht
  · cases ht
  · exact ⟨data_bitWrite h ht, bitWrite_shape ht⟩

theorem good_hufputdc {s : State} (h : DataInv s) : GoodEffect .hufputdc s := by
  unfold GoodEffect
  simp only [exec, execHufputdc]
  refine ⟨_, rfl, ?_⟩
  intro t ht
  split at ht
  · cases ht
  · exact ⟨data_bitWrite h ht, bitWrite_shape ht⟩

theorem good_hufputac {s : State} (h : DataInv s) : GoodEffect .hufputac s := by
  unfold GoodEffect
  simp only [exec, execHufputac]
  refine ⟨_, rfl, ?_⟩
  intro t ht
  split at ht
  · cases ht
  · exact ⟨data_bitWrite h ht, bitWrite_shape ht⟩

theorem good_putbits {s : State} (h : DataInv s) : GoodEffect .putbits s := by
  unfold GoodEffect
  simp only [exec, execPutbits]
  refine ⟨_, rfl, ?_⟩
  intro t ht
  split at ht
  · cases ht
  · exact ⟨data_bitWrite h ht, bitWrite_shape ht⟩

theorem good_smwrite {s : State} (h : DataInv s) : GoodEffect .smwrite s := by
  unfold GoodEffect
  simp only [exec, execSmwrite]
  refine ⟨_, rfl, ?_⟩
  intro t ht
  split at ht
  · cases ht
  · exact ⟨data_bitWrite h ht, bitWrite_shape ht⟩

theorem good_flush {s : State} (h : DataInv s) : GoodEffect .flush s := by
  unfold GoodEffect
  simp only [exec, execFlush]
  refine ⟨_, rfl, ?_⟩
  intro t ht
  split at ht
  · cases ht; exact ⟨h, _, _, rfl⟩
  · exact ⟨data_bitWrite h ht, bitWrite_shape ht⟩

theorem good_hufdec {s : State} (h : DataInv s) : GoodEffect .hufdec s := by
  unfold GoodEffect
  simp only [exec, execHufdec]
  refine ⟨_, rfl, ?_⟩
  intro t ht
  split at ht
  · cases ht
  · rename_i out pos hp
    cases ht
    have hend := blockParse_end h hp
    exact ⟨data_setReadPos (data_setSymbols h hend.1) hend.2, _, _, rfl⟩

theorem good_hufgetdc {s : State} (h : DataInv s) : GoodEffect .hufgetdc s := by
  unfold GoodEffect
  simp only [exec, execHufgetdc]
  refine ⟨_, rfl, ?_⟩
  intro t ht
  split at ht
  · cases ht
  · rename_i k pos hp
    cases ht
    have hend := huffMatch_end h (dcTable_good h.params) (maxLens_pos h.params).1 h.readerRange hp
    exact ⟨(data_setReadPos h hend).other rfl rfl rfl rfl rfl rfl rfl rfl rfl, _, _, rfl⟩

theorem good_hufgetac {s : State} (h : DataInv s) : GoodEffect .hufgetac s := by
  unfold GoodEffect
  simp only [exec, execHufgetac]
  refine ⟨_, rfl, ?_⟩
  intro t ht
  split at ht
  · cases ht
  · rename_i k pos hp
    cases ht
    have hend := huffMatch_end h (acTable_good h.params) (maxLens_pos h.params).2 h.readerRange hp
    exact ⟨(data_setReadPos h hend).other rfl rfl rfl rfl rfl rfl rfl rfl rfl, _, _, rfl⟩

theorem good_getbits {s : State} (h : DataInv s) : GoodEffect .getbits s := by
  unfold GoodEffect
  simp only [exec, execGetbits]
  refine ⟨_, rfl, ?_⟩
  intro t ht
  split at ht
  · cases ht
  · split at ht
    · cases ht
    · rename_i v pos hp
      cases ht
      exact ⟨(data_setReadPos h (bitRead_end h h.readerRange hp)).other rfl rfl rfl rfl rfl rfl rfl rfl rfl, _, _, rfl⟩

theorem good_smread {s : State} (h : DataInv s) : GoodEffect .smread s := by
  unfold GoodEffect
  simp only [exec, execSmread]
  refine ⟨_, rfl, ?_⟩
  intro t ht
  split at ht
  · cases ht
  · split at ht
    · cases ht
    · rename_i v pos hp
      cases ht
      exact ⟨(data_setReadPos h (bitRead_end h h.readerRange hp)).other rfl rfl rfl rfl rfl rfl rfl rfl rfl, _, _, rfl⟩

/-- Every command is good. -/
theorem good_effect (i : Instr) {s : State} (h : DataInv s) : GoodEffect i s := by
  cases i with
  | nop => exact good_nop h
  | cscFwd => exact good_cscFwd h
  | cscInv => exact good_cscInv h
  | subsample => exact good_subsample h
  | fdct => exact good_fdct h
  | idct => exact good_idct h
  | quant ch => exact good_quant ch h
  | dequant ch => exact good_dequant ch h
  | zigzag => exact good_zigzag h
  | unzigzag => exact good_unzigzag h
  | dcenc ch => exact good_dcenc ch h
  | dcdec ch => exact good_dcdec ch h
  | rleenc => exact good_rleenc h
  | rledec => exact good_rledec h
  | category => exact good_category h
  | hufenc => exact good_hufenc h
  | hufdec => exact good_hufdec h
  | hufputdc => exact good_hufputdc h
  | hufputac => exact good_hufputac h
  | hufgetdc => exact good_hufgetdc h
  | hufgetac => exact good_hufgetac h
  | putbits => exact good_putbits h
  | getbits => exact good_getbits h
  | flush => exact good_flush h
  | bswrst => exact good_bswrst h
  | bsrrst => exact good_bsrrst h
  | smwrite => exact good_smwrite h
  | smread => exact good_smread h
  | loadblk ch b => exact good_loadblk ch b h
  | storeblk ch b => exact good_storeblk ch b h
  | loadvec ch b => exact good_loadvec ch b h
  | storevec ch b => exact good_storevec ch b h

/-! ### Host writes -/

/-- A host write of an address's own target keeps the data part. -/
theorem data_writeAt {s : State} (h : DataInv s) (w : Word) {t : Target}
    (ht : (∃ r, t = .csr r) ∨ InWindow s.cfg t ∨ ReadOnly t) : DataInv (s.writeAt w t) := by
  have hc := sizesFit_of_wf h.params
  rcases ht with ⟨r, rfl⟩ | hin | hro
  · cases r with
    | ctrl =>
      simp only [State.writeAt, State.writeCsr, State.writeCtrl]
      split
      · exact { h with
          wptrRange := Nat.zero_le _, pendingBits := Nat.one_pos, readerRange := Nat.zero_le _
          bsLenRange := Nat.zero_le _, rleLenRange := Nat.zero_le _ }
      · exact { h with }
    | status =>
      simp only [State.writeAt, State.writeCsr, State.writeStatus]
      split <;> exact { h with }
    | cmd =>
      simp only [State.writeAt, State.writeCsr, State.writeCmd]
      split <;> exact { h with }
    | bsLen =>
      refine { h with bsLenRange := ?_ }
      have := bsCap_le h.params
      simp only [State.writeAt, State.writeCsr, u32, BitVec.toNat_ofNat]
      omega
    | rleLen =>
      refine { h with rleLenRange := ?_ }
      simp only [State.writeAt, State.writeCsr, BitVec.toNat_ofNat]
      omega
    | _ => exact { h with }
  · cases t with
    | csr r => exact hin.elim
    | misaligned | unmapped | reserved | zigzag _ | qtabY _ | qtabC _ | dctC _ _ | hufDc _ | hufAc _ => exact hin.elim
    | vec _ | iblk _ | fblk _ _ | rlebuf _ _ => exact { h with }
    | rgb i => exact { h with rgbForm := wf_write _ _ h.rgbForm, rgbSize := within_write _ hin h.rgbSize }
    | ycc i ch hi => exact { h with yccForm := wf_write _ _ h.yccForm, yccSize := within_write _ hin h.yccSize }
    | coef ch b k =>
      have hb : b < 65536 := by
        simp only [Config.sizesFit, Bool.and_eq_true, decide_eq_true_eq, beq_iff_eq] at hc
        have := hin.1
        unfold Config.maxBlocks at this
        omega
      exact { h with
        coefForm := wf_write _ _ h.coefForm, coefSize := within_write _ (coefIx_lt ch hb hin.2) h.coefSize }
    | bs j =>
      exact { h with bsForm := wf_writeLanes _ _ _ _ h.bsForm, bsSize := within_writeLanes _ _ _ _ h.bsSize }
  · rw [writeAt_readOnly hro]; exact h

/-- A host write keeps the flag part. -/
theorem flags_writeAt {s : State} (h : FlagInv s) (w : Word) (t : Target) : FlagInv (s.writeAt w t) := by
  cases t with
  | csr r =>
    cases r with
    | ctrl =>
      simp only [State.writeAt, State.writeCsr, State.writeCtrl]
      split
      · exact ⟨by simp [State.softReset], by simp [State.softReset], fun _ => rfl, by simp [State.softReset],
          by simp [State.softReset]⟩
      · exact { h with }
    | status =>
      simp only [State.writeAt, State.writeCsr, State.writeStatus]
      split
      · refine ⟨by simp, by simp, fun _ => rfl, ?_, by simp⟩
        intro hb
        exact ⟨by simp [State.clearError, State.clearDropped, State.clearDone, (h.busyAlone hb).1], rfl⟩
      · refine ⟨h.errIffCode, h.codeRange, h.infoOfErr, ?_, ?_⟩
        · intro hb
          exact ⟨by simp [State.clearDropped, State.clearDone, (h.busyAlone hb).1], (h.busyAlone hb).2⟩
        · rintro ⟨h1, h2⟩
          refine h.doneOrErr ⟨?_, h2⟩
          simp only [State.clearDropped, State.clearDone, Bool.and_eq_true] at h1
          exact h1.1
    | cmd =>
      simp only [State.writeAt, State.writeCsr, State.writeCmd]
      split
      · exact { h with }
      · rename_i hbe
        simp only [Bool.or_eq_true, not_or, Bool.not_eq_true] at hbe
        refine ⟨h.errIffCode, h.codeRange, h.infoOfErr, fun _ => ⟨rfl, hbe.2⟩, ?_⟩
        simp [State.acceptCmd]
    | _ => exact { h with }
  | _ => exact { h with }

/-- What an address names: a register, an element of a window, or something a write leaves alone. -/
theorem target_kinds (c : Config) (a : Nat) :
    (∃ r, targetOf c a = .csr r) ∨ InWindow c (targetOf c a) ∨ ReadOnly (targetOf c a) := by
  rcases Nat.lt_or_ge a 0x1000 with h | h
  · unfold targetOf
    rw [if_pos h]
    split
    · exact .inr (.inr trivial)
    · unfold csrTarget
      split
      · exact .inl ⟨_, rfl⟩
      · exact .inr (.inr trivial)
  · rcases target_place (c := c) h with ⟨_, h1⟩ | h1
    · exact .inr (.inl h1)
    · exact .inr (.inr h1)

end Sys2Proof.Machine
end

