-- ==== Sys2Proof/Laws/Operands.lean ====
section
/-! SUPPORT. The operands of the bitstream commands (spec/30_encoding.md R154) and the length of the symbol list. -/

namespace Sys2Proof.Machine

theorem bitCount_ok {s : State} (h : s.arg1.toNat ≤ 16) : s.bitCount = .ok s.arg1.toNat := by
  unfold State.bitCount
  rw [if_neg (by omega)]

theorem bitCount_error {s : State} (h : 16 < s.arg1.toNat) : s.bitCount = .error ⟨.badOperand, u32 s.arg1.toNat⟩ := by
  unfold State.bitCount
  rw [if_pos h]
  rfl

theorem arg0Key_some {s : State} (h : s.arg0.toNat / 1024 = 0) : s.arg0Key = some s.arg0.toNat := by
  unfold State.arg0Key
  rw [if_pos h]

theorem arg0Key_none {s : State} (h : s.arg0.toNat / 1024 ≠ 0) : s.arg0Key = none := by
  unfold State.arg0Key
  rw [if_neg h]

theorem length_symbols (s : State) : s.symbols.length = min s.rleLen.toNat 64 := by simp [State.symbols]

end Sys2Proof.Machine
end

