-- ==== Sys2Proof/Laws/PerInstr.lean ====
section
/-! SUPPORT. A statement for every instruction, one lemma per constructor: an encoded command lies in its own row of the
opcode map, whatever its fields hold (spec/30_encoding.md R156). -/

namespace Sys2Proof.Laws.EncodedRow

/-- The word of a well-formed command has its row's match under its row's mask. -/
def Statement (i : Instr) : Prop := i.wf = true → encode i &&& rowMask i = rowMatch i

/-- Bits from 2^16 on do not meet a 16-bit mask. -/
theorem and_low (x m : Nat) (h : m < 2 ^ 16) : x &&& m = x % 2 ^ 16 &&& m := by
  apply Nat.eq_of_testBit_eq
  intro k
  rw [Nat.testBit_and, Nat.testBit_and, Nat.testBit_mod_two_pow]
  rcases Nat.lt_or_ge k 16 with hk | hk
  · simp [hk]
  · have : m.testBit k = false := Nat.testBit_lt_two_pow (lt_of_lt_of_le h (Nat.pow_le_pow_right (by norm_num) hk))
    simp [this]

/-- The rows with a block index: the mask covers the other 16 bits. -/
theorem blkRow {i : Instr} {n c : Nat} (h : i.wf = true) (hm : rowMask i = 0x0000FCFF) (hn : opcodeOf i = n)
    (hf : (fieldsOf i).1 = c) (hc : (n + 256 * c) &&& 0xFCFF = n) : encode i &&& rowMask i = rowMatch i := by
  apply BitVec.eq_of_toNat_eq
  have hch := fieldCh_le i
  have ho := opcodeOf_lt i
  have e1 : (0x0000FCFF : Word).toNat = 0xFCFF := rfl
  have e2 : (opcodeOf i + 256 * (fieldsOf i).1 + 65536 * (fieldsOf i).2) % 2 ^ 16 = opcodeOf i + 256 * (fieldsOf i).1 := by
    omega
  rw [BitVec.toNat_and, toNat_encode h, hm, e1, and_low _ _ (by norm_num), e2, hn, hf, hc]
  simp only [rowMatch, BitVec.toNat_ofNat, hn]
  omega

theorem nop : Statement .nop := fun _ => by decide
theorem cscFwd : Statement .cscFwd := fun _ => by decide
theorem cscInv : Statement .cscInv := fun _ => by decide
theorem subsample : Statement .subsample := fun _ => by decide
theorem fdct : Statement .fdct := fun _ => by decide
theorem idct : Statement .idct := fun _ => by decide
theorem quant (ch : Channel) : Statement (.quant ch) := fun _ => by cases ch <;> decide
theorem dequant (ch : Channel) : Statement (.dequant ch) := fun _ => by cases ch <;> decide
theorem zigzag : Statement .zigzag := fun _ => by decide
theorem unzigzag : Statement .unzigzag := fun _ => by decide
theorem dcenc (ch : Channel) : Statement (.dcenc ch) := fun _ => by cases ch <;> decide
theorem dcdec (ch : Channel) : Statement (.dcdec ch) := fun _ => by cases ch <;> decide
theorem rleenc : Statement .rleenc := fun _ => by decide
theorem rledec : Statement .rledec := fun _ => by decide
theorem category : Statement .category := fun _ => by decide
theorem hufenc : Statement .hufenc := fun _ => by decide
theorem hufdec : Statement .hufdec := fun _ => by decide
theorem hufputdc : Statement .hufputdc := fun _ => by decide
theorem hufputac : Statement .hufputac := fun _ => by decide
theorem hufgetdc : Statement .hufgetdc := fun _ => by decide
theorem hufgetac : Statement .hufgetac := fun _ => by decide
theorem putbits : Statement .putbits := fun _ => by decide
theorem getbits : Statement .getbits := fun _ => by decide
theorem flush : Statement .flush := fun _ => by decide
theorem bswrst : Statement .bswrst := fun _ => by decide
theorem bsrrst : Statement .bsrrst := fun _ => by decide
theorem smwrite : Statement .smwrite := fun _ => by decide
theorem smread : Statement .smread := fun _ => by decide
theorem loadblk (ch : Channel) (b : Nat) : Statement (.loadblk ch b) := fun h =>
  blkRow (n := 0x60) (c := channelNo ch) h rfl rfl rfl (by cases ch <;> decide)
theorem storeblk (ch : Channel) (b : Nat) : Statement (.storeblk ch b) := fun h =>
  blkRow (n := 0x61) (c := channelNo ch) h rfl rfl rfl (by cases ch <;> decide)
theorem loadvec (ch : Channel) (b : Nat) : Statement (.loadvec ch b) := fun h =>
  blkRow (n := 0x62) (c := channelNo ch) h rfl rfl rfl (by cases ch <;> decide)
theorem storevec (ch : Channel) (b : Nat) : Statement (.storevec ch b) := fun h =>
  blkRow (n := 0x63) (c := channelNo ch) h rfl rfl rfl (by cases ch <;> decide)

end Sys2Proof.Laws.EncodedRow
end

