-- ==== Sys2Proof/Laws/Reference.lean ====
section
/-! SUPPORT. The reference parameters (spec/00_scope.md R7) meet their constraints, part by part. -/

namespace Sys2Proof.Machine

theorem reference_sizes : Tables.reference.sizesFit = true := by decide

theorem reference_zigzag : Tables.reference.zigzagFits = true := by decide +kernel

theorem reference_steps : Tables.reference.stepsFit = true := by decide +kernel

theorem reference_dc : (keysAre Tables.hufDc dcKeys && codesFit Tables.hufDc 8 && prefixFree Tables.hufDc) = true := by
  decide +kernel

theorem reference_acKeys : keysAre Tables.hufAc acKeys = true := by decide +kernel

theorem reference_acCodes : codesFit Tables.hufAc 16 = true := by decide +kernel

theorem reference_acPrefix : prefixFree Tables.hufAc = true := by decide +kernel

theorem reference_dcMaxLen : Tables.reference.dcMaxLen = 8 := by decide

theorem reference_acMaxLen : Tables.reference.acMaxLen = 16 := by decide +kernel

theorem reference_dctFits : Tables.reference.dctFits = true := by decide +kernel

theorem reference_dct : Tables.reference.dctRestores = true := by
  rw [Config.dctRestores, reference_dctFits, Bool.true_or]

theorem reference_tables : Tables.reference.tablesFit = true := by
  have h := reference_dc
  simp only [Config.tablesFit, Bool.and_eq_true] at h ⊢
  refine ⟨⟨⟨⟨⟨h.1.1, ?_⟩, h.2⟩, reference_acKeys⟩, ?_⟩, reference_acPrefix⟩
  · exact reference_dcMaxLen ▸ h.1.2
  · exact reference_acMaxLen ▸ reference_acCodes

/-- The reference parameter set meets every constraint. -/
theorem reference_wf : Tables.reference.wf = true := by
  simp only [Config.wf, reference_sizes, reference_dct, reference_zigzag, reference_steps, reference_tables, Bool.and_self]

end Sys2Proof.Machine
end

