-- ==== Sys2Proof/Laws/Zigzag.lean ====
section
/-! SUPPORT. ZIGZAG is a permutation, and what the loop of UNZIGZAG leaves (spec/44_zigzag.md R281, R283). -/

namespace Sys2Proof.Machine

/-- Every natural index is the place of a vector position. -/
theorem zz_surjective {s : State} (h : s.cfg.wf = true) : ∀ n < 64, ∃ k < 64, s.zz k = n := by
  simp only [Config.wf, Bool.and_eq_true, Config.zigzagFits, List.all_eq_true, List.contains_eq_mem,
    decide_eq_true_eq] at h
  intro n hn
  obtain ⟨z, hz1, hz2⟩ := List.mem_map.mp (h.1.1.2.1.1 n (List.mem_range.mpr hn))
  obtain ⟨k, hk, rfl⟩ := List.getElem_of_mem hz1
  have hk' : k < 64 := by simpa using hk
  exact ⟨k, hk', by rw [← hz2]; simp [State.zz, nth, List.getD_eq_getElem?_getD, hk']⟩

/-- Different vector positions have different places. -/
theorem zz_injective {s : State} (h : s.cfg.wf = true) {j k : Nat} (hj : j < 64) (hk : k < 64) (he : s.zz j = s.zz k) :
    j = k := by
  have hs : Function.Surjective (fun k : Fin 64 => nth s.cfg.zigzag k.val) := by
    intro n
    obtain ⟨k, hk, hkn⟩ := zz_surjective h n.val n.isLt
    exact ⟨⟨k, hk⟩, Fin.ext hkn⟩
  have := Finite.injective_iff_surjective.mpr hs (a₁ := ⟨j, hj⟩) (a₂ := ⟨k, hk⟩) (Fin.ext he)
  exact congrArg Fin.val this

theorem zz_lt (s : State) (k : Nat) : s.zz k < 64 := (nth s.cfg.zigzag k).isLt

/-- After n turns of the loop of UNZIGZAG, the places of the first n positions hold their values. -/
theorem unzigzag_fold {s : State} (h : s.cfg.wf = true) (v b : Block Word) : ∀ n ≤ 64, ∀ k < n,
    nth ((List.range n).foldl (fun b k => put b (s.zz k) (nth v k)) b) (s.zz k) = nth v k := by
  intro n
  induction n with
  | zero => intro _ k hk; omega
  | succ n ih =>
    intro hn k hk
    rw [List.range_succ, List.foldl_append, List.foldl_cons, List.foldl_nil, nth_put _ _ _ _ (zz_lt s k)]
    by_cases he : k = n
    · subst he; rw [if_pos rfl]
    · rw [if_neg fun h' => he (zz_injective h (by omega) (by omega) h'), ih (by omega) k (by omega)]

end Sys2Proof.Machine
end

