-- ==== Sys2Proof/Tests/Slice0.lean ====
section
/-! SUPPORT. The model's own tests: ill-formed terms refused, command words written out from the spec's encoding, one
step of a command against the vectors of spec/95_test_vectors.md, and for every statement with hypotheses a state that
meets them. -/

namespace Sys2Proof.Tests

open Sys2Proof.Machine

-- One theorem at a time: many small evaluations at once each hold a thread.
set_option Elab.async false

/-! ### Ill-formed terms are refused (30_encoding.md R152, 00_scope.md R7, 47_huffman_bitstream.md R362) -/

theorem test_wf_loadblk_block_too_large : (Instr.loadblk .y 65536).wf = false := by decide
theorem test_wf_storeblk_block_too_large : (Instr.storeblk .cb 65536).wf = false := by decide
theorem test_wf_loadvec_block_too_large : (Instr.loadvec .cr 65536).wf = false := by decide
theorem test_wf_storevec_block_too_large : (Instr.storevec .y 65536).wf = false := by decide
theorem test_wf_last_block : (Instr.storevec .y 65535).wf = true := by decide

theorem test_wf_dim_not_multiple : { Tables.reference with maxDim := 12 }.sizesFit = false := by decide
theorem test_wf_dim_too_large : { Tables.reference with maxDim := 2056 }.sizesFit = false := by decide
theorem test_wf_pixels_too_many : { Tables.reference with maxPixels := 4194305 }.sizesFit = false := by decide
theorem test_wf_no_bitstream : { Tables.reference with bsCap := 0 }.sizesFit = false := by decide
/-- R241: a basis of zeros, one with a NaN, and one with its first element off by about 1.4e-9 do not round-trip. -/
theorem test_wf_basis_zero : { Tables.reference with dctC := blockOf fun _ => 0 }.dctRestores = false :=
  dctRestores_false (blockOf fun _ => 0) (by decide +kernel) (by decide +kernel)
theorem test_wf_basis_nan : { Tables.reference with dctC := put Tables.dctC 63 0x7FF8000000000000 }.dctRestores = false :=
  dctRestores_false (blockOf fun _ => 0) (by decide +kernel) (by decide +kernel)
theorem test_wf_basis_off : { Tables.reference with dctC := put Tables.dctC 0 0x3FD6A09E68000000 }.dctRestores = false :=
  dctRestores_false (blockOf fun _ => 0x407F400000000000) (by decide +kernel) (by decide +kernel)
/-- R241: the reference basis with every element of row 0 one unit in the last place larger is legal. -/
theorem test_wf_basis_near : { Tables.reference with
    dctC := blockOf fun n => if n < 8 then 0x3FD6A09E667F3BCE else nth Tables.dctC n }.dctRestores = true := by
  rw [dctRestores_eq]
  exact dctFits_restores (by decide +kernel)
theorem test_wf_zigzag_no_permutation :
    { Tables.reference with zigzag := put Tables.zigzag 5 0 }.zigzagFits = false := by decide +kernel
theorem test_wf_step_zero : { Tables.reference with qtabC := put Tables.qtabC 63 0 }.stepsFit = false := by
  decide +kernel
theorem test_wf_step_too_large : { Tables.reference with qtabY := put Tables.qtabY 0 256 }.stepsFit = false := by
  decide +kernel
theorem test_wf_missing_key : keysAre Tables.hufDc.tail dcKeys = false := by decide
theorem test_wf_code_longer_than_maximum : codesFit Tables.hufDc 7 = false := by decide
theorem test_wf_code_wider_than_length : codesFit [⟨0, 2, 4⟩] 8 = false := by decide
theorem test_wf_prefix : prefixFree [⟨0, 2, 0b00⟩, ⟨1, 3, 0b001⟩] = false := by decide
theorem test_boot_refuses : State.boot { Tables.reference with maxDim := 12 } = .refused .badConfig := by rfl

/-! ### Command words, from 30_encoding.md R150 and R156: OPC in bits 7..0, CH in 9..8, BLK in 31..16 -/

theorem test_decode_system : decode 0x00000000 = .ok .nop ∧ decode 0x00000050 = .ok .flush ∧
    decode 0x00000051 = .ok .bswrst ∧ decode 0x00000052 = .ok .bsrrst := by decide
theorem test_decode_color : decode 0x00000010 = .ok .cscFwd ∧ decode 0x00000011 = .ok .cscInv ∧
    decode 0x00000018 = .ok .subsample := by decide
theorem test_decode_transform : decode 0x00000020 = .ok .fdct ∧ decode 0x00000021 = .ok .idct ∧
    decode 0x00000030 = .ok .zigzag ∧ decode 0x00000031 = .ok .unzigzag := by decide
theorem test_decode_quant : decode 0x00000028 = .ok (.quant .y) ∧ decode 0x00000128 = .ok (.quant .cb) ∧
    decode 0x00000228 = .ok (.quant .cr) ∧ decode 0x00000129 = .ok (.dequant .cb) := by decide
theorem test_decode_dc : decode 0x00000038 = .ok (.dcenc .y) ∧ decode 0x00000239 = .ok (.dcdec .cr) := by decide
theorem test_decode_rle : decode 0x00000040 = .ok .rleenc ∧ decode 0x00000041 = .ok .rledec ∧
    decode 0x00000042 = .ok .category := by decide
theorem test_decode_huffman : decode 0x00000048 = .ok .hufenc ∧ decode 0x00000049 = .ok .hufdec ∧
    decode 0x0000004A = .ok .hufputdc ∧ decode 0x0000004B = .ok .hufputac ∧ decode 0x0000004C = .ok .hufgetdc ∧
    decode 0x0000004D = .ok .hufgetac := by decide
theorem test_decode_bits : decode 0x0000004E = .ok .putbits ∧ decode 0x0000004F = .ok .getbits ∧
    decode 0x00000058 = .ok .smwrite ∧ decode 0x00000059 = .ok .smread := by decide
theorem test_decode_transfer : decode 0x00010160 = .ok (.loadblk .cb 1) ∧ decode 0xFFFF0261 = .ok (.storeblk .cr 65535) ∧
    decode 0x00000262 = .ok (.loadvec .cr 0) ∧ decode 0x00010063 = .ok (.storevec .y 1) := by decide
theorem test_decode_rejects : decode 0x00000328 = .error .chNamesNone ∧ decode 0x00000429 = .error .rsvNotZero ∧
    decode 0x00000019 = .error .reservedOpcode ∧ decode 0x00000120 = .error .chNotZero ∧
    decode 0x00010028 = .error .blkNotZero ∧ decode 0x00010000 = .error .blkNotZero ∧
    decode 0x00000363 = .error .chNamesNone := by decide
theorem test_decodeTableWord : decodeTableWord 32 0x00010160 = some (.loadblk .cb 1) ∧
    decodeTableWord 32 0x00000064 = none := by decide

/-! ### Small states -/

/-- The state a command leaves (s itself where it stops, which none does). -/
def after (i : Instr) (s : State) : State :=
  match exec i s with
  | .next t => t
  | .fault _ => s
  | .refused _ => s

/-- The state a step leaves. -/
def stepped (s : State) : State :=
  match step s with
  | .next t => t
  | .fault _ => s
  | .refused _ => s

/-- A core after reset, with the two operands. -/
def withArgs (a b : Word) : State := { State.reset with arg0 := a, arg1 := b }

/-- An image of one block. -/
def tile : State := { State.reset with imgW := 8, imgH := 8 }

/-- An input of the given bytes. -/
def input (l : List Byte) : State :=
  { State.reset with bs := (List.range l.length).zip l, bsLen := BitVec.ofNat 32 l.length }

/-- A core holding the given symbols. -/
def holding (l : List Symbol) : State :=
  { State.reset with rlebuf := blockOf fun i => l.getD i ⟨0, 0, 0⟩, rleLen := BitVec.ofNat 7 l.length }

/-- A writer with no room for another byte, seven bits pending. -/
def fullWriter : State := { State.reset with writer := ⟨16777216, 0, 7⟩ }

/-- The state with the host about to do one thing. -/
def facing (a : HostAction) (s : State) : State := { s with host := [a] }

/-- The state with the word accepted and waiting. -/
def waiting (w : Word) (s : State) : State := { s with cmd := w, status := { s.status with busy := true } }

/-- The checks that give the invariant where the parameters are the reference ones. -/
def smallOk (s : State) : Bool :=
  Memory.wf s.rgb && Memory.wf s.ycc && Memory.wf s.coef && Memory.wf s.bs
    && s.rgb.all (fun p => decide (p.1 < 4194304)) && s.ycc.all (fun p => decide (p.1 < 4194304))
    && s.coef.all (fun p => decide (p.1 < 12582912)) && s.bs.all (fun p => decide (p.1 < 16777216))
    && decide (s.writer.wptr.toNat ≤ 16777216) && decide (s.writer.acc.toNat < 2 ^ s.writer.nb.toNat)
    && decide (s.readPos ≤ 134217728) && decide (s.bsLen.toNat ≤ 16777216) && decide (s.rleLen.toNat ≤ 64)
    && decide (s.status.err = true ↔ s.status.errCode ≠ 0) && decide (s.status.errCode.toNat ≤ 9)
    && decide (s.status.err = false → s.errInfo = 0)
    && decide (s.status.busy = true → s.status.done = false ∧ s.status.err = false)
    && decide (¬(s.status.done = true ∧ s.status.err = true))

theorem inv_small {s : State} (hc : s.cfg = Tables.reference) (h : smallOk s = true) : s.Inv := by
  simp only [smallOk, Bool.and_eq_true, decide_eq_true_eq, List.all_eq_true] at h
  obtain ⟨⟨⟨⟨⟨⟨⟨⟨⟨⟨⟨⟨⟨⟨⟨⟨⟨h1, h2⟩, h3⟩, h4⟩, h5⟩, h6⟩, h7⟩, h8⟩, h9⟩, h10⟩, h11⟩, h12⟩, h13⟩, h14⟩, h15⟩, h16⟩, h17⟩, h18⟩ := h
  exact {
    params := hc ▸ reference_wf
    rgbForm := h1, yccForm := h2, coefForm := h3, bsForm := h4
    rgbSize := by rw [hc]; exact h5
    yccSize := by rw [hc]; exact h6
    coefSize := h7
    bsSize := by rw [hc]; exact h8
    wptrRange := by rw [hc]; exact h9
    pendingBits := h10
    readerRange := by rw [hc]; exact h11
    bsLenRange := by rw [hc]; exact h12
    rleLenRange := h13, errIffCode := h14, codeRange := h15, infoOfErr := h16, busyAlone := h17, doneOrErr := h18 }

/-! ### One step of a command, against spec/95_test_vectors.md -/

/-- S6: CATEGORY of −255. -/
theorem test_category : (after .category (withArgs 0xFFFFFF01 0)).result = 8 := by decide
/-- S7: an all-zero vector gives two symbols. -/
theorem test_rleenc : (after .rleenc State.reset).rleLen = 2 := by decide +kernel
/-- Section 2.7: the value of slot 1 goes to its position. -/
theorem test_rledec : nth (after .rledec (holding [⟨0, 2, 3⟩, ⟨1, 1, 1⟩, ⟨0, 0, 0⟩])).vec 2 = 1 := by decide +kernel
/-- S7: HUFENC of an all-zero block appends "001010". -/
theorem test_hufenc : (after .hufenc (holding [⟨0, 0, 0⟩, ⟨0, 0, 0⟩])).writer = ⟨0, 0b001010, 6⟩ := by decide +kernel
/-- S7, read back. -/
theorem test_hufdec : (after .hufdec (input [0b00101000])).rleLen = 2 ∧
    (after .hufdec (input [0b00101000])).reader = ⟨0, 6⟩ := by decide +kernel
/-- Program P5: HUFPUTDC of category 6 appends "1110". -/
theorem test_hufputdc : (after .hufputdc (withArgs 6 0)).writer = ⟨0, 0b1110, 4⟩ := by decide
/-- R361: the code of EOB is "1010". -/
theorem test_hufputac : (after .hufputac (withArgs 0 0)).writer = ⟨0, 0b1010, 4⟩ := by decide
/-- Program P5, read back: category 6 from "1110". -/
theorem test_hufgetdc : (after .hufgetdc (input [0xE0])).result = 6 ∧
    (after .hufgetdc (input [0xE0])).reader = ⟨0, 4⟩ := by decide
/-- R361: "11111111001" is ZRL, key word 15. -/
theorem test_hufgetac : (after .hufgetac (input [0xFF, 0x20])).result = 15 := by decide +kernel
/-- Program P5: PUTBITS of 5 in 3 bits appends "101". -/
theorem test_putbits : (after .putbits (withArgs 5 3)).writer = ⟨0, 0b101, 3⟩ := by decide
/-- R374: the first four bits of 0xA5. -/
theorem test_getbits : (after .getbits { input [0xA5] with arg1 := 4 }).result = 0xA := by decide
/-- S4: SMWRITE of −60 in 6 bits appends "000011". -/
theorem test_smwrite : (after .smwrite (withArgs 0xFFFFFFC4 6)).writer = ⟨0, 0b000011, 6⟩ := by decide
/-- S4: "000011" reads back as −60. -/
theorem test_smread : (after .smread { input [0b00001100] with arg1 := 6 }).result = 0xFFFFFFC4 := by decide
/-- R375: FLUSH pads with zeros and the byte goes to BS. -/
theorem test_flush : (after .flush { State.reset with writer := ⟨0, 0b101, 3⟩ }).bs = [(0, 0xA0)] ∧
    (after .flush { State.reset with writer := ⟨0, 0b101, 3⟩ }).writer = ⟨1, 0, 0⟩ := by decide
/-- R376. -/
theorem test_bswrst : (after .bswrst fullWriter).writer = ⟨0, 0, 0⟩ := by decide
/-- R377. -/
theorem test_bsrrst : (after .bsrrst { State.reset with reader := ⟨5, 3⟩ }).reader = ⟨0, 0⟩ := by decide
/-- R420. -/
theorem test_nop : (after .nop (waiting 0 State.reset)).status = ⟨false, true, false, false, 0⟩ := by decide
/-- Section 2.5: position 2 is natural index 8. -/
theorem test_zigzag : nth (after .zigzag { State.reset with iblk := blockOf fun n => BitVec.ofNat 32 n }).vec 2 = 8 := by
  decide +kernel
/-- Section 2.5, back: natural index 16 is position 3. -/
theorem test_unzigzag : nth (after .unzigzag { State.reset with vec := blockOf fun n => BitVec.ofNat 32 n }).iblk 16 = 3 := by
  decide +kernel
/-- Section 2.4: −60 with step 17 gives −1020.0. -/
theorem test_dequant : nth (after (.dequant .cb) { State.reset with iblk := blockOf fun _ => BitVec.ofInt 32 (-60) }).fblk 0
    = 0xC08FE00000000000 := by decide +kernel
/-- Section 2.4: 8.0 over 16 is a tie, rounded away from zero; over 11 it gives 1. -/
theorem test_quant : nth (after (.quant .y) { State.reset with fblk := blockOf fun _ => 0x4020000000000000 }).iblk 0 = 1 ∧
    nth (after (.quant .cb) { State.reset with fblk := blockOf fun _ => 0x4020000000000000 }).iblk 0 = 0 := by
  decide +kernel
/-- S3 with four blocks: 10, 12, 12, −5 give 10, 2, 0, −17. -/
def fourBlocks (a b c d : Word) : State :=
  { State.reset with imgW := 32, imgH := 8, coef := [(0, a), (64, b), (128, c), (192, d)] }
theorem test_dcenc : (after (.dcenc .y) (fourBlocks 10 12 12 (BitVec.ofInt 32 (-5)))).coef
    = [(0, 10), (64, 2), (192, BitVec.ofInt 32 (-17))] := by decide +kernel
/-- S3: the wrapping deltas 2147483647, 1, −2147483648, 5 give back 2147483647, −2147483648, 0, 5. -/
theorem test_dcdec : (after (.dcdec .y) (fourBlocks 0x7FFFFFFF 1 0x80000000 5)).coef
    = [(0, 0x7FFFFFFF), (64, 0x80000000), (192, 5)] := by decide +kernel
/-- Section 2.1: the Y of (255, 0, 0). -/
theorem test_cscFwd : (Memory.read (after .cscFwd { tile with rgb := [(0, ⟨255, 0, 0⟩)] }).ycc 0).y
    = 0x40530FAE147AE147 := by decide +kernel
/-- Section 2.1: (0.5, 0, 0) gives (1, 1, 1), a tie. -/
theorem test_cscInv : Memory.read (after .cscInv { tile with ycc := [(63, ⟨0x3FE0000000000000, 0, 0⟩)] }).rgb 63
    = ⟨1, 1, 1⟩ := by decide +kernel
/-- R221: a group with Cb 1.0 in one of its four pixels has mean 0.25. -/
theorem test_subsample : (Memory.read (after .subsample { tile with ycc := [(9, ⟨0, 0x3FF0000000000000, 0⟩)] }).ycc 0).cb
    = 0x3FD0000000000000 := by decide +kernel
/-- Section 2.3: a block of 255.0. -/
theorem test_fdct : nth (after .fdct { State.reset with fblk := blockOf fun _ => 0x406FE00000000000 }).fblk 0
    = 0x408FC00000000001 := by decide +kernel
/-- Section 2.3: 64.0 at [0][0]. -/
theorem test_idct : nth (after .idct { State.reset with fblk := blockOf fun n => if n = 0 then 0x4050000000000000 else 0 }).fblk 63
    = 0x4061000000000000 := by decide +kernel
/-- R421 with R14: element (1, 0) of block 1 of a 16-pixel wide image is pixel 24. -/
theorem test_loadblk : nth (after (.loadblk .cb 1) { tile with imgW := 16, ycc := [(24, ⟨1, 2, 3⟩)] }).fblk 8 = 2 := by
  decide +kernel
theorem test_storeblk : (after (.storeblk .cr 1) { tile with
    imgW := 16, fblk := blockOf fun n => if n = 8 then 7 else 0, ycc := [(24, ⟨1, 2, 3⟩)] }).ycc = [(24, ⟨1, 2, 7⟩)] := by
  decide +kernel
theorem test_loadvec : nth (after (.loadvec .y 0) { tile with coef := [(63, 5)] }).vec 63 = 5 := by decide +kernel
theorem test_storevec : (after (.storevec .cb 0) { tile with vec := blockOf fun n => if n = 1 then 9 else 0 }).coef
    = [(4194305, 9)] := by decide +kernel
/-- R463: a width of 12. -/
theorem test_bad_geometry : (after .cscFwd { tile with imgW := 12 }).errInfo = 0x0008000C ∧
    (after .cscFwd { tile with imgW := 12 }).status.errCode = 2 := by decide
/-- R461: QUANT with CH = 3. -/
theorem test_illegal : (stepped (waiting 0x328 State.reset)).errInfo = 0x328 ∧
    (stepped (waiting 0x328 State.reset)).status = ⟨false, false, true, false, 1⟩ := by decide
/-- R124: word 0x2800 is the entry of EOB, length 4, code "1010". -/
theorem test_table_window : (stepped (facing (.read 0x2800) State.reset)).response = some (.read 0x000A0004 false) := by
  decide +kernel
/-- R34, R470: DONE with its enable raises IRQ. -/
theorem test_status_word :
    ({ State.reset with ctrl := ⟨true, false⟩, status := ⟨false, true, false, false, 0⟩ } : State).statusWord = 0x12 := by
  decide

/-! ### For every statement with hypotheses, a state and operands that meet them -/

/-- Whether a command changes a part of the state. -/
def changes {α : Type} [DecidableEq α] (f : State → α) (i : Instr) (s : State) : Bool := decide (f (after i s) ≠ f s)

theorem after_eq {i : Instr} {s t : State} (h : exec i s = .next t) : after i s = t := by simp [after, h]

theorem witness_IllegalWord : (waiting 0x328 State.reset).host = [] ∧
    (facing .pass (waiting 0x328 State.reset)).host = [.pass] ∧ (waiting 0x328 State.reset).status.busy = true ∧
    IllegalWord (waiting 0x328 State.reset).cmd :=
  ⟨rfl, rfl, rfl, .inr (.inr (.inr (.inl (by decide))))⟩

theorem witness_RowSelection : decode 0x00010160 = .ok (.loadblk .cb 1) ∧ SelectsRow 0x00010160 (.loadblk .cb 1) ∧
    SelectsRow 0x00010160 (.loadblk .y 0) := by
  refine ⟨by decide, ⟨by decide, fun _ => by decide⟩, ⟨by decide, fun _ => by decide⟩⟩

theorem witness_StepRuns_waiting : (Instr.loadblk .cr 65535).wf = true ∧
    (waiting 0xFFFF0260 State.reset).status.busy = true ∧
    (waiting 0xFFFF0260 State.reset).cmd = encode (.loadblk .cr 65535) ∧ (waiting 0xFFFF0260 State.reset).host = [] ∧
    (facing .pass (waiting 0xFFFF0260 State.reset)).host = [.pass] := by decide

theorem witness_StepRuns_host : (facing (.read 0x00C) State.reset).host = .read 0x00C :: [] ∧
    (facing (.write 0x014 7) State.reset).host = .write 0x014 7 :: [] ∧
    (facing .pass State.reset).host = .pass :: [] ∧ State.reset.status.busy = false ∧ State.reset.host = [] := by decide

theorem witness_Registers : State.reset.cfg = Tables.reference ∧ State.reset.status.busy = false ∧
    Tables.reference.wf = true := ⟨rfl, rfl, reference_wf⟩

theorem witness_Ctrl_softReset : (facing (.write 0x008 0x80000000) tile).host = .write 0x008 0x80000000 :: [] ∧
    (0x80000000 : Word).getLsbD 31 = true := by decide
theorem witness_Ctrl_enables : (facing (.write 0x008 3) tile).host = .write 0x008 3 :: [] ∧
    (3 : Word).getLsbD 31 = false := by decide
theorem witness_Ctrl_read : (facing (.read 0x008) tile).host = .read 0x008 :: [] := by decide

theorem witness_StepKeepsInv : (waiting 0x4E (withArgs 5 3)).Inv ∧ ∃ t, step (waiting 0x4E (withArgs 5 3)) = .next t :=
  ⟨inv_small rfl (by decide), _, rfl⟩

/-- One command that completes, and one that ends in an error. -/
theorem witness_CommandEnds : (waiting 0 State.reset).Inv ∧ (waiting 0 State.reset).status.busy = true ∧
    (after .nop (waiting 0 State.reset)).status.done = true ∧ (after .cscFwd (waiting 0x10 State.reset)).status.err = true :=
  ⟨inv_small rfl (by decide), rfl, by decide, by decide⟩

theorem witness_CommandsKeep : ∃ t, exec .putbits (withArgs 5 3) = .next t := ⟨_, rfl⟩

theorem witness_Result : ∃ t, exec .category (withArgs 255 0) = .next t ∧ t.result ≠ (withArgs 255 0).result :=
  ⟨_, rfl, by decide⟩
theorem witness_Result_read : tile.status.busy = false := rfl

theorem witness_Writer_command : (∃ t, step (waiting 0x4E (withArgs 5 3)) = .next t ∧
    t.writer ≠ (waiting 0x4E (withArgs 5 3)).writer) := ⟨_, rfl, by decide⟩
theorem witness_Writer_softReset : (∃ t, step (facing (.write 8 0x80000000) fullWriter) = .next t ∧
    t.writer ≠ fullWriter.writer) := ⟨_, rfl, by decide⟩
theorem witness_Reader_command : (∃ t, step (waiting 0x4F { input [0xA5] with arg1 := 4 }) = .next t ∧
    t.reader ≠ (input [0xA5]).reader) := ⟨_, rfl, by decide⟩
theorem witness_Reader_softReset : (∃ t, step (facing (.write 8 0x80000000) { tile with reader := ⟨5, 3⟩ }) = .next t ∧
    t.reader ≠ ⟨5, 3⟩) := ⟨_, rfl, by decide⟩

/-- Every destination is changed by some command. -/
theorem witness_WriteOnly_blocks :
    changes State.fblk (.loadblk .y 0) { tile with ycc := [(9, ⟨1, 0, 0⟩)] } = true ∧
    changes State.iblk .unzigzag { tile with vec := blockOf fun _ => 5 } = true ∧
    changes State.vec .zigzag { tile with iblk := blockOf fun _ => 5 } = true ∧
    changes State.rlebuf .rleenc { tile with vec := blockOf fun _ => 5 } = true := by decide +kernel
theorem witness_WriteOnly_memories :
    changes State.rgb .cscInv { tile with ycc := [(0, ⟨0x4008000000000000, 0, 0⟩)] } = true ∧
    changes State.ycc (.storeblk .cb 0) { tile with fblk := blockOf fun _ => 5 } = true ∧
    changes State.coef (.storevec .cr 0) { tile with vec := blockOf fun _ => 5 } = true ∧
    changes State.bs .putbits (withArgs 0xFFFF 16) = true := by decide +kernel

theorem witness_ElementsBeyond : ∃ t, exec (.storevec .cr 0) { tile with vec := blockOf fun _ => 5 } = .next t ∧
    tile.cfg.wf = true ∧ Memory.wf tile.rgb = true ∧ Memory.wf tile.ycc = true ∧ Memory.wf tile.coef = true ∧
    tile.numPixels ≤ 64 ∧ tile.numBlocks ≤ 1 ∧ tile.numBlocks ≤ 65535 :=
  ⟨_, rfl, reference_wf, rfl, rfl, rfl, by decide, by decide, by decide⟩

/-- An error recorded, the core waiting. -/
def stopped : State := { tile with status := ⟨false, false, true, false, 2⟩, errInfo := 7, cmd := 0x10 }

theorem witness_Sticky_kept : stopped.status.err = true ∧ (facing (.write 0x010 0) stopped).status.busy = false ∧
    (∃ t, step (facing (.write 0x010 0) stopped) = .next t ∧ t.status.err = true) ∧
    (facing (.write 0x010 0) stopped).host = .write 0x010 0 :: [] := ⟨rfl, rfl, ⟨_, rfl, rfl⟩, rfl⟩
theorem witness_Sticky_cleared : stopped.status.err = true ∧
    (∃ t, step (facing (.write 0x00C 4) stopped) = .next t ∧ t.status.err = false) ∧
    (∃ t, step (facing (.write 0x008 0x80000000) stopped) = .next t ∧ t.status.err = false) :=
  ⟨rfl, ⟨_, rfl, rfl⟩, ⟨_, rfl, rfl⟩⟩

theorem witness_Status : (facing (.read 0x00C) stopped).host = .read 0x00C :: [] ∧
    (facing (.write 0x00C 0xE) stopped).host = .write 0x00C 0xE :: [] := ⟨rfl, rfl⟩

theorem witness_Cmd : (facing (.write 0x010 0x20) tile).host = .write 0x010 0x20 :: [] ∧
    tile.status.busy = false ∧ tile.status.err = false ∧ stopped.status.err = true ∧
    (waiting 0x20 tile).status.busy = true := ⟨rfl, rfl, rfl, rfl, rfl⟩

/-- Reads of the four registers and of a window, and writes to the last register, to a reserved word and to the last
bitstream word, with BUSY = 1. -/
theorem witness_BusyCore : (waiting 0x20 tile).status.busy = true ∧
    (facing (.read 0x000) (waiting 0x20 tile)).host = .read 0x000 :: [] ∧
    (facing (.read 0x014) (waiting 0x20 tile)).host = .read 0x014 :: [] ∧
    (facing (.write 0x30FFFFFC 1) (waiting 0x20 tile)).host = .write 0x30FFFFFC 1 :: [] ∧
    (0x30FFFFFC : Word) ≠ 0x008 ∧ (0x30FFFFFC : Word) ≠ 0x00C ∧
    targetOf tile.cfg (0x30FFFFFC : Word).toNat ≠ .misaligned ∧ targetOf tile.cfg (0x30FFFFFC : Word).toNat ≠ .unmapped :=
  ⟨rfl, rfl, rfl, rfl, by decide, by decide, by decide +kernel, by decide +kernel⟩
theorem witness_BusyCore_others :
    targetOf tile.cfg (0x000 : Word).toNat ≠ .misaligned ∧ targetOf tile.cfg (0x000 : Word).toNat ≠ .unmapped ∧
    targetOf tile.cfg (0x054 : Word).toNat ≠ .misaligned ∧ targetOf tile.cfg (0x054 : Word).toNat ≠ .unmapped := by
  decide +kernel

/-- The two ends of the unmapped hole above the tables, and a misaligned address, with BUSY = 1. -/
theorem witness_BusyCore_errors : targetOf tile.cfg (0x00000011 : Word).toNat = .misaligned ∧
    targetOf tile.cfg (0x00004000 : Word).toNat = .unmapped ∧ targetOf tile.cfg (0x00FFFFFC : Word).toNat = .unmapped ∧
    (facing (.read 0x11) (waiting 0x20 tile)).host = .read 0x11 :: [] ∧
    (facing (.write 0x4000 1) (waiting 0x20 tile)).host = .write 0x4000 1 :: [] := by decide

theorem witness_ReadsAreFree : (facing (.read 0x1000) tile).host = .read 0x1000 :: [] ∧
    (∃ t, step (facing (.read 0x1000) tile) = .next t) ∧ tile.status.busy = false ∧
    Memory.wf tile.rgb = true ∧ Memory.wf tile.ycc = true ∧ Memory.wf tile.coef = true ∧ Memory.wf tile.bs = true ∧
    (0x1000 : Word) ≠ 0x010 := ⟨rfl, ⟨_, rfl⟩, rfl, rfl, rfl, rfl, rfl, by decide⟩

/-- The last elements of every window of the reference map, and the first address after each. -/
theorem witness_AddressMap : Tables.reference.sizesFit = true ∧ 4194303 < Tables.reference.maxPixels ∧
    65535 < Tables.reference.maxBlocks ∧ 4 * 4194303 < Tables.reference.bsCap ∧
    targetOf Tables.reference 0x01FFFFFC = .rgb 4194303 ∧ targetOf Tables.reference 0x02000000 = .unmapped ∧
    targetOf Tables.reference 0x17FFFFFC = .reserved ∧ targetOf Tables.reference 0x18000000 = .unmapped ∧
    targetOf Tables.reference 0x22FFFFFC = .coef .cr 65535 63 ∧ targetOf Tables.reference 0x23000000 = .unmapped ∧
    targetOf Tables.reference 0x30FFFFFC = .bs 4194303 ∧ targetOf Tables.reference 0x31000000 = .unmapped ∧
    targetOf Tables.reference 0x2BFC = .hufAc 255 := by decide

/-- What the places read, with BUSY = 0: the first and the last of each kind exist, and one key of HUFF_AC has no entry. -/
theorem witness_AddressMap_reads : tile.cfg = Tables.reference ∧ Tables.reference.wf = true ∧ tile.status.busy = false ∧
    targetOf Tables.reference (0x00001000 : Word).toNat = .vec 0 ∧
    targetOf Tables.reference (0x000015F8 : Word).toNat = .rlebuf 63 false ∧
    targetOf Tables.reference (0x00002628 : Word).toNat = .hufDc 10 ∧
    targetOf Tables.reference (0x0000262C : Word).toNat = .hufDc 11 ∧
    targetOf Tables.reference (0x00002BFC : Word).toNat = .hufAc 255 ∧ NoCode Tables.hufAc 255 ∧ NoCode Tables.hufDc 11 ∧
    targetOf Tables.reference (0x00000001 : Word).toNat = .misaligned :=
  ⟨rfl, reference_wf, rfl, by decide, by decide, by decide, by decide, by decide, by unfold NoCode; decide +kernel,
    by unfold NoCode; decide, by decide⟩
/-- R122, R124: the lanes of RGB, and the high word of a binary64 element. -/
theorem test_read_rgb : (stepped (facing (.read 0x01000000) { tile with rgb := [(0, ⟨1, 2, 3⟩)] })).response
    = some (.read 0x00030201 false) := by decide +kernel
theorem test_read_fblk : (stepped (facing (.read 0x1204) { tile with fblk := blockOf fun _ => 0x4060000000000000 })).response
    = some (.read 0x40600000 false) := by decide +kernel

theorem witness_BusErrors : tile.status.busy = false ∧ (0x00000002 : Word).toNat % 4 ≠ 0 ∧
    targetOf tile.cfg (0x00004000 : Word).toNat = .unmapped ∧ targetOf tile.cfg (0x00003FFC : Word).toNat = .reserved ∧
    targetOf tile.cfg (0x00000054 : Word).toNat = .reserved ∧
    (0x050 : Word) ∈ ([0x000, 0x004, 0x01C, 0x028, 0x02C, 0x030, 0x034, 0x038, 0x03C, 0x048, 0x04C, 0x050] : List Word) ∧
    (0x2000 ≤ (0x2000 : Word).toNat ∧ (0x2000 : Word).toNat < 0x4000 ∧ (0x2000 : Word).toNat % 4 = 0) ∧
    (facing (.read 2) tile).host = .read 2 :: [] ∧ (facing (.write 0x050 1) tile).host = .write 0x050 1 :: [] := by decide

/-- The first and the last word of every kind of window, and two different addresses. -/
theorem witness_WindowWrites : tile.cfg.sizesFit = true ∧ tile.status.busy = false ∧ Memory.wf tile.rgb = true ∧
    Memory.wf tile.ycc = true ∧ Memory.wf tile.coef = true ∧ Memory.wf tile.bs = true ∧
    targetOf tile.cfg 0x10FC = .vec 63 ∧ targetOf tile.cfg 0x11FC = .iblk 63 ∧ targetOf tile.cfg 0x13FC = .fblk 63 true ∧
    targetOf tile.cfg 0x15F8 = .rlebuf 63 false ∧ targetOf tile.cfg 0x15FC = .rlebuf 63 true ∧
    targetOf tile.cfg 0x01000000 = .rgb 0 ∧ targetOf tile.cfg 0x17FFFFF4 = .ycc 4194303 .cr true ∧
    targetOf tile.cfg 0x20000000 = .coef .y 0 0 ∧ targetOf tile.cfg 0x30000000 = .bs 0 ∧
    targetOf tile.cfg 0x2000 = .zigzag 0 ∧ (0x1000 : Word) ≠ 0x1004 := by decide

/-- R45, R46: a length above BS_CAP, and a symbol count of 65 to 127, are cut to the largest legal value. -/
theorem test_write_lengths : (stepped (facing (.write 0x040 0xFFFFFFFF) tile)).bsLen = 16777216 ∧
    (stepped (facing (.write 0x044 0x7F) tile)).rleLen = 64 ∧ (stepped (facing (.write 0x044 0x80) tile)).rleLen = 0 := by
  decide

theorem witness_BadGeometry : State.reset.geometryValid = false ∧ tile.geometryValid = true ∧
    ({ tile with imgW := 2056 } : State).geometryValid = false ∧
    ({ tile with imgW := 2048, imgH := 2048 } : State).geometryValid = true := by decide
theorem witness_BadGeometry_others : ∀ ch b, Instr.fdct ∉ [Instr.cscFwd, .cscInv, .subsample, .dcenc ch, .dcdec ch,
    .loadblk ch b, .storeblk ch b, .loadvec ch b, .storevec ch b] := by simp

theorem witness_BlockBeyond : tile.geometryValid = true ∧ tile.numBlocks ≤ 1 ∧ 1 ≤ tile.numBlocks ∧
    tile.numBlocks ≤ 65535 ∧ 65535 < 65536 := by decide

theorem witness_CscFwd : tile.geometryValid = true ∧ Memory.wf tile.ycc = true ∧ Memory.wf tile.rgb = true ∧
    63 < tile.numPixels ∧ tile.numPixels ≤ 64 := by decide

theorem witness_Transfer : tile.geometryValid = true ∧ 0 < tile.numBlocks ∧ Memory.wf tile.ycc = true ∧
    Memory.wf tile.coef = true := by decide

/-- The colour values of a pixel hold a NaN, as CscInvConvertsTheImage says it. -/
abbrev badPixel (p : YccPixel) : Prop :=
  F64.add (F64.ofBits p.y) (F64.mul (F64.lit 1402 1000) (F64.ofBits p.cr)) = .nan ∨
  F64.sub (F64.sub (F64.ofBits p.y) (F64.mul (F64.lit 344 1000) (F64.ofBits p.cb)))
    (F64.mul (F64.lit 714 1000) (F64.ofBits p.cr)) = .nan ∨
  F64.add (F64.ofBits p.y) (F64.mul (F64.lit 1772 1000) (F64.ofBits p.cb)) = .nan

/-- An image whose last pixel is the only one with a NaN. -/
def nanLast : State := { tile with ycc := [(63, ⟨0x7FF8000000000000, 0, 0⟩)] }

theorem witness_CscInv_good : tile.geometryValid = true ∧ Memory.wf tile.rgb = true ∧
    ∀ i < tile.numPixels, ¬badPixel (Memory.read tile.ycc i) := by
  have h : ¬badPixel ⟨0, 0, 0⟩ := by decide +kernel
  exact ⟨by decide, rfl, fun i _ => h⟩
theorem witness_CscInv_bad : nanLast.geometryValid = true ∧ 63 < nanLast.numPixels ∧
    badPixel (Memory.read nanLast.ycc 63) ∧ ∀ j < 63, ¬badPixel (Memory.read nanLast.ycc j) := by
  decide +kernel

/-- SUBSAMPLE: the last group. -/
theorem witness_Subsample : tile.geometryValid = true ∧ Memory.wf tile.ycc = true ∧ 3 < tile.imgH.toNat / 2 ∧
    3 < tile.imgW.toNat / 2 := by decide

theorem witness_ConstantBlocks : (∀ n < 64, (F64.ofBits (nth tile.cfg.dctC n)).toRat.isSome) ∧
    (∀ n < 64, nth ({ tile with fblk := blockOf fun _ => 0x4060000000000000 } : State).fblk n = 0x4060000000000000) ∧
    (∀ n < 64, nth tile.fblk n = 0) ∧ (∃ t, exec .fdct tile = .next t) ∧ ∃ t, exec .idct tile = .next t := by
  have h : ∀ n < 64, (match F64.ofBits (nth Tables.dctC n) with | .fin _ _ _ => true | _ => false) = true := by
    decide +kernel
  refine ⟨fun n hn => ?_, by decide +kernel, by decide +kernel, ⟨_, rfl⟩, _, rfl⟩
  have := h n hn
  change (F64.ofBits (nth Tables.dctC n)).toRat.isSome = true
  cases e : F64.ofBits (nth Tables.dctC n) <;> simp_all [F64.toRat]

/-- R241: the reference basis, with a block of samples in the range; and a basis of zeros, with which a block of zeros
comes back as 128.0. -/
theorem witness_DctRoundTrips : Tables.reference.wf = true ∧ (∀ n < 64, (F64.ofBits (nth tile.fblk n)).toRat = some 0) ∧
    ∃ t u, exec .fdct tile = .next t ∧ exec .idct t = .next u := by
  have h : ∀ n < 64, F64.ofBits (nth tile.fblk n) = .fin false 0 (-1074) := by decide +kernel
  exact ⟨reference_wf, fun n hn => by rw [h n hn]; simp [F64.toRat, signed], _, _, rfl, rfl⟩

/-- A core whose basis is all zeros. -/
def noBasis : State := { tile with cfg := { Tables.reference with dctC := blockOf fun _ => 0 } }

theorem witness_noRoundTrip : ¬DctRoundTrips noBasis.cfg := by
  intro h
  have hz : F64.ofBits (nth noBasis.fblk 0) = .fin false 0 (-1074) := by decide
  have all : ∀ n < 64, F64.ofBits (nth noBasis.fblk n) = .fin false 0 (-1074) := by decide +kernel
  have out : F64.ofBits (nth (after .idct (after .fdct noBasis)).fblk 0) = .fin false 4503599627370496 (-45) := by
    decide +kernel
  obtain ⟨p, q, hp, hq, hpq⟩ := h noBasis (after .fdct noBasis) (after .idct (after .fdct noBasis)) rfl
    (fun n hn => ⟨0, by rw [all n hn]; simp [F64.toRat, signed], by norm_num, by norm_num⟩) rfl rfl 0 (by norm_num)
  rw [out] at hp
  rw [hz] at hq
  simp only [F64.toRat, signed, Option.some.injEq] at hp hq
  rw [← hp, ← hq] at hpq
  norm_num [abs_le] at hpq
theorem test_boot_accepts : State.boot Tables.reference = .next State.reset := by simp only [State.boot, reference_wf, if_true]; rfl
theorem test_boot_refuses_basis : State.boot noBasis.cfg = .refused .badConfig := by
  have : noBasis.cfg.dctRestores = false := test_wf_basis_zero
  simp [State.boot, Config.wf, this]

/-- QUANT: every quotient in range; and element 63 the first that is not. -/
theorem witness_Quant_good : ∀ n < 64, ∃ v : Int,
    F64.roundHA (F64.div (F64.ofBits (nth tile.fblk n)) (F64.ofInt (nth tile.cfg.qtabY n : Nat))) = some v ∧
      -2 ^ 31 ≤ v ∧ v ≤ 2 ^ 31 - 1 := by
  have h : ∀ n < 64, F64.roundHA (F64.div (F64.ofBits (nth tile.fblk n)) (F64.ofInt (nth tile.cfg.qtabY n : Nat))) = some 0 := by
    decide +kernel
  exact fun n hn => ⟨0, h n hn, by decide, by decide⟩
theorem witness_Quant_bad :
    F64.roundHA (F64.div (F64.ofBits 0x7FF8000000000000) (F64.ofInt (nth Tables.qtabY 63 : Nat))) = none ∧
    ∀ k < 63, nth (put tile.fblk 63 0x7FF8000000000000) k = 0 := by decide +kernel

theorem witness_wf : tile.cfg.wf = true := reference_wf
theorem witness_Dequant_zero : nth tile.iblk 63 = 0 := by decide
theorem witness_Unzigzag : tile.cfg.wf = true ∧ ∃ t u, exec .zigzag tile = .next t ∧ exec .unzigzag t = .next u :=
  ⟨reference_wf, _, _, rfl, rfl⟩

/-- DCENC and DCDEC: an invalid geometry, and an image of four blocks with the last one in reach. -/
theorem witness_Dc : (fourBlocks 1 2 3 4).cfg.wf = true ∧ Memory.wf (fourBlocks 1 2 3 4).coef = true ∧
    (fourBlocks 1 2 3 4).geometryValid = true ∧ State.reset.geometryValid = false ∧ 3 < (fourBlocks 1 2 3 4).numBlocks ∧
    (∃ t, exec (.dcenc .y) (fourBlocks 1 2 3 4) = .next t) ∧ ∃ t, exec (.dcdec .y) (fourBlocks 1 2 3 4) = .next t :=
  ⟨reference_wf, by decide, by decide, by decide, by decide, ⟨_, rfl⟩, _, rfl⟩

/-- The symbols of an all-zero block. -/
def zeroBlock : List Symbol := [⟨0, 0, 0⟩, ⟨0, 0, 0⟩]

/-- RLEDEC: no symbol; and a slot that writes the last position, or no slot that does. -/
def lastOnly : List Symbol := [⟨0, 0, 0⟩, ⟨15, 0, 0⟩, ⟨15, 0, 0⟩, ⟨15, 0, 0⟩, ⟨14, 1, 1⟩]

theorem symbols_last : (holding lastOnly).symbols = lastOnly := by decide +kernel
theorem symbols_zero : (holding zeroBlock).symbols = zeroBlock := by decide +kernel

theorem witness_Rledec : State.reset.rleLen = 0 ∧ (holding lastOnly).rleLen ≠ 0 ∧
    SlotWrites (holding lastOnly).symbols 4 ⟨14, 1, 1⟩ 63 := by
  rw [symbols_last]
  refine ⟨rfl, by decide, ⟨by decide, by decide, fun j y h1 h2 h => ?_, by decide⟩, rfl, by decide, by decide, by decide⟩
  interval_cases j <;> cases h <;> decide

theorem witness_Rledec_empty : (holding zeroBlock).rleLen ≠ 0 ∧
    ∀ i y, ¬SlotWrites (holding zeroBlock).symbols i y 63 := by
  rw [symbols_zero]
  refine ⟨by decide, fun i y ⟨⟨h1, h2, _⟩, h, hn, _⟩ => hn ?_⟩
  have h2 : i < 2 := h2
  interval_cases i
  cases h
  exact ⟨rfl, rfl⟩

theorem witness_RleRoundTrips : ∃ t, exec .rleenc tile = .next t := ⟨_, rfl⟩

/-- The code of an all-zero block (S7). -/
abbrev zeroBits : List Bool := [false, false, true, false, true, false]

theorem zero_ends : BlockEndsAt zeroBlock 2 := by
  refine ⟨by decide, by decide, fun i h1 h2 => ?_, .inl ⟨by decide, ⟨0, 0, 0⟩, rfl, rfl, rfl⟩⟩
  interval_cases i
  exact ⟨by decide, by decide, fun j y h1 h2 => by omega, by decide⟩

theorem zero_codes : CodesBlock Tables.reference zeroBlock zeroBits :=
  ⟨⟨0, 0, 0⟩, [⟨0, 0, 0⟩], [false, false], [[true, false, true, false]], rfl, ⟨⟨0, 2, 0⟩, by decide, rfl, by decide⟩,
    .cons ⟨⟨0, 4, 0b1010⟩, by decide +kernel, rfl, by decide⟩ .nil, by decide⟩

theorem witness_Hufenc : (holding zeroBlock).Inv ∧ BlockEndsAt (holding zeroBlock).symbols 2 ∧
    CodesBlock (holding zeroBlock).cfg ((holding zeroBlock).symbols.take 2) zeroBits ∧
    (holding zeroBlock).roomFor zeroBits := by
  rw [symbols_zero]
  exact ⟨inv_small rfl (by decide), zero_ends, zero_codes, by unfold State.roomFor; decide⟩

/-- HUFENC: no symbol; a DC category without a code; a used slot without one; a buffer that stops short. -/
theorem witness_HufencErrors : State.reset.cfg.wf = true ∧ State.reset.symbols = [] ∧
    (holding [⟨0, 11, 0⟩]).symbols[0]? = some ⟨0, 11, 0⟩ ∧ NoCode Tables.hufDc 11 :=
  ⟨reference_wf, by decide, by decide +kernel, by unfold NoCode; decide⟩
theorem witness_HufencMiss : (holding [⟨0, 0, 0⟩, ⟨0, 11, 0⟩]).symbols = [⟨0, 0, 0⟩, ⟨0, 11, 0⟩] ∧
    HasCode Tables.hufDc 0 [false, false] ∧ SlotUsed [⟨0, 0, 0⟩, ⟨0, 11, 0⟩] 1 ∧
    (∀ i : Nat, 1 ≤ i → ¬i < 1) ∧ NoCode Tables.hufAc (keyWord 0 11) :=
  ⟨by decide +kernel, ⟨⟨0, 2, 0⟩, by decide, rfl, by decide⟩,
    ⟨by decide, by decide, fun j y h1 h2 => by omega, by decide⟩, fun i h => by omega, by unfold NoCode; decide +kernel⟩
theorem witness_HufencShort : (holding [⟨0, 0, 0⟩]).symbols = [⟨0, 0, 0⟩] ∧
    HasCode Tables.hufDc 0 [false, false] ∧ (∀ i : Nat, 1 ≤ i → ¬i < 1) ∧ ¬BlockEndsAt [⟨0, 0, 0⟩] 1 := by
  refine ⟨by decide +kernel, ⟨⟨0, 2, 0⟩, by decide, rfl, by decide⟩, fun i h => by omega, ?_⟩
  rintro ⟨_, _, _, ⟨h, _⟩ | h⟩
  · omega
  · exact absurd h (by decide)

/-- A test of `streamHas`. -/
def streamTest (s : State) (pos : Nat) (bits : List Bool) : Bool :=
  (List.range bits.length).all fun i => decide (pos + i < 8 * s.bsLen.toNat) && (some (s.streamBit (pos + i)) == bits[i]?)

theorem streamTest_iff {s : State} {pos : Nat} {bits : List Bool} : streamTest s pos bits = true ↔ s.streamHas pos bits := by
  simp only [streamTest, List.all_eq_true, List.mem_range, Bool.and_eq_true, decide_eq_true_eq, beq_iff_eq, State.streamHas]
  refine forall_congr' fun i => forall_congr' fun h => and_congr_right fun _ => ?_
  rw [List.getElem?_eq_getElem h, Option.some_inj]

theorem category_zero : IsCategory 0 0 := ⟨by decide, fun k _ => by omega⟩

theorem witness_Hufdec : (input [0b00101000]).cfg.wf = true ∧ BlockEndsAt zeroBlock zeroBlock.length ∧
    CodesBlock (input [0b00101000]).cfg zeroBlock zeroBits ∧ (∀ i y, zeroBlock[i]? = some y → ParsedSymbol i y) ∧
    (input [0b00101000]).streamHas (input [0b00101000]).readPos zeroBits := by
  refine ⟨reference_wf, zero_ends, zero_codes, fun i y h => ?_, streamTest_iff.mp (by decide)⟩
  match i, h with
  | 0, h => cases h; exact ⟨fun _ => rfl, category_zero⟩
  | 1, h => cases h; exact ⟨fun _ => rfl, category_zero⟩
  | i + 2, h => simp [zeroBlock] at h

/-- HUFDEC's errors: no DC code with eight bits there, and with none there; a DC code without its magnitude bits; after
the DC code of zero, no AC code with sixteen bits there, and with six. -/
theorem witness_Hufdec_dc : CodesOpenBlock Tables.reference [] [] ∧ (input [0xFF]).streamHas 0 [] ∧
    (∀ e ∈ Tables.hufDc, ¬(input [0xFF]).streamHas 0 (bitString e.code e.len)) ∧
    0 + 8 ≤ 8 * (input [0xFF]).bsLen.toNat ∧
    (∀ e ∈ Tables.hufDc, ¬State.reset.streamHas 0 (bitString e.code e.len)) ∧ ¬0 + 8 ≤ 8 * State.reset.bsLen.toNat ∧
    (⟨6, 4, 0b1110⟩ : HuffEntry) ∈ Tables.hufDc ∧ (input [0xE0]).streamHas 0 (bitString 0b1110 4) ∧
    8 * (input [0xE0]).bsLen.toNat < 0 + 4 + 6 := by
  simp only [← streamTest_iff]
  exact ⟨.inl ⟨rfl, rfl⟩, by decide, by decide +kernel, by decide, by decide +kernel, by decide, by decide, by decide,
    by decide⟩
theorem witness_Hufdec_ac : CodesOpenBlock Tables.reference [⟨0, 0, 0⟩] [false, false] ∧
    (input [0x3F, 0xFF, 0xFF]).streamHas 0 [false, false] ∧
    (∀ e ∈ Tables.hufAc, ¬(input [0x3F, 0xFF, 0xFF]).streamHas 2 (bitString e.code e.len)) ∧
    2 + 16 ≤ 8 * (input [0x3F, 0xFF, 0xFF]).bsLen.toNat ∧ (input [0x3F]).streamHas 0 [false, false] ∧
    (∀ e ∈ Tables.hufAc, ¬(input [0x3F]).streamHas 2 (bitString e.code e.len)) ∧
    ¬2 + 16 ≤ 8 * (input [0x3F]).bsLen.toNat := by
  refine ⟨.inr ⟨⟨⟨0, 0, 0⟩, [], [false, false], [], rfl, ⟨⟨0, 2, 0⟩, by decide, rfl, by decide⟩, .nil, by decide⟩,
    fun i y h1 h => ?_, by decide⟩, ?_⟩
  · obtain ⟨i, rfl⟩ : ∃ k, i = k + 1 := ⟨i - 1, by omega⟩
    simp at h
  · simp only [← streamTest_iff]
    exact ⟨by decide, by decide +kernel, by decide, by decide, by decide +kernel, by decide⟩
/-- An AC code without its magnitude bits: "00", then "11010" of category 5 with one bit of the five there. -/
theorem witness_Hufdec_magnitude : (⟨16 * 5, 5, 0b11010⟩ : HuffEntry) ∈ Tables.hufAc ∧
    (input [0b00110100]).streamHas 2 (bitString 0b11010 5) ∧ 8 * (input [0b00110100]).bsLen.toNat < 2 + 5 + 16 * 5 / 16 := by
  rw [← streamTest_iff]
  exact ⟨by decide +kernel, by decide, by decide⟩

/-- HUFPUTDC with and without a code; HUFPUTAC with a code, with high bits set, and with a key of ten bits without one. -/
theorem witness_Hufput : (withArgs 6 0).Inv ∧ HasCode Tables.hufDc 6 [true, true, true, false] ∧
    (withArgs 6 0).roomFor [true, true, true, false] ∧ NoCode Tables.hufDc (withArgs 11 0).arg0.toNat :=
  ⟨inv_small rfl (by decide), ⟨⟨6, 4, 0b1110⟩, by decide, rfl, by decide⟩, by unfold State.roomFor; decide,
    by unfold NoCode; decide⟩
theorem witness_HufputAc : (withArgs 0 0).arg0.toNat / 1024 = 0 ∧ HasCode Tables.hufAc 0 [true, false, true, false] ∧
    (withArgs 0 0).roomFor [true, false, true, false] ∧ (withArgs 1024 0).arg0.toNat / 1024 ≠ 0 ∧
    NoCode Tables.hufAc ((withArgs 1023 0).arg0.toNat % 1024) :=
  ⟨by decide, ⟨⟨0, 4, 0b1010⟩, by decide +kernel, rfl, by decide⟩, by unfold State.roomFor; decide, by decide,
    by unfold NoCode; decide +kernel⟩

/-- HUFGETDC and HUFGETAC: a code; no code with the maximum length there, and with nothing there. -/
theorem witness_Hufget : (⟨6, 4, 0b1110⟩ : HuffEntry) ∈ Tables.hufDc ∧
    (input [0xE0]).streamHas (input [0xE0]).readPos (bitString 0b1110 4) ∧ (⟨0, 4, 0b1010⟩ : HuffEntry) ∈ Tables.hufAc ∧
    (input [0xA0]).streamHas (input [0xA0]).readPos (bitString 0b1010 4) :=
  ⟨by decide, streamTest_iff.mp (by decide), by decide +kernel, streamTest_iff.mp (by decide)⟩
theorem witness_Hufget_noMatch : (∀ e ∈ Tables.hufDc, ¬(input [0xFF]).streamHas 0 (bitString e.code e.len)) ∧
    (∀ e ∈ Tables.hufAc, ¬(input [0xFF, 0xFF]).streamHas 0 (bitString e.code e.len)) ∧
    0 + 8 ≤ 8 * (input [0xFF]).bsLen.toNat ∧ 0 + 16 ≤ 8 * (input [0xFF, 0xFF]).bsLen.toNat := by
  simp only [← streamTest_iff]
  exact ⟨by decide +kernel, by decide +kernel, by decide, by decide⟩
theorem witness_Hufget_empty : (∀ e ∈ Tables.hufDc, ¬State.reset.streamHas 0 (bitString e.code e.len)) ∧
    (∀ e ∈ Tables.hufAc, ¬State.reset.streamHas 0 (bitString e.code e.len)) ∧
    ¬0 + 8 ≤ 8 * State.reset.bsLen.toNat ∧ ¬0 + 16 ≤ 8 * State.reset.bsLen.toNat := by
  simp only [← streamTest_iff]
  exact ⟨by decide +kernel, by decide +kernel, by decide, by decide⟩

/-- PUTBITS and SMWRITE: n = 0, 16 and 17. -/
theorem witness_Putbits : (withArgs 0xFFFF 16).Inv ∧ (withArgs 0xFFFF 16).arg1.toNat ≤ 16 ∧
    (withArgs 0xFFFF 16).roomFor (List.replicate 16 true) ∧ (withArgs 0xFFFF 0).arg1.toNat ≤ 16 ∧
    (withArgs 0xFFFF 0).roomFor [] ∧ 16 < (withArgs 0 17).arg1.toNat :=
  ⟨inv_small rfl (by decide), by decide, by unfold State.roomFor; decide, by decide, by unfold State.roomFor; decide,
    by decide⟩

/-- FLUSH: nothing pending, bits pending with room, and without. -/
theorem witness_Flush : tile.Inv ∧ tile.writer.nb = 0 ∧ ({ tile with writer := ⟨16777215, 0, 7⟩ } : State).Inv ∧
    (16777215 : Word).toNat < tile.cfg.bsCap ∧ fullWriter.Inv ∧ fullWriter.writer.nb ≠ 0 ∧
    fullWriter.writer.wptr.toNat = fullWriter.cfg.bsCap :=
  ⟨inv_small rfl (by decide), rfl, inv_small rfl (by decide), by decide, inv_small rfl (by decide), by decide, by decide⟩

/-- A full writer: a code of the key, one bit, and the code of a block. -/
theorem witness_Overflow : ({ fullWriter with arg0 := 6 } : State).Inv ∧
    ¬({ fullWriter with arg0 := 6 } : State).roomFor [true, true, true, false] ∧
    HasCode Tables.hufDc 6 [true, true, true, false] ∧ ({ fullWriter with arg0 := 0 } : State).Inv ∧
    ¬fullWriter.roomFor [true, false, true, false] ∧ HasCode Tables.hufAc 0 [true, false, true, false] ∧
    ({ fullWriter with arg1 := 1 } : State).Inv ∧ ¬({ fullWriter with arg1 := 1 } : State).roomFor [true] :=
  ⟨inv_small rfl (by decide), by unfold State.roomFor; decide, ⟨⟨6, 4, 0b1110⟩, by decide, rfl, by decide⟩,
    inv_small rfl (by decide), by unfold State.roomFor; decide, ⟨⟨0, 4, 0b1010⟩, by decide +kernel, rfl, by decide⟩,
    inv_small rfl (by decide), by unfold State.roomFor; decide⟩
theorem witness_Overflow_block : ({ holding zeroBlock with writer := ⟨16777216, 0, 7⟩ } : State).Inv ∧
    ¬({ holding zeroBlock with writer := ⟨16777216, 0, 7⟩ } : State).roomFor zeroBits ∧
    BlockEndsAt ({ holding zeroBlock with writer := ⟨16777216, 0, 7⟩ } : State).symbols 2 ∧
    CodesBlock ({ holding zeroBlock with writer := ⟨16777216, 0, 7⟩ } : State).cfg
      (({ holding zeroBlock with writer := ⟨16777216, 0, 7⟩ } : State).symbols.take 2) zeroBits := by
  refine ⟨inv_small rfl (by decide), by unfold State.roomFor; decide, ?_, ?_⟩
  · change BlockEndsAt (holding zeroBlock).symbols 2
    rw [symbols_zero]
    exact zero_ends
  · change CodesBlock Tables.reference ((holding zeroBlock).symbols.take 2) zeroBits
    rw [symbols_zero]
    exact zero_codes

/-- GETBITS and SMREAD: 0, 4 and 16 bits there; n = 17; and one bit beyond the input, or the ninth of sixteen. -/
theorem witness_Getbits : (input [0xA5]).streamHas (input [0xA5]).readPos [true, false, true, false] ∧
    State.reset.streamHas State.reset.readPos [] ∧
    (input [0xFF, 0xFF]).streamHas (input [0xFF, 0xFF]).readPos (List.replicate 16 true) ∧
    ({ input [0xA5] with arg1 := 4 } : State).arg1.toNat = 4 ∧ 16 < (withArgs 0 17).arg1.toNat ∧
    8 * (withArgs 0 1).bsLen.toNat < (withArgs 0 1).readPos + 1 ∧ 8 * (input [0xA5]).bsLen.toNat < (input [0xA5]).readPos + 16 :=
  ⟨streamTest_iff.mp (by decide), streamTest_iff.mp (by decide), streamTest_iff.mp (by decide), by decide, by decide,
    by decide, by decide⟩

theorem category_sixty : IsCategory (withArgs 0xFFFFFFC4 6).arg0.toInt (withArgs 0xFFFFFFC4 6).arg1.toNat := by
  refine ⟨by decide, fun k h => ?_⟩
  by_contra hk
  have hk : k < 6 := not_le.mp hk
  interval_cases k <;> exact absurd h (by decide)

theorem witness_SignedMagnitude : (withArgs 0xFFFFFFC4 6).Inv ∧
    IsCategory (withArgs 0xFFFFFFC4 6).arg0.toInt (withArgs 0xFFFFFFC4 6).arg1.toNat ∧
    exec .smwrite (withArgs 0xFFFFFFC4 6)
      = .next ((withArgs 0xFFFFFFC4 6).appended [false, false, false, false, true, true] [] 0b000011) ∧
    ((withArgs 0xFFFFFFC4 6).appended [false, false, false, false, true, true] [] 0b000011).written
      = (withArgs 0xFFFFFFC4 6).written ++ [false, false, false, false, true, true] ∧
    ({ input [0b00001100] with arg1 := 6 } : State).arg1 = (withArgs 0xFFFFFFC4 6).arg1 ∧
    (input [0b00001100]).streamHas (input [0b00001100]).readPos [false, false, false, false, true, true] :=
  ⟨inv_small rfl (by decide), category_sixty, by rfl, by decide, rfl, streamTest_iff.mp (by decide)⟩

theorem witness_Arithmetic : F64.Canon (F64.ofInt 3) ∧ (F64.ofInt 1).toRat = some 1 ∧ F64.Canon (F64.ofInt 1) ∧
    (1 : ℚ) ≠ 0 ∧ (3 : Int).natAbs < 2 ^ 53 ∧ 1402 < 2 ^ 53 ∧ 1 ≤ 1000 ∧ 1000 < 2 ^ 53 := by
  have h : F64.ofInt 1 = .fin false 4503599627370496 (-52) := by decide
  refine ⟨canon_ofInt 3, ?_, canon_ofInt 1, one_ne_zero, by decide, by decide, by decide, by decide⟩
  rw [h]
  simp only [F64.toRat, Option.some.injEq]
  norm_num [signed]

/-- The bounds and a value of CSC_INV's clamp. -/
theorem witness_Clamp : (F64.ofInt 0).toRat = some 0 ∧ (F64.ofInt 255).toRat = some 255 ∧
    (F64.ofInt (-1)).toRat = some (-1) := by
  have h0 : F64.ofInt 0 = .fin false 0 (-1074) := by decide
  have h1 : F64.ofInt 255 = .fin false 8972014882652160 (-45) := by decide
  have h2 : F64.ofInt (-1) = .fin true 4503599627370496 (-52) := by decide
  rw [h0, h1, h2]
  simp only [F64.toRat, Option.some.injEq]
  norm_num [signed]

end Sys2Proof.Tests
end

/-! PROOFS. The arithmetic of spec/00_scope.md R10, on the real values of its operands. -/

namespace Sys2Proof.Machine

/-! ### The operations on real values -/

theorem add_nearest_of_toRat {a b : F64} {x y : ℚ} (ha : a.toRat = some x) (hb : b.toRat = some y) :
    Nearest (x + y) (F64.add a b) := by
  obtain ⟨s, m, e, rfl, rfl⟩ := toRat_some ha
  obtain ⟨t, n, f, rfl, rfl⟩ := toRat_some hb
  exact add_nearest s t m n e f

/-- A difference is the sum with the negated value, and negation is exact. -/
theorem sub_nearest_of_toRat {a b : F64} {x y : ℚ} (ha : a.toRat = some x) (hb : b.toRat = some y) :
    Nearest (x - y) (F64.sub a b) := by
  rw [sub_eq_add_neg]
  exact add_nearest_of_toRat ha (toRat_neg hb)

theorem mul_nearest_of_toRat {a b : F64} {x y : ℚ} (ha : a.toRat = some x) (hb : b.toRat = some y) :
    Nearest (x * y) (F64.mul a b) := by
  obtain ⟨s, m, e, rfl, rfl⟩ := toRat_some ha
  obtain ⟨t, n, f, rfl, rfl⟩ := toRat_some hb
  exact mul_nearest s t m n e f

/-- Only the divisor has to be canonical: its significand below 2^53 leaves the quotient enough bits for the sticky one. -/
theorem div_nearest_of_toRat {a b : F64} {x y : ℚ} (hc : F64.Canon b) (ha : a.toRat = some x) (hb : b.toRat = some y)
    (hy : y ≠ 0) : Nearest (x / y) (F64.div a b) := by
  obtain ⟨s, m, e, rfl, rfl⟩ := toRat_some ha
  obtain ⟨t, n, f, rfl, rfl⟩ := toRat_some hb
  have hn : n ≠ 0 := by
    rintro rfl
    exact hy (by cases t <;> simp [signed])
  exact div_nearest s t e f hn hc.1

/-- The two integers of a literal are exact, so its one rounding is the division's. -/
theorem lit_nearest {m n : Nat} (hm : m < 2 ^ 53) (hn : 1 ≤ n) (hn' : n < 2 ^ 53) :
    Nearest ((m : ℚ) / n) (F64.lit m n) :=
  div_nearest_of_toRat (canon_ofInt n) (by simpa using ofInt_exact (z := m) hm) (by simpa using ofInt_exact (z := n) hn')
    (Nat.cast_ne_zero.mpr (by omega))

/-- Settles O59, from the rounding lemma of each operation. -/
theorem arithmeticRoundsToNearestEven : Obligations.ArithmeticRoundsToNearestEven := by
  unfold Obligations.ArithmeticRoundsToNearestEven
  refine ⟨fun a b x y _ hcb ha hb => ⟨?sum, ?difference, ?product, ?quotient⟩, fun n => ofInt_exact, fun m n => lit_nearest⟩
  case sum => exact add_nearest_of_toRat ha hb
  case difference => exact sub_nearest_of_toRat ha hb
  case product => exact mul_nearest_of_toRat ha hb
  case quotient => exact div_nearest_of_toRat hcb ha hb

/-! ### Comparison and clamping -/

theorem lt_iff_of_toRat {a b : F64} {x y : ℚ} (ha : a.toRat = some x) (hb : b.toRat = some y) :
    F64.lt a b = true ↔ x < y := by
  obtain ⟨s, m, e, rfl, rfl⟩ := toRat_some ha
  obtain ⟨t, n, f, rfl, rfl⟩ := toRat_some hb
  exact lt_fin

theorem negInf_lt_of_toRat {a : F64} {x : ℚ} (ha : a.toRat = some x) : F64.lt (.inf true) a = true := by
  obtain ⟨s, m, e, rfl, rfl⟩ := toRat_some ha
  rfl

theorem not_posInf_lt (a : F64) : F64.lt (.inf false) a = false := by
  cases a <;> rfl

theorem lt_posInf_of_toRat {a : F64} {x : ℚ} (ha : a.toRat = some x) : F64.lt a (.inf false) = true := by
  obtain ⟨s, m, e, rfl, rfl⟩ := toRat_some ha
  rfl

theorem not_nan_lt (a : F64) : F64.lt .nan a = false := rfl

theorem not_lt_nan (a : F64) : F64.lt a .nan = false := by
  cases a <;> rfl

theorem clamp_of_toRat {a lo hi : F64} {x l h : ℚ} (ha : a.toRat = some x) (hl : lo.toRat = some l)
    (hh : hi.toRat = some h) : F64.clamp a lo hi = if x < l then lo else if h < x then hi else a := by
  simp only [F64.clamp, lt_iff_of_toRat ha hl, lt_iff_of_toRat hh ha]

/-- Settles O60: `roundHA` by its nearest-integer law, `clamp` by what the comparison says of its argument. -/
theorem roundHalfAwayIsNearest : Obligations.RoundHalfAwayIsNearest := by
  unfold Obligations.RoundHalfAwayIsNearest
  refine ⟨fun a x => roundHA_nearest, fun lo hi l h hl hh => ⟨?finite, ?negInf, ?posInf, ?nan⟩⟩
  case finite => exact fun a x ha => clamp_of_toRat ha hl hh
  case negInf => simp [F64.clamp, negInf_lt_of_toRat hl]
  case posInf => simp [F64.clamp, not_posInf_lt, lt_posInf_of_toRat hh]
  case nan => simp [F64.clamp, not_nan_lt, not_lt_nan]

end Sys2Proof.Machine

/-! PROOFS. The state and who writes it (spec/10_state.md): the invariant, the owner of each register, buffer and memory,
the flags, and the host's transactions. -/

namespace Sys2Proof.Machine

/-! ### What a step can be -/

/-- The core's turn: idle, the accepted command, or ILLEGAL_CMD (10_state.md R54, 60_exceptions.md R461). -/
theorem coreTurn_cases {s t : State} (h : coreTurn s = .next t) :
    (s.status.busy = false ∧ t = s) ∨
      (s.status.busy = true ∧
        ((∃ i, decode s.cmd = .ok i ∧ exec i s = .next t) ∨ t = s.enterError ⟨.illegalCmd, s.cmd⟩)) := by
  unfold coreTurn runCommand at h
  split at h
  · rename_i hb
    refine .inr ⟨hb, ?_⟩
    split at h
    · rename_i i hi
      exact .inl ⟨i, hi, h⟩
    · cases h
      exact .inr rfl
  · rename_i hb
    cases h
    exact .inl ⟨Bool.eq_false_iff.mpr hb, rfl⟩

/-- A step is a read, a write, or the core's turn, with the action taken off the host's list. -/
theorem step_cases {s t : State} (h : step s = .next t) :
    ∃ rest, (∃ a, s.host = .read a :: rest ∧ t = { s with host := rest }.busRead a) ∨
      (∃ a w, s.host = .write a w :: rest ∧ t = { s with host := rest }.busWrite a w) ∨
      coreTurn { s with host := rest } = .next t := by
  match hh : s.host with
  | [] =>
    rw [step_nil hh] at h
    exact ⟨[], .inr (.inr (by rw [← hh]; exact h))⟩
  | .pass :: rest =>
    rw [step_pass hh] at h
    exact ⟨rest, .inr (.inr h)⟩
  | .read a :: rest =>
    rw [step_read hh] at h
    cases h
    exact ⟨rest, .inl ⟨a, rfl, rfl⟩⟩
  | .write a w :: rest =>
    rw [step_write hh] at h
    cases h
    exact ⟨rest, .inr (.inl ⟨a, w, rfl, rfl⟩)⟩

/-- A host write is served or dropped. -/
theorem busWrite_cases (s : State) (a w : Word) :
    ∃ r, s.busWrite a w = { s.writeAt w (targetOf s.cfg a.toNat) with response := r } ∨
      s.busWrite a w = { s.dropWrite with response := r } := by
  unfold State.busWrite
  dsimp only
  split
  · exact ⟨_, .inr rfl⟩
  · exact ⟨_, .inl rfl⟩

/-! ### The invariant -/

theorem inv_busRead {s : State} (h : s.Inv) (a : Word) : (s.busRead a).Inv := by
  obtain ⟨r, n, hr, -⟩ := busRead_shape s a
  rw [hr]
  exact { h with }

theorem inv_busWrite {s : State} (h : s.Inv) (a w : Word) : (s.busWrite a w).Inv := by
  obtain ⟨r, hw | hw⟩ := busWrite_cases s a w <;> rw [hw]
  · have hi := inv_of (data_writeAt h.data w (target_kinds s.cfg a.toNat)) (flags_writeAt h.flags w _)
    exact { hi with }
  · exact { h with }

theorem inv_enterError {s : State} (h : s.Inv) (hb : s.status.busy = true) (e : Raised) : (s.enterError e).Inv :=
  inv_of { h.data with } (flags_enterError h.flags hb e)

/-- A command's effect leaves the flags to the completion that follows it. -/
theorem flags_of_keeps {s t : State} (h : FlagInv s) (k : Keeps s t) : FlagInv t := by
  refine ⟨?_, ?_, ?_, ?_, ?_⟩ <;> rw [k.status]
  · exact h.errIffCode
  · exact h.codeRange
  · rw [k.errInfo]
    exact h.infoOfErr
  · exact h.busyAlone
  · exact h.doneOrErr

theorem inv_exec {i : Instr} {s t : State} (h : s.Inv) (hb : s.status.busy = true) (he : exec i s = .next t) : t.Inv := by
  obtain ⟨r, hr, hgood⟩ := good_effect i h.data
  rw [hr] at he
  cases r with
  | error e =>
    cases he
    exact inv_enterError h hb e
  | ok u =>
    cases he
    obtain ⟨hd, ht⟩ := hgood u rfl
    have hk := ht.keeps
    exact inv_of { hd with } (flags_complete (flags_of_keeps h.flags hk) (by rw [hk.status, hb]))

theorem inv_coreTurn {s t : State} (h : s.Inv) (ht : coreTurn s = .next t) : t.Inv := by
  rcases coreTurn_cases ht with ⟨-, rfl⟩ | ⟨hb, ⟨i, -, he⟩ | rfl⟩
  · exact h
  · exact inv_exec h hb he
  · exact inv_enterError h hb _

/-- Settles O9, by the invariant's law for each kind of step. -/
theorem stepKeepsInv : Obligations.StepKeepsInv := by
  unfold Obligations.StepKeepsInv
  intro s t h hs
  obtain ⟨rest, hread | hwrite | hturn⟩ := step_cases hs
  all_goals have h' : State.Inv { s with host := rest } := { h with }
  · obtain ⟨a, -, rfl⟩ := hread
    exact inv_busRead h' a
  · obtain ⟨a, w, -, rfl⟩ := hwrite
    exact inv_busWrite h' a w
  · exact inv_coreTurn h' hturn

/-! ### What a command writes -/

/-- Settles O11, from what no command's effect changes. -/
theorem commandsKeepTheHostsRegisters : Obligations.CommandsKeepTheHostsRegisters := by
  unfold Obligations.CommandsKeepTheHostsRegisters
  intro i s t h
  rcases exec_next h with ⟨u, hu, rfl⟩ | ⟨e, rfl⟩
  · have k := hu.keeps
    have hdropped : u.status.dropped = s.status.dropped := congrArg Status.dropped k.status
    exact ⟨k.arg0, k.arg1, k.bsLen, k.imgW, k.imgH, k.ctrl, k.cmd, hdropped, k.cfg, k.host, k.response⟩
  · exact ⟨rfl, rfl, rfl, rfl, rfl, rfl, rfl, rfl, rfl, rfl, rfl⟩

/-- The parts of the state that commands write; RLEBUF goes with RLE_LEN (10_state.md R46, R52). -/
inductive Place where
  | result | writer | reader | fblk | iblk | vec | rlebuf | rgb | ycc | coef | bs

/-- A part of the state is the same in two states. -/
def Place.Same (s t : State) : Place → Prop
  | .result => t.result = s.result
  | .writer => t.writer = s.writer
  | .reader => t.reader = s.reader
  | .fblk => t.fblk = s.fblk
  | .iblk => t.iblk = s.iblk
  | .vec => t.vec = s.vec
  | .rlebuf => t.rlebuf = s.rlebuf ∧ t.rleLen = s.rleLen
  | .rgb => t.rgb = s.rgb
  | .ycc => t.ycc = s.ycc
  | .coef => t.coef = s.coef
  | .bs => t.bs = s.bs

/-- The parts a command may write when it completes: the destinations of `Touches`. -/
def destinations : Instr → List Place
  | .nop => []
  | .cscFwd | .subsample | .storeblk _ _ => [.ycc]
  | .cscInv => [.rgb]
  | .fdct | .idct | .dequant _ | .loadblk _ _ => [.fblk]
  | .quant _ | .unzigzag => [.iblk]
  | .zigzag | .rledec | .loadvec _ _ => [.vec]
  | .dcenc _ | .dcdec _ | .storevec _ _ => [.coef]
  | .rleenc => [.rlebuf]
  | .category => [.result]
  | .hufdec => [.rlebuf, .reader]
  | .hufgetdc | .hufgetac | .getbits | .smread => [.result, .reader]
  | .hufenc | .hufputdc | .hufputac | .putbits | .flush | .smwrite => [.writer, .bs]
  | .bswrst => [.writer]
  | .bsrrst => [.reader]

/-- An effect writes only its command's destinations. -/
theorem Touches.same {i : Instr} {s t : State} (h : Touches i s t) {p : Place} (hp : p ∉ destinations i) :
    p.Same s t := by
  cases i with
  | nop | bswrst | bsrrst =>
    cases h
    cases p <;> simp_all [Place.Same, destinations]
  | cscFwd | cscInv | subsample | fdct | idct | quant | dequant | zigzag | unzigzag | dcenc | dcdec | rleenc | rledec
    | category | loadblk | storeblk | loadvec | storevec =>
    obtain ⟨_, rfl⟩ := h
    cases p <;> simp_all [Place.Same, destinations]
  | hufenc | hufdec | hufputdc | hufputac | hufgetdc | hufgetac | putbits | getbits | flush | smwrite | smread =>
    obtain ⟨_, _, rfl⟩ := h
    cases p <;> simp_all [Place.Same, destinations]

theorem same_refl (s : State) (p : Place) : p.Same s s := by
  cases p <;> simp [Place.Same]

theorem same_enterError (s : State) (e : Raised) (p : Place) : p.Same s (s.enterError e) := by
  cases p <;> simp [Place.Same]

/-- A part that a command changes is one of its destinations, and the command completed. -/
theorem changed_of_exec {i : Instr} {s t : State} (h : exec i s = .next t) {p : Place} (hp : ¬p.Same s t) :
    p ∈ destinations i ∧ t.status = finished s.status := by
  rcases exec_next h with ⟨u, hu, rfl⟩ | ⟨e, rfl⟩
  · refine ⟨?_, congrArg finished hu.keeps.status⟩
    by_contra hn
    exact hp (hu.same hn)
  · exact absurd (same_enterError s e p) hp

theorem mem_result {i : Instr} (h : .result ∈ destinations i) :
    i ∈ [Instr.category, .hufgetdc, .hufgetac, .getbits, .smread] := by
  cases i <;> simp_all [destinations]

theorem mem_writer {i : Instr} (h : .writer ∈ destinations i) :
    i ∈ [Instr.hufenc, .hufputdc, .hufputac, .putbits, .smwrite, .flush, .bswrst] := by
  cases i <;> simp_all [destinations]

theorem mem_reader {i : Instr} (h : .reader ∈ destinations i) :
    i ∈ [Instr.hufdec, .hufgetdc, .hufgetac, .getbits, .smread, .bsrrst] := by
  cases i <;> simp_all [destinations]

theorem mem_fblk {i : Instr} (h : .fblk ∈ destinations i) :
    i = .fdct ∨ i = .idct ∨ (∃ ch, i = .dequant ch) ∨ ∃ ch b, i = .loadblk ch b := by
  cases i <;> simp_all [destinations]

theorem mem_iblk {i : Instr} (h : .iblk ∈ destinations i) : i = .unzigzag ∨ ∃ ch, i = .quant ch := by
  cases i <;> simp_all [destinations]

theorem mem_vec {i : Instr} (h : .vec ∈ destinations i) : i = .zigzag ∨ i = .rledec ∨ ∃ ch b, i = .loadvec ch b := by
  cases i <;> simp_all [destinations]

theorem mem_rlebuf {i : Instr} (h : .rlebuf ∈ destinations i) : i = .rleenc ∨ i = .hufdec := by
  cases i <;> simp_all [destinations]

theorem mem_rgb {i : Instr} (h : .rgb ∈ destinations i) : i = .cscInv := by
  cases i <;> simp_all [destinations]

theorem mem_ycc {i : Instr} (h : .ycc ∈ destinations i) :
    i = .cscFwd ∨ i = .subsample ∨ ∃ ch b, i = .storeblk ch b := by
  cases i <;> simp_all [destinations]

theorem mem_coef {i : Instr} (h : .coef ∈ destinations i) :
    (∃ ch, i = .dcenc ch ∨ i = .dcdec ch) ∨ ∃ ch b, i = .storevec ch b := by
  cases i <;> simp_all [destinations]

theorem mem_bs {i : Instr} (h : .bs ∈ destinations i) :
    i ∈ [Instr.hufenc, .hufputdc, .hufputac, .putbits, .smwrite, .flush] := by
  cases i <;> simp_all [destinations]

/-- Settles O14: a changed part is a destination, and each part's commands are listed. -/
theorem commandsWriteOnlyTheirDestinations : Obligations.CommandsWriteOnlyTheirDestinations := by
  unfold Obligations.CommandsWriteOnlyTheirDestinations
  intro i s t h
  have changed (p : Place) (hp : ¬p.Same s t) : p ∈ destinations i := (changed_of_exec h hp).1
  refine ⟨fun hp => ?fblk, fun hp => ?iblk, fun hp => ?vec, fun hp => ?rlebuf, fun hp => ?rgb, fun hp => ?ycc,
    fun hp => ?coef, fun hp => ?bs⟩
  case fblk => exact mem_fblk (changed .fblk hp)
  case iblk => exact mem_iblk (changed .iblk hp)
  case vec => exact mem_vec (changed .vec hp)
  case rlebuf => exact mem_rlebuf (changed .rlebuf (not_and_or.mpr hp))
  case rgb => exact mem_rgb (changed .rgb hp)
  case ycc => exact mem_ycc (changed .ycc hp)
  case coef => exact mem_coef (changed .coef hp)
  case bs => exact mem_bs (changed .bs hp)

/-- RESULT's place in the address map (10_state.md R38). -/
theorem targetOf_result (c : Config) : targetOf c (0x01C : Word).toNat = .csr .result := targetOf_csr c 7 .result rfl

/-- Settles O12: RESULT is a destination of five commands, and a bus write to its address leaves it alone. -/
theorem resultIsWrittenByFiveCommands : Obligations.ResultIsWrittenByFiveCommands := by
  unfold Obligations.ResultIsWrittenByFiveCommands
  refine ⟨fun i s t h hp => ?command, fun s w => ?write, fun c => rfl, fun s hb => ?read⟩
  case command =>
    have hc := changed_of_exec (p := .result) h hp
    exact ⟨mem_result hc.1, hc.2⟩
  case write =>
    obtain ⟨r, hw | hw⟩ := busWrite_cases s 0x01C w <;> rw [hw]
    · rw [targetOf_result]
      rfl
    · rfl
  case read =>
    rw [busRead_open (targetOf_result s.cfg) (.inl hb)]
    rfl

/-! ### The writer and the reader -/

/-- A host write moves the writer and the reader only by a soft reset (10_state.md R33, R56). -/
theorem writeAt_pointers (s : State) (w : Word) (t : Target) :
    ((s.writeAt w t).writer = s.writer ∧ (s.writeAt w t).reader = s.reader) ∨
      (t = .csr .ctrl ∧ w.getLsbD 31 = true ∧ (s.writeAt w t).writer = ⟨0, 0, 0⟩ ∧ (s.writeAt w t).reader = ⟨0, 0⟩) := by
  cases t with
  | csr r =>
    cases r with
    | ctrl =>
      simp only [State.writeAt, State.writeCsr, State.writeCtrl]
      split
      · exact .inr ⟨trivial, ‹_›, rfl, rfl⟩
      · exact .inl ⟨rfl, rfl⟩
    | status =>
      simp only [State.writeAt, State.writeCsr, State.writeStatus]
      split <;> exact .inl ⟨rfl, rfl⟩
    | cmd =>
      simp only [State.writeAt, State.writeCsr, State.writeCmd]
      split <;> exact .inl ⟨rfl, rfl⟩
    | _ => exact .inl ⟨rfl, rfl⟩
  | _ => exact .inl ⟨rfl, rfl⟩

/-- The same of a bus write, with CTRL's address. -/
theorem busWrite_pointers (s : State) (a w : Word) :
    ((s.busWrite a w).writer = s.writer ∧ (s.busWrite a w).reader = s.reader) ∨
      (a = 0x008 ∧ w.getLsbD 31 = true ∧ (s.busWrite a w).writer = ⟨0, 0, 0⟩ ∧ (s.busWrite a w).reader = ⟨0, 0⟩) := by
  obtain ⟨r, hw | hw⟩ := busWrite_cases s a w <;> rw [hw]
  · rcases writeAt_pointers s w (targetOf s.cfg a.toNat) with hkept | ⟨ht, hreset⟩
    · exact .inl hkept
    · exact .inr ⟨BitVec.eq_of_toNat_eq (targetOf_ctrl ht), hreset⟩
  · exact .inl ⟨rfl, rfl⟩

/-- The core's turn changes the parts of the state only by a command it ran. -/
theorem changed_of_coreTurn {s t : State} (h : coreTurn s = .next t) {p : Place} (hp : ¬p.Same s t) :
    s.status.busy = true ∧ ∃ i, decode s.cmd = .ok i ∧ p ∈ destinations i := by
  rcases coreTurn_cases h with ⟨-, rfl⟩ | ⟨hb, ⟨i, hi, he⟩ | rfl⟩
  · exact absurd (same_refl _ p) hp
  · exact ⟨hb, i, hi, (changed_of_exec he hp).1⟩
  · exact absurd (same_enterError s _ p) hp

/-- Settles O13, by the three kinds of step. -/
theorem writerAndReaderHaveOneOwner : Obligations.WriterAndReaderHaveOneOwner := by
  unfold Obligations.WriterAndReaderHaveOneOwner
  intro s t hs
  obtain ⟨rest, ⟨a, -, rfl⟩ | ⟨a, w, hh, rfl⟩ | hturn⟩ := step_cases hs
  · obtain ⟨r, n, hr, -⟩ := busRead_shape { s with host := rest } a
    rw [hr]
    exact ⟨fun hp => absurd rfl hp, fun hp => absurd rfl hp⟩
  · rcases busWrite_pointers { s with host := rest } a w with ⟨hw, hr⟩ | ⟨rfl, hw31, hw, hr⟩
    · exact ⟨fun hp => absurd hw hp, fun hp => absurd hr hp⟩
    · exact ⟨fun _ => .inl ⟨w, rest, hh, hw31, hw⟩, fun _ => .inl ⟨w, rest, hh, hw31, hr⟩⟩
  · refine ⟨fun hp => .inr ?_, fun hp => .inr ?_⟩
    · obtain ⟨hb, i, hi, hm⟩ := changed_of_coreTurn (p := .writer) hturn hp
      exact ⟨hb, i, mem_writer hm, hi⟩
    · obtain ⟨hb, i, hi, hm⟩ := changed_of_coreTurn (p := .reader) hturn hp
      exact ⟨hb, i, mem_reader hm, hi⟩

/-! ### Commands and the flags -/

/-- The state with other flags and other enables (10_state.md R55). -/
def State.withFlags (s : State) (x : Status) (c : Ctrl) : State := { s with status := x, ctrl := c }

/-- A computation of a command's effect that neither reads nor writes a flag or an enable. -/
def FlagBlind (f : State → Except Raised State) : Prop :=
  ∀ s x c, f (s.withFlags x c) = (f s).map (·.withFlags x c)

section
variable (s : State) (x : Status) (c : Ctrl)

@[simp] theorem withFlags_checkGeometry : (s.withFlags x c).checkGeometry = s.checkGeometry := rfl

@[simp] theorem withFlags_checkBlock (b : Nat) : (s.withFlags x c).checkBlock b = s.checkBlock b := rfl

@[simp] theorem withFlags_bitCount : (s.withFlags x c).bitCount = s.bitCount := rfl

@[simp] theorem withFlags_bitAt (pos : Nat) : (s.withFlags x c).bitAt pos = s.bitAt pos := rfl

@[simp] theorem withFlags_cfg : (s.withFlags x c).cfg = s.cfg := rfl

@[simp] theorem withFlags_writer : (s.withFlags x c).writer = s.writer := rfl

@[simp] theorem withFlags_rleLen : (s.withFlags x c).rleLen = s.rleLen := rfl

@[simp] theorem withFlags_fblk : (s.withFlags x c).fblk = s.fblk := rfl

@[simp] theorem withFlags_ycc : (s.withFlags x c).ycc = s.ycc := rfl

@[simp] theorem withFlags_vec : (s.withFlags x c).vec = s.vec := rfl

@[simp] theorem withFlags_coef : (s.withFlags x c).coef = s.coef := rfl

@[simp] theorem withFlags_pix (b n : Nat) : (s.withFlags x c).pix b n = s.pix b n := rfl

@[simp] theorem withFlags_numPixels : (s.withFlags x c).numPixels = s.numPixels := rfl

@[simp] theorem withFlags_quantTable (ch : Channel) : (s.withFlags x c).quantTable ch = s.quantTable ch := rfl

@[simp] theorem withFlags_symbols : (s.withFlags x c).symbols = s.symbols := rfl

@[simp] theorem withFlags_arg0Nat : (s.withFlags x c).arg0Nat = s.arg0Nat := rfl

@[simp] theorem withFlags_arg0Key : (s.withFlags x c).arg0Key = s.arg0Key := rfl

@[simp] theorem withFlags_readPos : (s.withFlags x c).readPos = s.readPos := rfl

@[simp] theorem withFlags_bitRead (n pos v : Nat) : (s.withFlags x c).bitRead n pos v = s.bitRead n pos v := by
  induction n generalizing pos v with
  | zero => rfl
  | succ n ih => simp only [State.bitRead, withFlags_bitAt, ih]

@[simp] theorem withFlags_huffLoop (t : List HuffEntry) (start more pos v len : Nat) :
    (s.withFlags x c).huffLoop t start more pos v len = s.huffLoop t start more pos v len := by
  induction more generalizing pos v len with
  | zero => rfl
  | succ more ih => simp only [State.huffLoop, withFlags_bitAt, ih]

@[simp] theorem withFlags_huffMatch (t : List HuffEntry) (maxLen pos : Nat) :
    (s.withFlags x c).huffMatch t maxLen pos = s.huffMatch t maxLen pos :=
  withFlags_huffLoop s x c t pos (maxLen - 1) pos 0 0

@[simp] theorem withFlags_acParse (fuel pos p : Nat) :
    (s.withFlags x c).acParse fuel pos p = s.acParse fuel pos p := by
  induction fuel generalizing pos p with
  | zero => rfl
  | succ fuel ih => simp only [State.acParse, withFlags_cfg, withFlags_huffMatch, withFlags_bitRead, ih]

@[simp] theorem withFlags_blockParse : (s.withFlags x c).blockParse = s.blockParse := by
  simp only [State.blockParse, withFlags_cfg, withFlags_readPos, withFlags_huffMatch, withFlags_bitRead,
    withFlags_acParse]

@[simp] theorem withFlags_bitWrite (bits : List Bool) :
    (s.withFlags x c).bitWrite bits = (s.bitWrite bits).map (·.withFlags x c) := by
  unfold State.bitWrite
  rw [apply_ite (Except.map _)]
  rfl

end

/-- Every command settles an effect that is computed without a flag. -/
theorem exec_flagBlind (i : Instr) : ∃ f, (∀ s, exec i s = settle s (f s)) ∧ FlagBlind f := by
  cases i <;> simp only [exec,
    execNop, execCscFwd, execCscInv, execSubsample, execFdct, execIdct, execQuant, execDequant, execZigzag,
    execUnzigzag, execDcenc, execDcdec, execRleenc, execRledec, execCategory, execHufenc, execHufdec,
    execHufputdc, execHufputac, execHufgetdc, execHufgetac, execPutbits, execGetbits, execFlush, execBswrst,
    execBsrrst, execSmwrite, execSmread, execLoadblk, execStoreblk, execLoadvec, execStorevec] <;>
    refine ⟨_, fun s => rfl, fun s x c => ?_⟩
  case nop | fdct | idct | dequant | zigzag | unzigzag | rleenc | category | bswrst | bsrrst => rfl
  case cscFwd | subsample | dcenc | dcdec =>
    rw [withFlags_checkGeometry]
    split <;> rfl
  case loadblk | loadvec =>
    rw [withFlags_checkBlock]
    split <;> rfl
  case storeblk =>
    simp only [withFlags_checkBlock, withFlags_ycc, withFlags_fblk, withFlags_pix]
    generalize Memory.writeAll s.ycc _ = written
    split <;> rfl
  case storevec =>
    rw [withFlags_checkBlock, withFlags_coef, withFlags_vec]
    generalize Memory.writeAll s.coef _ = written
    split <;> rfl
  case cscInv =>
    rw [withFlags_checkGeometry, withFlags_ycc, withFlags_numPixels]
    split
    · rfl
    · split <;> rfl
  case quant =>
    simp only [withFlags_fblk, withFlags_quantTable]
    split <;> rfl
  case rledec =>
    rw [withFlags_rleLen, apply_ite (Except.map _)]
    rfl
  case flush =>
    rw [withFlags_writer, apply_ite (Except.map _), withFlags_bitWrite]
    rfl
  case hufenc =>
    rw [withFlags_cfg, withFlags_symbols, withFlags_rleLen]
    split
    · rfl
    · exact withFlags_bitWrite s x c _
  case hufputdc =>
    rw [withFlags_cfg, withFlags_arg0Nat]
    split
    · rfl
    · exact withFlags_bitWrite s x c _
  case hufputac =>
    rw [withFlags_cfg, withFlags_arg0Nat, withFlags_arg0Key]
    split
    · rfl
    · exact withFlags_bitWrite s x c _
  case putbits | smwrite =>
    rw [withFlags_bitCount]
    split
    · rfl
    · exact withFlags_bitWrite s x c _
  case hufdec =>
    rw [withFlags_blockParse]
    split <;> rfl
  case hufgetdc | hufgetac =>
    rw [withFlags_cfg, withFlags_readPos, withFlags_huffMatch]
    split <;> rfl
  case getbits | smread =>
    simp only [withFlags_bitCount, withFlags_readPos, withFlags_bitRead]
    split
    · rfl
    · split <;> rfl

/-- Settles O16: the effect is computed without a flag, so it is the same, and it leaves the flags to `settle`. -/
theorem commandsReadNoFlag : Obligations.CommandsReadNoFlag := by
  unfold Obligations.CommandsReadNoFlag
  intro i s x c
  obtain ⟨f, hexec, hblind⟩ := exec_flagBlind i
  have hs : f s = (f s).map (·.withFlags s.status s.ctrl) := hblind s s.status s.ctrl
  have hx : exec i (s.withFlags x c) = settle (s.withFlags x c) ((f s).map (·.withFlags x c)) := by
    rw [hexec, hblind]
  cases hf : f s with
  | error e =>
    rw [hf] at hx
    exact ⟨s.enterError e, (s.withFlags x c).enterError e, by rw [hexec, hf]; rfl, hx, rfl, .inr ⟨_, rfl, rfl⟩⟩
  | ok t =>
    rw [hf] at hx hs
    have ht : t = t.withFlags s.status s.ctrl := Except.ok.inj hs
    have hstatus : t.status = s.status :=
      calc t.status = (t.withFlags s.status s.ctrl).status := congrArg State.status ht
        _ = s.status := rfl
    exact ⟨t.complete, (t.withFlags x c).complete, by rw [hexec, hf]; rfl, hx, rfl,
      .inl ⟨congrArg finished hstatus, rfl⟩⟩

/-! ### The host's transactions -/

theorem busErr_of_mapped {t : Target} (h1 : t ≠ .misaligned) (h2 : t ≠ .unmapped) : busErr t = false := by
  cases t with
  | misaligned => exact absurd rfl h1
  | unmapped => exact absurd rfl h2
  | _ => rfl

theorem openToWrite_of_mapped {t : Target} (h : busErr t = false) (h1 : t ≠ .csr .ctrl) (h2 : t ≠ .csr .status) :
    openToWrite t = false := by
  unfold openToWrite
  split
  · contradiction
  · contradiction
  · exact h

section
variable {s : State} {a w : Word} {t : Target} {rest : List HostAction}

theorem valueAt_host (s : State) (l : List HostAction) (t : Target) :
    State.valueAt { s with host := l } t = s.valueAt t := by
  cases t with
  | csr r => cases r <;> rfl
  | _ => rfl

theorem step_read_open (hh : s.host = .read a :: rest) (ht : targetOf s.cfg a.toNat = t)
    (ho : s.status.busy = false ∨ openToRead t = true) :
    step s = .next { s with host := rest, response := some (.read (s.valueAt t) (busErr t)) } := by
  rw [step_read hh, busRead_open (s := { s with host := rest }) ht ho, valueAt_host]

theorem step_read_closed (hh : s.host = .read a :: rest) (ht : targetOf s.cfg a.toNat = t)
    (hb : s.status.busy = true) (ho : openToRead t = false) :
    step s = .next { s with
      host := rest, response := some (.read (Config.busyData s.free) (busErr t)), free := s.free + 1 } := by
  rw [step_read hh, busRead_closed (s := { s with host := rest }) ht hb ho]

theorem step_write_open (hh : s.host = .write a w :: rest) (ht : targetOf s.cfg a.toNat = t)
    (ho : s.status.busy = false ∨ openToWrite t = true) :
    step s = .next { State.writeAt { s with host := rest } w t with response := some (.write (busErr t)) } := by
  rw [step_write hh, busWrite_open (s := { s with host := rest }) ht ho]

theorem step_write_dropped (hh : s.host = .write a w :: rest) (ht : targetOf s.cfg a.toNat = t)
    (hb : s.status.busy = true) (ho : openToWrite t = false) :
    step s = .next { s with
      host := rest, status := { s.status with dropped := true }, response := some (.write (busErr t)) } := by
  rw [step_write hh, busWrite_dropped (s := { s with host := rest }) ht hb ho]
  rfl

end

/-- The registers that a host access names by its address (10_state.md section 2). -/
theorem targetOf_word_id (c : Config) : targetOf c (0x000 : Word).toNat = .csr .id := targetOf_csr c 0 .id rfl

theorem targetOf_word_version (c : Config) : targetOf c (0x004 : Word).toNat = .csr .version :=
  targetOf_csr c 1 .version rfl

theorem targetOf_word_ctrl (c : Config) : targetOf c (0x008 : Word).toNat = .csr .ctrl := targetOf_csr c 2 .ctrl rfl

theorem targetOf_word_status (c : Config) : targetOf c (0x00C : Word).toNat = .csr .status :=
  targetOf_csr c 3 .status rfl

theorem targetOf_word_cmd (c : Config) : targetOf c (0x010 : Word).toNat = .csr .cmd := targetOf_csr c 4 .cmd rfl

/-- Settles O20: the four registers are open to reads; every other mapped access is closed; errors are answered as ever. -/
theorem busyCoreDropsWrites : Obligations.BusyCoreDropsWrites := by
  unfold Obligations.BusyCoreDropsWrites
  intro s rest hb
  refine ⟨fun p hp hh => ?registers, fun a hh h1 h2 => ?reads, fun a w hh ha1 ha2 h1 h2 => ?writes, fun a he => ?errors⟩
  case registers =>
    simp only [List.mem_cons, List.not_mem_nil, or_false] at hp
    rcases hp with rfl | rfl | rfl | rfl
    · exact step_read_open hh (targetOf_word_id _) (.inr rfl)
    · exact step_read_open hh (targetOf_word_version _) (.inr rfl)
    · exact step_read_open hh (targetOf_word_ctrl _) (.inr rfl)
    · exact step_read_open hh (targetOf_word_status _) (.inr rfl)
  case reads =>
    rw [← busErr_of_mapped h1 h2]
    cases ho : openToRead (targetOf s.cfg a.toNat) with
    | false => exact ⟨_, _, step_read_closed hh rfl hb ho⟩
    | true => exact ⟨_, _, step_read_open hh rfl (.inr ho)⟩
  case writes =>
    have he := busErr_of_mapped h1 h2
    have hclosed : openToWrite (targetOf s.cfg a.toNat) = false :=
      openToWrite_of_mapped he (fun h => ha1 (BitVec.eq_of_toNat_eq (targetOf_ctrl h)))
        (fun h => ha2 (BitVec.eq_of_toNat_eq (targetOf_status h)))
    rw [step_write_dropped hh rfl hb hclosed, he]
  case errors =>
    rcases he with ht | ht
    · exact ⟨fun hh => step_read_open hh ht (.inr rfl), fun w hh => step_write_open hh ht (.inr rfl)⟩
    · exact ⟨fun hh => step_read_open hh ht (.inr rfl), fun w hh => step_write_open hh ht (.inr rfl)⟩

/-- A bit of a register's word, from the number the word is made of. -/
theorem getLsbD_u32 {n k : Nat} {b : Bool} (hk : k < 32) (h : n / 2 ^ k % 2 = b.toNat) : (u32 n).getLsbD k = b := by
  rw [u32, BitVec.getLsbD_ofNat, Nat.testBit_eq_decide_div_mod_eq, h]
  cases b <;> simp [hk]

/-- A field of a register's word. -/
theorem extractLsb'_u32 {n i k : Nat} {x : BitVec k} (h : n % 2 ^ 32 / 2 ^ i % 2 ^ k = x.toNat) :
    (u32 n).extractLsb' i k = x := by
  apply BitVec.eq_of_toNat_eq
  rw [BitVec.extractLsb'_toNat, u32, BitVec.toNat_ofNat, Nat.shiftRight_eq_div_pow, h]

/-- The fields of STATUS as it reads (10_state.md R34, 60_exceptions.md R470). -/
theorem statusWord_fields (s : State) :
    s.statusWord.getLsbD 0 = s.status.busy ∧ s.statusWord.getLsbD 1 = s.status.done ∧
      s.statusWord.getLsbD 2 = s.status.err ∧ s.statusWord.getLsbD 3 = s.status.dropped ∧
      s.statusWord.getLsbD 4 = s.irq ∧ s.statusWord.extractLsb' 5 3 = 0 ∧
      s.statusWord.extractLsb' 8 4 = s.status.errCode ∧ s.statusWord.extractLsb' 12 20 = 0 := by
  have h0 := s.status.busy.toNat_lt
  have h1 := s.status.done.toNat_lt
  have h2 := s.status.err.toNat_lt
  have h3 := s.status.dropped.toNat_lt
  have h4 := s.irq.toNat_lt
  have h5 := s.status.errCode.isLt
  unfold State.statusWord
  refine ⟨getLsbD_u32 ?_ ?_, getLsbD_u32 ?_ ?_, getLsbD_u32 ?_ ?_, getLsbD_u32 ?_ ?_, getLsbD_u32 ?_ ?_,
    extractLsb'_u32 ?_, extractLsb'_u32 ?_, extractLsb'_u32 ?_⟩ <;> simp <;> omega

/-- A write to STATUS clears what its bits name (10_state.md R34, 60_exceptions.md R468). -/
theorem writeStatus_eq (s : State) (w : Word) :
    s.writeStatus w = { s with
      status := {
        busy := s.status.busy
        done := s.status.done && !w.getLsbD 1
        err := s.status.err && !w.getLsbD 2
        dropped := s.status.dropped && !w.getLsbD 3
        errCode := if w.getLsbD 2 then 0 else s.status.errCode }
      errInfo := if w.getLsbD 2 then 0 else s.errInfo } := by
  unfold State.writeStatus
  cases hw : w.getLsbD 2 <;> simp [State.clearDone, State.clearDropped, State.clearError]

/-- Settles O18: STATUS is open to reads and writes, BUSY = 1 or not. -/
theorem statusReadsItsFieldsAndClearsOnOne : Obligations.StatusReadsItsFieldsAndClearsOnOne := by
  unfold Obligations.StatusReadsItsFieldsAndClearsOnOne
  refine fun s rest => ⟨fun hh => ⟨s.statusWord, ?_, statusWord_fields s⟩, fun w hh => ?_⟩
  · exact step_read_open hh (targetOf_word_status _) (.inr rfl)
  · rw [step_write_open hh (targetOf_word_status _) (.inr rfl), State.writeAt, State.writeCsr, writeStatus_eq]
    rfl

/-- Settles O19, by the cases of BUSY and ERR. -/
theorem cmdWriteIsAcceptedOrDropped : Obligations.CmdWriteIsAcceptedOrDropped := by
  unfold Obligations.CmdWriteIsAcceptedOrDropped
  refine ⟨fun s w rest hh => ⟨fun hb he => ?accepted, fun hbe => ?dropped⟩, fun s hb => ?read, fun c => rfl⟩
  case accepted =>
    rw [step_write_open hh (targetOf_word_cmd _) (.inl hb)]
    simp [State.writeAt, State.writeCsr, State.writeCmd, State.acceptCmd, hb, he, busErr]
  case dropped =>
    cases hb : s.status.busy with
    | true => exact step_write_dropped hh (targetOf_word_cmd _) hb rfl
    | false =>
      have he : s.status.err = true := hbe.resolve_left (by simp [hb])
      rw [step_write_open hh (targetOf_word_cmd _) (.inl hb)]
      simp [State.writeAt, State.writeCsr, State.writeCmd, State.dropWrite, hb, he, busErr]
  case read =>
    rw [busRead_open (targetOf_word_cmd _) (.inl hb)]
    rfl

/-! ### Running the accepted command -/

theorem ofShape_plain {w : Word} {i : Instr} (hc : chOf w = 0) (hb : blkOf w = 0) : ofShape w (.plain i) = .ok i := by
  simp [ofShape, hc, hb]

theorem ofShape_withCh {w : Word} {f : Channel → Instr} {ch : Channel} (hc : chOf w = channelNo ch) (hb : blkOf w = 0) :
    ofShape w (.withCh f) = .ok (f ch) := by
  simp [ofShape, hb, channelOf_eq_ok.mpr hc, Except.map]

theorem ofShape_withChBlk {w : Word} {f : Channel → Nat → Instr} {ch : Channel} {b : Nat} (hc : chOf w = channelNo ch)
    (hb : blkOf w = b) : ofShape w (.withChBlk f) = .ok (f ch b) := by
  simp [ofShape, hb, channelOf_eq_ok.mpr hc, Except.map]

/-- The decoder gives back a well-formed command from its encoding (30_encoding.md R158, R160). -/
theorem decode_encode {i : Instr} (h : i.wf = true) : decode (encode i) = .ok i := by
  obtain ⟨hrsv, hopc, hch, hblk⟩ := fields_encode h
  unfold decode
  rw [if_neg (not_not.mpr hrsv), hopc]
  cases i with
  | quant | dequant | dcenc | dcdec => exact ofShape_withCh hch hblk
  | loadblk | storeblk | loadvec | storevec => exact ofShape_withChBlk hch hblk
  | _ => exact ofShape_plain hch hblk

theorem coreTurn_idle {s : State} (hb : s.status.busy = false) : coreTurn s = .next s := by
  simp [coreTurn, hb]

theorem coreTurn_command {s : State} {i : Instr} (h : i.wf = true) (hb : s.status.busy = true) (hc : s.cmd = encode i) :
    coreTurn s = exec i s := by
  rw [coreTurn, if_pos hb, runCommand, hc, decode_encode h]

/-- Settles O5: the core's turn decodes what was encoded. -/
theorem stepRunsTheAcceptedCommand : Obligations.StepRunsTheAcceptedCommand := by
  unfold Obligations.StepRunsTheAcceptedCommand
  refine ⟨fun s i h hb hc => ⟨fun hh => ?alone, fun rest hh => ?passed⟩, fun s i h => ?fetched,
    fun s rest => ⟨fun a hh => step_read hh, fun a w hh => step_write hh, fun hb hh => ?idlePassed, fun hb hh => ?idle⟩⟩
  case alone => rw [step_nil hh, coreTurn_command h hb hc]
  case passed => exact (step_pass hh).trans (coreTurn_command h hb hc)
  case fetched =>
    have hw : BitVec.ofNat 32 ((encode i).toNat % 2 ^ 32) = encode i := by
      rw [Nat.mod_eq_of_lt (encode i).isLt, BitVec.ofNat_toNat, BitVec.setWidth_eq]
    rw [State.withFetchWord, hw, step_pass rfl, coreTurn_command h rfl rfl]
    rfl
  case idlePassed => exact (step_pass hh).trans (coreTurn_idle hb)
  case idle => rw [step_nil hh, coreTurn_idle hb]

end Sys2Proof.Machine

/-! PROOFS. Memory and host bus (spec/20_memory.md): the bitstream's reader and writer at their bounds, the elements
beyond the image, the address map, and what the host's reads and writes do to its windows. -/

namespace Sys2Proof.Machine

/-! ### The reading commands -/

/-- A command that settles a raised error ends in it. -/
theorem endsInError_of_raised {i : Instr} {s : State} {k : ErrKind} {info : Nat}
    (h : exec i s = settle s (raised k info)) : EndsInError i s (errCodeOf k) info := h

section
variable {s : State} {v pos info : Nat} {k : ErrKind}

theorem exec_getbits_of_read (hn : s.arg1.toNat ≤ 16) (hr : s.bitRead s.arg1.toNat s.readPos 0 = .ok (v, pos)) :
    exec .getbits s = .next { s with result := u32 v, reader := readerAt pos, status := finished s.status } := by
  simp only [exec, execGetbits, bitCount_ok hn, hr]
  rfl

theorem exec_smread_of_read (hn : s.arg1.toNat ≤ 16) (hr : s.bitRead s.arg1.toNat s.readPos 0 = .ok (v, pos)) :
    exec .smread s = .next { s with
      result := BitVec.ofInt 32 (smValue v s.arg1.toNat), reader := readerAt pos, status := finished s.status } := by
  simp only [exec, execSmread, bitCount_ok hn, hr]
  rfl

theorem exec_getbits_of_short (hn : s.arg1.toNat ≤ 16) (hr : s.bitRead s.arg1.toNat s.readPos 0 = raised k info) :
    exec .getbits s = settle s (raised k info) := by
  simp only [exec, execGetbits, bitCount_ok hn, hr, raised]

theorem exec_smread_of_short (hn : s.arg1.toNat ≤ 16) (hr : s.bitRead s.arg1.toNat s.readPos 0 = raised k info) :
    exec .smread s = settle s (raised k info) := by
  simp only [exec, execSmread, bitCount_ok hn, hr, raised]

theorem exec_getbits_of_count (hn : 16 < s.arg1.toNat) :
    exec .getbits s = settle s (raised .badOperand s.arg1.toNat) := by
  simp only [exec, execGetbits, bitCount_error hn, raised]

theorem exec_smread_of_count (hn : 16 < s.arg1.toNat) :
    exec .smread s = settle s (raised .badOperand s.arg1.toNat) := by
  simp only [exec, execSmread, bitCount_error hn, raised]

end

/-- Settles O53: both commands check the count and read as BitRead does (R113). -/
theorem getbitsAndSmreadTakeTheNextBits : Obligations.GetbitsAndSmreadTakeTheNextBits := by
  unfold Obligations.GetbitsAndSmreadTakeTheNextBits
  refine fun s => ⟨fun hn bits hl hs => ?taken, fun hn => ?badCount, fun hn h1 hshort => ?underrun⟩
  case taken =>
    have hr := bitRead_has_zero hs
    rw [hl] at hr
    have hvalue := exec_smread_of_read hn hr
    rw [← hl, smValue_numberOf, hl] at hvalue
    exact ⟨exec_getbits_of_read hn hr, hvalue⟩
  case badCount =>
    exact ⟨endsInError_of_raised (exec_getbits_of_count hn), endsInError_of_raised (exec_smread_of_count hn)⟩
  case underrun =>
    have hr := bitRead_short (v := 0) h1 hshort
    exact ⟨endsInError_of_raised (exec_getbits_of_short hn hr), endsInError_of_raised (exec_smread_of_short hn hr)⟩

/-! ### The writing commands -/

section
variable {s : State} {bits : List Bool}

theorem exec_hufputdc_of_code (h : huffCode s.cfg.hufDc s.arg0.toNat = some bits) :
    exec .hufputdc s = settle s (s.bitWrite bits) := by
  simp only [exec, execHufputdc, State.arg0Nat, h]

theorem exec_hufputac_of_code (hk : s.arg0.toNat / 1024 = 0) (h : huffCode s.cfg.hufAc s.arg0.toNat = some bits) :
    exec .hufputac s = settle s (s.bitWrite bits) := by
  simp only [exec, execHufputac, arg0Key_some hk, Option.bind_some, h]

theorem exec_putbits_of_count (hn : s.arg1.toNat ≤ 16) :
    exec .putbits s = settle s (s.bitWrite (bitString s.arg0.toNat s.arg1.toNat)) := by
  simp only [exec, execPutbits, bitCount_ok hn, State.arg0Nat]

theorem exec_smwrite_of_count (hn : s.arg1.toNat ≤ 16) :
    exec .smwrite s = settle s (s.bitWrite (smBits s.arg0.toInt s.arg1.toNat)) := by
  simp only [exec, execSmwrite, bitCount_ok hn, State.arg0Signed]

/-- HUFENC codes the slots up to the end of the block and ignores those after it (47_huffman_bitstream.md R365). -/
theorem exec_hufenc_of_block {n : Nat} (hc : s.cfg.wf = true) (hends : BlockEndsAt s.symbols n)
    (hcodes : CodesBlock s.cfg (s.symbols.take n) bits) : exec .hufenc s = settle s (s.bitWrite bits) := by
  have hlen : (s.symbols.take n).length = n := by
    rw [List.length_take, Nat.min_eq_left hends.2.1]
  have hbits := blockBits_codes (tail := s.symbols.drop n) hc
    (by rwa [List.take_append_drop, hlen]) hcodes s.rleLen.toNat
  rw [List.take_append_drop] at hbits
  simp only [exec, execHufenc, hbits]

/-- The room a bit-string needs is decided by its length (20_memory.md R110). -/
theorem roomFor_congr {bits' : List Bool} (h : bits'.length = bits.length) : s.roomFor bits' ↔ s.roomFor bits := by
  unfold State.roomFor
  rw [h]

/-- A command that appends bits there is no room for ends in BS_OVERFLOW (20_memory.md R110). -/
theorem endsInError_of_full {i : Instr} (h : exec i s = settle s (s.bitWrite bits)) (hfull : ¬s.roomFor bits) :
    EndsInError i s 7 s.writer.wptr.toNat := by
  rw [bitWrite_full hfull] at h
  exact endsInError_of_raised h

end

/-- Settles O52: each command appends a bit-string of the given length, which does not fit. -/
theorem writersOverflowWithoutAPartialWrite : Obligations.WritersOverflowWithoutAPartialWrite := by
  unfold Obligations.WritersOverflowWithoutAPartialWrite
  intro s bits hinv hfull
  refine ⟨fun hcode => ?hufputdc, fun hk hcode => ?hufputac, fun hn hl => ⟨?putbits, ?smwrite⟩,
    fun n hends hcodes => ?hufenc⟩
  case hufputdc =>
    exact endsInError_of_full (exec_hufputdc_of_code (huffCode_of (dcTable_good hinv.params) hcode)) hfull
  case hufputac =>
    exact endsInError_of_full (exec_hufputac_of_code hk (huffCode_of (acTable_good hinv.params) hcode)) hfull
  case putbits =>
    exact endsInError_of_full (exec_putbits_of_count hn) (mt (roomFor_congr (by rw [length_bitString, hl])).mp hfull)
  case smwrite =>
    exact endsInError_of_full (exec_smwrite_of_count hn) (mt (roomFor_congr (by rw [length_smBits, hl])).mp hfull)
  case hufenc => exact endsInError_of_full (exec_hufenc_of_block hinv.params hends hcodes) hfull

/-! ### The elements beyond the image -/

theorem settle_cases {s t : State} {r : Except Raised State} (h : settle s r = .next t) :
    (∃ u, r = .ok u ∧ t = u.complete) ∨ ∃ e, r = .error e ∧ t = s.enterError e := by
  cases r with
  | ok u =>
    cases h
    exact .inl ⟨u, rfl, rfl⟩
  | error e =>
    cases h
    exact .inr ⟨e, rfl, rfl⟩

/-- A bulk write below n keeps the elements from n on. -/
theorem read_writeAll_beyond {α : Type} [DecidableEq α] [Inhabited α] {m : Memory α} (hm : Memory.wf m = true)
    {ps : List (Nat × α)} {n k : Nat} (hps : ∀ p ∈ ps, p.1 < n) (hk : n ≤ k) :
    Memory.read (Memory.writeAll m ps) k = Memory.read m k :=
  read_writeAll_other ps hm fun p hp => ne_of_lt (lt_of_lt_of_le (hps p hp) hk)

section
variable {s t : State} {n : Nat}

theorem cscFwd_keeps_beyond (h : exec .cscFwd s = .next t) (hm : Memory.wf s.ycc = true) (hn : s.numPixels ≤ n) :
    Memory.read t.ycc n = Memory.read s.ycc n := by
  rcases checkGeometry_cases s with ⟨-, hg⟩ | ⟨e, hg⟩ <;> simp only [exec, execCscFwd, hg] at h <;> cases h
  · exact (read_writeAll_range _ _ _ hm).trans (if_neg (by omega))
  · rfl

theorem subsample_keeps_beyond (h : exec .subsample s = .next t) (hm : Memory.wf s.ycc = true) (hn : s.numPixels ≤ n) :
    Memory.read t.ycc n = Memory.read s.ycc n := by
  rcases checkGeometry_cases s with ⟨-, hg⟩ | ⟨e, hg⟩ <;> simp only [exec, execSubsample, hg] at h <;> cases h
  · exact (read_writeAll_range _ _ _ hm).trans (if_neg (by omega))
  · rfl

theorem storeblk_keeps_beyond {ch : Channel} {b : Nat} (h : exec (.storeblk ch b) s = .next t)
    (hm : Memory.wf s.ycc = true) (hn : s.numPixels ≤ n) : Memory.read t.ycc n = Memory.read s.ycc n := by
  rcases checkBlock_cases s b with ⟨hvalid, hb, hg⟩ | ⟨e, hg⟩ <;> simp only [exec, execStoreblk, hg] at h <;> cases h
  · simp only [State.complete_ycc]
    refine read_writeAll_beyond hm (fun p hp => ?_) hn
    obtain ⟨k, hk, rfl⟩ := List.mem_map.mp hp
    exact pix_lt hvalid hb (List.mem_range.mp hk)
  · rfl

theorem cscInv_keeps_beyond (h : exec .cscInv s = .next t) (hm : Memory.wf s.rgb = true) (hn : s.numPixels ≤ n) :
    Memory.read t.rgb n = Memory.read s.rgb n := by
  rcases checkGeometry_cases s with ⟨-, hg⟩ | ⟨e, hg⟩ <;> simp only [exec, execCscInv, hg] at h
  · rcases settle_cases h with ⟨u, hu, rfl⟩ | ⟨e, -, rfl⟩
    · split at hu <;> cases hu
      refine read_writeAll_beyond hm (fun p hp => ?_) hn
      exact List.mem_range.mp (List.of_mem_zip hp).1
    · rfl
  · cases h
    rfl

/-- The coefficients of a block beyond the image are none of a block of the image. -/
theorem coefIx_ne_beyond {ch ch' : Channel} {b b' k k' : Nat} (hb : s.numBlocks ≤ b) (hb' : b' < s.numBlocks)
    (hlt : b < 65536) (hk : k < 64) (hk' : k' < 64) : coefIx ch b k ≠ coefIx ch' b' k' := fun he => by
  obtain ⟨-, rfl, -⟩ := coefIx_inj hlt (by omega) hk hk' he
  omega

section
variable {ch ch' : Channel} {b b' k : Nat}

theorem dcenc_keeps_beyond (h : exec (.dcenc ch') s = .next t) (hm : Memory.wf s.coef = true) (hb : s.numBlocks ≤ b)
    (hlt : b < 65536) (hk : k < 64) : Memory.read t.coef (coefIx ch b k) = Memory.read s.coef (coefIx ch b k) := by
  rcases checkGeometry_cases s with ⟨hvalid, hg⟩ | ⟨e, hg⟩ <;> simp only [exec, execDcenc, hg] at h <;> cases h
  · have := numBlocks_pos hvalid
    exact read_dcEncode_other ch' _ hm fun c _ hc => coefIx_ne_beyond hb (by omega) hlt hk (by omega)
  · rfl

theorem dcdec_keeps_beyond (h : exec (.dcdec ch') s = .next t) (hm : Memory.wf s.coef = true) (hb : s.numBlocks ≤ b)
    (hlt : b < 65536) (hk : k < 64) : Memory.read t.coef (coefIx ch b k) = Memory.read s.coef (coefIx ch b k) := by
  rcases checkGeometry_cases s with ⟨hvalid, hg⟩ | ⟨e, hg⟩ <;> simp only [exec, execDcdec, hg] at h <;> cases h
  · have := numBlocks_pos hvalid
    exact read_dcDecode_other ch' hm _ fun c _ hc => coefIx_ne_beyond hb (by omega) hlt hk (by omega)
  · rfl

theorem storevec_keeps_beyond (h : exec (.storevec ch' b') s = .next t) (hm : Memory.wf s.coef = true)
    (hb : s.numBlocks ≤ b) (hlt : b < 65536) (hk : k < 64) :
    Memory.read t.coef (coefIx ch b k) = Memory.read s.coef (coefIx ch b k) := by
  rcases checkBlock_cases s b' with ⟨-, hb', hg⟩ | ⟨e, hg⟩ <;> simp only [exec, execStorevec, hg] at h <;> cases h
  · simp only [State.complete_coef]
    refine read_writeAll_other _ hm fun p hp => ?_
    obtain ⟨k', hk', rfl⟩ := List.mem_map.mp hp
    exact (coefIx_ne_beyond hb hb' hlt hk (List.mem_range.mp hk')).symm
  · rfl

end
end

/-- Settles O15: a memory changes only by the commands that write it, and each of those writes within the image. -/
theorem elementsBeyondTheImageAreKept : Obligations.ElementsBeyondTheImageAreKept := by
  unfold Obligations.ElementsBeyondTheImageAreKept
  refine fun i s t _ hrgb hycc hcoef h => ⟨fun n hn => ⟨?rgb, ?ycc⟩, fun ch b k hb hlt hk => ?coef⟩
  case rgb =>
    by_cases hsame : t.rgb = s.rgb
    · rw [hsame]
    · obtain rfl := mem_rgb (changed_of_exec (p := .rgb) h hsame).1
      exact cscInv_keeps_beyond h hrgb hn
  case ycc =>
    by_cases hsame : t.ycc = s.ycc
    · rw [hsame]
    · rcases mem_ycc (changed_of_exec (p := .ycc) h hsame).1 with rfl | rfl | ⟨ch, b, rfl⟩
      · exact cscFwd_keeps_beyond h hycc hn
      · exact subsample_keeps_beyond h hycc hn
      · exact storeblk_keeps_beyond h hycc hn
  case coef =>
    by_cases hsame : t.coef = s.coef
    · rw [hsame]
    · rcases mem_coef (changed_of_exec (p := .coef) h hsame).1 with ⟨ch', rfl | rfl⟩ | ⟨ch', b', rfl⟩
      · exact dcenc_keeps_beyond h hcoef hb hlt hk
      · exact dcdec_keeps_beyond h hcoef hb hlt hk
      · exact storevec_keeps_beyond h hcoef hb hlt hk

/-! ### Reads without effect, writes done twice -/

/-- A transaction does not see the answer to the one before it (20_memory.md R120). -/
theorem busWrite_response (s : State) (r : Option Response) (a w : Word) :
    State.busWrite { s with response := r } a w = s.busWrite a w := by
  unfold State.busWrite
  dsimp only
  split
  · rfl
  · rw [writeAt_response]

/-- A write other than to CMD, done twice, does what it does once (20_memory.md R127): served, the core stays open to it;
dropped, it is dropped again. -/
theorem busWrite_twice {s : State} {a : Word} (w : Word) (h1 : Memory.wf s.rgb = true) (h2 : Memory.wf s.ycc = true)
    (h3 : Memory.wf s.coef = true) (h4 : Memory.wf s.bs = true) (ha : targetOf s.cfg a.toNat ≠ .csr .cmd) :
    (s.busWrite a w).busWrite a w = s.busWrite a w := by
  by_cases ho : s.status.busy = false ∨ openToWrite (targetOf s.cfg a.toNat) = true
  · have ho' : (s.writeAt w (targetOf s.cfg a.toNat)).status.busy = false ∨ openToWrite (targetOf s.cfg a.toNat) = true :=
      ho.imp_left fun hb => Bool.eq_false_iff.mpr fun h => Bool.eq_false_iff.mp hb (writeAt_busy s w _ ha h)
    rw [busWrite_open rfl ho, busWrite_response,
      busWrite_open (congrArg (targetOf · a.toNat) (writeAt_cfg s w _)) ho', writeAt_twice h1 h2 h3 h4 ha]
  · obtain ⟨hb, hclosed⟩ := not_or.mp ho
    rw [Bool.not_eq_false] at hb
    rw [Bool.not_eq_true] at hclosed
    rw [busWrite_dropped rfl hb hclosed]
    exact busWrite_dropped rfl hb hclosed

/-- Settles O21: a read's shape is the law of `busRead`; a write is idempotent off CMD's address. -/
theorem readsAreFreeAndWritesIdempotent : Obligations.ReadsAreFreeAndWritesIdempotent := by
  unfold Obligations.ReadsAreFreeAndWritesIdempotent
  refine ⟨fun s t a rest hh hs => ?read, fun s a w h1 h2 h3 h4 ha => ?write⟩
  case read =>
    obtain ⟨r, n, hr, hn⟩ := busRead_shape { s with host := rest } a
    rw [step_read hh, hr] at hs
    cases hs
    exact ⟨rfl, hn⟩
  case write =>
    exact busWrite_twice w h1 h2 h3 h4 fun ht => ha (BitVec.eq_of_toNat_eq (targetOf_cmd ht))

/-! ### Accesses that change nothing -/

theorem targetOf_misaligned {c : Config} {a : Nat} (h : a % 4 ≠ 0) : targetOf c a = .misaligned := by
  rw [targetOf, if_pos h]

theorem targetOf_page {c : Config} {a : Nat} (h4 : a % 4 = 0) (h1 : 0x1000 ≤ a) (h2 : a < 0x4000) :
    targetOf c a = pageTarget a := by
  rw [targetOf, if_neg (by omega), if_neg (by omega), if_pos h2]

/-- The tables and the gaps between them, which the host cannot write (20_memory.md R123, R128). -/
theorem pageTarget_tables {a : Nat} (h : 0x2000 ≤ a) : ReadOnly (pageTarget a) ∧ busErr (pageTarget a) = false := by
  unfold pageTarget
  rw [if_neg (by omega), if_neg (by omega), if_neg (by omega), if_neg (by omega), if_neg (by omega)]
  split_ifs <;> exact ⟨trivial, rfl⟩

/-- A register by its address (10_state.md section 2). -/
theorem targetOf_register {c : Config} {a : Nat} {r : Csr} (h4 : a % 4 = 0) (hr : csrList[a / 4]? = some r) :
    targetOf c a = .csr r := by
  rw [← Nat.mul_div_cancel' (Nat.dvd_of_mod_eq_zero h4)]
  exact targetOf_csr c _ _ hr

/-- The registers that ignore a write (10_state.md section 2). -/
theorem readOnly_registers {c : Config} {a : Word} (h : a ∈ ([0x000, 0x004, 0x01C, 0x028, 0x02C, 0x030, 0x034, 0x038,
    0x03C, 0x048, 0x04C, 0x050] : List Word)) :
    ∃ r, targetOf c a.toNat = .csr r ∧ ∀ (s : State) (w : Word), s.writeAt w (.csr r) = s := by
  simp only [List.mem_cons, List.not_mem_nil, or_false] at h
  rcases h with rfl | rfl | rfl | rfl | rfl | rfl | rfl | rfl | rfl | rfl | rfl | rfl <;>
    exact ⟨_, targetOf_register rfl rfl, fun s w => rfl⟩

/-- A write whose target ignores it changes nothing but the answer. -/
theorem step_write_ignored {s : State} {a w : Word} {t : Target} {rest : List HostAction}
    (hh : s.host = .write a w :: rest) (hb : s.status.busy = false) (ht : targetOf s.cfg a.toNat = t)
    (hw : State.writeAt { s with host := rest } w t = { s with host := rest }) :
    step s = .next { s with host := rest, response := some (.write (busErr t)) } := by
  rw [step_write_open hh ht (.inl hb), hw]

/-- Settles O23: each address of the lists names a target that a write leaves alone and that reads 0. -/
theorem busErrorsChangeNothing : Obligations.BusErrorsChangeNothing := by
  unfold Obligations.BusErrorsChangeNothing
  refine fun s a w rest hb => ⟨fun ha => ?errors, fun ht => ?reserved, fun ha hh => ?readOnly⟩
  case errors =>
    have ht : targetOf s.cfg a.toNat = .misaligned ∨ targetOf s.cfg a.toNat = .unmapped :=
      ha.imp_left targetOf_misaligned
    rcases ht with ht | ht
    · exact ⟨fun hh => step_read_open hh ht (.inl hb), fun hh => step_write_ignored hh hb ht rfl⟩
    · exact ⟨fun hh => step_read_open hh ht (.inl hb), fun hh => step_write_ignored hh hb ht rfl⟩
  case reserved => exact ⟨fun hh => step_read_open hh ht (.inl hb), fun hh => step_write_ignored hh hb ht rfl⟩
  case readOnly =>
    rcases ha with ha | ⟨h1, h2, h4⟩
    · obtain ⟨r, ht, hw⟩ := readOnly_registers (c := s.cfg) ha
      exact step_write_ignored hh hb ht (hw _ w)
    · obtain ⟨hro, he⟩ := pageTarget_tables h1
      rw [← he]
      exact step_write_ignored hh hb (targetOf_page h4 (by omega) h2) (writeAt_readOnly hro)

/-! ### What a place reads as -/

/-- The two words of a binary64 pattern (20_memory.md R122). -/
theorem half_eq_extractLsb' (d : Double) (hi : Bool) : half d hi = d.extractLsb' (if hi then 32 else 0) 32 := by
  have hd := d.isLt
  apply BitVec.eq_of_toNat_eq
  rw [BitVec.extractLsb'_toNat, Nat.shiftRight_eq_div_pow]
  cases hi <;> simp [half, u32]

theorem toNat_u32 {n : Nat} (h : n < 2 ^ 32) : (u32 n).toNat = n := by
  rw [u32, BitVec.toNat_ofNat, Nat.mod_eq_of_lt h]

/-- Word A of a symbol slot (20_memory.md R122). -/
theorem keyWord_word (y : Symbol) : (u32 (keyWord y.skip y.cat)).extractLsb' 0 4 = y.skip ∧
    (u32 (keyWord y.skip y.cat)).extractLsb' 4 6 = y.cat ∧ (u32 (keyWord y.skip y.cat)).extractLsb' 10 22 = 0 := by
  have h1 := y.skip.isLt
  have h2 := y.cat.isLt
  unfold keyWord
  refine ⟨extractLsb'_u32 ?_, extractLsb'_u32 ?_, extractLsb'_u32 ?_⟩ <;> simp <;> omega

/-- The lanes of a pixel of RGB (20_memory.md R122). -/
theorem pixel_word (p : Pixel) : (u32 (p.r.toNat + 256 * p.g.toNat + 65536 * p.b.toNat)).extractLsb' 0 8 = p.r ∧
    (u32 (p.r.toNat + 256 * p.g.toNat + 65536 * p.b.toNat)).extractLsb' 8 8 = p.g ∧
    (u32 (p.r.toNat + 256 * p.g.toNat + 65536 * p.b.toNat)).extractLsb' 16 8 = p.b ∧
    (u32 (p.r.toNat + 256 * p.g.toNat + 65536 * p.b.toNat)).extractLsb' 24 8 = 0 := by
  have h1 := p.r.isLt
  have h2 := p.g.isLt
  have h3 := p.b.isLt
  refine ⟨extractLsb'_u32 ?_, extractLsb'_u32 ?_, extractLsb'_u32 ?_, extractLsb'_u32 ?_⟩ <;> simp <;> omega

theorem bsLane_eq (s : State) (j k : Nat) :
    s.bsLane j k = (if 4 * j + k < s.cfg.bsCap then Memory.read s.bs (4 * j + k) else 0 : Byte).toNat := by
  unfold State.bsLane
  split <;> rfl

/-- The lanes of a word of BS, those at or beyond BS_CAP as 0 (20_memory.md R124). -/
theorem bs_word (s : State) (j : Nat) {k : Nat} (hk : k < 4) : (s.valueAt (.bs j)).extractLsb' (8 * k) 8 =
    if 4 * j + k < s.cfg.bsCap then Memory.read s.bs (4 * j + k) else 0 := by
  have lane (k : Nat) : s.bsLane j k < 256 := by
    rw [bsLane_eq]
    exact BitVec.isLt _
  have h0 := lane 0
  have h1 := lane 1
  have h2 := lane 2
  have h3 := lane 3
  refine extractLsb'_u32 ?_
  rw [← bsLane_eq]
  interval_cases k <;> simp <;> omega

/-- A step of the quantizer reads as itself (20_memory.md R123). -/
theorem step_word {t : Block Nat} (h : t.toList.all (fun q => decide (1 ≤ q) && decide (q ≤ 255)) = true) (n : Nat) :
    (u32 (nth t n)).toNat = nth t n := by
  refine toNat_u32 ?_
  unfold nth
  rw [List.getD_eq_getElem?_getD]
  cases hq : t.toList[n]? with
  | none => simp
  | some q =>
    have := List.all_eq_true.mp h q (List.mem_of_getElem? hq)
    simp only [Bool.and_eq_true, decide_eq_true_eq] at this
    simp only [Option.getD_some]
    omega

theorem stepsFit_of_wf {c : Config} (h : c.wf = true) : c.stepsFit = true := by
  simp only [Config.wf, Bool.and_eq_true] at h
  exact h.1.2

/-- A word of a Huffman table (20_memory.md R123). -/
theorem huffWord_reads {t : List HuffEntry} {maxLen : Nat} (ht : GoodTable t maxLen) (key : Nat) :
    ReadsAsEntry t key (huffWord t key) := by
  unfold huffWord
  cases hf : t.find? (fun e => e.key == key) with
  | none =>
    refine ⟨rfl, fun _ => rfl, fun e he hk => ?_⟩
    have := List.find?_eq_none.mp hf e he
    simp [hk] at this
  | some e =>
    have hmem := List.mem_of_find?_eq_some hf
    have hkey : e.key = key := by simpa using List.find?_some hf
    obtain ⟨-, hlen, hcode⟩ := ht.lengths hmem
    have hlen16 : e.len ≤ 16 := hlen.trans ht.bound
    have hcode16 : e.code < 2 ^ 16 := hcode.trans_le (Nat.pow_le_pow_right (by norm_num) hlen16)
    have hword : (u32 (65536 * e.code + e.len)).toNat = 65536 * e.code + e.len := toNat_u32 (by omega)
    refine ⟨extractLsb'_u32 ?_, fun hno => absurd hkey (hno e hmem), fun f hfm hfk => ?_⟩
    · simp
      omega
    · obtain rfl := ht.keys hmem hfm (hkey.trans hfk.symm)
      simp only [BitVec.extractLsb'_toNat, Nat.shiftRight_eq_div_pow, hword]
      omega

/-! ### The address map -/

theorem maxPixels_le {c : Config} (hc : c.sizesFit = true) : c.maxPixels ≤ 4194304 := by
  simp only [Config.sizesFit, Bool.and_eq_true, decide_eq_true_eq] at hc
  exact hc.1.1.2

theorem maxBlocks_le {c : Config} (hc : c.sizesFit = true) : c.maxBlocks ≤ 65536 := by
  have := maxPixels_le hc
  unfold Config.maxBlocks
  omega

theorem hiOffset_bounds (hi : Bool) : hiOffset hi % 4 = 0 ∧ hiOffset hi < 8 := by
  cases hi <;> decide

/-- The element that a byte address of a window of one-word elements names; below, of two-word elements. -/
theorem word_index (base k : Nat) : (base + 4 * k - base) / 4 = k := by
  omega

theorem pair_index (base k : Nat) (hi : Bool) : (base + 8 * k + hiOffset hi - base) / 8 = k := by
  have := hiOffset_bounds hi
  omega

theorem half_of_mod {a : Nat} {hi : Bool} (h : a % 8 = hiOffset hi) : (a % 8 == 4) = hi := by
  rw [h]
  cases hi <;> rfl

theorem pair_half {base : Nat} (hb : base % 8 = 0) (k : Nat) (hi : Bool) :
    ((base + 8 * k + hiOffset hi) % 8 == 4) = hi := by
  have := hiOffset_bounds hi
  exact half_of_mod (by omega)

theorem chanOfNo_of_eq {n : Nat} {ch : Channel} (h : n = channelNo ch) : chanOfNo n = ch := by
  rw [h]
  cases ch <;> rfl

theorem channelNo_lt (ch : Channel) : channelNo ch < 3 := by
  cases ch <;> decide

theorem forall_channel {p : Channel → Prop} : (∀ ch, p ch) ↔ p .y ∧ p .cb ∧ p .cr :=
  ⟨fun h => ⟨h .y, h .cb, h .cr⟩, fun ⟨hy, hcb, hcr⟩ ch => by cases ch <;> assumption⟩

section
variable {c : Config} {a k i j : Nat}

theorem targetOf_window (h4 : a % 4 = 0) (h : 0x01000000 ≤ a) : targetOf c a = windowTarget c a := by
  rw [targetOf, if_neg (by omega), if_neg (by omega), if_neg (by omega), if_neg (by omega)]

/-! #### Buffers and tables (20_memory.md R122, R123) -/

theorem targetOf_vec (hk : k < 64) : targetOf c (0x1000 + 4 * k) = .vec k := by
  simp (disch := omega) only [targetOf_page, pageTarget, if_neg, if_pos, word_index]

theorem targetOf_iblk (hk : k < 64) : targetOf c (0x1100 + 4 * k) = .iblk k := by
  simp (disch := omega) only [targetOf_page, pageTarget, if_neg, if_pos, word_index]

theorem targetOf_fblk (hk : k < 64) (hi : Bool) : targetOf c (0x1200 + 8 * k + hiOffset hi) = .fblk k hi := by
  obtain ⟨h4, h8⟩ := hiOffset_bounds hi
  simp (disch := omega) only [targetOf_page, pageTarget, if_neg, if_pos, pair_index, pair_half]

theorem targetOf_rlebuf (hk : k < 64) (hi : Bool) : targetOf c (0x1400 + 8 * k + hiOffset hi) = .rlebuf k hi := by
  obtain ⟨h4, h8⟩ := hiOffset_bounds hi
  simp (disch := omega) only [targetOf_page, pageTarget, if_neg, if_pos, pair_index, pair_half]

theorem targetOf_zigzag (hk : k < 64) : targetOf c (0x2000 + 4 * k) = .zigzag k := by
  simp (disch := omega) only [targetOf_page, pageTarget, if_neg, if_pos, word_index]

theorem targetOf_qtabY (hk : k < 64) : targetOf c (0x2100 + 4 * k) = .qtabY k := by
  simp (disch := omega) only [targetOf_page, pageTarget, if_neg, if_pos, word_index]

theorem targetOf_qtabC (hk : k < 64) : targetOf c (0x2200 + 4 * k) = .qtabC k := by
  simp (disch := omega) only [targetOf_page, pageTarget, if_neg, if_pos, word_index]

theorem targetOf_dctC (hk : k < 64) (hi : Bool) : targetOf c (0x2400 + 8 * k + hiOffset hi) = .dctC k hi := by
  obtain ⟨h4, h8⟩ := hiOffset_bounds hi
  simp (disch := omega) only [targetOf_page, pageTarget, if_neg, if_pos, pair_index, pair_half]

theorem targetOf_hufDc (hk : k < 16) : targetOf c (0x2600 + 4 * k) = .hufDc k := by
  simp (disch := omega) only [targetOf_page, pageTarget, if_neg, if_pos, word_index]

/-- HUFF_AC stands in the order of skip, then category; its key is {cat, skip}. -/
theorem targetOf_hufAc {cat : Nat} (hk : k < 16) (hcat : cat < 16) :
    targetOf c (0x2800 + 4 * (16 * k + cat)) = .hufAc (16 * cat + k) := by
  simp (disch := omega) only [targetOf_page, pageTarget, if_neg, if_pos]
  congr 1
  omega

theorem targetOf_reserved (h4 : a % 4 = 0) (h : 0x54 ≤ a) (hr : a < 0x1000 ∨ 0x1600 ≤ a ∧ a < 0x2000 ∨
    0x2300 ≤ a ∧ a < 0x2400 ∨ 0x2640 ≤ a ∧ a < 0x2800 ∨ 0x2C00 ≤ a ∧ a < 0x4000) : targetOf c a = .reserved := by
  rcases hr with hcsr | hpage
  · have hnone : csrList[a / 4]? = none := List.getElem?_eq_none (show 21 ≤ a / 4 by omega)
    rw [targetOf, if_neg (by omega), if_pos hcsr, csrTarget, hnone]
  · rw [targetOf_page h4 (by omega) (by omega)]
    rcases hpage with h | h | h | h <;> simp (disch := omega) only [pageTarget, if_neg, if_pos]

/-! #### The memory windows (20_memory.md R124) -/

theorem targetOf_rgb (hp : c.maxPixels ≤ 4194304) (hi : i < c.maxPixels) : targetOf c (0x01000000 + 4 * i) = .rgb i := by
  simp (disch := omega) only [targetOf_window, windowTarget, if_neg, if_pos, word_index]

theorem targetOf_ycc (hp : c.maxPixels ≤ 4194304) (hi : i < c.maxPixels) (ch : Channel) (hw : Bool) :
    targetOf c (0x10000000 + 32 * i + 8 * channelNo ch + hiOffset hw) = .ycc i ch hw := by
  obtain ⟨h4, h8⟩ := hiOffset_bounds hw
  have hch := channelNo_lt ch
  simp (disch := omega) only [targetOf_window, windowTarget, if_neg, if_pos]
  rw [half_of_mod (hi := hw) (by omega), chanOfNo_of_eq (ch := ch) (by omega)]
  congr 1
  omega

/-- The last two words of a pixel's 32 bytes (20_memory.md R124). -/
theorem targetOf_ycc_gap (hp : c.maxPixels ≤ 4194304) (hi : i < c.maxPixels) (hw : Bool) :
    targetOf c (0x10000000 + 32 * i + 24 + hiOffset hw) = .reserved := by
  obtain ⟨h4, h8⟩ := hiOffset_bounds hw
  simp (disch := omega) only [targetOf_window, windowTarget, if_neg, if_pos]

theorem targetOf_coef {b : Nat} (hm : c.maxBlocks ≤ 65536) (ch : Channel) (hb : b < c.maxBlocks) (hk : k < 64) :
    targetOf c (0x20000000 + 0x01000000 * channelNo ch + 0x100 * b + 4 * k) = .coef ch b k := by
  have hch := channelNo_lt ch
  simp (disch := omega) only [targetOf_window, windowTarget, if_neg, if_pos]
  rw [chanOfNo_of_eq (ch := ch) (by omega)]
  congr 1 <;> omega

theorem targetOf_bs (hj : 4 * j < c.bsCap) : targetOf c (0x30000000 + 4 * j) = .bs j := by
  simp (disch := omega) only [targetOf_window, windowTarget, if_neg, if_pos, word_index]

/-! #### The addresses that name nothing (20_memory.md R125) -/

theorem csrTarget_ne_unmapped (a : Nat) : csrTarget a ≠ .unmapped := by
  unfold csrTarget
  split <;> exact Target.noConfusion

theorem pageTarget_ne_unmapped (a : Nat) : pageTarget a ≠ .unmapped := by
  unfold pageTarget
  repeat' apply ite_ne
  all_goals exact Target.noConfusion

/-- An address in none of the memory windows, each as long as its memory (20_memory.md R124). -/
def OutsideWindows (c : Config) (a : Nat) : Prop :=
  ¬(0x01000000 ≤ a ∧ a < 0x01000000 + 4 * c.maxPixels) ∧ ¬(0x10000000 ≤ a ∧ a < 0x10000000 + 32 * c.maxPixels) ∧
    (∀ ch, ¬(0x20000000 + 0x01000000 * channelNo ch ≤ a ∧
      a < 0x20000000 + 0x01000000 * channelNo ch + 0x100 * c.maxBlocks)) ∧
    ¬(0x30000000 ≤ a ∧ a < 0x30000000 + c.bsCap)

theorem windowTarget_unmapped_iff (hc : c.sizesFit = true) (h : 0x01000000 ≤ a) :
    windowTarget c a = .unmapped ↔ OutsideWindows c a := by
  have hp := maxPixels_le hc
  have hm := maxBlocks_le hc
  unfold OutsideWindows
  rw [forall_channel]
  simp only [channelNo]
  unfold windowTarget
  dsimp only
  split_ifs <;> simp <;> omega

theorem targetOf_unmapped_iff (hc : c.sizesFit = true) : targetOf c a = .unmapped ↔ a % 4 = 0 ∧ 0x4000 ≤ a ∧
    OutsideWindows c a := by
  unfold targetOf
  split
  · exact iff_of_false Target.noConfusion (by omega)
  split
  · exact iff_of_false (csrTarget_ne_unmapped a) (by omega)
  split
  · exact iff_of_false (pageTarget_ne_unmapped a) (by omega)
  split
  · exact iff_of_true rfl ⟨by omega, by omega, by omega, by omega, fun ch => by omega, by omega⟩
  · rw [windowTarget_unmapped_iff hc (by omega)]
    exact ⟨fun h => ⟨by omega, by omega, h⟩, fun h => h.2.2⟩

end

/-! #### What the host reads while BUSY = 0 -/

theorem busRead_idle {s : State} (hb : s.status.busy = false) (a : Word) : (s.busRead a).response =
    some (.read (s.valueAt (targetOf s.cfg a.toNat)) (busErr (targetOf s.cfg a.toNat))) := by
  rw [busRead_open rfl (.inl hb)]

theorem busErr_iff (t : Target) : busErr t = true ↔ t = .misaligned ∨ t = .unmapped := by
  cases t <;> simp [busErr]

/-- A list of registers with their addresses, each one a word from offset 0 on (10_state.md section 2). -/
theorem targetOf_registers {c : Config} {l : List (Nat × Csr)}
    (h : ∀ p ∈ l, p.1 % 4 = 0 ∧ csrList[p.1 / 4]? = some p.2) : ∀ p ∈ l, targetOf c p.1 = .csr p.2 := fun p hp =>
  targetOf_register (h p hp).1 (h p hp).2

/-- Settles O22: each place by its range of addresses, what it reads field by field. -/
theorem addressMapIsAsListed : Obligations.AddressMapIsAsListed := by
  unfold Obligations.AddressMapIsAsListed
  intro c hc
  have hp := maxPixels_le hc
  have hm := maxBlocks_le hc
  refine ⟨?registers, fun k hk => ?blocks, fun k hk => ?codes, fun i hi => ?pixels, fun ch b hb k hk => ?coefficients,
    fun j hj => targetOf_bs hj, fun a h4 h54 hr => targetOf_reserved h4 h54 hr, fun a => targetOf_unmapped_iff hc,
    fun s a hcfg hwf hb => ?reads⟩
  case registers => exact targetOf_registers (by decide)
  case blocks =>
    exact ⟨targetOf_vec hk, targetOf_iblk hk, targetOf_fblk hk false, targetOf_fblk hk true, targetOf_rlebuf hk false,
      targetOf_rlebuf hk true, targetOf_zigzag hk, targetOf_qtabY hk, targetOf_qtabC hk, targetOf_dctC hk false,
      targetOf_dctC hk true⟩
  case codes => exact ⟨targetOf_hufDc hk, fun cat hcat => targetOf_hufAc hk hcat⟩
  case pixels =>
    exact ⟨targetOf_rgb hp hi, fun ch => ⟨targetOf_ycc hp hi ch false, targetOf_ycc hp hi ch true⟩,
      targetOf_ycc_gap hp hi false, targetOf_ycc_gap hp hi true⟩
  case coefficients => exact targetOf_coef hm ch hb hk
  case reads =>
    subst hcfg
    refine ⟨_, _, busRead_idle hb a, busErr_iff _, ?_⟩
    have hsteps := stepsFit_of_wf hwf
    simp only [Config.stepsFit, Bool.and_eq_true] at hsteps
    obtain ⟨hY, hC⟩ := hsteps
    generalize targetOf s.cfg a.toNat = t
    cases t with
    | vec _ | iblk _ | coef _ _ _ | reserved | misaligned | unmapped => rfl
    | csr _ => trivial
    | fblk _ _ | dctC _ _ | ycc _ _ _ => exact half_eq_extractLsb' _ _
    | rlebuf i hi =>
      cases hi with
      | false => exact keyWord_word _
      | true => rfl
    | zigzag k => exact toNat_u32 ((nth s.cfg.zigzag k).isLt.trans (by norm_num))
    | qtabY n => exact step_word hY n
    | qtabC n => exact step_word hC n
    | hufDc key => exact huffWord_reads (dcTable_good hwf) key
    | hufAc key => exact huffWord_reads (acTable_good hwf) key
    | rgb i => exact pixel_word _
    | bs j => exact fun k hk => bs_word s j hk

/-! ### Writes to the windows -/

theorem busRead_response (s : State) (r : Option Response) (a : Word) :
    (State.busRead { s with response := r } a).response = (s.busRead a).response := by
  unfold State.busRead
  dsimp only
  split
  · rfl
  · rw [valueAt_response]

theorem not_cmd_of_window {c : Config} {a : Nat} (h : 0x1000 ≤ a) : targetOf c a ≠ .csr .cmd := fun ht => by
  have := targetOf_cmd ht
  omega

/-- What the host reads after a write, with BUSY = 0: the places of the state that the write left. -/
theorem busRead_busWrite {s : State} (hb : s.status.busy = false) {a : Word} (h : 0x1000 ≤ a.toNat) (w b : Word) :
    ((s.busWrite a w).busRead b).response =
      some (.read ((s.writeAt w (targetOf s.cfg a.toNat)).valueAt (targetOf s.cfg b.toNat))
        (busErr (targetOf s.cfg b.toNat))) := by
  have hidle : (s.writeAt w (targetOf s.cfg a.toNat)).status.busy = false :=
    Bool.eq_false_iff.mpr fun hbusy =>
      Bool.eq_false_iff.mp hb (writeAt_busy s w _ (not_cmd_of_window h) hbusy)
  rw [busWrite_open rfl (.inl hb), busRead_response, busRead_idle hidle, writeAt_cfg]

/-- Two addresses of the windows name different places, unless one of them is read-only. -/
theorem target_ne_of_window {c : Config} {a b : Nat} (ha : a = placeOf (targetOf c a)) (hw : InWindow c (targetOf c a))
    (h : 0x1000 ≤ b) (hne : b ≠ a) : targetOf c b ≠ targetOf c a := fun he => by
  rcases target_place (c := c) h with ⟨hplace, -⟩ | hro
  · rw [he, ← ha] at hplace
    exact hne hplace
  · rw [he] at hro
    revert hw hro
    cases targetOf c a <;> simp [InWindow, ReadOnly]

/-- A write to a window touches the buffers and the memories only. -/
theorem writeAt_window_frame (s : State) (w : Word) {t : Target} (ht : InWindow s.cfg t ∨ ReadOnly t) :
    s.writeAt w t = { s with
      vec := (s.writeAt w t).vec, iblk := (s.writeAt w t).iblk, fblk := (s.writeAt w t).fblk
      rlebuf := (s.writeAt w t).rlebuf, rgb := (s.writeAt w t).rgb, ycc := (s.writeAt w t).ycc
      coef := (s.writeAt w t).coef, bs := (s.writeAt w t).bs } := by
  cases t with
  | csr r => exact (ht.elim id id).elim
  | _ => rfl

/-- A byte lane of a word (20_memory.md R124). -/
theorem byte_lane (w : Word) (k : Nat) : BitVec.ofNat 8 (w.toNat / 256 ^ k) = w.extractLsb' (8 * k) 8 := by
  apply BitVec.eq_of_toNat_eq
  rw [BitVec.toNat_ofNat, BitVec.extractLsb'_toNat, Nat.shiftRight_eq_div_pow, pow_mul]
  norm_num

/-- A lane of BS reads back what was written to it, if it is there (20_memory.md R124). -/
theorem bs_word_written {s : State} (hbs : Memory.wf s.bs = true) (w : Word) (j : Nat) {k : Nat} (hk : k < 4) :
    ((s.writeAt w (.bs j)).valueAt (.bs j)).extractLsb' (8 * k) 8 =
      if 4 * j + k < s.cfg.bsCap then w.extractLsb' (8 * k) 8 else 0 := by
  rw [bs_word _ j hk, writeAt_cfg]
  split
  · rename_i hlt
    rw [State.writeAt, read_bs_write _ _ _ hbs, if_pos (by omega), Nat.add_sub_cancel_left, byte_lane]
  · rfl

theorem busWrite_register {s : State} {a : Word} {r : Csr} (hb : s.status.busy = false) (h4 : a.toNat % 4 = 0)
    (hr : csrList[a.toNat / 4]? = some r) (w : Word) :
    s.busWrite a w = { s.writeCsr w r with response := some (.write false) } :=
  busWrite_open (targetOf_register h4 hr) (.inl hb)

/-- Settles O24: a written place reads back its word, the other places are untouched, and the six registers are stored. -/
theorem windowWritesReadBack : Obligations.WindowWritesReadBack := by
  unfold Obligations.WindowWritesReadBack
  refine ⟨fun s a w hc hb h1 h2 h3 h4 ha => ⟨?readsBack, fun b hb' hne => ?others, ?frame⟩, fun s w hb => ?registers⟩
  case readsBack =>
    have hread := busRead_busWrite hb ha w a
    have hplace := target_place (c := s.cfg) ha
    have hold := busRead_idle hb a
    generalize targetOf s.cfg a.toNat = t at hread hplace hold ⊢
    rcases hplace with ⟨-, hin⟩ | hro
    · have hvalue := valueAt_writeAt_same (w := w) h1 h2 h3 h4 hin
      cases t with
      | vec _ | iblk _ | fblk _ _ | ycc _ _ _ | coef _ _ _ | rgb _ =>
        rw [hvalue] at hread
        exact hread
      | rlebuf i hi =>
        rw [hvalue] at hread
        cases hi <;> exact hread
      | bs j => exact ⟨_, hread, fun k hk => bs_word_written h4 w j hk⟩
      | csr _ | zigzag _ | qtabY _ | qtabC _ | dctC _ _ | hufDc _ | hufAc _ | reserved | misaligned | unmapped =>
        exact hin.elim
    · rw [writeAt_readOnly hro, ← hold] at hread
      cases t with
      | csr _ | vec _ | iblk _ | fblk _ _ | rlebuf _ _ | rgb _ | ycc _ _ _ | coef _ _ _ | bs _ => exact hro.elim
      | _ => exact hread
  case others =>
    rw [busRead_busWrite hb ha, busRead_idle hb]
    rcases target_place (c := s.cfg) ha with ⟨hplace, hin⟩ | hro
    · have hne' : b.toNat ≠ a.toNat := fun h => hne (BitVec.eq_of_toNat_eq h)
      rw [valueAt_writeAt_other hc h1 h2 h3 h4 hin ((target_place hb').imp_left And.right)
        (target_ne_of_window hplace hin hb' hne')]
    · rw [writeAt_readOnly hro]
  case frame =>
    rw [busWrite_open rfl (.inl hb), writeAt_window_frame s w ((target_place ha).imp_left And.right)]
  case registers =>
    have hw : BitVec.ofNat 16 w.toNat = w.extractLsb' 0 16 := by
      apply BitVec.eq_of_toNat_eq
      simp
    have hlen : w.toNat % 128 = (w.extractLsb' 0 7).toNat := by simp
    rw [← hw, ← hlen]
    refine ⟨?_, ?_, ?_, ?_, ?_, ?_⟩
    · exact busWrite_register (a := 0x014) (r := .arg0) hb rfl rfl w
    · exact busWrite_register (a := 0x018) (r := .arg1) hb rfl rfl w
    · exact busWrite_register (a := 0x020) (r := .imgW) hb rfl rfl w
    · exact busWrite_register (a := 0x024) (r := .imgH) hb rfl rfl w
    · exact busWrite_register (a := 0x040) (r := .bsLen) hb rfl rfl w
    · exact busWrite_register (a := 0x044) (r := .rleLen) hb rfl rfl w

end Sys2Proof.Machine

/-! PROOFS. The command word (spec/30_encoding.md): what a decoded word says of its fields, and the rows of the opcode
map by mask and match. -/

namespace Sys2Proof.Machine

/-! ### What the decoder gives -/

/-- Every command a shape makes has the operation code n, is one the format can hold, and carries exactly the fields the
shape says it uses (the columns OPC and "used" of R156). -/
def ShapeFits (n : Nat) : Shape → Prop
  | .plain i => i.wf = true ∧ opcodeOf i = n ∧ fieldsOf i = (0, 0)
  | .withCh f => ∀ ch, (f ch).wf = true ∧ opcodeOf (f ch) = n ∧ fieldsOf (f ch) = (channelNo ch, 0)
  | .withChBlk f =>
    ∀ ch b, b < 65536 → (f ch b).wf = true ∧ opcodeOf (f ch b) = n ∧ fieldsOf (f ch b) = (channelNo ch, b)

/-- The opcode map has each command under its own operation code. -/
theorem opcodeMap_shapeFits : ∀ p ∈ opcodeMap, ShapeFits p.1 p.2 := by
  simp +contextual [opcodeMap, ShapeFits, Instr.wf, opcodeOf, fieldsOf]

theorem blkOf_lt (w : Word) : blkOf w < 65536 := Nat.div_lt_of_lt_mul w.isLt

/-- A command of a fitting shape carries the word's CH and BLK. -/
theorem fields_of_ofShape {w : Word} {n : Nat} {sh : Shape} {i : Instr} (hfit : ShapeFits n sh)
    (h : ofShape w sh = .ok i) : i.wf = true ∧ opcodeOf i = n ∧ fieldsOf i = (chOf w, blkOf w) := by
  cases sh with
  | plain j =>
    simp only [ofShape] at h
    split_ifs at h with hc hb
    cases h
    rw [not_not.mp hc, not_not.mp hb]
    exact hfit
  | withCh f =>
    simp only [ofShape] at h
    split_ifs at h with hb
    obtain ⟨ch, hch, rfl⟩ := except_map_ok h
    rw [channelOf_eq_ok.mp hch, not_not.mp hb]
    exact hfit ch
  | withChBlk f =>
    obtain ⟨ch, hch, rfl⟩ := except_map_ok h
    rw [channelOf_eq_ok.mp hch]
    exact hfit ch _ (blkOf_lt w)

/-- What is decoded is well formed and encodes back to the word. -/
theorem encode_of_decode {w : Word} {i : Instr} (h : decode w = .ok i) : i.wf = true ∧ encode i = w := by
  unfold decode at h
  split_ifs at h with hrsv
  split at h
  case h_1 => cases h
  case h_2 sh hl =>
    obtain ⟨hwf, hopc, hf⟩ := fields_of_ofShape (opcodeMap_shapeFits _ (mem_of_lookup hl)) h
    exact ⟨hwf, encode_of_fields (not_not.mp hrsv) hopc.symm (congrArg Prod.fst hf).symm (congrArg Prod.snd hf).symm⟩

/-- Settles O1: decoding takes the fields apart that encoding puts together, and a word is determined by its fields. -/
theorem decodeInvertsEncode : Obligations.DecodeInvertsEncode := by
  unfold Obligations.DecodeInvertsEncode
  refine fun w i => ⟨encode_of_decode, ?_⟩
  rintro ⟨hwf, rfl⟩
  exact decode_encode hwf

/-! ### The rows of the opcode map -/

/-- Every command's law of Laws/PerInstr.lean. -/
theorem encode_and_rowMask : ∀ i : Instr, Laws.EncodedRow.Statement i
  | .nop => Laws.EncodedRow.nop
  | .cscFwd => Laws.EncodedRow.cscFwd
  | .cscInv => Laws.EncodedRow.cscInv
  | .subsample => Laws.EncodedRow.subsample
  | .fdct => Laws.EncodedRow.fdct
  | .idct => Laws.EncodedRow.idct
  | .quant ch => Laws.EncodedRow.quant ch
  | .dequant ch => Laws.EncodedRow.dequant ch
  | .zigzag => Laws.EncodedRow.zigzag
  | .unzigzag => Laws.EncodedRow.unzigzag
  | .dcenc ch => Laws.EncodedRow.dcenc ch
  | .dcdec ch => Laws.EncodedRow.dcdec ch
  | .rleenc => Laws.EncodedRow.rleenc
  | .rledec => Laws.EncodedRow.rledec
  | .category => Laws.EncodedRow.category
  | .hufenc => Laws.EncodedRow.hufenc
  | .hufdec => Laws.EncodedRow.hufdec
  | .hufputdc => Laws.EncodedRow.hufputdc
  | .hufputac => Laws.EncodedRow.hufputac
  | .hufgetdc => Laws.EncodedRow.hufgetdc
  | .hufgetac => Laws.EncodedRow.hufgetac
  | .putbits => Laws.EncodedRow.putbits
  | .getbits => Laws.EncodedRow.getbits
  | .flush => Laws.EncodedRow.flush
  | .bswrst => Laws.EncodedRow.bswrst
  | .bsrrst => Laws.EncodedRow.bsrrst
  | .smwrite => Laws.EncodedRow.smwrite
  | .smread => Laws.EncodedRow.smread
  | .loadblk ch b => Laws.EncodedRow.loadblk ch b
  | .storeblk ch b => Laws.EncodedRow.storeblk ch b
  | .loadvec ch b => Laws.EncodedRow.loadvec ch b
  | .storevec ch b => Laws.EncodedRow.storevec ch b

/-- The field CH, written as 60_exceptions.md R461 writes it. -/
theorem extract_ch_eq_three {w : Word} : w.extractLsb' 8 2 = 3 ↔ chOf w = 3 := by
  simp [← BitVec.toNat_inj, chOf, Nat.shiftRight_eq_div_pow]

/-- A word whose CH is not 3 names a channel (R151). -/
theorem exists_channelNo {w : Word} (h : chOf w ≠ 3) : ∃ ch, chOf w = channelNo ch := by
  have hlt : chOf w < 4 := Nat.mod_lt _ (by norm_num)
  have hch : chOf w = 0 ∨ chOf w = 1 ∨ chOf w = 2 := by omega
  rcases hch with h0 | h1 | h2
  · exact ⟨.y, h0⟩
  · exact ⟨.cb, h1⟩
  · exact ⟨.cr, h2⟩

/-- Bits a mask keeps: a field it covers is the field of the masked number. -/
theorem field_of_and {v m r a n : Nat} (h : v &&& m = r) (hm : m / 2 ^ a % 2 ^ n = 2 ^ n - 1) :
    v / 2 ^ a % 2 ^ n = r / 2 ^ a % 2 ^ n := by
  rw [← h, Nat.and_div_two_pow, Nat.and_mod_two_pow, hm, Nat.and_two_pow_sub_one_eq_mod, Nat.mod_mod]

section
variable {w : Word} {i : Instr}

/-- A word of a row has the match's bits, the operation code alone, in every field the row's mask covers. -/
theorem SelectsRow.field_eq (h : SelectsRow w i) (a n : Nat) (hm : (rowMask i).toNat / 2 ^ a % 2 ^ n = 2 ^ n - 1) :
    w.toNat / 2 ^ a % 2 ^ n = opcodeOf i / 2 ^ a % 2 ^ n := by
  refine field_of_and ?_ hm
  rw [← BitVec.toNat_and, h.1, rowMatch, BitVec.toNat_ofNat]
  exact Nat.mod_eq_of_lt ((opcodeOf_lt i).trans (by norm_num))

theorem SelectsRow.opcOf_eq (h : SelectsRow w i) : opcOf w = opcodeOf i := by
  have hf := h.field_eq 0 8 (by cases i <;> simp [rowMask])
  have ho := opcodeOf_lt i
  unfold opcOf
  omega

theorem SelectsRow.rsvOf_eq (h : SelectsRow w i) : rsvOf w = 0 := by
  have hf := h.field_eq 10 6 (by cases i <;> simp [rowMask])
  have ho := opcodeOf_lt i
  unfold rsvOf
  omega

/-- A row whose mask covers CH asks for CH = 0. -/
theorem SelectsRow.chOf_eq (h : SelectsRow w i) (hm : chOf (rowMask i) = 3) : chOf w = 0 := by
  have hf := h.field_eq 8 2 hm
  have ho := opcodeOf_lt i
  unfold chOf
  omega

/-- A row whose mask covers BLK asks for BLK = 0. -/
theorem SelectsRow.blkOf_eq (h : SelectsRow w i) (hm : blkOf (rowMask i) = 65535) : blkOf w = 0 := by
  have hf := h.field_eq 16 16 (Nat.mod_eq_of_lt (blkOf_lt _) |>.trans hm)
  have ho := opcodeOf_lt i
  have hw := blkOf_lt w
  unfold blkOf at *
  omega

/-- A row that uses CH asks for a channel. -/
theorem SelectsRow.exists_channel (h : SelectsRow w i) (hi : opcodeOf i ∈ chOpcodes) : ∃ ch, chOf w = channelNo ch :=
  exists_channelNo fun h3 => h.2 hi (extract_ch_eq_three.mpr h3)

/-- A decoded word lies in its command's row (R158). -/
theorem selectsRow_of_decode (h : decode w = .ok i) : SelectsRow w i := by
  obtain ⟨hwf, rfl⟩ := encode_of_decode h
  refine ⟨encode_and_rowMask i hwf, fun _ h3 => ?_⟩
  obtain ⟨-, -, hch, -⟩ := fields_encode hwf
  have hle := fieldCh_le i
  rw [extract_ch_eq_three, hch] at h3
  omega

/-- A word of a row decodes to the row's command with the word's own fields. -/
theorem decode_of_selectsRow (h : SelectsRow w i) : ∃ k, decode w = .ok k ∧ opcodeOf k = opcodeOf i := by
  unfold decode
  rw [if_neg (not_not.mpr h.rsvOf_eq), h.opcOf_eq]
  cases i with
  | quant | dequant | dcenc | dcdec =>
    obtain ⟨ch, hch⟩ := h.exists_channel (by simp [opcodeOf, chOpcodes])
    exact ⟨_, ofShape_withCh hch (h.blkOf_eq (by simp [blkOf, rowMask])), rfl⟩
  | loadblk | storeblk | loadvec | storevec =>
    obtain ⟨ch, hch⟩ := h.exists_channel (by simp [opcodeOf, chOpcodes])
    exact ⟨_, ofShape_withChBlk hch rfl, rfl⟩
  | _ => exact ⟨_, ofShape_plain (h.chOf_eq rfl) (h.blkOf_eq rfl), rfl⟩

end

/-- Settles O3: a row fixes the word's OPC, and its mask and channel rule are what the decoder checks of the other
fields. -/
theorem rowSelectionDecides : Obligations.RowSelectionDecides := by
  unfold Obligations.RowSelectionDecides
  exact fun w => ⟨fun i => selectsRow_of_decode, fun i => decode_of_selectsRow,
    fun i j hi hj => hi.opcOf_eq.symm.trans hj.opcOf_eq⟩

/-- Settles O4: the decoder computes each of the words. -/
theorem writtenOutWordsDecode : Obligations.WrittenOutWordsDecode := by
  unfold Obligations.WrittenOutWordsDecode
  decide

end Sys2Proof.Machine

/-! PROOFS. The colour transform (spec/40_color_transform.md): each pixel's values, and the command's end on a valid
geometry. -/

namespace Sys2Proof.Machine

/-! ### CSC_FWD -/

/-- A decimal literal of R200 has the pattern the rule lists; below, the other four. -/
theorem lit_299 : F64.lit 299 1000 = F64.ofBits 0x3FD322D0E5604189 := by decide

theorem lit_587 : F64.lit 587 1000 = F64.ofBits 0x3FE2C8B439581062 := by decide

theorem lit_114 : F64.lit 114 1000 = F64.ofBits 0x3FBD2F1A9FBE76C9 := by decide

theorem lit_564 : F64.lit 564 1000 = F64.ofBits 0x3FE20C49BA5E353F := by decide

theorem lit_713 : F64.lit 713 1000 = F64.ofBits 0x3FE6D0E560418937 := by decide

theorem exec_cscFwd_of_valid {s : State} (hg : s.geometryValid = true) :
    exec .cscFwd s = .next { s with
      ycc := Memory.writeAll s.ycc ((List.range s.numPixels).map fun i => (i, rgbToYcc (Memory.read s.rgb i)))
      status := finished s.status } := by
  simp only [exec, execCscFwd, checkGeometry_ok hg]
  rfl

/-- Settles O28: the stored patterns read back as the values of R200, which stay finite on bytes. -/
theorem cscFwdConvertsTheImage : Obligations.CscFwdConvertsTheImage := by
  unfold Obligations.CscFwdConvertsTheImage
  intro s hg hm
  refine ⟨_, exec_cscFwd_of_valid hg, wf_writeAll _ hm, fun i hi => ?_,
    fun i hi => (read_writeAll_range _ _ _ hm).trans (if_neg (not_lt.mpr hi))⟩
  rw [read_writeAll_range _ _ _ hm, if_pos hi, ← lit_299, ← lit_587, ← lit_114, ← lit_564, ← lit_713]
  obtain ⟨hy, hcb, hcr⟩ := rgbToYcc_values (Memory.read s.rgb i)
  rw [hy, hcb, hcr]
  exact ⟨rfl, (below_luma _).finite, rfl, (below_chroma _ _ (by norm_num)).finite,
    rfl, (below_chroma _ _ (by norm_num)).finite⟩

/-! ### CSC_INV -/

/-- R', G' or B' of a pixel is a NaN (R205). -/
def HasNan (p : YccPixel) : Prop :=
  (rgbValues p).1 = .nan ∨ (rgbValues p).2.1 = .nan ∨ (rgbValues p).2.2 = .nan

/-- The pixel that CSC_INV stores for one without a NaN (R205). -/
def clampedPixel (p : YccPixel) : Pixel :=
  ⟨channelByte (rgbValues p).1, channelByte (rgbValues p).2.1, channelByte (rgbValues p).2.2⟩

theorem isNan_iff (x : F64) : x.isNan = true ↔ x = .nan := by
  cases x <;> simp [F64.isNan]

/-- The test of R205 on the three values. -/
theorem hasNan_iff {p : YccPixel} :
    ((rgbValues p).1.isNan || (rgbValues p).2.1.isNan || (rgbValues p).2.2.isNan) = true ↔ HasNan p := by
  simp only [HasNan, Bool.or_eq_true, isNan_iff, or_assoc]

theorem yccToRgb_of_nan {p : YccPixel} (h : HasNan p) (i : Nat) : yccToRgb p i = raised .numRange i :=
  if_pos (hasNan_iff.mpr h)

theorem yccToRgb_of_not_nan {p : YccPixel} (h : ¬HasNan p) (i : Nat) : yccToRgb p i = .ok (clampedPixel p) :=
  if_neg (mt hasNan_iff.mp h)

section
variable {s : State}

/-- R206: all the results are there, so all the writes are made. -/
theorem exec_cscInv_of_not_nan (hg : s.geometryValid = true)
    (h : ∀ i < s.numPixels, ¬HasNan (Memory.read s.ycc i)) :
    exec .cscInv s = .next { s with
      rgb := Memory.writeAll s.rgb ((List.range s.numPixels).map fun i => (i, clampedPixel (Memory.read s.ycc i)))
      status := finished s.status } := by
  have hall := collect_ok (l := List.range s.numPixels) fun i hi =>
    yccToRgb_of_not_nan (h i (List.mem_range.mp hi)) i
  simp only [exec, execCscInv, checkGeometry_ok hg, hall, zip_range_map]
  rfl

/-- R206: the lowest pixel with a NaN decides. -/
theorem exec_cscInv_of_nan (hg : s.geometryValid = true) {i : Nat} (hi : i < s.numPixels)
    (h : HasNan (Memory.read s.ycc i)) (hlow : ∀ j < i, ¬HasNan (Memory.read s.ycc j)) :
    exec .cscInv s = settle s (raised .numRange i) := by
  have hfirst := collect_range_error hi (fun j hj => ⟨_, yccToRgb_of_not_nan (hlow j hj) j⟩) (yccToRgb_of_nan h i)
  simp only [exec, execCscInv, checkGeometry_ok hg, hfirst]
  rfl

end

/-- Settles O29: a channel that is no NaN is the byte of its clamped value. -/
theorem cscInvConvertsTheImage : Obligations.CscInvConvertsTheImage := by
  unfold Obligations.CscInvConvertsTheImage
  intro s hg hm y cb cr r' g' b' bad out
  refine ⟨fun hgood => ⟨_, exec_cscInv_of_not_nan hg hgood, wf_writeAll _ hm, fun i hi => ?_,
    fun i hi => (read_writeAll_range _ _ _ hm).trans (if_neg (not_lt.mpr hi))⟩,
    fun i hi hbad hlow => endsInError_of_raised (exec_cscInv_of_nan hg hi hbad hlow)⟩
  obtain ⟨hr, hg', hb⟩ : r' i ≠ .nan ∧ g' i ≠ .nan ∧ b' i ≠ .nan := by
    simpa only [bad, not_or] using hgood i hi
  rw [read_writeAll_range _ _ _ hm, if_pos hi]
  exact ⟨channelByte_spec hr, channelByte_spec hg', channelByte_spec hb⟩

end Sys2Proof.Machine

/-! PROOFS. Chroma subsampling (spec/41_chroma_subsample.md): the pixels of a group, their means, and the command's end on
a valid geometry. -/

namespace Sys2Proof.Machine

/-- R220: each of the four pixels is p0 moved by dy rows and dx columns. -/
theorem exists_offset_of_mem_group {w gy gx q : Nat} (hq : q ∈ [2 * gy * w + 2 * gx, 2 * gy * w + 2 * gx + 1,
    (2 * gy + 1) * w + 2 * gx, (2 * gy + 1) * w + 2 * gx + 1]) :
    ∃ dy dx, dy < 2 ∧ dx < 2 ∧ q = (2 * gy + dy) * w + 2 * gx + dx := by
  simp only [List.mem_cons, List.not_mem_nil, or_false] at hq
  rcases hq with rfl | rfl | rfl | rfl
  · exact ⟨0, 0, by omega, by omega, rfl⟩
  · exact ⟨0, 1, by omega, by omega, rfl⟩
  · exact ⟨1, 0, by omega, by omega, rfl⟩
  · exact ⟨1, 1, by omega, by omega, rfl⟩

/-- A group's pixels lie in the image. -/
theorem groupPixel_lt {w h gy gx dy dx : Nat} (hgy : gy < h / 2) (hgx : gx < w / 2) (hdy : dy < 2) (hdx : dx < 2) :
    (2 * gy + dy) * w + 2 * gx + dx < w * h :=
  calc (2 * gy + dy) * w + 2 * gx + dx < (2 * gy + dy) * w + w := by omega
    _ = w * (2 * gy + dy + 1) := by ring
    _ ≤ w * h := Nat.mul_le_mul_left _ (by omega)

/-- The stored patterns read back as the group's means, a NaN mean included. -/
theorem subsampled_values (s : State) (i : Nat) :
    F64.ofBits (subsampled s i).cb = groupMean s .cb (groupOrigin s.imgW.toNat i) ∧
      F64.ofBits (subsampled s i).cr = groupMean s .cr (groupOrigin s.imgW.toNat i) :=
  ⟨ofBits_toBits canon_div _ _, ofBits_toBits canon_div _ _⟩

/-- The mean with the pixel indices of R220, which go by rows and not from p0. -/
theorem groupMean_of_rows (s : State) (ch : Channel) (gy gx : Nat) :
    let w := s.imgW.toNat
    let v := fun i => F64.ofBits ((Memory.read s.ycc i).chan ch)
    groupMean s ch (2 * gy * w + 2 * gx) =
      F64.div (F64.add (F64.add (F64.add (v (2 * gy * w + 2 * gx)) (v (2 * gy * w + 2 * gx + 1)))
        (v ((2 * gy + 1) * w + 2 * gx))) (v ((2 * gy + 1) * w + 2 * gx + 1))) (F64.ofInt 4) := by
  intro w v
  have hrow : (2 * gy + 1) * w + 2 * gx = 2 * gy * w + 2 * gx + w := by ring
  rw [hrow]
  rfl

theorem exec_subsample_of_valid {s : State} (hg : s.geometryValid = true) :
    exec .subsample s = .next { s with
      ycc := Memory.writeAll s.ycc ((List.range s.numPixels).map fun i => (i, subsampled s i))
      free := s.free + 1
      status := finished s.status } := by
  simp only [exec, execSubsample, checkGeometry_ok hg]
  rfl

/-- Settles O30: every pixel of a group is in the image and has the group's p0 as its origin, so all four are written
with the same means. -/
theorem subsampleAveragesEveryGroup : Obligations.SubsampleAveragesEveryGroup := by
  unfold Obligations.SubsampleAveragesEveryGroup
  intro s hg hm
  refine ⟨_, exec_subsample_of_valid hg, wf_writeAll _ hm, ?_, fun i => ?_,
    fun i hi => (read_writeAll_range _ _ _ hm).trans (if_neg (not_lt.mpr hi))⟩
  · intro gy gx hgy hgx w p0 p1 p2 p3 v mean q hq
    obtain ⟨dy, dx, hdy, hdx, rfl⟩ := exists_offset_of_mem_group hq
    obtain ⟨-, -, hw8, -⟩ := (geometryValid_iff s).mp hg
    have hlt : (2 * gy + dy) * w + 2 * gx + dx < s.numPixels := groupPixel_lt hgy hgx hdy hdx
    have horigin : groupOrigin w ((2 * gy + dy) * w + 2 * gx + dx) = p0 := (group_of (by omega) hgx hdy hdx).1
    obtain ⟨hcb, hcr⟩ := subsampled_values s ((2 * gy + dy) * w + 2 * gx + dx)
    rw [read_writeAll_range _ _ _ hm, if_pos hlt, hcb, hcr, horigin]
    exact ⟨groupMean_of_rows s .cb gy gx, groupMean_of_rows s .cr gy gx⟩
  · rw [read_writeAll_range _ _ _ hm]
    split
    · rfl
    · rfl

end Sys2Proof.Machine

/-! PROOFS. The block transforms (spec/42_dct.md): their elements as eight-term sums, constant blocks, and the round trip
that a core's basis has to have. -/

namespace Sys2Proof.Machine

/-! ### The elements of the transforms -/

theorem mat_div_mod (a : Matrix8) (n : Nat) : mat a (n / 8) (n % 8) = nth a n := by
  unfold mat
  rw [Nat.div_add_mod]

theorem nth_valuesOf (b : Block Double) {n : Nat} (hn : n < 64) : nth (valuesOf b) n = F64.ofBits (nth b n) :=
  nth_blockOf _ _ hn

theorem nth_patternsOf (t : Nat) (a : Matrix8) {n : Nat} (hn : n < 64) :
    nth (patternsOf t a) n = F64.toBits (freeNan t n) (nth a n) :=
  nth_blockOf _ _ hn

/-- A stored element reads back as the value, a NaN included. -/
theorem ofBits_patternsOf {t : Nat} {a : Matrix8} (ha : ∀ n < 64, F64.Canon (nth a n)) {i j : Nat} (hi : i < 8)
    (hj : j < 8) : F64.ofBits (nth (patternsOf t a) (8 * i + j)) = mat a i j := by
  rw [← mat_valuesOf _ hi hj, valuesOf_patternsOf ha]

/-- R243: the products (C·S)·Cᵀ of the shifted samples. -/
theorem mat_fdctOf (c x : Matrix8) {u v : Nat} (hu : u < 8) (hv : v < 8) :
    mat (fdctOf c x) u v = sum8 fun k =>
      F64.mul (sum8 fun l => F64.mul (mat c u l) (F64.sub (mat x l k) (F64.ofInt 128))) (mat c v k) := by
  unfold fdctOf
  rw [mat_mul _ _ hu hv]
  refine sum8_congr fun k hk => ?_
  rw [mat_mul _ _ hu hk, mat_transpose _ hk hv]
  congr 1
  refine sum8_congr fun l hl => ?_
  unfold mat
  rw [nth_blockOf _ _ (by omega)]

/-- R244: the products (Cᵀ·D)·C, shifted back. -/
theorem mat_idctOf (c x : Matrix8) {i j : Nat} (hi : i < 8) (hj : j < 8) :
    mat (idctOf c x) i j = F64.add
      (sum8 fun k => F64.mul (sum8 fun l => F64.mul (mat c l i) (mat x l k)) (mat c k j)) (F64.ofInt 128) := by
  unfold idctOf
  rw [mat, nth_blockOf _ _ (by omega)]
  congr 1
  refine (mat_mul _ _ hi hj).trans (sum8_congr fun k hk => ?_)
  rw [mat_mul _ _ hi hk]
  congr 1
  exact sum8_congr fun l hl => by rw [mat_transpose _ hi hl]

/-! ### The commands -/

theorem exec_fdct (s : State) : exec .fdct s = .next { s with
    fblk := patternsOf s.free (fdctOf (valuesOf s.cfg.dctC) (valuesOf s.fblk))
    free := s.free + 1
    status := finished s.status } := rfl

theorem exec_idct (s : State) : exec .idct s = .next { s with
    fblk := patternsOf s.free (idctOf (valuesOf s.cfg.dctC) (valuesOf s.fblk))
    free := s.free + 1
    status := finished s.status } := rfl

/-- What an FDCT that answers t leaves in FBLK; `fblk_of_idct` says it of IDCT. -/
theorem fblk_of_fdct {s t : State} (h : exec .fdct s = .next t) :
    t.cfg = s.cfg ∧ t.fblk = patternsOf s.free (fdctOf (valuesOf s.cfg.dctC) (valuesOf s.fblk)) := by
  cases h
  exact ⟨rfl, rfl⟩

theorem fblk_of_idct {s t : State} (h : exec .idct s = .next t) :
    t.fblk = patternsOf s.free (idctOf (valuesOf s.cfg.dctC) (valuesOf s.fblk)) := by
  cases h
  rfl

/-- Settles O31: the stored patterns read back as the elements of (C·S)·Cᵀ. -/
theorem fdctTransformsTheBlock : Obligations.FdctTransformsTheBlock := by
  unfold Obligations.FdctTransformsTheBlock
  intro s c x t
  refine ⟨_, exec_fdct s, fun u v hu hv => ?_⟩
  rw [ofBits_patternsOf (fun _ => canon_fdctOf _ _) hu hv, mat_fdctOf _ _ hu hv]
  refine sum8_congr fun k hk => ?_
  rw [mat_valuesOf _ hv hk]
  congr 1
  exact sum8_congr fun l hl => by rw [mat_valuesOf _ hu hl, mat_valuesOf _ hl hk]

/-- Settles O32: the stored patterns read back as the shifted elements of (Cᵀ·D)·C. -/
theorem idctTransformsTheBlock : Obligations.IdctTransformsTheBlock := by
  unfold Obligations.IdctTransformsTheBlock
  intro s c d t
  refine ⟨_, exec_idct s, fun i j hi hj => ?_⟩
  rw [ofBits_patternsOf (fun _ => canon_idctOf _ _) hi hj, mat_idctOf _ _ hi hj]
  congr 1
  refine sum8_congr fun k hk => ?_
  rw [mat_valuesOf _ hk hj]
  congr 1
  exact sum8_congr fun l hl => by rw [mat_valuesOf _ hl hi, mat_valuesOf _ hl hk]

/-! ### Constant blocks -/

section
variable {a b : Nat → F64}

theorem sum8_mul_zero (ha : ∀ k < 8, (a k).toRat.isSome) (hb : ∀ k < 8, b k = .fin false 0 (-1074)) :
    sum8 (fun k => F64.mul (a k) (b k)) = .fin false 0 (-1074) :=
  sum8_zero fun k hk => by
    rw [hb k hk]
    exact (mul_zero_value (ha k hk) false).1

theorem sum8_zero_mul (ha : ∀ k < 8, a k = .fin false 0 (-1074)) (hb : ∀ k < 8, (b k).toRat.isSome) :
    sum8 (fun k => F64.mul (a k) (b k)) = .fin false 0 (-1074) :=
  sum8_zero fun k hk => by
    rw [ha k hk]
    exact (mul_zero_value (hb k hk) false).2

end

section
variable {c x : Matrix8} (hc : ∀ i < 8, ∀ j < 8, (mat c i j).toRat.isSome)
include hc

/-- R243: samples that the level shift makes +0.0 have zero coefficients. -/
theorem mat_fdctOf_zero (hx : ∀ i < 8, ∀ j < 8, F64.sub (mat x i j) (F64.ofInt 128) = .fin false 0 (-1074)) {u v : Nat}
    (hu : u < 8) (hv : v < 8) : mat (fdctOf c x) u v = .fin false 0 (-1074) := by
  rw [mat_fdctOf _ _ hu hv]
  exact sum8_zero_mul (fun k hk => sum8_mul_zero (hc u hu) fun l hl => hx l hl k hk) (hc v hv)

/-- R244: coefficients +0.0 give samples that are the level shift alone. -/
theorem mat_idctOf_zero (hx : ∀ i < 8, ∀ j < 8, mat x i j = .fin false 0 (-1074)) {i j : Nat} (hi : i < 8) (hj : j < 8) :
    mat (idctOf c x) i j = F64.add (.fin false 0 (-1074)) (F64.ofInt 128) := by
  rw [mat_idctOf _ _ hi hj]
  congr 1
  exact sum8_zero_mul (fun k hk => sum8_mul_zero (fun l hl => hc l hl i hi) fun l hl => hx l hl k hk)
    fun k hk => hc k hk j hj

end

theorem ofBits_zero : F64.ofBits 0 = .fin false 0 (-1074) := rfl

/-- The sample 128.0 is shifted to +0.0, and +0.0 back to it. -/
theorem shift_128 : F64.sub (F64.ofBits 0x4060000000000000) (F64.ofInt 128) = .fin false 0 (-1074) := by decide

theorem toBits_shift_zero (p : Double) :
    F64.toBits p (F64.add (.fin false 0 (-1074)) (F64.ofInt 128)) = 0x4060000000000000 := by
  have h : F64.add (.fin false 0 (-1074)) (F64.ofInt 128) = .fin false (2 ^ 52) (-45) := by decide +kernel
  rw [h]
  rfl

theorem mat_valuesOf_finite {b : Block Double} (h : ∀ n < 64, (F64.ofBits (nth b n)).toRat.isSome) :
    ∀ i < 8, ∀ j < 8, (mat (valuesOf b) i j).toRat.isSome := by
  intro i hi j hj
  rw [mat_valuesOf b hi hj]
  exact h _ (by omega)

section
variable {s t : State} (hc : ∀ n < 64, (F64.ofBits (nth s.cfg.dctC n)).toRat.isSome)
include hc

theorem fdct_of_constant_128 (hx : ∀ n < 64, nth s.fblk n = 0x4060000000000000) (h : exec .fdct s = .next t) :
    ∀ n < 64, nth t.fblk n = 0 := by
  intro n hn
  obtain ⟨-, hfblk⟩ := fblk_of_fdct h
  have hzero : mat (fdctOf (valuesOf s.cfg.dctC) (valuesOf s.fblk)) (n / 8) (n % 8) = .fin false 0 (-1074) :=
    mat_fdctOf_zero (mat_valuesOf_finite hc)
      (fun i hi j hj => by rw [mat_valuesOf _ hi hj, hx _ (by omega), shift_128]) (by omega) (by omega)
  rw [hfblk, nth_patternsOf _ _ hn, ← mat_div_mod, hzero]
  rfl

theorem idct_of_zero (hx : ∀ n < 64, nth s.fblk n = 0) (h : exec .idct s = .next t) :
    ∀ n < 64, nth t.fblk n = 0x4060000000000000 := by
  intro n hn
  have hshift : mat (idctOf (valuesOf s.cfg.dctC) (valuesOf s.fblk)) (n / 8) (n % 8)
      = F64.add (.fin false 0 (-1074)) (F64.ofInt 128) :=
    mat_idctOf_zero (mat_valuesOf_finite hc)
      (fun i hi j hj => by rw [mat_valuesOf _ hi hj, hx _ (by omega), ofBits_zero]) (by omega) (by omega)
  rw [fblk_of_idct h, nth_patternsOf _ _ hn, ← mat_div_mod, hshift, toBits_shift_zero]

end

/-! ### The round trip of a basis -/

/-- FDCT followed by IDCT on the values of a block. -/
theorem valuesOf_fdct_idct {s t u : State} (ht : exec .fdct s = .next t) (hu : exec .idct t = .next u) :
    valuesOf u.fblk = idctOf (valuesOf s.cfg.dctC) (fdctOf (valuesOf s.cfg.dctC) (valuesOf s.fblk)) := by
  obtain ⟨hcfg, hfblk⟩ := fblk_of_fdct ht
  rw [fblk_of_idct hu, hcfg, hfblk, valuesOf_patternsOf fun _ => canon_idctOf _ _,
    valuesOf_patternsOf fun _ => canon_fdctOf _ _]

/-- What the machine's two commands do to a block is what the check of a basis computes. -/
theorem dctRoundTrips_iff (c : Config) : DctRoundTrips c ↔ c.dctRestores = true := by
  rw [dctRestores_eq, restoresEveryBlock_iff]
  simp only [restores_iff, inPipelineRange_iff]
  constructor
  · intro h b hb n hn
    have := h { State.resetWith c with fblk := b } _ _ rfl
      (fun n hn => nth_valuesOf b hn ▸ hb n hn) (exec_fdct _) (exec_idct _) n hn
    rwa [← nth_valuesOf _ hn, ← nth_valuesOf _ hn, valuesOf_fdct_idct (exec_fdct _) (exec_idct _)] at this
  · rintro h s t u rfl hs ht hu n hn
    rw [← nth_valuesOf _ hn, ← nth_valuesOf _ hn, valuesOf_fdct_idct ht hu]
    exact h s.fblk (fun n hn => (nth_valuesOf s.fblk hn).symm ▸ hs n hn) n hn

theorem wf_iff_dctRoundTrips (c : Config) : c.wf = true ↔
    c.sizesFit = true ∧ DctRoundTrips c ∧ c.zigzagFits = true ∧ c.stepsFit = true ∧ c.tablesFit = true := by
  rw [dctRoundTrips_iff]
  simp only [Config.wf, Bool.and_eq_true, and_assoc]

theorem boot_of_not_wf {c : Config} (h : ¬c.wf = true) : State.boot c = .refused .badConfig := if_neg h

theorem boot_eq_next_iff (c : Config) : State.boot c = .next (State.resetWith c) ↔ c.wf = true := by
  refine ⟨fun h => ?_, fun hw => if_pos hw⟩
  by_contra hw
  rw [boot_of_not_wf hw] at h
  cases h

/-- Settles O33: sums of zeros are zeros, and a core starts exactly when its parameters are well formed, which says of the
basis that it has the round trip. -/
theorem constantBlocksTransformExactly : Obligations.ConstantBlocksTransformExactly := by
  unfold Obligations.ConstantBlocksTransformExactly
  refine ⟨fun s t hc => ⟨fdct_of_constant_128 hc, idct_of_zero hc⟩, fun c => ?_⟩
  have hrt : c.wf = true → DctRoundTrips c := fun hw => (dctRoundTrips_iff c).mpr (dctRestores_of_wf hw)
  exact ⟨hrt, fun hn => boot_of_not_wf (mt hrt hn), (boot_eq_next_iff c).trans (wf_iff_dctRoundTrips c)⟩

end Sys2Proof.Machine

/-! PROOFS. The quantizer (spec/43_quantizer.md): the step a channel selects, the quotients that fit a word, and the exact
products. -/

namespace Sys2Proof.Machine

/-- 30_encoding.md R160, for a command whose only field is CH. -/
theorem encode_of_ch {i : Instr} {ch : Channel} (h : fieldsOf i = (channelNo ch, 0)) :
    encode i = BitVec.ofNat 32 (opcodeOf i) ||| (BitVec.ofNat 32 (channelNo ch) <<< 8) := by
  have hor : channelNo ch <<< 8 + opcodeOf i = opcodeOf i ||| channelNo ch <<< 8 :=
    (Nat.shiftLeft_add_eq_or_of_lt (opcodeOf_lt i) _).trans (Nat.or_comm _ _)
  have hsum : opcodeOf i + 256 * channelNo ch = channelNo ch <<< 8 + opcodeOf i := by
    rw [Nat.shiftLeft_eq]
    omega
  rw [encode, h, mul_zero, add_zero, hsum, hor]
  apply BitVec.eq_of_toNat_eq
  simp [Nat.shiftLeft_eq]

/-- R261: the step as the statements write it. -/
theorem nth_quantTable (s : State) (ch : Channel) (n : Nat) :
    nth (s.quantTable ch) n = if ch = .y then nth s.cfg.qtabY n else nth s.cfg.qtabC n := by
  cases ch <;> rfl

/-! ### QUANT -/

/-- The quotient of R262, rounded; none when it is not finite. -/
def roundedQuotient (x : Double) (q : Nat) : Option Int := F64.roundHA (F64.div (F64.ofBits x) (F64.ofInt q))

/-- The test of R262 on a rounded quotient. -/
def FitsWord (z : Option Int) : Prop := ∃ v : Int, z = some v ∧ -2 ^ 31 ≤ v ∧ v ≤ 2 ^ 31 - 1

section
variable {x : Double} {q : Nat}

theorem quantElement_of_fits (h : FitsWord (roundedQuotient x q)) (n : Nat) :
    ∃ w : Word, quantElement x q n = .ok w ∧ roundedQuotient x q = some w.toInt := by
  obtain ⟨v, hv, hlo, hhi⟩ := h
  have hin : (BitVec.ofInt 32 v).toInt = v := BitVec.toInt_ofInt_eq_self (by norm_num) (by omega) (by omega)
  refine ⟨BitVec.ofInt 32 v, ?_, by rw [hin, hv]⟩
  unfold roundedQuotient at hv
  simp only [quantElement, hv]
  exact if_neg (by omega)

theorem quantElement_of_not_fits (h : ¬FitsWord (roundedQuotient x q)) (n : Nat) :
    quantElement x q n = raised .numRange n := by
  unfold roundedQuotient at h
  unfold quantElement
  split
  · rfl
  · next z hz =>
    refine if_pos ?_
    by_contra hin
    exact h ⟨z, hz, by omega, by omega⟩

end

section
variable {s : State} {ch : Channel}

/-- R262: all the results are there, so all of IBLK is written. -/
theorem exec_quant_of_elements {w : Nat → Word}
    (h : ∀ n < 64, quantElement (nth s.fblk n) (nth (s.quantTable ch) n) n = .ok (w n)) :
    exec (.quant ch) s = .next { s with iblk := blockOf w, status := finished s.status } := by
  have hall := collect_ok (l := List.range 64) fun n hn => h n (List.mem_range.mp hn)
  have hblock : (blockOf fun n => ((List.range 64).map w).getD n 0) = blockOf w :=
    block_ext fun n hn => by simp [hn]
  simp only [exec, execQuant, hall, hblock]
  rfl

/-- R262: the lowest element whose quotient does not fit decides. -/
theorem exec_quant_of_not_fits {n : Nat} (hn : n < 64)
    (h : ¬FitsWord (roundedQuotient (nth s.fblk n) (nth (s.quantTable ch) n)))
    (hlow : ∀ k < n, FitsWord (roundedQuotient (nth s.fblk k) (nth (s.quantTable ch) k))) :
    exec (.quant ch) s = settle s (raised .numRange n) := by
  have hfirst := collect_range_error (f := fun n => quantElement (nth s.fblk n) (nth (s.quantTable ch) n) n) hn
    (fun k hk => (quantElement_of_fits (hlow k hk) k).imp fun _ hw => hw.1) (quantElement_of_not_fits h n)
  simp only [exec, execQuant, hfirst]
  rfl

end

/-- Settles O34: a quotient that fits is the stored word's value, and the lowest one that does not fit ends the command. -/
theorem quantRoundsQuotients : Obligations.QuantRoundsQuotients := by
  unfold Obligations.QuantRoundsQuotients
  intro s ch q z good
  have hz : ∀ n, z n = roundedQuotient (nth s.fblk n) (nth (s.quantTable ch) n) := fun n => by
    rw [nth_quantTable]; rfl
  have hfits : ∀ n, good n → FitsWord (roundedQuotient (nth s.fblk n) (nth (s.quantTable ch) n)) := fun n h => by
    rwa [← hz]
  refine ⟨encode_of_ch rfl, fun hgood => ?fits, fun n hn hbad hlow => ?bad⟩
  case fits =>
    choose! w hw hval using fun n hn => quantElement_of_fits (hfits n (hgood n hn)) n
    exact ⟨_, exec_quant_of_elements hw, fun n hn => by rw [hz, hval n hn, nth_blockOf _ _ hn]⟩
  case bad =>
    exact endsInError_of_raised (exec_quant_of_not_fits hn (hz n ▸ hbad) fun k hk => hfits k (hlow k hk))

/-! ### DEQUANT -/

theorem nth_mem_toList {α : Type} [Inhabited α] (b : Block α) {n : Nat} (hn : n < 64) : nth b n ∈ b.toList := by
  simp [nth, List.getD_eq_getElem?_getD, hn]

/-- R260: a step is at most 255. -/
theorem nth_quantTable_le {s : State} (h : s.cfg.wf = true) (ch : Channel) {n : Nat} (hn : n < 64) :
    nth (s.quantTable ch) n ≤ 255 := by
  have hsteps := stepsFit_of_wf h
  simp only [Config.stepsFit, Bool.and_eq_true, List.all_eq_true, decide_eq_true_eq] at hsteps
  obtain ⟨hY, hC⟩ := hsteps
  cases ch with
  | y => exact (hY _ (nth_mem_toList _ hn)).2
  | cb | cr => exact (hC _ (nth_mem_toList _ hn)).2

/-- R263: a product has magnitude below 2^39. -/
theorem product_lt (v : Word) {q : Nat} (hq : q ≤ 255) : (v.toInt * q).natAbs < 2 ^ 39 := by
  have hlo := BitVec.le_toInt v
  have hhi := BitVec.toInt_lt (x := v)
  rw [Int.natAbs_mul, Int.natAbs_natCast]
  calc v.toInt.natAbs * q ≤ 2 ^ 31 * 255 := Nat.mul_le_mul (by omega) hq
    _ < 2 ^ 39 := by norm_num

theorem dequantElement_toRat (v : Word) {q : Nat} (hq : q ≤ 255) :
    (F64.ofBits (dequantElement v q)).toRat = some ((v.toInt * q : Int) : ℚ) := by
  have hexact := ofInt_exact ((product_lt v hq).trans (by norm_num))
  have hnan : F64.ofInt (v.toInt * q) ≠ .nan := fun h => by
    rw [h] at hexact
    cases hexact
  rw [dequantElement, ofBits_toBits_of_not_nan (canon_ofInt _) hnan, hexact]

theorem dequantElement_zero (q : Nat) : dequantElement 0 q = 0 := by
  have hprod : (0 : Word).toInt * (q : Int) = 0 := zero_mul _
  rw [dequantElement, hprod, zero_value]
  rfl

theorem exec_dequant (ch : Channel) (s : State) : exec (.dequant ch) s = .next { s with
    fblk := blockOf fun n => dequantElement (nth s.iblk n) (nth (s.quantTable ch) n)
    status := finished s.status } := rfl

/-- Settles O35: a product of a word and a step is below 2^53, so its conversion is exact. -/
theorem dequantMultipliesExactly : Obligations.DequantMultipliesExactly := by
  unfold Obligations.DequantMultipliesExactly
  intro s ch hwf q
  refine ⟨encode_of_ch rfl, _, exec_dequant ch s, fun n hn => ?_⟩
  have hstep : q n = nth (s.quantTable ch) n := (nth_quantTable s ch n).symm
  rw [nth_blockOf _ _ hn, hstep]
  refine ⟨dequantElement_toRat _ (nth_quantTable_le hwf ch hn), fun hzero => ?_⟩
  rw [hzero]
  exact dequantElement_zero _

end Sys2Proof.Machine

/-! PROOFS. The zigzag reorder (spec/44_zigzag.md): the ends of the table, the vector ZIGZAG leaves, and the block UNZIGZAG
leaves. -/

namespace Sys2Proof.Machine

/-! ### ZIGZAG -/

theorem zigzagFits_of_wf {c : Config} (h : c.wf = true) : c.zigzagFits = true := by
  simp only [Config.wf, Bool.and_eq_true] at h
  exact h.1.1.2

/-- R281: the ends of the table stay in place. -/
theorem zz_ends {s : State} (h : s.cfg.wf = true) : s.zz 0 = 0 ∧ s.zz 63 = 63 := by
  have hfits := zigzagFits_of_wf h
  simp only [Config.zigzagFits, Bool.and_eq_true, beq_iff_eq] at hfits
  obtain ⟨⟨-, hfirst⟩, hlast⟩ := hfits
  exact ⟨congrArg Fin.val hfirst, congrArg Fin.val hlast⟩

theorem exec_zigzag (s : State) : exec .zigzag s = .next { s with
    vec := blockOf fun k => nth s.iblk (s.zz k)
    status := finished s.status } := rfl

theorem vec_of_zigzag {s t : State} (h : exec .zigzag s = .next t) :
    t.cfg = s.cfg ∧ ∀ k < 64, nth t.vec k = nth s.iblk (t.zz k) := by
  rw [exec_zigzag] at h
  cases h
  exact ⟨rfl, fun k hk => nth_blockOf _ k hk⟩

/-- Settles O36: the vector is a block made element by element, and a legal table keeps its ends. -/
theorem zigzagReordersTheBlock : Obligations.ZigzagReordersTheBlock := by
  unfold Obligations.ZigzagReordersTheBlock
  intro s
  refine ⟨by decide, _, exec_zigzag s, fun k hk => nth_blockOf _ k hk, fun hwf => ?ends⟩
  obtain ⟨hfirst, hlast⟩ := zz_ends hwf
  rw [nth_blockOf _ 0 (by norm_num), nth_blockOf _ 63 (by norm_num), hfirst, hlast]
  exact ⟨rfl, rfl⟩

/-! ### UNZIGZAG -/

/-- R283: what the whole loop leaves in each place. -/
theorem exec_unzigzag {s : State} (h : s.cfg.wf = true) :
    ∃ b, exec .unzigzag s = .next { s with iblk := b, status := finished s.status } ∧
      ∀ k < 64, nth b (s.zz k) = nth s.vec k :=
  ⟨_, rfl, unzigzag_fold h s.vec s.iblk 64 le_rfl⟩

/-- R283: every element of the block has a vector position, so the copy out and back restores it. -/
theorem iblk_of_zigzag_unzigzag {s t u : State} (h : s.cfg.wf = true) (ht : exec .zigzag s = .next t)
    (hu : exec .unzigzag t = .next u) : u.iblk = s.iblk := by
  obtain ⟨hcfg, hvec⟩ := vec_of_zigzag ht
  have hwf : t.cfg.wf = true := hcfg ▸ h
  obtain ⟨b, hb, hplaces⟩ := exec_unzigzag hwf
  rw [hb] at hu
  cases hu
  refine block_ext fun n hn => ?_
  obtain ⟨k, hk, rfl⟩ := zz_surjective hwf n hn
  exact (hplaces k hk).trans (hvec k hk)

/-- Settles O37: the table is a permutation, so the loop leaves each element's value and reaches every element. -/
theorem unzigzagRestoresTheBlock : Obligations.UnzigzagRestoresTheBlock := by
  unfold Obligations.UnzigzagRestoresTheBlock
  intro s hwf
  obtain ⟨b, hb, hplaces⟩ := exec_unzigzag hwf
  exact ⟨by decide, ⟨b, hb, hplaces, zz_surjective hwf⟩, fun _ _ => iblk_of_zigzag_unzigzag hwf⟩

end Sys2Proof.Machine

/-! PROOFS. The DC predictor (spec/45_dc_predictor.md): how DCENC and DCDEC end, and that their two loops undo each
other. -/

namespace Sys2Proof.Machine

/-! ### How the two commands end -/

section
variable {s : State}

theorem exec_dcenc_of_valid (ch : Channel) (hg : s.geometryValid = true) :
    exec (.dcenc ch) s = .next { s with
      coef := dcEncode ch (s.numBlocks - 1) s.coef
      status := finished s.status } := by
  simp only [exec, execDcenc, checkGeometry_ok hg]
  rfl

theorem exec_dcenc_of_invalid (ch : Channel) (hg : s.geometryValid = false) :
    exec (.dcenc ch) s = settle s (raised .badGeometry s.geometryInfo) := by
  simp only [exec, execDcenc, checkGeometry_error hg]
  rfl

theorem exec_dcdec_of_valid (ch : Channel) (hg : s.geometryValid = true) :
    exec (.dcdec ch) s = .next { s with
      coef := dcDecode ch (s.numBlocks - 1) s.coef
      status := finished s.status } := by
  simp only [exec, execDcdec, checkGeometry_ok hg]
  rfl

end

/-- Settles O38: the loop runs downwards, so it reads each previous term before that term changes. -/
theorem dcencTakesDifferences : Obligations.DcencTakesDifferences := by
  unfold Obligations.DcencTakesDifferences
  intro s ch _ hm
  refine ⟨encode_of_ch rfl, fun hg => endsInError_of_raised (exec_dcenc_of_invalid ch hg), fun hg => ?valid⟩
  exact ⟨_, exec_dcenc_of_valid ch hg, wf_dcEncode ch _ hm,
    fun b h1 hb => read_dcEncode ch h1 _ hm (by omega),
    fun n hn => read_dcEncode_other ch _ hm fun b h1 hb => hn b h1 (by omega)⟩

/-- Settles O39: the loop runs upwards, so it reads each previous term after that term is restored. -/
theorem dcdecTakesSums : Obligations.DcdecTakesSums := by
  unfold Obligations.DcdecTakesSums
  intro s ch _ hm hg
  exact ⟨_, exec_dcdec_of_valid ch hg, wf_dcDecode ch hm _,
    fun b h1 hb => read_dcDecode ch h1 hm _ (by omega),
    fun n hn => read_dcDecode_other ch hm _ fun b h1 hb => hn b h1 (by omega)⟩

/-! ### The round trip -/

section
variable (ch : Channel) (k : Nat) {m : Memory Word} (hm : Memory.wf m = true)
include hm

/-- R301: once the previous term is restored, a difference from it gives the term back. -/
theorem dcDecode_dcEncode : dcDecode ch k (dcEncode ch k m) = m := by
  have henc := wf_dcEncode ch k hm
  refine dc_ext ch (wf_dcDecode ch henc k) hm k (fun i hi => ?other) fun b h1 hb hprev => ?dc
  case other => rw [read_dcDecode_other ch henc k hi, read_dcEncode_other ch k hm hi]
  case dc => rw [read_dcDecode ch h1 henc k hb, read_dcEncode ch h1 k hm hb, hprev, sub_add_cancel]

/-- R301: a sum less its previous term is the delta it was made of. -/
theorem dcEncode_dcDecode : dcEncode ch k (dcDecode ch k m) = m := by
  have hdec := wf_dcDecode ch hm k
  refine dc_ext ch (wf_dcEncode ch k hdec) hm k (fun i hi => ?other) fun b h1 hb _ => ?dc
  case other => rw [read_dcEncode_other ch k hdec hi, read_dcDecode_other ch hm k hi]
  case dc => rw [read_dcEncode ch h1 k hdec hb, read_dcDecode ch h1 hm k hb, add_sub_cancel_right]

end

/-- Settles O40: the first command keeps the geometry, so the second completes, and its loop undoes the first one's. -/
theorem dcPredictionRoundTrips : Obligations.DcPredictionRoundTrips := by
  unfold Obligations.DcPredictionRoundTrips
  refine fun s t ch _ hm hg => ⟨fun h => ?decAfterEnc, fun h => ?encAfterDec⟩
  case decAfterEnc =>
    rw [exec_dcenc_of_valid ch hg] at h
    cases h
    exact ⟨_, exec_dcdec_of_valid ch hg, dcDecode_dcEncode ch _ hm⟩
  case encAfterDec =>
    rw [exec_dcdec_of_valid ch hg] at h
    cases h
    exact ⟨_, exec_dcenc_of_valid ch hg, dcEncode_dcDecode ch _ hm⟩

end Sys2Proof.Machine

/-! PROOFS. Category and run-length coding (spec/46_rle.md): how CATEGORY, RLEENC and RLEDEC end, and that RLEDEC reads
back what RLEENC wrote. -/

namespace Sys2Proof.Machine

/-! ### CATEGORY -/

theorem exec_category (s : State) : exec .category s = .next { s with
    result := BitVec.ofNat 32 (categoryOf s.arg0.toInt)
    status := finished s.status } := rfl

/-- Settles O41: the category computed is the least m with |v| < 2^m, and 32 bits are enough for |−2^31|. -/
theorem categoryIsTheBitLength : Obligations.CategoryIsTheBitLength := by
  unfold Obligations.CategoryIsTheBitLength
  exact ⟨by decide, fun s => ⟨_, categoryOf_isCategory _, categoryOf_le s.arg0, exec_category s⟩⟩

/-! ### RLEENC -/

section
variable (s : State) {out : List Symbol} {i : Nat}

theorem exec_rleenc : exec .rleenc s = .next (s.setSymbols (rleEncode s.vec)).complete := rfl

/-- R324: the first slots hold the symbols put there. -/
theorem getElem?_eq_nth_setSymbols (h64 : i < 64) (hi : i < out.length) :
    out[i]? = some (nth (s.setSymbols out).rlebuf i) := by
  rw [State.setSymbols_rlebuf, nth_blockOf _ i h64, if_pos hi]
  simp [List.getD_eq_getElem?_getD, hi]

/-- R324: the slots after the symbols keep their contents. -/
theorem nth_setSymbols_of_length_le (h64 : i < 64) (hi : out.length ≤ i) :
    nth (s.setSymbols out).rlebuf i = nth s.rlebuf i := by
  rw [State.setSymbols_rlebuf, nth_blockOf _ i h64, if_neg (by omega)]

end

/-- Settles O42: what the encoder gives is the run-length form, and RLEENC puts it into the first slots. -/
theorem rleencWritesTheRunLengthForm : Obligations.RleencWritesTheRunLengthForm := by
  unfold Obligations.RleencWritesTheRunLengthForm
  intro s
  exact ⟨rleEncode s.vec, _, rleEncode_form s.vec, exec_rleenc s,
    fun i h64 => ⟨getElem?_eq_nth_setSymbols s h64, nth_setSymbols_of_length_le s h64⟩⟩

/-! ### RLEDEC -/

section
variable {s : State}

theorem exec_rledec_of_empty (h : s.rleLen = 0) : exec .rledec s = settle s (raised .badOperand 0) := by
  simp only [exec, execRledec, if_pos h]

theorem exec_rledec_of_symbols (h : s.rleLen ≠ 0) : exec .rledec s = .next { s with
    vec := rleDecode s.symbols
    status := finished s.status } := by
  simp only [exec, execRledec, if_neg h]
  rfl

/-- With a symbol count other than 0 the symbols begin with slot 0. -/
theorem symbols_eq_cons (h : s.rleLen ≠ 0) : ∃ rest, s.symbols = nth s.rlebuf 0 :: rest := by
  have hpos : 0 < s.rleLen.toNat := by
    rw [Nat.pos_iff_ne_zero]
    exact fun h0 => h (BitVec.eq_of_toNat_eq h0)
  have hhead : s.symbols.head? = some (nth s.rlebuf 0) := by
    rw [State.symbols, List.head?_eq_getElem?, List.getElem?_take_of_lt hpos, rlebuf_getElem s (by norm_num)]
  exact List.head?_eq_some_iff.mp hhead

theorem rleLen_ne_zero_of_symbols (h : s.symbols ≠ []) : s.rleLen ≠ 0 := by
  intro h0
  exact h (by simp [State.symbols, h0])

end

/-- Settles O43: with slot 0 as the DC symbol, the decoder's law says what each position of the vector holds. -/
theorem rledecExpandsTheSymbols : Obligations.RledecExpandsTheSymbols := by
  unfold Obligations.RledecExpandsTheSymbols
  refine fun s => ⟨by decide, fun h => endsInError_of_raised (exec_rledec_of_empty h), fun h => ?symbols⟩
  obtain ⟨rest, hs⟩ := symbols_eq_cons h
  refine ⟨_, exec_rledec_of_symbols h, ?_⟩
  rw [hs]
  exact rleDecode_spec _ rest

/-! ### The round trip -/

/-- RLEENC leaves the code of the vector as the valid symbols. -/
theorem symbols_of_rleenc {s t : State} (h : exec .rleenc s = .next t) : t.symbols = rleEncode s.vec := by
  rw [exec_rleenc] at h
  cases h
  exact symbols_setSymbols s (rleEncode_length s.vec)

/-- Settles O44: RLEENC leaves at least the DC symbol, so RLEDEC completes, and it decodes the code of the vector. -/
theorem rleRoundTrips : Obligations.RleRoundTrips := by
  unfold Obligations.RleRoundTrips
  intro s t h
  have hsymbols := symbols_of_rleenc h
  have hlen : t.rleLen ≠ 0 := rleLen_ne_zero_of_symbols (hsymbols ▸ List.cons_ne_nil _ _)
  refine ⟨_, exec_rledec_of_symbols hlen, ?_⟩
  exact (congrArg rleDecode hsymbols).trans (rleDecode_rleEncode s.vec)

end Sys2Proof.Machine

/-! PROOFS. Huffman coding, bitstream input and output, and the signed-magnitude codec (spec/47_huffman_bitstream.md,
48_signed_magnitude.md): what the writing commands append, what the reading commands take, and their errors. -/

namespace Sys2Proof.Machine

/-! ### Appending -/

/-- A command that appends bits there is room for (20_memory.md R110). -/
theorem appends_of_room {i : Instr} {s : State} {bits : List Bool} (h : exec i s = settle s (s.bitWrite bits))
    (hinv : s.Inv) (hroom : s.roomFor bits) : Appends i s bits := by
  obtain ⟨m, acc, hend, hwritten, hkept⟩ := bitWrite_appends (bsCap_le hinv.params) hinv.bsForm hinv.pendingBits hroom
  exact ⟨m, acc, h.trans hend, hwritten, hkept⟩

/-- Settles O45: HUFENC writes the block's code, and there is room for it. -/
theorem hufencAppendsTheBlockCode : Obligations.HufencAppendsTheBlockCode := by
  unfold Obligations.HufencAppendsTheBlockCode
  intro s n bits hinv hends hcodes hroom
  exact appends_of_room (exec_hufenc_of_block hinv.params hends hcodes) hinv hroom

/-! ### The errors of HUFENC -/

theorem exec_hufenc_of_raised {s : State} {k : ErrKind} {info : Nat}
    (h : blockBits s.cfg s.symbols s.rleLen.toNat = raised k info) : exec .hufenc s = settle s (raised k info) := by
  simp only [exec, execHufenc, h, raised]

/-- A DC category without a code is missed first (47_huffman_bitstream.md R365). -/
theorem blockBits_of_dcMiss {c : Config} {dc : Symbol} (h : NoCode c.hufDc dc.cat.toNat) (rest : List Symbol)
    (len : Nat) : blockBits c (dc :: rest) len = raised .tableMiss (16 * dc.cat.toNat) := by
  simp only [blockBits, huffCode_none h]

theorem exists_forall₂_of_forall_mem {α β : Type} {R : α → β → Prop} {l : List α} (h : ∀ a ∈ l, ∃ b, R a b) :
    ∃ l', List.Forall₂ R l l' := by
  induction l with
  | nil => exact ⟨[], .nil⟩
  | cons a l ih =>
    obtain ⟨b, hb⟩ := h a List.mem_cons_self
    obtain ⟨l', hl⟩ := ih fun x hx => h x (List.mem_cons_of_mem a hx)
    exact ⟨b :: l', .cons hb hl⟩

/-- An error that the serialisation meets after coded, open slots is the block's error (47_huffman_bitstream.md R365). -/
theorem blockBits_of_acBits_raised {c : Config} (hc : c.wf = true) {dc : Symbol} {rest tail : List Symbol}
    {p len info : Nat} {k : ErrKind} (hdc : ∃ code, HasCode c.hufDc dc.cat.toNat code) (hopen : OpenSlots rest 1 p)
    (hcodes : ∀ y ∈ rest, ∃ code, HasCode c.hufAc (keyWord y.skip y.cat) code)
    (h : acBits c.hufAc len tail (1 + rest.length) p = raised k info) :
    blockBits c (dc :: (rest ++ tail)) len = raised k info := by
  obtain ⟨dcCode, hdc⟩ := hdc
  obtain ⟨codes, hcodes⟩ := exists_forall₂_of_forall_mem hcodes
  simp only [blockBits, huffCode_of (dcTable_good hc) hdc, acBits_open (acTable_good hc) len tail 1 hopen hcodes, h]
  rfl

/-- The first k slots after the DC symbol are open when none is an EOB and they do not fill the block. -/
theorem openSlots_take {dc : Symbol} {rest : List Symbol} {k : Nat}
    (hpos : positionBefore (dc :: rest) (k + 1) < 64)
    (hnoEob : ∀ (j : Nat) (y : Symbol), j < k → rest[j]? = some y → ¬y.isEob) :
    OpenSlots (rest.take k) 1 (positionBefore (dc :: rest) (k + 1)) := by
  rw [positionBefore_cons] at hpos ⊢
  refine openSlots_of (fun i _ => ?_) fun j y hy => ?_
  · have hsplit := congrArg (fun l => (l.map Symbol.advance).sum) (List.take_append_drop i (rest.take k))
    simp only [List.map_append, List.sum_append] at hsplit
    omega
  · rw [List.getElem?_take] at hy
    split_ifs at hy with hj
    exact hnoEob j y hj hy

/-- A buffer whose slots are all used without the block ending there is open to its end (47_huffman_bitstream.md R365). -/
theorem open_of_not_ends {buf : List Symbol} (h1 : 1 ≤ buf.length)
    (hused : ∀ i, 1 ≤ i → i < buf.length → SlotUsed buf i) (hends : ¬BlockEndsAt buf buf.length) :
    positionBefore buf buf.length < 64 ∧ ∀ (i : Nat) (y : Symbol), 1 ≤ i → buf[i]? = some y → ¬y.isEob := by
  have hend : ¬((1 < buf.length ∧ ∃ y, buf[buf.length - 1]? = some y ∧ y.isEob) ∨ 64 ≤ positionBefore buf buf.length) :=
    fun h => hends ⟨h1, le_refl _, hused, h⟩
  obtain ⟨hlast, hpos⟩ := not_or.mp hend
  refine ⟨by omega, fun i y hi hy heob => ?_⟩
  obtain ⟨hlt, -⟩ := List.getElem?_eq_some_iff.mp hy
  rcases Nat.lt_or_ge i (buf.length - 1) with hbefore | hbefore
  · obtain ⟨-, -, hno, -⟩ := hused (buf.length - 1) (by omega) (by omega)
    exact hno i y hi hbefore hy heob
  · have hi' : i = buf.length - 1 := by omega
    exact hlast ⟨by omega, y, hi' ▸ hy, heob⟩

/-- A buffer that does not fill the block has fewer than 64 slots. -/
theorem length_lt_of_position {dc : Symbol} {rest : List Symbol}
    (h : positionBefore (dc :: rest) (rest.length + 1) < 64) : (dc :: rest).length < 64 := by
  rw [positionBefore_cons, List.take_length] at h
  have := length_le_advance rest
  simp only [List.length_cons]
  omega

/-- A used slot without a code is missed when all before it have codes (47_huffman_bitstream.md R365). -/
theorem blockBits_of_slotMiss {c : Config} (hc : c.wf = true) {dc y : Symbol} {rest : List Symbol} {k : Nat}
    (hdc : ∃ code, HasCode c.hufDc dc.cat.toNat code) (hused : SlotUsed (dc :: rest) (k + 1)) (hy : rest[k]? = some y)
    (hcodes : ∀ (j : Nat) (z : Symbol), j < k → rest[j]? = some z → ∃ code, HasCode c.hufAc (keyWord z.skip z.cat) code)
    (hmiss : NoCode c.hufAc (keyWord y.skip y.cat)) (len : Nat) :
    blockBits c (dc :: rest) len = raised .tableMiss (65536 * (k + 1) + keyWord y.skip y.cat) := by
  obtain ⟨-, -, hnoEob, hpos⟩ := hused
  obtain ⟨hk, hky⟩ := List.getElem?_eq_some_iff.mp hy
  have hsplit : rest = rest.take k ++ y :: rest.drop (k + 1) := by
    rw [← hky, ← List.drop_eq_getElem_cons hk, List.take_append_drop]
  have hopen : OpenSlots (rest.take k) 1 (positionBefore (dc :: rest) (k + 1)) :=
    openSlots_take hpos fun j z hj hz => hnoEob (j + 1) z (by omega) (by omega) (by simpa using hz)
  have hcodes' : ∀ z ∈ rest.take k, ∃ code, HasCode c.hufAc (keyWord z.skip z.cat) code := fun z hz => by
    obtain ⟨j, hj⟩ := List.mem_iff_getElem?.mp hz
    rw [List.getElem?_take] at hj
    split_ifs at hj with hjk
    exact hcodes j z hjk hj
  have hlen : 1 + (rest.take k).length = k + 1 := by
    rw [List.length_take, Nat.min_eq_left hk.le, Nat.add_comm]
  conv_lhs => rw [hsplit]
  refine blockBits_of_acBits_raised hc hdc hopen hcodes' ?_
  rw [hlen]
  exact acBits_miss hpos hmiss

/-- A buffer of coded slots that neither ends in EOB nor fills the block (47_huffman_bitstream.md R365). -/
theorem blockBits_of_open {c : Config} (hc : c.wf = true) {dc : Symbol} {rest : List Symbol}
    (hdc : ∃ code, HasCode c.hufDc dc.cat.toNat code)
    (hcodes : ∀ y ∈ rest, ∃ code, HasCode c.hufAc (keyWord y.skip y.cat) code)
    (hpos : positionBefore (dc :: rest) (rest.length + 1) < 64)
    (hnoEob : ∀ (j : Nat) (y : Symbol), rest[j]? = some y → ¬y.isEob) (len : Nat) :
    blockBits c (dc :: rest) len = raised .badOperand len := by
  have hopen := openSlots_take hpos fun j y _ => hnoEob j y
  rw [List.take_length] at hopen
  have h := blockBits_of_acBits_raised (len := len) (tail := []) hc hdc hopen hcodes (if_pos hpos)
  rwa [List.append_nil] at h

/-- RLE_LEN counts the symbols of a buffer of fewer than 64. -/
theorem rleLen_of_length_lt {s : State} (h : s.symbols.length < 64) : s.rleLen.toNat = s.symbols.length := by
  have := length_symbols s
  omega

/-- Settles O46: the serialisation codes the open slots and meets the first error after them. -/
theorem hufencReportsTheFirstError : Obligations.HufencReportsTheFirstError := by
  unfold Obligations.HufencReportsTheFirstError
  intro s hc dcOk slotsOk
  refine ⟨fun hnil => ?empty, fun y hy hmiss => ?dcMiss, fun hdc i y hused hy hslots hmiss => ?slotMiss,
    fun hdc hslots hused hends => ?unterminated⟩
  case empty =>
    have h : blockBits s.cfg s.symbols s.rleLen.toNat = raised .badOperand 0 := by rw [hnil, blockBits]
    exact endsInError_of_raised (exec_hufenc_of_raised h)
  case dcMiss =>
    obtain ⟨rest, hs⟩ := List.head?_eq_some_iff.mp (List.head?_eq_getElem?.trans hy)
    have h := blockBits_of_dcMiss hmiss rest s.rleLen.toNat
    rw [← hs] at h
    exact endsInError_of_raised (exec_hufenc_of_raised h)
  all_goals
    obtain ⟨dc, code, hdc0, hdccode⟩ := hdc
    obtain ⟨rest, hs⟩ := List.head?_eq_some_iff.mp (List.head?_eq_getElem?.trans hdc0)
    have hslot : ∀ j, s.symbols[j + 1]? = rest[j]? := fun j => by rw [hs, List.getElem?_cons_succ]
  case slotMiss =>
    obtain ⟨k, rfl⟩ : ∃ k, i = k + 1 := ⟨i - 1, by have := hused.1; omega⟩
    have h := blockBits_of_slotMiss hc ⟨code, hdccode⟩ (hs ▸ hused) ((hslot k).symm.trans hy)
      (fun j z hj hz => hslots (j + 1) z (by omega) (by omega) ((hslot j).trans hz)) hmiss s.rleLen.toNat
    rw [← hs] at h
    rw [Nat.add_assoc]
    exact endsInError_of_raised (exec_hufenc_of_raised h)
  case unterminated =>
    obtain ⟨hpos, hnoEob⟩ := open_of_not_ends (by rw [hs]; simp) hused hends
    have hcodes : ∀ y ∈ rest, ∃ code, HasCode s.cfg.hufAc (keyWord y.skip y.cat) code := fun y hy => by
      obtain ⟨j, hj⟩ := List.mem_iff_getElem?.mp hy
      obtain ⟨hlt, -⟩ := List.getElem?_eq_some_iff.mp hj
      exact hslots (j + 1) y (by omega) (by rw [hs]; simpa using hlt) ((hslot j).trans hj)
    rw [hs] at hpos
    have h := blockBits_of_open hc ⟨code, hdccode⟩ hcodes hpos
      (fun j y hy => hnoEob (j + 1) y (by omega) ((hslot j).trans hy)) s.rleLen.toNat
    rw [← hs] at h
    rw [← rleLen_of_length_lt (hs ▸ length_lt_of_position hpos)]
    exact endsInError_of_raised (exec_hufenc_of_raised h)

/-! ### HUFDEC -/

theorem exec_hufdec_of_parse {s : State} {out : List Symbol} {pos : Nat} (h : s.blockParse = .ok (out, pos)) :
    exec .hufdec s = .next { s with
      rlebuf := (s.setSymbols out).rlebuf
      rleLen := BitVec.ofNat 7 out.length
      reader := readerAt pos
      status := finished s.status } := by
  simp only [exec, execHufdec, h]
  rfl

theorem exec_hufdec_of_raised {s : State} {k : ErrKind} {info : Nat} (h : s.blockParse = raised k info) :
    exec .hufdec s = settle s (raised k info) := by
  simp only [exec, execHufdec, h, raised]

section
variable {s : State} {k : ErrKind} {info : Nat}

theorem blockParse_of_matchRaised (h : s.huffMatch s.cfg.hufDc s.cfg.dcMaxLen s.readPos = raised k info) :
    s.blockParse = raised k info := by
  simp only [State.blockParse, h, raised]

theorem blockParse_of_magnitudeRaised {cat pos : Nat}
    (hm : s.huffMatch s.cfg.hufDc s.cfg.dcMaxLen s.readPos = .ok (cat, pos))
    (h : s.bitRead cat pos 0 = raised k info) : s.blockParse = raised k info := by
  simp only [State.blockParse, hm, h, raised]

theorem acParse_of_matchRaised {fuel pos p : Nat} (hp : p < 64)
    (h : s.huffMatch s.cfg.hufAc s.cfg.acMaxLen pos = raised k info) : s.acParse (fuel + 1) pos p = raised k info := by
  simp only [State.acParse, if_neg (Nat.not_le.mpr hp), h, raised]

/-- Only a symbol of category 1 or more has magnitude bits to miss (47_huffman_bitstream.md R366). -/
theorem acParse_of_magnitudeRaised {fuel pos p key pos' : Nat} (hp : p < 64)
    (hm : s.huffMatch s.cfg.hufAc s.cfg.acMaxLen pos = .ok (key, pos')) (hcat : 1 ≤ key / 16)
    (h : s.bitRead (key / 16) pos' 0 = raised k info) : s.acParse (fuel + 1) pos p = raised k info := by
  have heob : ¬(key % 16 = 0 ∧ key / 16 = 0) := by omega
  have hzrl : ¬(key % 16 = 15 ∧ key / 16 = 0) := by omega
  simp only [State.acParse, if_neg (Nat.not_le.mpr hp), hm, if_neg heob, if_neg hzrl, h, raised]

/-- The parse after the first symbols of an open block ends in an error of the AC loop there. -/
theorem blockParse_of_acParseRaised {buf : List Symbol} {bits : List Bool} (hc : s.cfg.wf = true) (hne : buf ≠ [])
    (hopen : CodesOpenBlock s.cfg buf bits) (hs : s.streamHas s.readPos bits)
    (h : ∀ fuel p, p < 64 → s.acParse (fuel + 1) (s.readPos + bits.length) p = raised k info) :
    s.blockParse = raised k info := by
  obtain ⟨fuel, p, g, hp, hparse⟩ := blockParse_open hc hne hopen hs
  rw [hparse, h fuel p hp]
  rfl

end

/-- The error of a command that looks for a code at q where the input has none (47_huffman_bitstream.md R364). -/
theorem endsInError_of_noCode {i : Instr} {s : State} {t : List HuffEntry} {maxLen q : Nat} (hmax : 1 ≤ maxLen)
    (hno : ∀ e ∈ t, ¬s.streamHas q (bitString e.code e.len))
    (h : ∀ (k : ErrKind) (info : Nat), s.huffMatch t maxLen q = raised k info → exec i s = settle s (raised k info)) :
    if q + maxLen ≤ 8 * s.bsLen.toNat then EndsInError i s 5 q else EndsInError i s 6 (s.firstUnreadable q) := by
  have hfails := huffMatch_fails hmax hno
  split_ifs at hfails ⊢
  · exact endsInError_of_raised (h _ _ hfails)
  · exact endsInError_of_raised (h _ _ hfails)

/-- A code that the input has ends within it. -/
theorem code_end_le {s : State} {t : List HuffEntry} {maxLen q : Nat} (ht : GoodTable t maxLen) {e : HuffEntry}
    (he : e ∈ t) (hs : s.streamHas q (bitString e.code e.len)) : q + e.len ≤ 8 * s.bsLen.toNat := by
  have h1 := (ht.lengths he).1
  have hlast := (hs (e.len - 1) (by rw [length_bitString]; omega)).1
  omega

theorem bits_of_noSymbol {c : Config} {bits : List Bool} (h : CodesOpenBlock c [] bits) : bits = [] := by
  rcases h with ⟨-, h⟩ | ⟨⟨_, _, _, _, hcons, -⟩, -⟩
  · exact h
  · exact absurd hcons.symm (List.cons_ne_nil _ _)

section
variable {s : State} {buf : List Symbol} {bits : List Bool}

/-- HUFDEC where no code follows the first symbols of an open block. -/
theorem hufdec_of_noCode (hc : s.cfg.wf = true) (hopen : CodesOpenBlock s.cfg buf bits)
    (hs : s.streamHas s.readPos bits)
    (hno : ∀ e ∈ if buf = [] then s.cfg.hufDc else s.cfg.hufAc,
      ¬s.streamHas (s.readPos + bits.length) (bitString e.code e.len)) :
    if s.readPos + bits.length + (if buf = [] then s.cfg.dcMaxLen else s.cfg.acMaxLen) ≤ 8 * s.bsLen.toNat then
      EndsInError .hufdec s 5 (s.readPos + bits.length)
    else EndsInError .hufdec s 6 (s.firstUnreadable (s.readPos + bits.length)) := by
  by_cases hnil : buf = []
  · obtain rfl := bits_of_noSymbol (hnil ▸ hopen)
    simp only [if_pos hnil, List.length_nil, Nat.add_zero] at hno ⊢
    exact endsInError_of_noCode (maxLens_pos hc).1 hno fun k info h => exec_hufdec_of_raised (blockParse_of_matchRaised h)
  · simp only [if_neg hnil] at hno ⊢
    exact endsInError_of_noCode (maxLens_pos hc).2 hno fun k info h => exec_hufdec_of_raised
      (blockParse_of_acParseRaised hc hnil hopen hs fun fuel p hp => acParse_of_matchRaised hp h)

/-- HUFDEC where a code follows the first symbols of an open block, but not all of its magnitude bits. -/
theorem hufdec_of_noMagnitude (hc : s.cfg.wf = true) (hopen : CodesOpenBlock s.cfg buf bits)
    (hs : s.streamHas s.readPos bits) {e : HuffEntry} (he : e ∈ if buf = [] then s.cfg.hufDc else s.cfg.hufAc)
    (hcode : s.streamHas (s.readPos + bits.length) (bitString e.code e.len))
    (hshort : 8 * s.bsLen.toNat < s.readPos + bits.length + e.len + if buf = [] then e.key else e.key / 16) :
    EndsInError .hufdec s 6 (s.firstUnreadable (s.readPos + bits.length + e.len)) := by
  by_cases hnil : buf = []
  · obtain rfl := bits_of_noSymbol (hnil ▸ hopen)
    simp only [if_pos hnil, List.length_nil, Nat.add_zero] at he hcode hshort ⊢
    have hend := code_end_le (dcTable_good hc) he hcode
    have hm := huffMatch_finds (dcTable_good hc) he hcode
    have hr := bitRead_short (s := s) (v := 0) (by omega) hshort
    exact endsInError_of_raised (exec_hufdec_of_raised (blockParse_of_magnitudeRaised hm hr))
  · simp only [if_neg hnil] at he hshort
    have hend := code_end_le (acTable_good hc) he hcode
    have hm := huffMatch_finds (acTable_good hc) he hcode
    have hcat : 1 ≤ e.key / 16 := by omega
    have hr := bitRead_short (s := s) (v := 0) hcat hshort
    exact endsInError_of_raised (exec_hufdec_of_raised
      (blockParse_of_acParseRaised hc hnil hopen hs fun fuel p hp => acParse_of_magnitudeRaised hp hm hcat hr))

end

/-- Settles O47: the parse reads a block back, and meets the first error after the symbols of an open block. -/
theorem hufdecReadsBackABlock : Obligations.HufdecReadsBackABlock := by
  unfold Obligations.HufdecReadsBackABlock
  refine ⟨fun s buf bits hc hends hcodes hparsed hs => ?readsBack, fun s buf bits hc hopen hs =>
    ⟨hufdec_of_noCode hc hopen hs, fun e he hcode => hufdec_of_noMagnitude hc hopen hs he hcode⟩⟩
  case readsBack =>
    exact ⟨_, exec_hufdec_of_parse (blockParse_codes hc hends hcodes hparsed hs),
      fun i h64 => ⟨getElem?_eq_nth_setSymbols s h64, nth_setSymbols_of_length_le s h64⟩⟩

/-! ### One code -/

section
variable {s : State} {bits : List Bool} {key pos info : Nat} {k : ErrKind}

theorem exec_hufputdc_of_noCode (h : NoCode s.cfg.hufDc s.arg0.toNat) :
    exec .hufputdc s = settle s (raised .tableMiss s.arg0.toNat) := by
  simp only [exec, execHufputdc, State.arg0Nat, huffCode_none h]

/-- An AC key beyond 10 bits is no key, whatever its low bits (30_encoding.md R154). -/
theorem exec_hufputac_of_noCode (h : s.arg0.toNat / 1024 ≠ 0 ∨ NoCode s.cfg.hufAc (s.arg0.toNat % 1024)) :
    exec .hufputac s = settle s (raised .tableMiss s.arg0.toNat) := by
  have hnone : s.arg0Key.bind (huffCode s.cfg.hufAc) = none := by
    by_cases hk : s.arg0.toNat / 1024 = 0
    · have hno := h.resolve_left (not_not.mpr hk)
      rw [Nat.mod_eq_of_lt (by omega)] at hno
      rw [arg0Key_some hk, Option.bind_some, huffCode_none hno]
    · rw [arg0Key_none hk, Option.bind_none]
  simp only [exec, execHufputac, State.arg0Nat, hnone]

theorem exec_hufgetdc_of_match (h : s.huffMatch s.cfg.hufDc s.cfg.dcMaxLen s.readPos = .ok (key, pos)) :
    exec .hufgetdc s = .next { s with result := u32 key, reader := readerAt pos, status := finished s.status } := by
  simp only [exec, execHufgetdc, h]
  rfl

theorem exec_hufgetac_of_match (h : s.huffMatch s.cfg.hufAc s.cfg.acMaxLen s.readPos = .ok (key, pos)) :
    exec .hufgetac s = .next { s with result := u32 key, reader := readerAt pos, status := finished s.status } := by
  simp only [exec, execHufgetac, h]
  rfl

theorem exec_hufgetdc_of_raised (h : s.huffMatch s.cfg.hufDc s.cfg.dcMaxLen s.readPos = raised k info) :
    exec .hufgetdc s = settle s (raised k info) := by
  simp only [exec, execHufgetdc, h, raised]

theorem exec_hufgetac_of_raised (h : s.huffMatch s.cfg.hufAc s.cfg.acMaxLen s.readPos = raised k info) :
    exec .hufgetac s = settle s (raised k info) := by
  simp only [exec, execHufgetac, h, raised]

end

/-- Settles O48: a key with a code has it appended; a key without one is missed. -/
theorem hufputAppendsTheKeysCode : Obligations.HufputAppendsTheKeysCode := by
  unfold Obligations.HufputAppendsTheKeysCode
  refine fun s bits hinv => ⟨fun hcode hroom => ?dc, fun hno => endsInError_of_raised (exec_hufputdc_of_noCode hno),
    fun hk hcode hroom => ?ac, fun hno => endsInError_of_raised (exec_hufputac_of_noCode hno)⟩
  case dc =>
    exact appends_of_room (exec_hufputdc_of_code (huffCode_of (dcTable_good hinv.params) hcode)) hinv hroom
  case ac =>
    rw [Nat.mod_eq_of_lt (by omega)] at hcode
    exact appends_of_room (exec_hufputac_of_code hk (huffCode_of (acTable_good hinv.params) hcode)) hinv hroom

/-- Settles O49: both commands match from the reader's position (R364). -/
theorem hufgetReadsACode : Obligations.HufgetReadsACode := by
  unfold Obligations.HufgetReadsACode
  intro s hc
  obtain ⟨hdcMax, hacMax⟩ := maxLens_pos hc
  exact ⟨fun e he hs => exec_hufgetdc_of_match (huffMatch_finds (dcTable_good hc) he hs),
    fun e he hs => exec_hufgetac_of_match (huffMatch_finds (acTable_good hc) he hs),
    fun hno => endsInError_of_noCode hdcMax hno fun k info => exec_hufgetdc_of_raised,
    fun hno => endsInError_of_noCode hacMax hno fun k info => exec_hufgetac_of_raised⟩

/-! ### Raw bits and signed magnitude -/

section
variable {s : State}

theorem exec_putbits_of_count_gt (hn : 16 < s.arg1.toNat) :
    exec .putbits s = settle s (raised .badOperand s.arg1.toNat) := by
  simp only [exec, execPutbits, bitCount_error hn, raised]

theorem exec_smwrite_of_count_gt (hn : 16 < s.arg1.toNat) :
    exec .smwrite s = settle s (raised .badOperand s.arg1.toNat) := by
  simp only [exec, execSmwrite, bitCount_error hn, raised]

end

/-- Settles O50: each command writes its n bits, for which there is room. -/
theorem putbitsAndSmwriteAppendTheirBits : Obligations.PutbitsAndSmwriteAppendTheirBits := by
  unfold Obligations.PutbitsAndSmwriteAppendTheirBits
  intro s hinv n raw
  refine ⟨fun hn hroom => appends_of_room (exec_putbits_of_count hn) hinv hroom, fun hn hroom => ?smwrite,
    fun hn => ⟨endsInError_of_raised (exec_putbits_of_count_gt hn),
      endsInError_of_raised (exec_smwrite_of_count_gt hn)⟩⟩
  case smwrite =>
    rw [← smBits_eq_signedMagnitude]
    exact appends_of_room (exec_smwrite_of_count hn) hinv ((roomFor_congr (by simp [raw, n])).mpr hroom)

/-! ### Padding and clearing -/

section
variable {s : State}

theorem exec_flush_of_aligned (h : s.writer.nb = 0) : exec .flush s = .next { s with status := finished s.status } := by
  simp only [exec, execFlush, if_pos h]
  rfl

theorem exec_flush_of_pending (h : s.writer.nb ≠ 0) :
    exec .flush s = settle s (s.bitWrite (List.replicate (8 - s.writer.nb.toNat) false)) := by
  simp only [exec, execFlush, if_neg h]

/-- The padding completes one byte (47_huffman_bitstream.md R375). -/
theorem roomFor_padding : s.roomFor (List.replicate (8 - s.writer.nb.toNat) false) ↔
    s.writer.wptr.toNat < s.cfg.bsCap := by
  have := s.writer.nb.isLt
  rw [State.roomFor, List.length_replicate, Nat.add_sub_cancel' (by omega)]
  omega

end

/-- Settles O51: FLUSH appends the padding, which needs room for one byte. -/
theorem flushPadsToAByte : Obligations.FlushPadsToAByte := by
  unfold Obligations.FlushPadsToAByte
  refine fun s hinv => ⟨by decide, exec_flush_of_aligned, fun hnb hlt => ?pads, fun hnb hfull => ?full⟩
  case pads => exact appends_of_room (exec_flush_of_pending hnb) hinv (roomFor_padding.mpr hlt)
  case full =>
    exact endsInError_of_full (exec_flush_of_pending hnb) (mt roomFor_padding.mp (by omega))

/-- Settles O55: each command's effect is the cleared register. -/
theorem bswrstAndBsrrstClearTheirPointers : Obligations.BswrstAndBsrrstClearTheirPointers := by
  unfold Obligations.BswrstAndBsrrstClearTheirPointers
  exact ⟨by decide, by decide, fun s => ⟨rfl, rfl⟩⟩

/-! ### The round trip of signed magnitude -/

/-- From a state a run reaches, a command that ends in an error does not look complete (60_exceptions.md R471). -/
theorem enterError_status_ne_finished {s : State} (h : s.Inv) (e : Raised) :
    (s.enterError e).status ≠ finished s.status := fun he => by
  have herr : s.status.err = true := (congrArg Status.err he).symm
  have hdone : s.status.done = true := congrArg Status.done he
  exact h.doneOrErr ⟨hdone, herr⟩

/-- What SMWRITE appends is the signed-magnitude code, of at most 16 bits. -/
theorem bits_of_smwrite {s : State} {m : Memory Byte} {acc : Byte} {bits : List Bool} (hinv : s.Inv)
    (h : exec .smwrite s = .next (s.appended bits m acc))
    (hw : (s.appended bits m acc).written = s.written ++ bits) :
    s.arg1.toNat ≤ 16 ∧ bits = smBits s.arg0.toInt s.arg1.toNat := by
  have hnoError : ∀ e, exec .smwrite s ≠ .next (s.enterError e) := fun e he => by
    rw [h] at he
    exact enterError_status_ne_finished hinv e (congrArg State.status (Host.Outcome.next.inj he)).symm
  have hn : s.arg1.toNat ≤ 16 := by
    by_contra hn
    exact hnoError _ (exec_smwrite_of_count_gt (by omega))
  have hroom : s.roomFor (smBits s.arg0.toInt s.arg1.toNat) := by
    by_contra hroom
    exact hnoError _ ((exec_smwrite_of_count hn).trans (congrArg (settle s) (bitWrite_full hroom)))
  obtain ⟨m', acc', h', hw', -⟩ := appends_of_room (exec_smwrite_of_count hn) hinv hroom
  have hsame := Host.Outcome.next.inj (h.symm.trans h')
  rw [hsame, hw'] at hw
  exact ⟨hn, (List.append_cancel_left hw).symm⟩

/-- Settles O54: the bits written are the code of v in its own category, which reads back as v. -/
theorem signedMagnitudeRoundTrips : Obligations.SignedMagnitudeRoundTrips := by
  unfold Obligations.SignedMagnitudeRoundTrips
  intro s t m acc bits hinv hcat h hw harg hs
  obtain ⟨hn, rfl⟩ := bits_of_smwrite hinv h hw
  have hr := bitRead_has_zero hs
  rw [length_smBits, ← harg] at hr
  refine ⟨_, exec_smread_of_read (harg ▸ hn) hr, ?_⟩
  rw [harg, smValue_smBits hcat, BitVec.ofInt_toInt]

end Sys2Proof.Machine

/-! PROOFS. NOP and the block transfers (spec/49_transfer_system.md): what a block of an image is copied to and from. -/

namespace Sys2Proof.Machine

/-- Settles O27: the decoder gives NOP for its encoding alone. -/
theorem nopOnlyCompletes : Obligations.NopOnlyCompletes := by
  unfold Obligations.NopOnlyCompletes
  have hzero : encode .nop = 0 := by decide
  refine ⟨hzero, fun w => ?_, fun s => rfl⟩
  rw [decodeInvertsEncode w .nop, hzero]
  exact ⟨fun h => h.2.symm, fun h => ⟨rfl, h.symm⟩⟩

/-! ### Bulk writes to the places of a block -/

section
variable {α : Type} [DecidableEq α] [Inhabited α] {m : Memory α} {n : Nat} {place : Nat → Nat} {f : Nat → α}

/-- A bulk write to n different places puts each element at its place. -/
theorem read_writeAll_places (hm : Memory.wf m = true) (hinj : ∀ j k, place j = place k → j = k) {k : Nat} (hk : k < n) :
    Memory.read (Memory.writeAll m ((List.range n).map fun j => (place j, f j))) (place k) = f k := by
  refine read_writeAll_mem _ hm ?_ (List.mem_map.mpr ⟨k, List.mem_range.mpr hk, rfl⟩)
  rw [List.map_map]
  exact List.nodup_range.map fun j k => hinj j k

theorem read_writeAll_off_places (hm : Memory.wf m = true) {i : Nat} (hi : ∀ k < n, i ≠ place k) :
    Memory.read (Memory.writeAll m ((List.range n).map fun j => (place j, f j))) i = Memory.read m i := by
  refine read_writeAll_other _ hm fun p hp => ?_
  obtain ⟨k, hk, rfl⟩ := List.mem_map.mp hp
  exact (hi k (List.mem_range.mp hk)).symm

end

section
variable {s : State} {b : Nat}

/-! ### Blocks of pixels -/

theorem exec_loadblk_of_valid (ch : Channel) (hg : s.geometryValid = true) (hb : b < s.numBlocks) :
    exec (.loadblk ch b) s = .next { s with
      fblk := blockOf fun n => (Memory.read s.ycc (s.pix b n)).chan ch
      status := finished s.status } := by
  simp only [exec, execLoadblk, checkBlock_ok hg hb]
  rfl

theorem exec_storeblk_of_valid (ch : Channel) (hg : s.geometryValid = true) (hb : b < s.numBlocks) :
    exec (.storeblk ch b) s = .next { s with
      ycc := Memory.writeAll s.ycc
        ((List.range 64).map fun n => (s.pix b n, (Memory.read s.ycc (s.pix b n)).setChan ch (nth s.fblk n)))
      status := finished s.status } := by
  simp only [exec, execStoreblk, checkBlock_ok hg hb, settle_ok, State.complete, finished]

end

/-- Settles O56: element 8r + c is taken from the pixel in row r and column c of the block. -/
theorem loadblkCopiesTheChannel : Obligations.LoadblkCopiesTheChannel := by
  unfold Obligations.LoadblkCopiesTheChannel
  refine fun s ch b hg hb => ⟨_, exec_loadblk_of_valid ch hg hb, fun r c hr hc => ?_⟩
  rw [nth_blockOf _ _ (by omega), pix_rc s b hc]

/-- Settles O57: the 64 pixels of a block are different, and each is written with one channel replaced. -/
theorem storeblkWritesOneChannel : Obligations.StoreblkWritesOneChannel := by
  unfold Obligations.StoreblkWritesOneChannel
  refine fun s ch b hg hb hm => ⟨_, exec_storeblk_of_valid ch hg hb, wf_writeAll _ hm, fun r c hr hc => ?written,
    fun i hi => ?kept⟩
  case written =>
    rw [← pix_rc s b hc, read_writeAll_places hm (fun _ _ => pix_inj hg) (show 8 * r + c < 64 by omega)]
    exact ⟨by rw [chan_setChan, if_pos rfl], fun ch' hne => by rw [chan_setChan, if_neg hne]⟩
  case kept =>
    exact read_writeAll_off_places hm fun k hk => hi (k / 8) (k % 8) (by omega) (by omega)

/-! ### Blocks of coefficients -/

section
variable {s : State} {b : Nat}

theorem exec_loadvec_of_valid (ch : Channel) (hg : s.geometryValid = true) (hb : b < s.numBlocks) :
    exec (.loadvec ch b) s = .next { s with
      vec := blockOf fun k => Memory.read s.coef (coefIx ch b k)
      status := finished s.status } := by
  simp only [exec, execLoadvec, checkBlock_ok hg hb]
  rfl

theorem exec_storevec_of_valid (ch : Channel) (hg : s.geometryValid = true) (hb : b < s.numBlocks) :
    exec (.storevec ch b) s = .next { s with
      coef := Memory.writeAll s.coef ((List.range 64).map fun k => (coefIx ch b k, nth s.vec k))
      status := finished s.status } := by
  simp only [exec, execStorevec, checkBlock_ok hg hb, settle_ok, State.complete, finished]

theorem coefIx_right_inj (ch : Channel) (b j k : Nat) (h : coefIx ch b j = coefIx ch b k) : j = k := Nat.add_left_cancel h

end

/-- Settles O58: coefficient k of the block is copied to and from position k of VEC. -/
theorem loadvecAndStorevecCopyTheVector : Obligations.LoadvecAndStorevecCopyTheVector := by
  unfold Obligations.LoadvecAndStorevecCopyTheVector
  refine fun s ch b hg hb => ⟨⟨_, exec_loadvec_of_valid ch hg hb, fun k hk => nth_blockOf _ k hk⟩,
    fun hm => ⟨_, exec_storevec_of_valid ch hg hb, wf_writeAll _ hm, fun k hk => ?_, fun n hn => ?_⟩⟩
  · exact read_writeAll_places hm (coefIx_right_inj ch b) hk
  · exact read_writeAll_off_places hm hn

end Sys2Proof.Machine

/-! PROOFS. Exceptions (spec/60_exceptions.md): the illegal words, the two ends of a command, the sticky error, and the
checks of geometry and block index. -/

namespace Sys2Proof.Machine

/-! ### Illegal words -/

theorem extract_opc (w : Word) : (w.extractLsb' 0 8).toNat = opcOf w := by
  simp [opcOf]

theorem extract_ch_eq_zero {w : Word} : w.extractLsb' 8 2 = 0 ↔ chOf w = 0 := by
  simp [← BitVec.toNat_inj, chOf, Nat.shiftRight_eq_div_pow]

theorem extract_rsv_eq_zero {w : Word} : w.extractLsb' 10 6 = 0 ↔ rsvOf w = 0 := by
  simp [← BitVec.toNat_inj, rsvOf, Nat.shiftRight_eq_div_pow]

theorem extract_blk_eq_zero {w : Word} : w.extractLsb' 16 16 = 0 ↔ blkOf w = 0 := by
  have := blkOf_lt w
  simp [← BitVec.toNat_inj, blkOf, Nat.shiftRight_eq_div_pow] at this ⊢
  omega

/-- A legal word by its fields (30_encoding.md R151 to R153, R156). -/
theorem not_illegalWord_iff (w : Word) : ¬IllegalWord w ↔ opcOf w ∈ legalOpcodes ∧ rsvOf w = 0 ∧
    (opcOf w ∉ chOpcodes → chOf w = 0) ∧ (opcOf w ∈ chOpcodes → chOf w ≠ 3) ∧ (opcOf w ∉ blkOpcodes → blkOf w = 0) := by
  simp only [IllegalWord, extract_opc, ne_eq, extract_rsv_eq_zero, extract_ch_eq_zero, extract_ch_eq_three,
    extract_blk_eq_zero, not_or, not_and, not_not]

/-- A command's code is a legal one, and a field its code does not use is 0 (30_encoding.md R151, R152, R156). -/
theorem opcodeOf_legal (i : Instr) : opcodeOf i ∈ legalOpcodes ∧ (opcodeOf i ∉ chOpcodes → (fieldsOf i).1 = 0) ∧
    (opcodeOf i ∉ blkOpcodes → (fieldsOf i).2 = 0) := by
  cases i <;> simp [opcodeOf, fieldsOf, legalOpcodes, chOpcodes, blkOpcodes]

/-- A legal code has a row in the opcode map, of the shape that the two lists of field users say (R156). -/
theorem lookup_of_legal : ∀ n ∈ legalOpcodes,
    (∃ i, opcodeMap.lookup n = some (.plain i) ∧ n ∉ chOpcodes ∧ n ∉ blkOpcodes) ∨
    (∃ f, opcodeMap.lookup n = some (.withCh f) ∧ n ∈ chOpcodes ∧ n ∉ blkOpcodes) ∨
    ∃ f, opcodeMap.lookup n = some (.withChBlk f) ∧ n ∈ chOpcodes := by
  simp [legalOpcodes, chOpcodes, blkOpcodes, opcodeMap, List.lookup]

theorem not_illegalWord_of_decode {w : Word} {i : Instr} (h : decode w = .ok i) : ¬IllegalWord w := by
  obtain ⟨hwf, rfl⟩ := encode_of_decode h
  obtain ⟨hrsv, hopc, hch, hblk⟩ := fields_encode hwf
  obtain ⟨hlegal, hnoCh, hnoBlk⟩ := opcodeOf_legal i
  have hle := fieldCh_le i
  rw [not_illegalWord_iff, hrsv, hopc, hch, hblk]
  exact ⟨hlegal, rfl, hnoCh, fun _ => by omega, hnoBlk⟩

theorem exists_decode_of_legal {w : Word} (h : ¬IllegalWord w) : ∃ i, decode w = .ok i := by
  obtain ⟨hlegal, hrsv, hnoCh, hch, hnoBlk⟩ := (not_illegalWord_iff w).mp h
  unfold decode
  rw [if_neg (not_not.mpr hrsv)]
  rcases lookup_of_legal _ hlegal with ⟨i, hl, hc, hb⟩ | ⟨f, hl, hc, hb⟩ | ⟨f, hl, hc⟩ <;> rw [hl]
  · exact ⟨_, ofShape_plain (hnoCh hc) (hnoBlk hb)⟩
  · obtain ⟨ch, hno⟩ := exists_channelNo (hch hc)
    exact ⟨_, ofShape_withCh hno (hnoBlk hb)⟩
  · obtain ⟨ch, hno⟩ := exists_channelNo (hch hc)
    exact ⟨_, ofShape_withChBlk hno rfl⟩

theorem illegalWord_iff (w : Word) : IllegalWord w ↔ ∀ i, decode w ≠ .ok i :=
  ⟨fun h i hi => not_illegalWord_of_decode hi h, fun h => by
    by_contra hlegal
    obtain ⟨i, hi⟩ := exists_decode_of_legal hlegal
    exact h i hi⟩

theorem coreTurn_illegal {s : State} (hb : s.status.busy = true) (h : IllegalWord s.cmd) :
    coreTurn s = .next (s.enterError ⟨.illegalCmd, s.cmd⟩) := by
  rw [coreTurn, if_pos hb, runCommand]
  cases hd : decode s.cmd with
  | ok i => exact absurd hd ((illegalWord_iff _).mp h i)
  | error _ => rfl

/-- Settles O2: a word decodes exactly when its fields are legal, and the core's turn on any other is error entry. -/
theorem illegalWordEndsInIllegalCmd : Obligations.IllegalWordEndsInIllegalCmd := by
  unfold Obligations.IllegalWordEndsInIllegalCmd
  refine ⟨illegalWord_iff, fun s hb h => ⟨fun hh => ?_, fun rest hh => ?_⟩⟩
  · exact (step_nil hh).trans (coreTurn_illegal hb h)
  · exact (step_pass hh).trans (coreTurn_illegal (s := { s with host := rest }) hb h)

/-! ### The two ends of a command -/

/-- Settles O10: a command settles, and from a busy state of the invariant the end it takes sets the one flag. -/
theorem commandEndsInDoneOrInError : Obligations.CommandEndsInDoneOrInError := by
  unfold Obligations.CommandEndsInDoneOrInError
  refine ⟨fun i s => ?_, rfl, rfl, rfl, rfl, rfl, rfl, rfl, rfl, rfl⟩
  obtain ⟨r, hexec, htouches⟩ := exec_cases i s
  rw [hexec]
  cases r with
  | ok u =>
    obtain ⟨hstatus, hinfo⟩ : u.status = s.status ∧ u.errInfo = s.errInfo :=
      ⟨(htouches u rfl).keeps.status, (htouches u rfl).keeps.errInfo⟩
    refine ⟨_, settle_ok s u, .inl ⟨congrArg finished hstatus, hinfo⟩, fun hinv hb => ?_⟩
    have herr := (hinv.busyAlone hb).2
    rw [← hstatus] at herr
    simp [herr]
  | error e =>
    refine ⟨_, settle_error s e, .inr ⟨e, rfl⟩, fun hinv hb => ?_⟩
    simp [(hinv.busyAlone hb).1]

/-! ### The sticky error -/

/-- What the error leaves the host, and CMD, are the same in two states (60_exceptions.md R466). -/
structure KeepsError (s t : State) : Prop where
  err : t.status.err = s.status.err
  errCode : t.status.errCode = s.status.errCode
  busy : t.status.busy = s.status.busy
  errInfo : t.errInfo = s.errInfo
  cmd : t.cmd = s.cmd

/-- A write to CMD while ERR = 1 is dropped (60_exceptions.md R466). -/
theorem writeCmd_of_err {s : State} (h : s.status.err = true) (w : Word) : s.writeCmd w = s.dropWrite := by
  rw [State.writeCmd, h, Bool.or_true, if_pos rfl]

/-- A write keeps the error unless it clears it or resets the core (60_exceptions.md R466, R468). -/
theorem writeAt_keepsError {s : State} (he : s.status.err = true) (w : Word) (t : Target) :
    KeepsError s (s.writeAt w t) ∨ (t = .csr .status ∧ w.getLsbD 2 = true) ∨ (t = .csr .ctrl ∧ w.getLsbD 31 = true) := by
  have hkept : KeepsError s s := ⟨rfl, rfl, rfl, rfl, rfl⟩
  cases t with
  | csr r =>
    cases r with
    | status =>
      cases hw : w.getLsbD 2 with
      | true => exact .inr (.inl ⟨rfl, rfl⟩)
      | false =>
        refine .inl ?_
        rw [State.writeAt, State.writeCsr, writeStatus_eq, hw]
        exact ⟨by simp, rfl, rfl, rfl, rfl⟩
    | ctrl =>
      cases hw : w.getLsbD 31 with
      | true => exact .inr (.inr ⟨rfl, rfl⟩)
      | false =>
        refine .inl ?_
        rw [State.writeAt, State.writeCsr, State.writeCtrl, hw]
        exact { hkept with }
    | cmd =>
      refine .inl ?_
      rw [State.writeAt, State.writeCsr, writeCmd_of_err he]
      exact { hkept with }
    | _ => exact .inl { hkept with }
  | _ => exact .inl { hkept with }

theorem busRead_keepsError (s : State) (a : Word) : KeepsError s (s.busRead a) := by
  obtain ⟨r, n, hr, -⟩ := busRead_shape s a
  rw [hr]
  exact ⟨rfl, rfl, rfl, rfl, rfl⟩

theorem busWrite_keepsError {s : State} (he : s.status.err = true) (hb : s.status.busy = false) (a w : Word) :
    KeepsError s (s.busWrite a w) ∨ (a = 0x00C ∧ w.getLsbD 2 = true) ∨ (a = 0x008 ∧ w.getLsbD 31 = true) := by
  rw [busWrite_open rfl (.inl hb)]
  rcases writeAt_keepsError he w (targetOf s.cfg a.toNat) with k | ⟨ht, hw⟩ | ⟨ht, hw⟩
  · exact .inl { k with }
  · exact .inr (.inl ⟨BitVec.eq_of_toNat_eq (targetOf_status ht), hw⟩)
  · exact .inr (.inr ⟨BitVec.eq_of_toNat_eq (targetOf_ctrl ht), hw⟩)

/-- Settles O17: the core waits, and a host write that keeps the error neither clears it nor resets the core. -/
theorem stickyErrorDropsCommands : Obligations.StickyErrorDropsCommands := by
  unfold Obligations.StickyErrorDropsCommands
  refine fun s t he hb hs => ⟨fun w rest hh => ?dropped, ?kept⟩
  case dropped =>
    rw [step_write_open hh (targetOf_word_cmd _) (.inl hb), State.writeAt, State.writeCsr,
      writeCmd_of_err (s := { s with host := rest }) he] at hs
    cases hs
    rfl
  case kept =>
    have of_keeps : ∀ rest, KeepsError { s with host := rest } t → t.status.err = true ∧
        t.status.errCode = s.status.errCode ∧ t.errInfo = s.errInfo ∧ t.cmd = s.cmd ∧ t.status.busy = false :=
      fun rest ⟨herr, hcode, hbusy, hinfo, hcmd⟩ => ⟨herr.trans he, hcode, hinfo, hcmd, hbusy.trans hb⟩
    obtain ⟨rest, ⟨a, -, rfl⟩ | ⟨a, w, hh, rfl⟩ | hturn⟩ := step_cases hs
    · exact .inl (of_keeps rest (busRead_keepsError _ a))
    · rcases busWrite_keepsError (s := { s with host := rest }) he hb a w with k | ⟨rfl, hw⟩ | ⟨rfl, hw⟩
      · exact .inl (of_keeps rest k)
      · exact .inr (.inl ⟨w, rest, hh, hw⟩)
      · exact .inr (.inr ⟨w, rest, hh, hw⟩)
    · rw [coreTurn_idle (s := { s with host := rest }) hb] at hturn
      cases hturn
      exact .inl (of_keeps rest ⟨rfl, rfl, rfl, rfl, rfl⟩)

/-! ### The checks of geometry and block index -/

theorem numBlocks_of_valid {s : State} (h : s.geometryValid = true) :
    s.numBlocks = (s.imgW.toNat / 8) * (s.imgH.toNat / 8) := if_pos h

theorem numBlocks_of_invalid {s : State} (h : s.geometryValid = false) : s.numBlocks = 0 := by
  rw [State.numBlocks, h, if_neg Bool.false_ne_true]

/-- A block command whose check fails ends in the check's error (60_exceptions.md R462, R463). -/
theorem exec_block_of_error {s : State} {b : Nat} {e : Raised} (h : s.checkBlock b = .error e) (ch : Channel) :
    ∀ i ∈ [Instr.loadblk ch b, .storeblk ch b, .loadvec ch b, .storevec ch b], exec i s = .next (s.enterError e) := by
  simp only [List.mem_cons, List.not_mem_nil, or_false]
  rintro i (rfl | rfl | rfl | rfl)
  · simp only [exec, execLoadblk, h, settle_error]
  · simp only [exec, execStoreblk, h, settle_error]
  · simp only [exec, execLoadvec, h, settle_error]
  · simp only [exec, execStorevec, h, settle_error]

/-- An image command on an invalid geometry (60_exceptions.md R463). -/
theorem exec_image_of_invalid {s : State} (h : s.geometryValid = false) (ch : Channel) :
    ∀ i ∈ [Instr.cscFwd, .cscInv, .subsample, .dcenc ch, .dcdec ch], EndsInError i s 2 s.geometryInfo := by
  have hg := checkGeometry_error h
  simp only [List.mem_cons, List.not_mem_nil, or_false]
  rintro i (rfl | rfl | rfl | rfl | rfl)
  · simp only [EndsInError, exec, execCscFwd, hg, settle_error]
    rfl
  · simp only [EndsInError, exec, execCscInv, hg, settle_error]
    rfl
  · simp only [EndsInError, exec, execSubsample, hg, settle_error]
    rfl
  · exact exec_dcenc_of_invalid ch h
  · simp only [EndsInError, exec, execDcdec, hg, settle_error]
    rfl

/-- Settles O26: a valid geometry has a block, and the check of the four commands fails from NUM_BLOCKS on. -/
theorem blockBeyondTheImageIsBlkRange : Obligations.BlockBeyondTheImageIsBlkRange := by
  unfold Obligations.BlockBeyondTheImageIsBlkRange
  exact fun s ch b _ hg => ⟨numBlocks_pos hg, fun hb => exec_block_of_error (checkBlock_range hg hb) ch⟩

/-- The state with another image size (10_state.md R40). -/
def State.withGeometry (s : State) (w h : BitVec 16) : State := { s with imgW := w, imgH := h }

section
variable (s : State) (w h : BitVec 16)

@[simp] theorem withGeometry_bitAt (pos : Nat) : (s.withGeometry w h).bitAt pos = s.bitAt pos := rfl

@[simp] theorem withGeometry_cfg : (s.withGeometry w h).cfg = s.cfg := rfl

@[simp] theorem withGeometry_readPos : (s.withGeometry w h).readPos = s.readPos := rfl

@[simp] theorem withGeometry_fblk : (s.withGeometry w h).fblk = s.fblk := rfl

@[simp] theorem withGeometry_quantTable (ch : Channel) : (s.withGeometry w h).quantTable ch = s.quantTable ch := rfl

@[simp] theorem withGeometry_symbols : (s.withGeometry w h).symbols = s.symbols := rfl

@[simp] theorem withGeometry_rleLen : (s.withGeometry w h).rleLen = s.rleLen := rfl

@[simp] theorem withGeometry_writer : (s.withGeometry w h).writer = s.writer := rfl

@[simp] theorem withGeometry_arg0Nat : (s.withGeometry w h).arg0Nat = s.arg0Nat := rfl

@[simp] theorem withGeometry_arg0Key : (s.withGeometry w h).arg0Key = s.arg0Key := rfl

@[simp] theorem withGeometry_arg0Signed : (s.withGeometry w h).arg0Signed = s.arg0Signed := rfl

@[simp] theorem withGeometry_bitCount : (s.withGeometry w h).bitCount = s.bitCount := rfl

@[simp] theorem withGeometry_bitRead (n pos v : Nat) : (s.withGeometry w h).bitRead n pos v = s.bitRead n pos v := by
  induction n generalizing pos v with
  | zero => rfl
  | succ n ih => simp only [State.bitRead, withGeometry_bitAt, ih]

theorem withGeometry_huffLoop (t : List HuffEntry) (start more pos v len : Nat) :
    (s.withGeometry w h).huffLoop t start more pos v len = s.huffLoop t start more pos v len := by
  induction more generalizing pos v len with
  | zero => rfl
  | succ more ih => simp only [State.huffLoop, withGeometry_bitAt, ih]

@[simp] theorem withGeometry_huffMatch (t : List HuffEntry) (maxLen pos : Nat) :
    (s.withGeometry w h).huffMatch t maxLen pos = s.huffMatch t maxLen pos :=
  withGeometry_huffLoop s w h t pos (maxLen - 1) pos 0 0

@[simp] theorem withGeometry_acParse (fuel pos p : Nat) :
    (s.withGeometry w h).acParse fuel pos p = s.acParse fuel pos p := by
  induction fuel generalizing pos p with
  | zero => rfl
  | succ fuel ih => simp only [State.acParse, withGeometry_cfg, withGeometry_huffMatch, withGeometry_bitRead, ih]

@[simp] theorem withGeometry_blockParse : (s.withGeometry w h).blockParse = s.blockParse := by
  simp only [State.blockParse, withGeometry_cfg, withGeometry_readPos, withGeometry_huffMatch, withGeometry_bitRead,
    withGeometry_acParse]

@[simp] theorem withGeometry_bitWrite (bits : List Bool) :
    (s.withGeometry w h).bitWrite bits = (s.bitWrite bits).map (·.withGeometry w h) := by
  unfold State.bitWrite
  rw [apply_ite (Except.map _)]
  rfl

/-- An effect on the state with another image size, settled there, ends as it does on the state itself. -/
theorem settle_withGeometry (r : Except Raised State) : ∃ t, settle s r = .next t ∧
    settle (s.withGeometry w h) (r.map (·.withGeometry w h)) = .next (t.withGeometry w h) := by
  cases r with
  | ok u => exact ⟨_, rfl, rfl⟩
  | error e => exact ⟨_, rfl, rfl⟩

/-- The nine commands that read the geometry (60_exceptions.md R460, R463). -/
def ReadsGeometry (i : Instr) : Prop :=
  ∃ ch b, i ∈ [Instr.cscFwd, .cscInv, .subsample, .dcenc ch, .dcdec ch, .loadblk ch b, .storeblk ch b, .loadvec ch b,
    .storevec ch b]

/-- Every other command's effect is computed without the geometry, and keeps it. -/
theorem exec_withGeometry {i : Instr} (hi : ¬ReadsGeometry i) : ∃ r, exec i s = settle s r ∧
    exec i (s.withGeometry w h) = settle (s.withGeometry w h) (r.map (·.withGeometry w h)) := by
  cases i <;> simp only [exec,
    execNop, execFdct, execIdct, execQuant, execDequant, execZigzag, execUnzigzag, execRleenc, execRledec, execCategory,
    execHufenc, execHufdec, execHufputdc, execHufputac, execHufgetdc, execHufgetac, execPutbits, execGetbits, execFlush,
    execBswrst, execBsrrst, execSmwrite, execSmread]
  case cscFwd | cscInv | subsample => exact absurd ⟨.y, 0, by simp⟩ hi
  case dcenc ch | dcdec ch => exact absurd ⟨ch, 0, by simp⟩ hi
  case loadblk ch b | storeblk ch b | loadvec ch b | storevec ch b => exact absurd ⟨ch, b, by simp⟩ hi
  all_goals refine ⟨_, rfl, congrArg (settle _) ?_⟩
  case nop | fdct | idct | dequant | zigzag | unzigzag | rleenc | category | bswrst | bsrrst => rfl
  case quant =>
    simp only [withGeometry_fblk, withGeometry_quantTable]
    split <;> rfl
  case hufdec =>
    rw [withGeometry_blockParse]
    split <;> rfl
  case hufgetdc | hufgetac =>
    rw [withGeometry_cfg, withGeometry_readPos, withGeometry_huffMatch]
    split <;> rfl
  case rledec =>
    rw [withGeometry_rleLen, apply_ite (Except.map _)]
    rfl
  case flush =>
    rw [withGeometry_writer, withGeometry_bitWrite, apply_ite (Except.map _)]
    rfl
  case hufenc | hufputdc | hufputac | putbits | smwrite =>
    simp only [withGeometry_cfg, withGeometry_symbols, withGeometry_rleLen, withGeometry_arg0Nat, withGeometry_arg0Key,
      withGeometry_arg0Signed, withGeometry_bitCount, withGeometry_bitWrite]
    split <;> rfl
  case getbits | smread =>
    simp only [withGeometry_bitCount, withGeometry_readPos, withGeometry_bitRead]
    split
    · rfl
    · split <;> rfl

end

/-- Settles O25: the nine commands check the geometry first, and no other command's effect depends on it. -/
theorem badGeometryStopsTheNineCommands : Obligations.BadGeometryStopsTheNineCommands := by
  unfold Obligations.BadGeometryStopsTheNineCommands
  refine ⟨fun s => ⟨geometryValid_iff s, numBlocks_of_valid, numBlocks_of_invalid, fun hg ch b i hi => ?nine⟩,
    fun i s w h hi => ?others⟩
  case nine =>
    rcases List.mem_append (s := [Instr.cscFwd, .cscInv, .subsample, .dcenc ch, .dcdec ch]).mp hi with hi | hi
    · exact exec_image_of_invalid hg ch i hi
    · exact exec_block_of_error (checkBlock_badGeometry b hg) ch i hi
  case others =>
    obtain ⟨r, hs, hgeo⟩ := exec_withGeometry s w h (i := i) fun ⟨ch, b, hm⟩ => hi ch b hm
    obtain ⟨t, ht, htgeo⟩ := settle_withGeometry s w h r
    exact ⟨t, hs.trans ht, hgeo.trans htgeo⟩

end Sys2Proof.Machine

/-! PROOFS. Reset (spec/70_reset_and_hazards.md, 10_state.md section 2): what the registers read as, what a write to CTRL
does, and the invariant after power-on reset. -/

namespace Sys2Proof.Machine

/-! ### Reading the registers -/

theorem busRead_register {s : State} {a : Word} {r : Csr} (hb : s.status.busy = false) (h4 : a.toNat % 4 = 0)
    (hr : csrList[a.toNat / 4]? = some r) : (s.busRead a).response = some (.read (s.csrValue r) false) := by
  rw [busRead_idle hb, targetOf_register h4 hr]
  rfl

theorem u32_toNat {n : Nat} (x : BitVec n) : u32 x.toNat = x.setWidth 32 := BitVec.ofNat_toNat 32 x

/-- The fields of BS_WSTATE (10_state.md R43). -/
theorem bsWstate_fields (s : State) : (s.csrValue .bsWstate).extractLsb' 0 3 = s.writer.nb ∧
    (s.csrValue .bsWstate).extractLsb' 3 5 = 0 ∧ (s.csrValue .bsWstate).extractLsb' 8 8 = s.writer.acc ∧
    (s.csrValue .bsWstate).extractLsb' 16 16 = 0 := by
  have hnb := s.writer.nb.isLt
  have hacc := s.writer.acc.isLt
  unfold State.csrValue
  refine ⟨extractLsb'_u32 ?_, extractLsb'_u32 ?_, extractLsb'_u32 ?_, extractLsb'_u32 ?_⟩ <;> simp <;> omega

/-- Legal parameters fit the fields of PARAM0 (00_scope.md R7, 10_state.md R47). -/
theorem param0_bounds {c : Config} (h : c.wf = true) : c.maxDim < 2 ^ 16 ∧ c.dcMaxLen < 2 ^ 8 ∧ c.acMaxLen < 2 ^ 8 := by
  have hsizes := sizesFit_of_wf h
  simp only [Config.sizesFit, Bool.and_eq_true, decide_eq_true_eq, beq_iff_eq] at hsizes
  have hdc := (dcTable_good h).bound
  have hac := (acTable_good h).bound
  omega

/-- The fields of PARAM0 (10_state.md R47). -/
theorem param0_fields {s : State} (h : s.cfg.wf = true) :
    ((s.csrValue .param0).extractLsb' 0 16).toNat = s.cfg.maxDim ∧
    ((s.csrValue .param0).extractLsb' 16 8).toNat = s.cfg.dcMaxLen ∧
    ((s.csrValue .param0).extractLsb' 24 8).toNat = s.cfg.acMaxLen := by
  obtain ⟨hdim, hdc, hac⟩ := param0_bounds h
  simp only [State.csrValue, u32, BitVec.extractLsb'_toNat, BitVec.toNat_ofNat, Nat.shiftRight_eq_div_pow]
  omega

/-- Settles O6: each address names its register, whose value is listed. -/
theorem resetRegistersReadTheListedValues : Obligations.ResetRegistersReadTheListedValues := by
  unfold Obligations.ResetRegistersReadTheListedValues
  refine fun c => ⟨fun p hp => ?reset, rfl, rfl, rfl, fun s hcfg hb => ⟨fun p hp => ?idle, ?bsWstate, fun hwf => ?param0⟩⟩
  case reset =>
    simp only [List.mem_cons, List.not_mem_nil, or_false] at hp
    rcases hp with rfl | rfl | rfl | rfl | rfl | rfl | rfl | rfl | rfl | rfl | rfl | rfl | rfl | rfl | rfl | rfl | rfl |
      rfl | rfl | rfl | rfl <;> dsimp only <;> exact (busRead_register rfl rfl rfl).trans rfl
  case idle =>
    subst hcfg
    simp only [← u32_toNat, List.mem_cons, List.not_mem_nil, or_false] at hp
    rcases hp with rfl | rfl | rfl | rfl | rfl | rfl | rfl | rfl | rfl | rfl | rfl | rfl | rfl | rfl | rfl | rfl | rfl <;>
      dsimp only <;> exact (busRead_register hb rfl rfl).trans rfl
  case bsWstate => exact ⟨_, busRead_register hb rfl rfl, bsWstate_fields s⟩
  case param0 =>
    subst hcfg
    exact ⟨_, busRead_register hb rfl rfl, param0_fields hwf⟩

/-! ### CTRL -/

/-- The fields of CTRL as it reads (10_state.md R33). -/
theorem ctrlWord_fields (s : State) : s.ctrlWord.getLsbD 0 = s.ctrl.ieDone ∧ s.ctrlWord.getLsbD 1 = s.ctrl.ieErr ∧
    s.ctrlWord.extractLsb' 2 30 = 0 := by
  have h0 := s.ctrl.ieDone.toNat_lt
  have h1 := s.ctrl.ieErr.toNat_lt
  unfold State.ctrlWord
  refine ⟨getLsbD_u32 ?_ ?_, getLsbD_u32 ?_ ?_, extractLsb'_u32 ?_⟩ <;> simp <;> omega

/-- Settles O7: CTRL is open to reads and writes, BUSY = 1 or not, and bit 31 of a write chooses what it does. -/
theorem ctrlSetsEnablesOrSoftResets : Obligations.CtrlSetsEnablesOrSoftResets := by
  unfold Obligations.CtrlSetsEnablesOrSoftResets
  refine fun s rest => ⟨fun w hh hw => ?softReset, fun w hh hw => ?enables, fun hh => ?reads⟩
  case softReset =>
    rw [step_write_open hh (targetOf_word_ctrl _) (.inr rfl), State.writeAt, State.writeCsr, State.writeCtrl, if_pos hw]
    rfl
  case enables =>
    rw [step_write_open hh (targetOf_word_ctrl _) (.inr rfl), State.writeAt, State.writeCsr, State.writeCtrl, hw,
      if_neg Bool.false_ne_true]
    rfl
  case reads => exact ⟨s.ctrlWord, step_read_open hh (targetOf_word_ctrl _) (.inr rfl), ctrlWord_fields s⟩

/-! ### The invariant -/

/-- What memories, pointers and flags are after reset meets the invariant, whatever the parameters. -/
theorem inv_resetWith {c : Config} (h : c.wf = true) : (State.resetWith c).Inv where
  params := h
  rgbForm := rfl
  yccForm := rfl
  coefForm := rfl
  bsForm := rfl
  rgbSize := by simp [within, State.resetWith]
  yccSize := by simp [within, State.resetWith]
  coefSize := by simp [within, State.resetWith]
  bsSize := by simp [within, State.resetWith]
  wptrRange := Nat.zero_le _
  pendingBits := Nat.one_pos
  readerRange := Nat.zero_le _
  bsLenRange := Nat.zero_le _
  rleLenRange := Nat.zero_le _
  errIffCode := by simp [State.resetWith]
  codeRange := Nat.zero_le _
  infoOfErr := fun _ => rfl
  busyAlone := by simp [State.resetWith]
  doneOrErr := by simp [State.resetWith]

/-- Settles O8: the reference parameters meet their constraints. -/
theorem invHoldsAtReset : Obligations.InvHoldsAtReset := inv_resetWith reference_wf

end Sys2Proof.Machine
